-- ==== Sys2Proof/Word.lean ====
section
/-! DEFINITION. The widths of the machine (R6, R8): words, bytes and register numbers. -/

namespace Sys2Proof

/-- A 32-bit value: a register, an address, an instruction word (R6, decision D1). -/
abbrev Word := BitVec 32

/-- A 64-bit value: a double (R32), a product (R184). -/
abbrev DWord := BitVec 64

/-- One byte of memory (R42). -/
abbrev Byte := BitVec 8

/-- The number of a general register (R20). -/
abbrev RegNum := BitVec 5

/-- The number of a floating-point register (R28). -/
abbrev FRegNum := BitVec 5

/-- The number of a control register (R34). -/
abbrev CRegNum := BitVec 5

end Sys2Proof
end

