-- ==== Sys2Proof/Config.lean ====
section
/-! DEFINITION. What an implementation fixes: the parameters of R7 that the model takes as data (`Params`, a field of State:
log 1), and the free values, constants with no body that nothing in Lean can evaluate (log 7, 13 to 15). -/

namespace Sys2Proof.Config

/-! ## The free values -/

/-- The `n`th draw (R11): an arbitrary word. -/
opaque freeWord : Nat → Word

/-- The `n`th draw (R11): an arbitrary doubleword. -/
opaque freeDWord : Nat → DWord

/-- The `n`th draw of `sc` between success and failure (R78 item 5). -/
opaque freeBool : Nat → Bool

/-- R212: whether a NaN pattern of the given width is signalling, which the source does not distinguish (log 13). -/
opaque signallingNaN : (width : Nat) → (pattern : Nat) → Bool

/-- R213: whether tininess is judged after rounding (log 14). -/
opaque tininessAfterRounding : Bool

/-- R273, R277: whether `abs` and `neg` of a NaN signal IEEE invalid (log 15). -/
opaque absNegSignalInvalid : Bool

/-! ## The parameters of R7 -/

/-- `UNUSED_FIELDS` (R108, decision D6): what a word with a non-zero unused field means. -/
inductive UnusedFields where
  /-- The word has no meaning. -/
  | refuse
  /-- The bits are ignored and the row's rule runs. -/
  | ignore
deriving DecidableEq, Repr

/-- `UNMATCHED` (R110, decision D7): what a word that matches no row means. -/
inductive Unmatched where
  /-- It raises `RI`. -/
  | ri
  /-- It has no meaning. -/
  | refuse
deriving DecidableEq, Repr

/-- `INT_FIELDS` (R35, decision D29): which register holds the mask and which the pending lines at bits 15:8. -/
inductive IntFields where
  /-- Mask in Cause, pending in Status, as the source's figure prints them. -/
  | asPrinted
  /-- Mask in Status, pending in Cause. -/
  | mips32
deriving DecidableEq, Repr

/-- `CODE_WRITES` (R79, decision D23): what a fetch sees at an address that a store of this run has written. -/
inductive CodeWrites where
  /-- The fetch has no meaning. -/
  | refuse
  /-- The stored bytes. -/
  | coherent
deriving DecidableEq, Repr

/-- A set of the five IEEE 754 exceptions: those an operation signals, or `FP.traps`, those that raise `FPE` (R213). -/
structure FpExceptions where
  invalid : Bool := false
  divZero : Bool := false
  overflow : Bool := false
  underflow : Bool := false
  inexact : Bool := false
deriving DecidableEq, Repr

/-- A part of the complement of `MEM_POPULATED` (R67, log 19): no access of `width` bytes at one of the `size` addresses from `base` on
is answered. -/
structure BusHole where
  base : Nat
  size : Nat
  width : Nat
deriving DecidableEq, Repr

/-- The parameters of R7 that the model takes as data. Each default is R7's. -/
structure Params where
  /-- `BRANCH_DELAY` (R25, R386): false for 0, true for 1. -/
  branchDelay : Bool := false
  /-- `UNUSED_FIELDS` (R108). -/
  unusedFields : UnusedFields := .refuse
  /-- `UNMATCHED` (R110). -/
  unmatched : Unmatched := .ri
  /-- `ADMIT_NAMED_ONLY` (R113). -/
  admitNamedOnly : Bool := false
  /-- `EXT_CP0_RETURN` (R350, R357, R358). -/
  extCp0Return : Bool := false
  /-- `CR_BADVADDR` (R34). -/
  crBadVAddr : CRegNum := 8
  /-- `CR_STATUS` (R34). -/
  crStatus : CRegNum := 12
  /-- `CR_CAUSE` (R34). -/
  crCause : CRegNum := 13
  /-- `CR_EPC` (R34). -/
  crEpc : CRegNum := 14
  /-- `INT_FIELDS` (R35, R36). -/
  intFields : IntFields := .asPrinted
  /-- `EXC_VECTOR` (R351). -/
  excVector : Word := 0x80000180
  /-- `RESET_PC` (R380). -/
  resetPc : Word := 0xBFC00000
  /-- `MEM_POPULATED` (R67), as the list of the accesses that are not answered: by default every access is (log 19). -/
  holes : List BusHole := []
  /-- `USER_SEGMENT_CHECK` (R68). -/
  userSegmentCheck : Bool := false
  /-- `FP.traps` (R213). -/
  fpTraps : FpExceptions := {}
  /-- `SC_MAY_FAIL` (R78 item 5). -/
  scMayFail : Bool := true
  /-- `CODE_WRITES` (R79). -/
  codeWrites : CodeWrites := .refuse
  /-- `EXTERNAL_WRITERS` (R76). -/
  externalWriters : Bool := false
deriving DecidableEq, Repr

end Sys2Proof.Config
end

