-- ==== Sys2Proof/Machine/Float.lean ====
section
/-! DEFINITION. IEEE 754 arithmetic on bit patterns (R31 to R33, R210 to R213, R270): the default `FP` record. A pattern of a
format is a Nat; a result is exact, then rounded once to nearest even. What the spec leaves as a draw among NaNs, or among all
values, is said by `Out`; the draw itself is made where a register is written. Rounding, gradual underflow and the special cases
are the spec's (R210, R211); how IEEE 754 defines overflow, underflow and inexact, which R213 names, is log 14 and 16, and that
a signalling NaN operand signals invalid is log 36. -/

namespace Sys2Proof.Machine.Fp

open Sys2Proof.Config (FpExceptions)

/-- A format: the widths of Fraction and Exponent (R31, R32). -/
structure Format where
  fracBits : Nat
  expBits : Nat
deriving DecidableEq, Repr

/-- R31: single precision, Exponent 30:23, Fraction 22:0. -/
def single : Format := ⟨23, 8⟩

/-- R32: double precision, Exponent 62:52, Fraction 51:0. -/
def double : Format := ⟨52, 11⟩

/-- The width of a pattern. -/
def Format.width (f : Format) : Nat := 1 + f.expBits + f.fracBits

/-- R31: 127 or 1023. -/
def Format.bias (f : Format) : Nat := 2 ^ (f.expBits - 1) - 1

/-- R31: "S.P. MAX = 255, D.P. MAX = 2047". -/
def Format.maxExp (f : Format) : Nat := 2 ^ f.expBits - 1

/-- The exponent of the last bit of a denormal: denormals are multiples of 2 to this power (R33). -/
def Format.minQuantum (f : Format) : Int := 1 - (f.bias : Int) - (f.fracBits : Int)

/-- The field Fraction. -/
def Format.frac (f : Format) (x : Nat) : Nat := x % 2 ^ f.fracBits

/-- The field Exponent. -/
def Format.expField (f : Format) (x : Nat) : Nat := x / 2 ^ f.fracBits % 2 ^ f.expBits

/-- The field S. -/
def Format.sign (f : Format) (x : Nat) : Bool := x / 2 ^ (f.fracBits + f.expBits) % 2 == 1

/-- R33: the objects of "IEEE 754 Symbols". -/
inductive Class where
  | zero
  | denorm
  | number
  | infinity
  | nan
deriving DecidableEq, Repr

/-- R33: what object a pattern denotes. -/
def Format.classify (f : Format) (x : Nat) : Class :=
  if f.expField x = 0 then (if f.frac x = 0 then .zero else .denorm)
  else if f.expField x = f.maxExp then (if f.frac x = 0 then .infinity else .nan)
  else .number

/-- The pattern is a NaN. -/
def Format.isNaN (f : Format) (x : Nat) : Bool := decide (f.classify x = .nan)

/-- The value of a pattern: `num neg mant exp` is `(-1)^neg * mant * 2^exp`. -/
inductive Datum where
  | num (neg : Bool) (mant : Nat) (exp : Int)
  | inf (neg : Bool)
  | nan
deriving DecidableEq, Repr

/-- R31, R33: the value a pattern denotes. -/
def Format.unpack (f : Format) (x : Nat) : Datum :=
  match f.classify x with
  | .zero => .num (f.sign x) 0 f.minQuantum
  | .denorm => .num (f.sign x) (f.frac x) f.minQuantum
  | .number => .num (f.sign x) (2 ^ f.fracBits + f.frac x) (f.minQuantum + ((f.expField x : Int) - 1))
  | .infinity => .inf (f.sign x)
  | .nan => .nan

/-- The datum with its sign inverted. -/
def Datum.negate (d : Datum) : Datum :=
  match d with
  | .num n m e => .num (!n) m e
  | .inf n => .inf (!n)
  | .nan => .nan

/-- What an operation delivers: one pattern, or a draw among the NaNs of its format (R211), or a draw among all words (R270). -/
inductive Out where
  | bits (x : Nat)
  | anyNaN
  | anyWord
deriving DecidableEq, Repr

/-- An operation's result and the IEEE exceptions it signals (R213). -/
structure Result where
  out : Out
  signals : FpExceptions
deriving DecidableEq, Repr

/-- The sign bit of a pattern, in place. -/
def Format.signBit (f : Format) (neg : Bool) : Nat := if neg then 2 ^ (f.fracBits + f.expBits) else 0

/-- A zero of the given sign. -/
def Format.zero (f : Format) (neg : Bool) : Result := ⟨.bits (f.signBit neg), {}⟩

/-- An infinity of the given sign, no exception signalled. -/
def Format.infinity (f : Format) (neg : Bool) : Result := ⟨.bits (f.signBit neg + f.maxExp * 2 ^ f.fracBits), {}⟩

/-- R211: IEEE "invalid", the result a NaN. -/
def invalidNaN : Result := ⟨.anyNaN, { invalid := true }⟩

/-! ## Rounding -/

/-- `m / 2^k` rounded to nearest, ties to even. -/
def shiftNearest (m k : Nat) : Nat :=
  let q := m / 2 ^ k
  let r := m % 2 ^ k
  if 2 * r > 2 ^ k ∨ (2 * r = 2 ^ k ∧ q % 2 = 1) then q + 1 else q

/-- `m * 2^e` as a multiple of `2^q`, rounded to nearest even. -/
def toQuantum (m : Nat) (e q : Int) : Nat :=
  if q ≤ e then m * 2 ^ (e - q).toNat else shiftNearest m (q - e).toNat

/-- `m * 2^e` is not a multiple of `2^q`. -/
def losesBits (m : Nat) (e q : Int) : Bool := decide (e < q) && decide (m % 2 ^ (q - e).toNat ≠ 0)

/-- The value `m * 2^e` (`m > 0`) is tiny: below the least normal number, judged before or after rounding (log 14). -/
def Format.tiny (f : Format) (m : Nat) (e : Int) : Bool :=
  let top := e + (m.log2 : Int)
  let least := f.minQuantum + (f.fracBits : Int)
  if Config.tininessAfterRounding then
    decide (top < least) &&
      !(decide (top = least - 1) && decide (toQuantum m e (top - (f.fracBits : Int)) = 2 ^ (f.fracBits + 1)))
  else decide (top < least)

/-- R210: `(-1)^neg * m * 2^e` rounded to the nearest pattern of the format, ties to the even fraction; too large becomes
infinity; denormals are exact multiples of the least quantum. A pattern less its sign is the count of representable values below
it, so the rounded significand added to the exponent's offset is the pattern, carries included. -/
def Format.round (f : Format) (neg : Bool) (m : Nat) (e : Int) : Result :=
  if m = 0 then f.zero neg
  else
    let q := max (e + (m.log2 : Int) - (f.fracBits : Int)) f.minQuantum
    let mag := (q - f.minQuantum).toNat * 2 ^ f.fracBits + toQuantum m e q
    if mag < f.maxExp * 2 ^ f.fracBits then
      ⟨.bits (f.signBit neg + mag), { underflow := f.tiny m e, inexact := losesBits m e q }⟩
    else
      ⟨.bits (f.signBit neg + f.maxExp * 2 ^ f.fracBits), { overflow := true, inexact := true }⟩

/-! ## The operations -/

/-- R212: the pattern is a signalling NaN (log 13). -/
def Format.signalling (f : Format) (x : Nat) : Bool := f.isNaN x && Config.signallingNaN f.width x

/-- R211: an operation of two operands; any NaN operand gives a NaN. PRESUMED (log 36), no rule of the spec: a signalling NaN operand
of `+ - * /` signals invalid, as in IEEE 754. -/
def Format.binary (f : Format) (op : Datum → Datum → Result) (a b : Nat) : Result :=
  if f.isNaN a || f.isNaN b then ⟨.anyNaN, { invalid := f.signalling a || f.signalling b }⟩
  else op (f.unpack a) (f.unpack b)

/-- The signed integer `(-1)^neg * m`. -/
def signed (neg : Bool) (m : Nat) : Int := if neg then -(m : Int) else (m : Int)

/-- The sum of two values as a multiple of `2^e`, `e` the less of their exponents. -/
def alignedSum (n1 : Bool) (m1 : Nat) (e1 : Int) (n2 : Bool) (m2 : Nat) (e2 : Int) : Int :=
  signed n1 (m1 * 2 ^ (e1 - min e1 e2).toNat) + signed n2 (m2 * 2 ^ (e2 - min e1 e2).toNat)

/-- R211: `a + b` on values; an exact zero sum is `+0` unless both operands are negative. -/
def Format.addDatum (f : Format) (a b : Datum) : Result :=
  match a, b with
  | .inf n1, .inf n2 => if n1 = n2 then f.infinity n1 else invalidNaN
  | .inf n1, .num _ _ _ => f.infinity n1
  | .num _ _ _, .inf n2 => f.infinity n2
  | .num n1 m1 e1, .num n2 m2 e2 =>
    let sum := alignedSum n1 m1 e1 n2 m2 e2
    if sum = 0 then f.zero (n1 && n2) else f.round (decide (sum < 0)) sum.natAbs (min e1 e2)
  | _, _ => invalidNaN

/-- R211: `a * b` on values. -/
def Format.mulDatum (f : Format) (a b : Datum) : Result :=
  match a, b with
  | .inf n1, .inf n2 => f.infinity (n1 != n2)
  | .inf n1, .num n2 m2 _ => if m2 = 0 then invalidNaN else f.infinity (n1 != n2)
  | .num n1 m1 _, .inf n2 => if m1 = 0 then invalidNaN else f.infinity (n1 != n2)
  | .num n1 m1 e1, .num n2 m2 e2 => f.round (n1 != n2) (m1 * m2) (e1 + e2)
  | _, _ => invalidNaN

/-- The quotient of two finite non-zero values: enough bits for one rounding, and a last bit that says whether more follow. -/
def Format.divRound (f : Format) (neg : Bool) (m1 : Nat) (e1 : Int) (m2 : Nat) (e2 : Int) : Result :=
  let k := f.fracBits + 4 + m2.log2
  let q := m1 * 2 ^ k / m2
  let sticky := if m1 * 2 ^ k % m2 = 0 then 0 else 1
  f.round neg (2 * q + sticky) (e1 - e2 - (k : Int) - 1)

/-- R211: `a / b` on values. -/
def Format.divDatum (f : Format) (a b : Datum) : Result :=
  match a, b with
  | .inf _, .inf _ => invalidNaN
  | .inf n1, .num n2 _ _ => f.infinity (n1 != n2)
  | .num n1 _ _, .inf n2 => f.zero (n1 != n2)
  | .num n1 m1 e1, .num n2 m2 e2 =>
    if m2 = 0 then
      if m1 = 0 then invalidNaN else ⟨(f.infinity (n1 != n2)).out, { divZero := true }⟩
    else if m1 = 0 then f.zero (n1 != n2)
    else f.divRound (n1 != n2) m1 e1 m2 e2
  | _, _ => invalidNaN

/-- `FP.add_s`, `FP.add_d` (R210). -/
def Format.add (f : Format) (a b : Nat) : Result := f.binary f.addDatum a b

/-- `FP.sub_s`, `FP.sub_d` (R210): the sum with the second operand's sign inverted. -/
def Format.sub (f : Format) (a b : Nat) : Result := f.binary (fun x y => f.addDatum x y.negate) a b

/-- `FP.mul_s`, `FP.mul_d` (R210). -/
def Format.mul (f : Format) (a b : Nat) : Result := f.binary f.mulDatum a b

/-- `FP.div_s`, `FP.div_d` (R210). -/
def Format.div (f : Format) (a b : Nat) : Result := f.binary f.divDatum a b

/-- The bits of an integer square root below `2^k`, added to the root `r` found so far. -/
def sqrtBits (n : Nat) : Nat → Nat → Nat
  | 0, r => r
  | k + 1, r => sqrtBits n k (if (r + 2 ^ k) * (r + 2 ^ k) ≤ n then r + 2 ^ k else r)

/-- The integer square root of `n`. -/
def natSqrt (n : Nat) : Nat := sqrtBits n (n.log2 / 2 + 1) 0

/-- The square root of a finite positive value, as `divRound`. -/
def Format.sqrtRound (f : Format) (m : Nat) (e : Int) : Result :=
  let odd := e % 2 = 1
  let k := f.fracBits + 4
  let n := (if odd then 2 * m else m) * 2 ^ (2 * k)
  let r := natSqrt n
  let sticky := if r * r = n then 0 else 1
  f.round false (2 * r + sticky) ((if odd then e - 1 else e) / 2 - (k : Int) - 1)

/-- `FP.sqrt_s`, `FP.sqrt_d` (R270): `sqrt(-0) = -0`; a negative non-zero operand is invalid, minus infinity included (log 37).
PRESUMED (log 36), no rule of the spec: a signalling NaN operand signals invalid, as in IEEE 754. -/
def Format.sqrt (f : Format) (a : Nat) : Result :=
  match f.unpack a with
  | .nan => ⟨.anyNaN, { invalid := f.signalling a }⟩
  | .inf neg => if neg then invalidNaN else f.infinity false
  | .num neg m e =>
    if m = 0 then f.zero neg
    else if neg then invalidNaN
    else f.sqrtRound m e

/-- `FP.cvt_s_d`, `FP.cvt_d_s` (R270, R284, R285): the value of a pattern of `f` as a pattern of `g`, an infinity or a zero with its
sign (log 37). PRESUMED (log 36), no rule of the spec: a signalling NaN operand signals invalid, as in IEEE 754. -/
def Format.convert (f g : Format) (a : Nat) : Result :=
  match f.unpack a with
  | .nan => ⟨.anyNaN, { invalid := f.signalling a }⟩
  | .inf neg => g.infinity neg
  | .num neg m e => g.round neg m e

/-- R273, R274: the sign bit cleared; a NaN gives a NaN. -/
def Format.abs (f : Format) (a : Nat) : Result :=
  if f.isNaN a then ⟨.anyNaN, { invalid := Config.absNegSignalInvalid }⟩
  else ⟨.bits (a % 2 ^ (f.fracBits + f.expBits)), {}⟩

/-- R277, R278: the sign bit inverted; a NaN gives a NaN. -/
def Format.neg (f : Format) (a : Nat) : Result :=
  if f.isNaN a then ⟨.anyNaN, { invalid := Config.absNegSignalInvalid }⟩
  else ⟨.bits (f.signBit (!f.sign a) + a % 2 ^ (f.fracBits + f.expBits)), {}⟩

/-! ## Conversion to a word (R270) -/

/-- R270: the rounding modes of `FP.to_w_s`, `FP.to_w_d`. -/
inductive Mode where
  | nearestEven
  | towardZero
  | up
  | down
deriving DecidableEq, Repr

/-- The magnitude of `(-1)^neg * m * 2^e` rounded to an integer. -/
def Mode.roundMag (mode : Mode) (neg : Bool) (m : Nat) (e : Int) : Nat :=
  if 0 ≤ e then m * 2 ^ e.toNat
  else
    let k := (-e).toNat
    let q := m / 2 ^ k
    match mode with
    | .nearestEven => shiftNearest m k
    | .towardZero => q
    | .up => if m % 2 ^ k ≠ 0 ∧ neg = false then q + 1 else q
    | .down => if m % 2 ^ k ≠ 0 ∧ neg = true then q + 1 else q

/-- `FP.to_w_s`, `FP.to_w_d` (R270): a 32-bit two's complement word; a NaN, an infinity or an integer outside -2^31 .. 2^31 - 1
is invalid, and its result is a draw. -/
def Format.toWord (f : Format) (mode : Mode) (a : Nat) : Result :=
  match f.unpack a with
  | .num neg m e =>
    let v := signed neg (mode.roundMag neg m e)
    if -2 ^ 31 ≤ v ∧ v ≤ 2 ^ 31 - 1 then ⟨.bits (BitVec.ofInt 32 v).toNat, { inexact := losesBits m e 0 }⟩
    else ⟨.anyWord, { invalid := true }⟩
  | .inf _ => ⟨.anyWord, { invalid := true }⟩
  | .nan => ⟨.anyWord, { invalid := true }⟩

/-! ## Comparison (R212) -/

/-- R210: the four relations of a comparison. -/
inductive Relation where
  | less
  | equal
  | greater
  | unordered
deriving DecidableEq, Repr

/-- The relation that the sign of a difference tells. -/
def Relation.ofSign (d : Int) : Relation := if d < 0 then .less else if d = 0 then .equal else .greater

/-- `FP.cmp_s`, `FP.cmp_d` (R210, R212): the relation of the values; zeros are equal, infinities are the extended reals'. -/
def Format.cmp (f : Format) (a b : Nat) : Relation :=
  match f.unpack a, f.unpack b with
  | .nan, _ => .unordered
  | _, .nan => .unordered
  | .inf n1, .inf n2 => if n1 = n2 then .equal else if n1 then .less else .greater
  | .inf n1, .num _ _ _ => if n1 then .less else .greater
  | .num _ _ _, .inf n2 => if n2 then .greater else .less
  | .num n1 m1 e1, .num n2 m2 e2 => Relation.ofSign (alignedSum n1 m1 e1 (!n2) m2 e2)

/-! ## From `Out` to a register, the draw with the number `n` filled in (log 7, 11, 12) -/

/-- A word made a NaN of single precision: itself where it is one. Every NaN is the image of some word. -/
def nanOfWord (w : Word) : Word := if single.isNaN w.toNat then w else w ||| 0x7F800001#32

/-- A doubleword made a NaN of double precision: itself where it is one. -/
def nanOfDWord (w : DWord) : DWord := if double.isNaN w.toNat then w else w ||| 0x7FF0000000000001#64

/-- A result as a word. -/
def Out.word (o : Out) (n : Nat) : Word :=
  match o with
  | .bits x => BitVec.ofNat 32 x
  | .anyNaN => nanOfWord (Config.freeWord n)
  | .anyWord => Config.freeWord n

/-- A result as a doubleword. -/
def Out.dword (o : Out) (n : Nat) : DWord :=
  match o with
  | .bits x => BitVec.ofNat 64 x
  | .anyNaN => nanOfDWord (Config.freeDWord n)
  | .anyWord => Config.freeDWord n

/-- How many draws a result uses. -/
def Out.drawCount (o : Out) : Nat :=
  match o with
  | .bits _ => 0
  | .anyNaN => 1
  | .anyWord => 1

end Sys2Proof.Machine.Fp
end

