-- ==== Sys2Proof/Machine/Flags.lean ====
section
/-! DEFINITION. The flag computations of the spec: signed overflow (R149), the sixteen predicates that set `FPcond` (R323) with
the invalid exception they signal (R212), and when a signalled IEEE exception traps (R213). The integer instructions write no
flag (R43). -/

namespace Sys2Proof.Machine

open Sys2Proof.Config (FpExceptions)

/-- `ovf_add(a, b)` (R11, R149). -/
def ovfAdd (a b : Word) : Bool := decide (a.toInt + b.toInt < -2 ^ 31) || decide (2 ^ 31 - 1 < a.toInt + b.toInt)

/-- `ovf_sub(a, b)` (R11, R149). -/
def ovfSub (a b : Word) : Bool := decide (a.toInt - b.toInt < -2 ^ 31) || decide (2 ^ 31 - 1 < a.toInt - b.toInt)

/-- The 32-bit 1 or 0 of "? 1 : 0" (R140, R165). -/
def boolWord (b : Bool) : Word := if b then 1 else 0

/-- R323: the predicate that the low four bits of a compare's funct select: bit 0 adds unordered to the true set, bit 1 equal,
bit 2 less. -/
def fpCondition (cond : BitVec 4) (r : Fp.Relation) : Bool :=
  match r with
  | .unordered => cond.getLsbD 0
  | .equal => cond.getLsbD 1
  | .less => cond.getLsbD 2
  | .greater => false

/-- R212, R323: what a compare signals: invalid when the operands are unordered and either bit 3 of `cond` makes the compare
signalling or an operand is a signalling NaN. R212 says the latter of `c.eq` alone; of the other quiet compares it is PRESUMED
(log 36). -/
def compareSignals (f : Fp.Format) (cond : BitVec 4) (a b : Nat) : FpExceptions :=
  { invalid := decide (f.cmp a b = .unordered) && (cond.getLsbD 3 || f.signalling a || f.signalling b) }

/-- R213: an exception that the operation signals is one of `FP.traps`. -/
def fpTraps (traps signals : FpExceptions) : Bool :=
  (traps.invalid && signals.invalid) || (traps.divZero && signals.divZero) || (traps.overflow && signals.overflow) ||
    (traps.underflow && signals.underflow) || (traps.inexact && signals.inexact)

end Sys2Proof.Machine
end

