-- ==== Sys2Proof/Syntax.lean ====
section
/-! DEFINITION. The instructions: one constructor of `Instr` per row of `spec/opcode_table.json`, in the table's
order. A constructor's arguments are the fields the row uses, in the assembler's operand order (R114); a field the row does
not use (R108) is no argument. -/

namespace Sys2Proof

/-- The 144 instructions of `spec/opcode_table.json` (R109). -/
inductive Instr where
  /-- `add` (R130, format R, tier 1) -/
  | add (rd rs rt : RegNum)
  /-- `addi` (R131, format I, tier 1) -/
  | addi (rt rs : RegNum) (imm : BitVec 16)
  /-- `addiu` (R132, format I, tier 1) -/
  | addiu (rt rs : RegNum) (imm : BitVec 16)
  /-- `addu` (R133, format R, tier 1) -/
  | addu (rd rs rt : RegNum)
  /-- `and` (R134, format R, tier 1) -/
  | and (rd rs rt : RegNum)
  /-- `andi` (R135, format I, tier 1) -/
  | andi (rt rs : RegNum) (imm : BitVec 16)
  /-- `lui` (R136, format I, tier 1) -/
  | lui (rt : RegNum) (imm : BitVec 16)
  /-- `nor` (R137, format R, tier 1) -/
  | nor (rd rs rt : RegNum)
  /-- `or` (R138, format R, tier 1) -/
  | or (rd rs rt : RegNum)
  /-- `ori` (R139, format I, tier 1) -/
  | ori (rt rs : RegNum) (imm : BitVec 16)
  /-- `slt` (R140, format R, tier 1) -/
  | slt (rd rs rt : RegNum)
  /-- `slti` (R141, format I, tier 1) -/
  | slti (rt rs : RegNum) (imm : BitVec 16)
  /-- `sltiu` (R142, format I, tier 1) -/
  | sltiu (rt rs : RegNum) (imm : BitVec 16)
  /-- `sltu` (R143, format R, tier 1) -/
  | sltu (rd rs rt : RegNum)
  /-- `sll` (R144, format R, tier 1) -/
  | sll (rd rt : RegNum) (shamt : BitVec 5)
  /-- `srl` (R145, format R, tier 1) -/
  | srl (rd rt : RegNum) (shamt : BitVec 5)
  /-- `sub` (R146, format R, tier 1) -/
  | sub (rd rs rt : RegNum)
  /-- `subu` (R147, format R, tier 1) -/
  | subu (rd rs rt : RegNum)
  /-- `beq` (R150, format I, tier 1) -/
  | beq (rs rt : RegNum) (imm : BitVec 16)
  /-- `bne` (R151, format I, tier 1) -/
  | bne (rs rt : RegNum) (imm : BitVec 16)
  /-- `j` (R152, format J, tier 1) -/
  | j (addr : BitVec 26)
  /-- `jal` (R153, format J, tier 1) -/
  | jal (addr : BitVec 26)
  /-- `jr` (R154, format R, tier 1) -/
  | jr (rs : RegNum)
  /-- `lbu` (R160, format I, tier 1) -/
  | lbu (rt rs : RegNum) (imm : BitVec 16)
  /-- `lhu` (R161, format I, tier 1) -/
  | lhu (rt rs : RegNum) (imm : BitVec 16)
  /-- `ll` (R162, format I, tier 1) -/
  | ll (rt rs : RegNum) (imm : BitVec 16)
  /-- `lw` (R163, format I, tier 1) -/
  | lw (rt rs : RegNum) (imm : BitVec 16)
  /-- `sb` (R164, format I, tier 1) -/
  | sb (rt rs : RegNum) (imm : BitVec 16)
  /-- `sc` (R165, format I, tier 1) -/
  | sc (rt rs : RegNum) (imm : BitVec 16)
  /-- `sh` (R166, format I, tier 1) -/
  | sh (rt rs : RegNum) (imm : BitVec 16)
  /-- `sw` (R167, format I, tier 1) -/
  | sw (rt rs : RegNum) (imm : BitVec 16)
  /-- `div` (R175, format R, tier 1) -/
  | div (rs rt : RegNum)
  /-- `divu` (R176, format R, tier 1) -/
  | divu (rs rt : RegNum)
  /-- `mfhi` (R177, format R, tier 1) -/
  | mfhi (rd : RegNum)
  /-- `mflo` (R178, format R, tier 1) -/
  | mflo (rd : RegNum)
  /-- `mfc0` (R179, format R, tier 1) -/
  | mfc0 (rt : RegNum) (rd : CRegNum)
  /-- `mult` (R180, format R, tier 1) -/
  | mult (rs rt : RegNum)
  /-- `multu` (R181, format R, tier 1) -/
  | multu (rs rt : RegNum)
  /-- `sra` (R182, format R, tier 1) -/
  | sra (rd rt : RegNum) (shamt : BitVec 5)
  /-- `bc1t` (R190, format FI, tier 1) -/
  | bc1t (imm : BitVec 16)
  /-- `bc1f` (R191, format FI, tier 1) -/
  | bc1f (imm : BitVec 16)
  /-- `add.s` (R192, format FR, tier 1) -/
  | addS (fd fs ft : FRegNum)
  /-- `add.d` (R193, format FR, tier 1) -/
  | addD (fd fs ft : FRegNum)
  /-- `c.eq.s` (R194, format FR, tier 1) -/
  | cEqS (fs ft : FRegNum)
  /-- `c.lt.s` (R195, format FR, tier 1) -/
  | cLtS (fs ft : FRegNum)
  /-- `c.le.s` (R196, format FR, tier 1) -/
  | cLeS (fs ft : FRegNum)
  /-- `c.eq.d` (R197, format FR, tier 1) -/
  | cEqD (fs ft : FRegNum)
  /-- `c.lt.d` (R198, format FR, tier 1) -/
  | cLtD (fs ft : FRegNum)
  /-- `c.le.d` (R199, format FR, tier 1) -/
  | cLeD (fs ft : FRegNum)
  /-- `div.s` (R200, format FR, tier 1) -/
  | divS (fd fs ft : FRegNum)
  /-- `div.d` (R201, format FR, tier 1) -/
  | divD (fd fs ft : FRegNum)
  /-- `mul.s` (R202, format FR, tier 1) -/
  | mulS (fd fs ft : FRegNum)
  /-- `mul.d` (R203, format FR, tier 1) -/
  | mulD (fd fs ft : FRegNum)
  /-- `sub.s` (R204, format FR, tier 1) -/
  | subS (fd fs ft : FRegNum)
  /-- `sub.d` (R205, format FR, tier 1) -/
  | subD (fd fs ft : FRegNum)
  /-- `lwc1` (R206, format I, tier 1) -/
  | lwc1 (rt : FRegNum) (rs : RegNum) (imm : BitVec 16)
  /-- `ldc1` (R207, format I, tier 1) -/
  | ldc1 (rt : FRegNum) (rs : RegNum) (imm : BitVec 16)
  /-- `swc1` (R208, format I, tier 1) -/
  | swc1 (rt : FRegNum) (rs : RegNum) (imm : BitVec 16)
  /-- `sdc1` (R209, format I, tier 1) -/
  | sdc1 (rt : FRegNum) (rs : RegNum) (imm : BitVec 16)
  /-- `blez` (R231, format I, tier 2) -/
  | blez (rs : RegNum) (imm : BitVec 16)
  /-- `bgtz` (R232, format I, tier 2) -/
  | bgtz (rs : RegNum) (imm : BitVec 16)
  /-- `xori` (R233, format I, tier 2) -/
  | xori (rt rs : RegNum) (imm : BitVec 16)
  /-- `lb` (R234, format I, tier 2) -/
  | lb (rt rs : RegNum) (imm : BitVec 16)
  /-- `lh` (R235, format I, tier 2) -/
  | lh (rt rs : RegNum) (imm : BitVec 16)
  /-- `sllv` (R236, format R, tier 2) -/
  | sllv (rd rt rs : RegNum)
  /-- `srlv` (R237, format R, tier 2) -/
  | srlv (rd rt rs : RegNum)
  /-- `srav` (R238, format R, tier 2) -/
  | srav (rd rt rs : RegNum)
  /-- `jalr` (R239, format R, tier 2) -/
  | jalr (rd rs : RegNum)
  /-- `xor` (R240, format R, tier 2) -/
  | xor (rd rs rt : RegNum)
  /-- `mthi` (R241, format R, tier 2) -/
  | mthi (rs : RegNum)
  /-- `mtlo` (R242, format R, tier 2) -/
  | mtlo (rs : RegNum)
  /-- `movz` (R243, format R, tier 2) -/
  | movz (rd rs rt : RegNum)
  /-- `movn` (R244, format R, tier 2) -/
  | movn (rd rs rt : RegNum)
  /-- `syscall` (R245, format R, tier 2) -/
  | syscall (code : BitVec 20)
  /-- `sync` (R246, format R, tier 2) -/
  | sync (stype : BitVec 5)
  /-- `break` (R247, format R, tier 2) -/
  | brk (code : BitVec 20)
  /-- `lwl` (R250, format I, tier 2) -/
  | lwl (rt rs : RegNum) (imm : BitVec 16)
  /-- `lwr` (R251, format I, tier 2) -/
  | lwr (rt rs : RegNum) (imm : BitVec 16)
  /-- `swl` (R252, format I, tier 2) -/
  | swl (rt rs : RegNum) (imm : BitVec 16)
  /-- `swr` (R253, format I, tier 2) -/
  | swr (rt rs : RegNum) (imm : BitVec 16)
  /-- `cache` (R254, format I, tier 2) -/
  | cache (op : BitVec 5) (rs : RegNum) (imm : BitVec 16)
  /-- `pref` (R255, format I, tier 2) -/
  | pref (hint : BitVec 5) (rs : RegNum) (imm : BitVec 16)
  /-- `tge` (R256, format R, tier 2) -/
  | tge (rs rt : RegNum) (tcode : BitVec 10)
  /-- `tgeu` (R257, format R, tier 2) -/
  | tgeu (rs rt : RegNum) (tcode : BitVec 10)
  /-- `tlt` (R258, format R, tier 2) -/
  | tlt (rs rt : RegNum) (tcode : BitVec 10)
  /-- `tltu` (R259, format R, tier 2) -/
  | tltu (rs rt : RegNum) (tcode : BitVec 10)
  /-- `teq` (R260, format R, tier 2) -/
  | teq (rs rt : RegNum) (tcode : BitVec 10)
  /-- `tne` (R261, format R, tier 2) -/
  | tne (rs rt : RegNum) (tcode : BitVec 10)
  /-- `lwc2` (R262, format I, tier 2) -/
  | lwc2 (rt : BitVec 5) (rs : RegNum) (imm : BitVec 16)
  /-- `ldc2` (R263, format I, tier 2) -/
  | ldc2 (rt : BitVec 5) (rs : RegNum) (imm : BitVec 16)
  /-- `swc2` (R264, format I, tier 2) -/
  | swc2 (rt : BitVec 5) (rs : RegNum) (imm : BitVec 16)
  /-- `sdc2` (R265, format I, tier 2) -/
  | sdc2 (rt : BitVec 5) (rs : RegNum) (imm : BitVec 16)
  /-- `sqrt.s` (R271, format FR, tier 2) -/
  | sqrtS (fd fs : FRegNum)
  /-- `sqrt.d` (R272, format FR, tier 2) -/
  | sqrtD (fd fs : FRegNum)
  /-- `abs.s` (R273, format FR, tier 2) -/
  | absS (fd fs : FRegNum)
  /-- `abs.d` (R274, format FR, tier 2) -/
  | absD (fd fs : FRegNum)
  /-- `mov.s` (R275, format FR, tier 2) -/
  | movS (fd fs : FRegNum)
  /-- `mov.d` (R276, format FR, tier 2) -/
  | movD (fd fs : FRegNum)
  /-- `neg.s` (R277, format FR, tier 2) -/
  | negS (fd fs : FRegNum)
  /-- `neg.d` (R278, format FR, tier 2) -/
  | negD (fd fs : FRegNum)
  /-- `movz.s` (R279, format FR, tier 2) -/
  | movzS (fd fs : FRegNum) (rt : RegNum)
  /-- `movz.d` (R280, format FR, tier 2) -/
  | movzD (fd fs : FRegNum) (rt : RegNum)
  /-- `movn.s` (R281, format FR, tier 2) -/
  | movnS (fd fs : FRegNum) (rt : RegNum)
  /-- `movn.d` (R282, format FR, tier 2) -/
  | movnD (fd fs : FRegNum) (rt : RegNum)
  /-- `cvt.s.s` (R283, format FR, tier 2) -/
  | cvtSS (fd fs : FRegNum)
  /-- `cvt.s.d` (R284, format FR, tier 2) -/
  | cvtSD (fd fs : FRegNum)
  /-- `cvt.d.s` (R285, format FR, tier 2) -/
  | cvtDS (fd fs : FRegNum)
  /-- `cvt.d.d` (R286, format FR, tier 2) -/
  | cvtDD (fd fs : FRegNum)
  /-- `cvt.w.s` (R287, format FR, tier 2) -/
  | cvtWS (fd fs : FRegNum)
  /-- `cvt.w.d` (R288, format FR, tier 2) -/
  | cvtWD (fd fs : FRegNum)
  /-- `round.w.s` (R289, format FR, tier 2) -/
  | roundWS (fd fs : FRegNum)
  /-- `round.w.d` (R290, format FR, tier 2) -/
  | roundWD (fd fs : FRegNum)
  /-- `trunc.w.s` (R291, format FR, tier 2) -/
  | truncWS (fd fs : FRegNum)
  /-- `trunc.w.d` (R292, format FR, tier 2) -/
  | truncWD (fd fs : FRegNum)
  /-- `ceil.w.s` (R293, format FR, tier 2) -/
  | ceilWS (fd fs : FRegNum)
  /-- `ceil.w.d` (R294, format FR, tier 2) -/
  | ceilWD (fd fs : FRegNum)
  /-- `floor.w.s` (R295, format FR, tier 2) -/
  | floorWS (fd fs : FRegNum)
  /-- `floor.w.d` (R296, format FR, tier 2) -/
  | floorWD (fd fs : FRegNum)
  /-- `c.f.s` (R297, format FR, tier 2) -/
  | cFS (fs ft : FRegNum)
  /-- `c.f.d` (R298, format FR, tier 2) -/
  | cFD (fs ft : FRegNum)
  /-- `c.un.s` (R299, format FR, tier 2) -/
  | cUnS (fs ft : FRegNum)
  /-- `c.un.d` (R300, format FR, tier 2) -/
  | cUnD (fs ft : FRegNum)
  /-- `c.ueq.s` (R301, format FR, tier 2) -/
  | cUeqS (fs ft : FRegNum)
  /-- `c.ueq.d` (R302, format FR, tier 2) -/
  | cUeqD (fs ft : FRegNum)
  /-- `c.olt.s` (R303, format FR, tier 2) -/
  | cOltS (fs ft : FRegNum)
  /-- `c.olt.d` (R304, format FR, tier 2) -/
  | cOltD (fs ft : FRegNum)
  /-- `c.ult.s` (R305, format FR, tier 2) -/
  | cUltS (fs ft : FRegNum)
  /-- `c.ult.d` (R306, format FR, tier 2) -/
  | cUltD (fs ft : FRegNum)
  /-- `c.ole.s` (R307, format FR, tier 2) -/
  | cOleS (fs ft : FRegNum)
  /-- `c.ole.d` (R308, format FR, tier 2) -/
  | cOleD (fs ft : FRegNum)
  /-- `c.ule.s` (R309, format FR, tier 2) -/
  | cUleS (fs ft : FRegNum)
  /-- `c.ule.d` (R310, format FR, tier 2) -/
  | cUleD (fs ft : FRegNum)
  /-- `c.sf.s` (R311, format FR, tier 2) -/
  | cSfS (fs ft : FRegNum)
  /-- `c.sf.d` (R312, format FR, tier 2) -/
  | cSfD (fs ft : FRegNum)
  /-- `c.ngle.s` (R313, format FR, tier 2) -/
  | cNgleS (fs ft : FRegNum)
  /-- `c.ngle.d` (R314, format FR, tier 2) -/
  | cNgleD (fs ft : FRegNum)
  /-- `c.seq.s` (R315, format FR, tier 2) -/
  | cSeqS (fs ft : FRegNum)
  /-- `c.seq.d` (R316, format FR, tier 2) -/
  | cSeqD (fs ft : FRegNum)
  /-- `c.ngl.s` (R317, format FR, tier 2) -/
  | cNglS (fs ft : FRegNum)
  /-- `c.ngl.d` (R318, format FR, tier 2) -/
  | cNglD (fs ft : FRegNum)
  /-- `c.nge.s` (R319, format FR, tier 2) -/
  | cNgeS (fs ft : FRegNum)
  /-- `c.nge.d` (R320, format FR, tier 2) -/
  | cNgeD (fs ft : FRegNum)
  /-- `c.ngt.s` (R321, format FR, tier 2) -/
  | cNgtS (fs ft : FRegNum)
  /-- `c.ngt.d` (R322, format FR, tier 2) -/
  | cNgtD (fs ft : FRegNum)
deriving DecidableEq, Repr

end Sys2Proof
end

