-- ==== Sys2Proof/Decode.lean ====
section
/-! DEFINITION. Decoding (R90 to R113): the fields of a word, the three columns of the opcode map, and what a word that is no
instruction is rejected as; then the encoder, written from the same encoding tables. -/

namespace Sys2Proof

/-! ## Fields (R91 to R95) -/

/-- Bits 31:26, `opcode`, of every format. -/
def opcodeOf (w : Word) : BitVec 6 := w.extractLsb' 26 6

/-- Bits 25:21: `rs` of formats R and I, `fmt` of formats FR and FI. -/
def rsOf (w : Word) : BitVec 5 := w.extractLsb' 21 5

/-- Bits 20:16: `rt` of formats R and I, `ft` of formats FR and FI. -/
def rtOf (w : Word) : BitVec 5 := w.extractLsb' 16 5

/-- Bits 15:11: `rd` of format R, `fs` of format FR. -/
def rdOf (w : Word) : BitVec 5 := w.extractLsb' 11 5

/-- Bits 10:6: `shamt` of format R, `fd` of format FR. -/
def shamtOf (w : Word) : BitVec 5 := w.extractLsb' 6 5

/-- Bits 25:21 under their name in formats FR and FI. -/
abbrev fmtOf (w : Word) : BitVec 5 := rsOf w

/-- Bits 20:16 under their name in formats FR and FI. -/
abbrev ftOf (w : Word) : BitVec 5 := rtOf w

/-- Bits 15:11 under their name in format FR. -/
abbrev fsOf (w : Word) : BitVec 5 := rdOf w

/-- Bits 10:6 under their name in format FR. -/
abbrev fdOf (w : Word) : BitVec 5 := shamtOf w

/-- Bits 5:0: `funct` of formats R and FR. -/
def functOf (w : Word) : BitVec 6 := w.extractLsb' 0 6

/-- Bits 15:0: `immediate` of formats I and FI. -/
def immOf (w : Word) : BitVec 16 := w.extractLsb' 0 16

/-- Bits 25:0: `address` of format J. -/
def addrOf (w : Word) : BitVec 26 := w.extractLsb' 0 26

/-- Bits 25:6: the `code` field of `syscall` and `break` (R245, R247). -/
def codeOf (w : Word) : BitVec 20 := w.extractLsb' 6 20

/-- Bits 15:6: the `code` field of the conditional traps (R249). -/
def trapCodeOf (w : Word) : BitVec 10 := w.extractLsb' 6 10

/-! ## Unused fields (R108): the bits of each field, to be zero where a row does not use it -/

/-- Bits 25:21. -/
def rsMask : Word := 0x03E00000#32

/-- Bits 20:16 (`rt`, and `ft` of format FR). -/
def rtMask : Word := 0x001F0000#32

/-- Bits 15:11. -/
def rdMask : Word := 0x0000F800#32

/-- Bits 10:6 (`shamt`, and `fd` of format FR). -/
def shamtMask : Word := 0x000007C0#32

/-- Bits 20:16 under their name in format FR. -/
abbrev ftMask : Word := rtMask

/-- Bits 10:6 under their name in format FR. -/
abbrev fdMask : Word := shamtMask

/-! ## The opcode map. Each table answers the row's instruction and the mask of the fields the row does not use. -/

/-- R104: the first funct column, opcode 0. A blank of the column answers none. -/
def decodeSpecial (w : Word) : Option (Instr × Word) :=
  match functOf w with
  | 0x00#6 => some (.sll (rdOf w) (rtOf w) (shamtOf w), rsMask)
  | 0x02#6 => some (.srl (rdOf w) (rtOf w) (shamtOf w), rsMask)
  | 0x03#6 => some (.sra (rdOf w) (rtOf w) (shamtOf w), rsMask)
  | 0x04#6 => some (.sllv (rdOf w) (rtOf w) (rsOf w), shamtMask)
  | 0x06#6 => some (.srlv (rdOf w) (rtOf w) (rsOf w), shamtMask)
  | 0x07#6 => some (.srav (rdOf w) (rtOf w) (rsOf w), shamtMask)
  | 0x08#6 => some (.jr (rsOf w), rtMask ||| rdMask ||| shamtMask)
  | 0x09#6 => some (.jalr (rdOf w) (rsOf w), rtMask ||| shamtMask)
  | 0x0a#6 => some (.movz (rdOf w) (rsOf w) (rtOf w), shamtMask)
  | 0x0b#6 => some (.movn (rdOf w) (rsOf w) (rtOf w), shamtMask)
  | 0x0c#6 => some (.syscall (codeOf w), 0#32)
  | 0x0d#6 => some (.brk (codeOf w), 0#32)
  | 0x0f#6 => some (.sync (shamtOf w), rsMask ||| rtMask ||| rdMask)
  | 0x10#6 => some (.mfhi (rdOf w), rsMask ||| rtMask ||| shamtMask)
  | 0x11#6 => some (.mthi (rsOf w), rtMask ||| rdMask ||| shamtMask)
  | 0x12#6 => some (.mflo (rdOf w), rsMask ||| rtMask ||| shamtMask)
  | 0x13#6 => some (.mtlo (rsOf w), rtMask ||| rdMask ||| shamtMask)
  | 0x18#6 => some (.mult (rsOf w) (rtOf w), rdMask ||| shamtMask)
  | 0x19#6 => some (.multu (rsOf w) (rtOf w), rdMask ||| shamtMask)
  | 0x1a#6 => some (.div (rsOf w) (rtOf w), rdMask ||| shamtMask)
  | 0x1b#6 => some (.divu (rsOf w) (rtOf w), rdMask ||| shamtMask)
  | 0x20#6 => some (.add (rdOf w) (rsOf w) (rtOf w), shamtMask)
  | 0x21#6 => some (.addu (rdOf w) (rsOf w) (rtOf w), shamtMask)
  | 0x22#6 => some (.sub (rdOf w) (rsOf w) (rtOf w), shamtMask)
  | 0x23#6 => some (.subu (rdOf w) (rsOf w) (rtOf w), shamtMask)
  | 0x24#6 => some (.and (rdOf w) (rsOf w) (rtOf w), shamtMask)
  | 0x25#6 => some (.or (rdOf w) (rsOf w) (rtOf w), shamtMask)
  | 0x26#6 => some (.xor (rdOf w) (rsOf w) (rtOf w), shamtMask)
  | 0x27#6 => some (.nor (rdOf w) (rsOf w) (rtOf w), shamtMask)
  | 0x2a#6 => some (.slt (rdOf w) (rsOf w) (rtOf w), shamtMask)
  | 0x2b#6 => some (.sltu (rdOf w) (rsOf w) (rtOf w), shamtMask)
  | 0x30#6 => some (.tge (rsOf w) (rtOf w) (trapCodeOf w), 0#32)
  | 0x31#6 => some (.tgeu (rsOf w) (rtOf w) (trapCodeOf w), 0#32)
  | 0x32#6 => some (.tlt (rsOf w) (rtOf w) (trapCodeOf w), 0#32)
  | 0x33#6 => some (.tltu (rsOf w) (rtOf w) (trapCodeOf w), 0#32)
  | 0x34#6 => some (.teq (rsOf w) (rtOf w) (trapCodeOf w), 0#32)
  | 0x36#6 => some (.tne (rsOf w) (rtOf w) (trapCodeOf w), 0#32)
  | _ => none

/-- R105 with fmt `0x10`: the second funct column, `f` = `s`. -/
def decodeSingle (w : Word) : Option (Instr × Word) :=
  match functOf w with
  | 0x00#6 => some (.addS (fdOf w) (fsOf w) (ftOf w), 0#32)
  | 0x01#6 => some (.subS (fdOf w) (fsOf w) (ftOf w), 0#32)
  | 0x02#6 => some (.mulS (fdOf w) (fsOf w) (ftOf w), 0#32)
  | 0x03#6 => some (.divS (fdOf w) (fsOf w) (ftOf w), 0#32)
  | 0x04#6 => some (.sqrtS (fdOf w) (fsOf w), ftMask)
  | 0x05#6 => some (.absS (fdOf w) (fsOf w), ftMask)
  | 0x06#6 => some (.movS (fdOf w) (fsOf w), ftMask)
  | 0x07#6 => some (.negS (fdOf w) (fsOf w), ftMask)
  | 0x0c#6 => some (.roundWS (fdOf w) (fsOf w), ftMask)
  | 0x0d#6 => some (.truncWS (fdOf w) (fsOf w), ftMask)
  | 0x0e#6 => some (.ceilWS (fdOf w) (fsOf w), ftMask)
  | 0x0f#6 => some (.floorWS (fdOf w) (fsOf w), ftMask)
  | 0x12#6 => some (.movzS (fdOf w) (fsOf w) (rtOf w), 0#32)
  | 0x13#6 => some (.movnS (fdOf w) (fsOf w) (rtOf w), 0#32)
  | 0x20#6 => some (.cvtSS (fdOf w) (fsOf w), ftMask)
  | 0x21#6 => some (.cvtDS (fdOf w) (fsOf w), ftMask)
  | 0x24#6 => some (.cvtWS (fdOf w) (fsOf w), ftMask)
  | 0x30#6 => some (.cFS (fsOf w) (ftOf w), fdMask)
  | 0x31#6 => some (.cUnS (fsOf w) (ftOf w), fdMask)
  | 0x32#6 => some (.cEqS (fsOf w) (ftOf w), fdMask)
  | 0x33#6 => some (.cUeqS (fsOf w) (ftOf w), fdMask)
  | 0x34#6 => some (.cOltS (fsOf w) (ftOf w), fdMask)
  | 0x35#6 => some (.cUltS (fsOf w) (ftOf w), fdMask)
  | 0x36#6 => some (.cOleS (fsOf w) (ftOf w), fdMask)
  | 0x37#6 => some (.cUleS (fsOf w) (ftOf w), fdMask)
  | 0x38#6 => some (.cSfS (fsOf w) (ftOf w), fdMask)
  | 0x39#6 => some (.cNgleS (fsOf w) (ftOf w), fdMask)
  | 0x3a#6 => some (.cSeqS (fsOf w) (ftOf w), fdMask)
  | 0x3b#6 => some (.cNglS (fsOf w) (ftOf w), fdMask)
  | 0x3c#6 => some (.cLtS (fsOf w) (ftOf w), fdMask)
  | 0x3d#6 => some (.cNgeS (fsOf w) (ftOf w), fdMask)
  | 0x3e#6 => some (.cLeS (fsOf w) (ftOf w), fdMask)
  | 0x3f#6 => some (.cNgtS (fsOf w) (ftOf w), fdMask)
  | _ => none

/-- R105 with fmt `0x11`: the second funct column, `f` = `d`. -/
def decodeDouble (w : Word) : Option (Instr × Word) :=
  match functOf w with
  | 0x00#6 => some (.addD (fdOf w) (fsOf w) (ftOf w), 0#32)
  | 0x01#6 => some (.subD (fdOf w) (fsOf w) (ftOf w), 0#32)
  | 0x02#6 => some (.mulD (fdOf w) (fsOf w) (ftOf w), 0#32)
  | 0x03#6 => some (.divD (fdOf w) (fsOf w) (ftOf w), 0#32)
  | 0x04#6 => some (.sqrtD (fdOf w) (fsOf w), ftMask)
  | 0x05#6 => some (.absD (fdOf w) (fsOf w), ftMask)
  | 0x06#6 => some (.movD (fdOf w) (fsOf w), ftMask)
  | 0x07#6 => some (.negD (fdOf w) (fsOf w), ftMask)
  | 0x0c#6 => some (.roundWD (fdOf w) (fsOf w), ftMask)
  | 0x0d#6 => some (.truncWD (fdOf w) (fsOf w), ftMask)
  | 0x0e#6 => some (.ceilWD (fdOf w) (fsOf w), ftMask)
  | 0x0f#6 => some (.floorWD (fdOf w) (fsOf w), ftMask)
  | 0x12#6 => some (.movzD (fdOf w) (fsOf w) (rtOf w), 0#32)
  | 0x13#6 => some (.movnD (fdOf w) (fsOf w) (rtOf w), 0#32)
  | 0x20#6 => some (.cvtSD (fdOf w) (fsOf w), ftMask)
  | 0x21#6 => some (.cvtDD (fdOf w) (fsOf w), ftMask)
  | 0x24#6 => some (.cvtWD (fdOf w) (fsOf w), ftMask)
  | 0x30#6 => some (.cFD (fsOf w) (ftOf w), fdMask)
  | 0x31#6 => some (.cUnD (fsOf w) (ftOf w), fdMask)
  | 0x32#6 => some (.cEqD (fsOf w) (ftOf w), fdMask)
  | 0x33#6 => some (.cUeqD (fsOf w) (ftOf w), fdMask)
  | 0x34#6 => some (.cOltD (fsOf w) (ftOf w), fdMask)
  | 0x35#6 => some (.cUltD (fsOf w) (ftOf w), fdMask)
  | 0x36#6 => some (.cOleD (fsOf w) (ftOf w), fdMask)
  | 0x37#6 => some (.cUleD (fsOf w) (ftOf w), fdMask)
  | 0x38#6 => some (.cSfD (fsOf w) (ftOf w), fdMask)
  | 0x39#6 => some (.cNgleD (fsOf w) (ftOf w), fdMask)
  | 0x3a#6 => some (.cSeqD (fsOf w) (ftOf w), fdMask)
  | 0x3b#6 => some (.cNglD (fsOf w) (ftOf w), fdMask)
  | 0x3c#6 => some (.cLtD (fsOf w) (ftOf w), fdMask)
  | 0x3d#6 => some (.cNgeD (fsOf w) (ftOf w), fdMask)
  | 0x3e#6 => some (.cLeD (fsOf w) (ftOf w), fdMask)
  | 0x3f#6 => some (.cNgtD (fsOf w) (ftOf w), fdMask)
  | _ => none

/-- R106: fmt `0x08`, the two branches on `FPcond`, told apart by ft. -/
def decodeFpBranch (w : Word) : Option (Instr × Word) :=
  match ftOf w with
  | 0x00#5 => some (.bc1f (immOf w), 0#32)
  | 0x01#5 => some (.bc1t (immOf w), 0#32)
  | _ => none

/-- R101: opcode `0x11`, by fmt. -/
def decodeCop1 (w : Word) : Option (Instr × Word) :=
  match fmtOf w with
  | 0x08#5 => decodeFpBranch w
  | 0x10#5 => decodeSingle w
  | 0x11#5 => decodeDouble w
  | _ => none

/-- R106: opcode `0x10`; `mfc0` is the one word form of it, bits 25:21 = 0 and funct 0. -/
def decodeCop0 (w : Word) : Option (Instr × Word) :=
  if rsOf w = 0x00#5 ∧ functOf w = 0x00#6 then some (.mfc0 (rtOf w) (rdOf w), shamtMask) else none

/-- R101, R103: the row of the opcode table a word matches, with the mask of the row's unused fields. -/
def decodeRow (w : Word) : Option (Instr × Word) :=
  match opcodeOf w with
  | 0x00#6 => decodeSpecial w
  | 0x10#6 => decodeCop0 w
  | 0x11#6 => decodeCop1 w
  | 0x02#6 => some (.j (addrOf w), 0#32)
  | 0x03#6 => some (.jal (addrOf w), 0#32)
  | 0x04#6 => some (.beq (rsOf w) (rtOf w) (immOf w), 0#32)
  | 0x05#6 => some (.bne (rsOf w) (rtOf w) (immOf w), 0#32)
  | 0x06#6 => some (.blez (rsOf w) (immOf w), rtMask)
  | 0x07#6 => some (.bgtz (rsOf w) (immOf w), rtMask)
  | 0x08#6 => some (.addi (rtOf w) (rsOf w) (immOf w), 0#32)
  | 0x09#6 => some (.addiu (rtOf w) (rsOf w) (immOf w), 0#32)
  | 0x0a#6 => some (.slti (rtOf w) (rsOf w) (immOf w), 0#32)
  | 0x0b#6 => some (.sltiu (rtOf w) (rsOf w) (immOf w), 0#32)
  | 0x0c#6 => some (.andi (rtOf w) (rsOf w) (immOf w), 0#32)
  | 0x0d#6 => some (.ori (rtOf w) (rsOf w) (immOf w), 0#32)
  | 0x0e#6 => some (.xori (rtOf w) (rsOf w) (immOf w), 0#32)
  | 0x0f#6 => some (.lui (rtOf w) (immOf w), rsMask)
  | 0x20#6 => some (.lb (rtOf w) (rsOf w) (immOf w), 0#32)
  | 0x21#6 => some (.lh (rtOf w) (rsOf w) (immOf w), 0#32)
  | 0x22#6 => some (.lwl (rtOf w) (rsOf w) (immOf w), 0#32)
  | 0x23#6 => some (.lw (rtOf w) (rsOf w) (immOf w), 0#32)
  | 0x24#6 => some (.lbu (rtOf w) (rsOf w) (immOf w), 0#32)
  | 0x25#6 => some (.lhu (rtOf w) (rsOf w) (immOf w), 0#32)
  | 0x26#6 => some (.lwr (rtOf w) (rsOf w) (immOf w), 0#32)
  | 0x28#6 => some (.sb (rtOf w) (rsOf w) (immOf w), 0#32)
  | 0x29#6 => some (.sh (rtOf w) (rsOf w) (immOf w), 0#32)
  | 0x2a#6 => some (.swl (rtOf w) (rsOf w) (immOf w), 0#32)
  | 0x2b#6 => some (.sw (rtOf w) (rsOf w) (immOf w), 0#32)
  | 0x2e#6 => some (.swr (rtOf w) (rsOf w) (immOf w), 0#32)
  | 0x2f#6 => some (.cache (rtOf w) (rsOf w) (immOf w), 0#32)
  | 0x30#6 => some (.ll (rtOf w) (rsOf w) (immOf w), 0#32)
  | 0x31#6 => some (.lwc1 (rtOf w) (rsOf w) (immOf w), 0#32)
  | 0x32#6 => some (.lwc2 (rtOf w) (rsOf w) (immOf w), 0#32)
  | 0x33#6 => some (.pref (rtOf w) (rsOf w) (immOf w), 0#32)
  | 0x35#6 => some (.ldc1 (rtOf w) (rsOf w) (immOf w), 0#32)
  | 0x36#6 => some (.ldc2 (rtOf w) (rsOf w) (immOf w), 0#32)
  | 0x38#6 => some (.sc (rtOf w) (rsOf w) (immOf w), 0#32)
  | 0x39#6 => some (.swc1 (rtOf w) (rsOf w) (immOf w), 0#32)
  | 0x3a#6 => some (.swc2 (rtOf w) (rsOf w) (immOf w), 0#32)
  | 0x3d#6 => some (.sdc1 (rtOf w) (rsOf w) (immOf w), 0#32)
  | 0x3e#6 => some (.sdc2 (rtOf w) (rsOf w) (immOf w), 0#32)
  | _ => none

/-- Why bytes are no instruction. -/
inductive Reject where
  /-- Fewer than four bytes: no word (R90). -/
  | tooShort
  /-- The word matches no row of the opcode table (R110, R111). -/
  | reserved
  /-- The word matches the row of this instruction, but a field the row does not use is not zero (R108). -/
  | unusedField (i : Instr)
  /-- The word matches the row of this instruction, but a double-precision operand is an odd register (R214). -/
  | oddRegister (i : Instr)
deriving DecidableEq, Repr

/-- R101: the instruction of a word, or why it is none. -/
def decodeWord (w : Word) : Except Reject Instr :=
  match decodeRow w with
  | none => .error .reserved
  | some (i, unused) =>
    if w &&& unused ≠ 0#32 then .error (.unusedField i)
    else if i.wellFormed then .ok i
    else .error (.oddRegister i)

/-- R61: the word that four bytes make, the byte at the lowest address the most significant. -/
def wordOfBytes (b0 b1 b2 b3 : Byte) : Word := b0 ++ b1 ++ b2 ++ b3

/-- R61: the byte of a word at byte offset `k` (0 to 3) of its address. -/
def byteOfWord (w : Word) (k : Nat) : Byte := w.extractLsb' (8 * (3 - k)) 8

/-- R61: the four bytes of a word in the order of their addresses. -/
def bytesOfWord (w : Word) : List Byte :=
  [byteOfWord w 0, byteOfWord w 1, byteOfWord w 2, byteOfWord w 3]

/-- Decoding of any bytes: the instruction at their start, or why there is none. -/
def decode (bytes : List Byte) : Except Reject Instr :=
  match bytes with
  | b0 :: b1 :: b2 :: b3 :: _ => decodeWord (wordOfBytes b0 b1 b2 b3)
  | _ => .error .tooShort

/-- The instruction read from a row's bits, numbered as `spec/opcode_table.json` numbers them (R8): the word `w`, its bits
above `nbits` zero, laid out in memory order and decoded. -/
def decodeTableWord (nbits w : Nat) : Option Instr :=
  match decode (bytesOfWord (BitVec.ofNat 32 (w % 2 ^ nbits))) with
  | .ok i => some i
  | .error _ => none

/-- R13, R113: the instruction is tier 2, named by the opcode map and given no operation by the source. -/
def Instr.namedOnly (i : Instr) : Bool :=
  match i with
  | .add _ _ _ => false
  | .addi _ _ _ => false
  | .addiu _ _ _ => false
  | .addu _ _ _ => false
  | .and _ _ _ => false
  | .andi _ _ _ => false
  | .lui _ _ => false
  | .nor _ _ _ => false
  | .or _ _ _ => false
  | .ori _ _ _ => false
  | .slt _ _ _ => false
  | .slti _ _ _ => false
  | .sltiu _ _ _ => false
  | .sltu _ _ _ => false
  | .sll _ _ _ => false
  | .srl _ _ _ => false
  | .sub _ _ _ => false
  | .subu _ _ _ => false
  | .beq _ _ _ => false
  | .bne _ _ _ => false
  | .j _ => false
  | .jal _ => false
  | .jr _ => false
  | .lbu _ _ _ => false
  | .lhu _ _ _ => false
  | .ll _ _ _ => false
  | .lw _ _ _ => false
  | .sb _ _ _ => false
  | .sc _ _ _ => false
  | .sh _ _ _ => false
  | .sw _ _ _ => false
  | .div _ _ => false
  | .divu _ _ => false
  | .mfhi _ => false
  | .mflo _ => false
  | .mfc0 _ _ => false
  | .mult _ _ => false
  | .multu _ _ => false
  | .sra _ _ _ => false
  | .bc1t _ => false
  | .bc1f _ => false
  | .addS _ _ _ => false
  | .addD _ _ _ => false
  | .cEqS _ _ => false
  | .cLtS _ _ => false
  | .cLeS _ _ => false
  | .cEqD _ _ => false
  | .cLtD _ _ => false
  | .cLeD _ _ => false
  | .divS _ _ _ => false
  | .divD _ _ _ => false
  | .mulS _ _ _ => false
  | .mulD _ _ _ => false
  | .subS _ _ _ => false
  | .subD _ _ _ => false
  | .lwc1 _ _ _ => false
  | .ldc1 _ _ _ => false
  | .swc1 _ _ _ => false
  | .sdc1 _ _ _ => false
  | .blez _ _ => true
  | .bgtz _ _ => true
  | .xori _ _ _ => true
  | .lb _ _ _ => true
  | .lh _ _ _ => true
  | .sllv _ _ _ => true
  | .srlv _ _ _ => true
  | .srav _ _ _ => true
  | .jalr _ _ => true
  | .xor _ _ _ => true
  | .mthi _ => true
  | .mtlo _ => true
  | .movz _ _ _ => true
  | .movn _ _ _ => true
  | .syscall _ => true
  | .sync _ => true
  | .brk _ => true
  | .lwl _ _ _ => true
  | .lwr _ _ _ => true
  | .swl _ _ _ => true
  | .swr _ _ _ => true
  | .cache _ _ _ => true
  | .pref _ _ _ => true
  | .tge _ _ _ => true
  | .tgeu _ _ _ => true
  | .tlt _ _ _ => true
  | .tltu _ _ _ => true
  | .teq _ _ _ => true
  | .tne _ _ _ => true
  | .lwc2 _ _ _ => true
  | .ldc2 _ _ _ => true
  | .swc2 _ _ _ => true
  | .sdc2 _ _ _ => true
  | .sqrtS _ _ => true
  | .sqrtD _ _ => true
  | .absS _ _ => true
  | .absD _ _ => true
  | .movS _ _ => true
  | .movD _ _ => true
  | .negS _ _ => true
  | .negD _ _ => true
  | .movzS _ _ _ => true
  | .movzD _ _ _ => true
  | .movnS _ _ _ => true
  | .movnD _ _ _ => true
  | .cvtSS _ _ => true
  | .cvtSD _ _ => true
  | .cvtDS _ _ => true
  | .cvtDD _ _ => true
  | .cvtWS _ _ => true
  | .cvtWD _ _ => true
  | .roundWS _ _ => true
  | .roundWD _ _ => true
  | .truncWS _ _ => true
  | .truncWD _ _ => true
  | .ceilWS _ _ => true
  | .ceilWD _ _ => true
  | .floorWS _ _ => true
  | .floorWD _ _ => true
  | .cFS _ _ => true
  | .cFD _ _ => true
  | .cUnS _ _ => true
  | .cUnD _ _ => true
  | .cUeqS _ _ => true
  | .cUeqD _ _ => true
  | .cOltS _ _ => true
  | .cOltD _ _ => true
  | .cUltS _ _ => true
  | .cUltD _ _ => true
  | .cOleS _ _ => true
  | .cOleD _ _ => true
  | .cUleS _ _ => true
  | .cUleD _ _ => true
  | .cSfS _ _ => true
  | .cSfD _ _ => true
  | .cNgleS _ _ => true
  | .cNgleD _ _ => true
  | .cSeqS _ _ => true
  | .cSeqD _ _ => true
  | .cNglS _ _ => true
  | .cNglD _ _ => true
  | .cNgeS _ _ => true
  | .cNgeD _ _ => true
  | .cNgtS _ _ => true
  | .cNgtD _ _ => true

/-! ## The extension of R357 and R358, whose two words match no row of the table -/

/-- The two instructions of the extension `EXT_CP0_RETURN`. -/
inductive ExtInstr where
  /-- R357: Move To Control, `CR[rd] <- R[rt]`. -/
  | mtc0 (rt : RegNum) (rd : CRegNum)
  /-- R358: Exception Return. -/
  | eret
deriving DecidableEq, Repr

/-- R357, R358: the extension instruction of a word: `mtc0` by match `0x40800000`, mask `0xFFE007FF`; `eret` the one word
`0x42000018`. -/
def decodeExt (w : Word) : Option ExtInstr :=
  if w &&& 0xFFE007FF#32 = 0x40800000#32 then some (.mtc0 (rtOf w) (rdOf w))
  else if w = 0x42000018#32 then some .eret
  else none

/-! ## The encoder -/

/-- R91, R94: a word of format R (or FR, whose fields stand in the same places) from its six fields. -/
def encR (op : BitVec 6) (rs rt rd shamt : BitVec 5) (funct : BitVec 6) : Word :=
  op ++ rs ++ rt ++ rd ++ shamt ++ funct

/-- R92, R95: a word of format I (or FI). -/
def encI (op : BitVec 6) (rs rt : BitVec 5) (imm : BitVec 16) : Word := op ++ rs ++ rt ++ imm

/-- R93: a word of format J. -/
def encJ (op : BitVec 6) (addr : BitVec 26) : Word := op ++ addr

/-- R245, R247: a word of opcode 0 whose bits 25:6 are a `code` field. -/
def encCode (code : BitVec 20) (funct : BitVec 6) : Word := 0x00#6 ++ code ++ funct

/-- R249: a word of opcode 0 whose bits 15:6 are a `code` field. -/
def encTrap (rs rt : BitVec 5) (code : BitVec 10) (funct : BitVec 6) : Word :=
  0x00#6 ++ rs ++ rt ++ code ++ funct

/-- The word of an instruction (R103 to R107), its unused fields zero (R108). -/
def encode (i : Instr) : Word :=
  match i with
  | .add rd rs rt => encR 0x00#6 rs rt rd 0#5 0x20#6
  | .addi rt rs imm => encI 0x08#6 rs rt imm
  | .addiu rt rs imm => encI 0x09#6 rs rt imm
  | .addu rd rs rt => encR 0x00#6 rs rt rd 0#5 0x21#6
  | .and rd rs rt => encR 0x00#6 rs rt rd 0#5 0x24#6
  | .andi rt rs imm => encI 0x0c#6 rs rt imm
  | .lui rt imm => encI 0x0f#6 0#5 rt imm
  | .nor rd rs rt => encR 0x00#6 rs rt rd 0#5 0x27#6
  | .or rd rs rt => encR 0x00#6 rs rt rd 0#5 0x25#6
  | .ori rt rs imm => encI 0x0d#6 rs rt imm
  | .slt rd rs rt => encR 0x00#6 rs rt rd 0#5 0x2a#6
  | .slti rt rs imm => encI 0x0a#6 rs rt imm
  | .sltiu rt rs imm => encI 0x0b#6 rs rt imm
  | .sltu rd rs rt => encR 0x00#6 rs rt rd 0#5 0x2b#6
  | .sll rd rt shamt => encR 0x00#6 0#5 rt rd shamt 0x00#6
  | .srl rd rt shamt => encR 0x00#6 0#5 rt rd shamt 0x02#6
  | .sub rd rs rt => encR 0x00#6 rs rt rd 0#5 0x22#6
  | .subu rd rs rt => encR 0x00#6 rs rt rd 0#5 0x23#6
  | .beq rs rt imm => encI 0x04#6 rs rt imm
  | .bne rs rt imm => encI 0x05#6 rs rt imm
  | .j addr => encJ 0x02#6 addr
  | .jal addr => encJ 0x03#6 addr
  | .jr rs => encR 0x00#6 rs 0#5 0#5 0#5 0x08#6
  | .lbu rt rs imm => encI 0x24#6 rs rt imm
  | .lhu rt rs imm => encI 0x25#6 rs rt imm
  | .ll rt rs imm => encI 0x30#6 rs rt imm
  | .lw rt rs imm => encI 0x23#6 rs rt imm
  | .sb rt rs imm => encI 0x28#6 rs rt imm
  | .sc rt rs imm => encI 0x38#6 rs rt imm
  | .sh rt rs imm => encI 0x29#6 rs rt imm
  | .sw rt rs imm => encI 0x2b#6 rs rt imm
  | .div rs rt => encR 0x00#6 rs rt 0#5 0#5 0x1a#6
  | .divu rs rt => encR 0x00#6 rs rt 0#5 0#5 0x1b#6
  | .mfhi rd => encR 0x00#6 0#5 0#5 rd 0#5 0x10#6
  | .mflo rd => encR 0x00#6 0#5 0#5 rd 0#5 0x12#6
  | .mfc0 rt rd => encR 0x10#6 0x00#5 rt rd 0#5 0x00#6
  | .mult rs rt => encR 0x00#6 rs rt 0#5 0#5 0x18#6
  | .multu rs rt => encR 0x00#6 rs rt 0#5 0#5 0x19#6
  | .sra rd rt shamt => encR 0x00#6 0#5 rt rd shamt 0x03#6
  | .bc1t imm => encI 0x11#6 0x08#5 0x01#5 imm
  | .bc1f imm => encI 0x11#6 0x08#5 0x00#5 imm
  | .addS fd fs ft => encR 0x11#6 0x10#5 ft fs fd 0x00#6
  | .addD fd fs ft => encR 0x11#6 0x11#5 ft fs fd 0x00#6
  | .cEqS fs ft => encR 0x11#6 0x10#5 ft fs 0#5 0x32#6
  | .cLtS fs ft => encR 0x11#6 0x10#5 ft fs 0#5 0x3c#6
  | .cLeS fs ft => encR 0x11#6 0x10#5 ft fs 0#5 0x3e#6
  | .cEqD fs ft => encR 0x11#6 0x11#5 ft fs 0#5 0x32#6
  | .cLtD fs ft => encR 0x11#6 0x11#5 ft fs 0#5 0x3c#6
  | .cLeD fs ft => encR 0x11#6 0x11#5 ft fs 0#5 0x3e#6
  | .divS fd fs ft => encR 0x11#6 0x10#5 ft fs fd 0x03#6
  | .divD fd fs ft => encR 0x11#6 0x11#5 ft fs fd 0x03#6
  | .mulS fd fs ft => encR 0x11#6 0x10#5 ft fs fd 0x02#6
  | .mulD fd fs ft => encR 0x11#6 0x11#5 ft fs fd 0x02#6
  | .subS fd fs ft => encR 0x11#6 0x10#5 ft fs fd 0x01#6
  | .subD fd fs ft => encR 0x11#6 0x11#5 ft fs fd 0x01#6
  | .lwc1 rt rs imm => encI 0x31#6 rs rt imm
  | .ldc1 rt rs imm => encI 0x35#6 rs rt imm
  | .swc1 rt rs imm => encI 0x39#6 rs rt imm
  | .sdc1 rt rs imm => encI 0x3d#6 rs rt imm
  | .blez rs imm => encI 0x06#6 rs 0#5 imm
  | .bgtz rs imm => encI 0x07#6 rs 0#5 imm
  | .xori rt rs imm => encI 0x0e#6 rs rt imm
  | .lb rt rs imm => encI 0x20#6 rs rt imm
  | .lh rt rs imm => encI 0x21#6 rs rt imm
  | .sllv rd rt rs => encR 0x00#6 rs rt rd 0#5 0x04#6
  | .srlv rd rt rs => encR 0x00#6 rs rt rd 0#5 0x06#6
  | .srav rd rt rs => encR 0x00#6 rs rt rd 0#5 0x07#6
  | .jalr rd rs => encR 0x00#6 rs 0#5 rd 0#5 0x09#6
  | .xor rd rs rt => encR 0x00#6 rs rt rd 0#5 0x26#6
  | .mthi rs => encR 0x00#6 rs 0#5 0#5 0#5 0x11#6
  | .mtlo rs => encR 0x00#6 rs 0#5 0#5 0#5 0x13#6
  | .movz rd rs rt => encR 0x00#6 rs rt rd 0#5 0x0a#6
  | .movn rd rs rt => encR 0x00#6 rs rt rd 0#5 0x0b#6
  | .syscall code => encCode code 0x0c#6
  | .sync stype => encR 0x00#6 0#5 0#5 0#5 stype 0x0f#6
  | .brk code => encCode code 0x0d#6
  | .lwl rt rs imm => encI 0x22#6 rs rt imm
  | .lwr rt rs imm => encI 0x26#6 rs rt imm
  | .swl rt rs imm => encI 0x2a#6 rs rt imm
  | .swr rt rs imm => encI 0x2e#6 rs rt imm
  | .cache op rs imm => encI 0x2f#6 rs op imm
  | .pref hint rs imm => encI 0x33#6 rs hint imm
  | .tge rs rt tcode => encTrap rs rt tcode 0x30#6
  | .tgeu rs rt tcode => encTrap rs rt tcode 0x31#6
  | .tlt rs rt tcode => encTrap rs rt tcode 0x32#6
  | .tltu rs rt tcode => encTrap rs rt tcode 0x33#6
  | .teq rs rt tcode => encTrap rs rt tcode 0x34#6
  | .tne rs rt tcode => encTrap rs rt tcode 0x36#6
  | .lwc2 rt rs imm => encI 0x32#6 rs rt imm
  | .ldc2 rt rs imm => encI 0x36#6 rs rt imm
  | .swc2 rt rs imm => encI 0x3a#6 rs rt imm
  | .sdc2 rt rs imm => encI 0x3e#6 rs rt imm
  | .sqrtS fd fs => encR 0x11#6 0x10#5 0#5 fs fd 0x04#6
  | .sqrtD fd fs => encR 0x11#6 0x11#5 0#5 fs fd 0x04#6
  | .absS fd fs => encR 0x11#6 0x10#5 0#5 fs fd 0x05#6
  | .absD fd fs => encR 0x11#6 0x11#5 0#5 fs fd 0x05#6
  | .movS fd fs => encR 0x11#6 0x10#5 0#5 fs fd 0x06#6
  | .movD fd fs => encR 0x11#6 0x11#5 0#5 fs fd 0x06#6
  | .negS fd fs => encR 0x11#6 0x10#5 0#5 fs fd 0x07#6
  | .negD fd fs => encR 0x11#6 0x11#5 0#5 fs fd 0x07#6
  | .movzS fd fs rt => encR 0x11#6 0x10#5 rt fs fd 0x12#6
  | .movzD fd fs rt => encR 0x11#6 0x11#5 rt fs fd 0x12#6
  | .movnS fd fs rt => encR 0x11#6 0x10#5 rt fs fd 0x13#6
  | .movnD fd fs rt => encR 0x11#6 0x11#5 rt fs fd 0x13#6
  | .cvtSS fd fs => encR 0x11#6 0x10#5 0#5 fs fd 0x20#6
  | .cvtSD fd fs => encR 0x11#6 0x11#5 0#5 fs fd 0x20#6
  | .cvtDS fd fs => encR 0x11#6 0x10#5 0#5 fs fd 0x21#6
  | .cvtDD fd fs => encR 0x11#6 0x11#5 0#5 fs fd 0x21#6
  | .cvtWS fd fs => encR 0x11#6 0x10#5 0#5 fs fd 0x24#6
  | .cvtWD fd fs => encR 0x11#6 0x11#5 0#5 fs fd 0x24#6
  | .roundWS fd fs => encR 0x11#6 0x10#5 0#5 fs fd 0x0c#6
  | .roundWD fd fs => encR 0x11#6 0x11#5 0#5 fs fd 0x0c#6
  | .truncWS fd fs => encR 0x11#6 0x10#5 0#5 fs fd 0x0d#6
  | .truncWD fd fs => encR 0x11#6 0x11#5 0#5 fs fd 0x0d#6
  | .ceilWS fd fs => encR 0x11#6 0x10#5 0#5 fs fd 0x0e#6
  | .ceilWD fd fs => encR 0x11#6 0x11#5 0#5 fs fd 0x0e#6
  | .floorWS fd fs => encR 0x11#6 0x10#5 0#5 fs fd 0x0f#6
  | .floorWD fd fs => encR 0x11#6 0x11#5 0#5 fs fd 0x0f#6
  | .cFS fs ft => encR 0x11#6 0x10#5 ft fs 0#5 0x30#6
  | .cFD fs ft => encR 0x11#6 0x11#5 ft fs 0#5 0x30#6
  | .cUnS fs ft => encR 0x11#6 0x10#5 ft fs 0#5 0x31#6
  | .cUnD fs ft => encR 0x11#6 0x11#5 ft fs 0#5 0x31#6
  | .cUeqS fs ft => encR 0x11#6 0x10#5 ft fs 0#5 0x33#6
  | .cUeqD fs ft => encR 0x11#6 0x11#5 ft fs 0#5 0x33#6
  | .cOltS fs ft => encR 0x11#6 0x10#5 ft fs 0#5 0x34#6
  | .cOltD fs ft => encR 0x11#6 0x11#5 ft fs 0#5 0x34#6
  | .cUltS fs ft => encR 0x11#6 0x10#5 ft fs 0#5 0x35#6
  | .cUltD fs ft => encR 0x11#6 0x11#5 ft fs 0#5 0x35#6
  | .cOleS fs ft => encR 0x11#6 0x10#5 ft fs 0#5 0x36#6
  | .cOleD fs ft => encR 0x11#6 0x11#5 ft fs 0#5 0x36#6
  | .cUleS fs ft => encR 0x11#6 0x10#5 ft fs 0#5 0x37#6
  | .cUleD fs ft => encR 0x11#6 0x11#5 ft fs 0#5 0x37#6
  | .cSfS fs ft => encR 0x11#6 0x10#5 ft fs 0#5 0x38#6
  | .cSfD fs ft => encR 0x11#6 0x11#5 ft fs 0#5 0x38#6
  | .cNgleS fs ft => encR 0x11#6 0x10#5 ft fs 0#5 0x39#6
  | .cNgleD fs ft => encR 0x11#6 0x11#5 ft fs 0#5 0x39#6
  | .cSeqS fs ft => encR 0x11#6 0x10#5 ft fs 0#5 0x3a#6
  | .cSeqD fs ft => encR 0x11#6 0x11#5 ft fs 0#5 0x3a#6
  | .cNglS fs ft => encR 0x11#6 0x10#5 ft fs 0#5 0x3b#6
  | .cNglD fs ft => encR 0x11#6 0x11#5 ft fs 0#5 0x3b#6
  | .cNgeS fs ft => encR 0x11#6 0x10#5 ft fs 0#5 0x3d#6
  | .cNgeD fs ft => encR 0x11#6 0x11#5 ft fs 0#5 0x3d#6
  | .cNgtS fs ft => encR 0x11#6 0x10#5 ft fs 0#5 0x3f#6
  | .cNgtD fs ft => encR 0x11#6 0x11#5 ft fs 0#5 0x3f#6

/-- The bytes of an instruction in memory order (R61). -/
def encodeBytes (i : Instr) : List Byte := bytesOfWord (encode i)

end Sys2Proof
end

