-- ==== Sys2Proof/Machine/State.lean ====
section
/-! DEFINITION. The state of the machine (R20 to R46, R386), the ways a step can stop, and the state after reset (R45, R380). -/

namespace Sys2Proof.Machine

open Sys2Proof.Config (Params)

/-- Memory (R42): the bytes that differ from what an unlisted address reads as, by rising address. `Memory.wf` says the form,
`Memory.read` and `Memory.write` (Ops.lean) keep to it. -/
structure Memory where
  cells : List Host.Cell
deriving DecidableEq, Repr

/-- Bytes that other agents write (R76), one after another: addresses and values. -/
abbrev AgentWrites := List (Word × Byte)

/-- What the outside world does in one step (log 17): the level of the interrupt lines (R41), and the bytes that other agents write
between two accesses of this processor (R71, R76), by the moment at which they write (log 18). -/
structure EnvEvent where
  /-- The level of the eight lines. -/
  irq : BitVec 8
  /-- Before the fetch, and so after the last access of the step before. -/
  writes : AgentWrites := []
  /-- Between the fetch and the first data access. -/
  afterFetch : AgentWrites := []
  /-- Entry `k`: between data accesses `k` and `k + 1` of the instruction, counted from 0. -/
  gaps : List AgentWrites := []
deriving DecidableEq, Repr

/-- A fault stops the machine. No instruction and no step raises one: every fault of the spec has a trap entry and so a next
state (R331, R340; "No behaviour is treated as `stuck`", `93_implementation_defined.md`). The type is empty, which is safe:
log 30. -/
inductive Fault where
deriving DecidableEq, Repr

/-- A refusal ends the run without a final state (R11, R390): the spec gives the step no meaning. -/
inductive Refusal where
  /-- Raised by an arm of `exec` whose instruction has no meaning in the model. Safe. No arm raises it. -/
  | notModelled (mnemonic : String)
  /-- Raised at decode: the word matches no row and `UNMATCHED = refuse` (R110). Safe. -/
  | reservedWord
  /-- Raised at decode: the word is a tier 2 row and `ADMIT_NAMED_ONLY = false` (R113). Safe. -/
  | namedOnly
  /-- Raised at decode: a field the row does not use is not zero and `UNUSED_FIELDS = refuse` (R108). Safe. -/
  | unusedField
  /-- Raised at decode and by the double-precision instructions: an odd register number names no pair (R29, R214). Safe. -/
  | oddRegister
  /-- Raised by `cvt.s.s` and `cvt.d.d`: the spec gives them no operation (R283, R286). Safe. -/
  | noOperation
  /-- Raised by a control transfer, or `eret`, in a delay slot when `BRANCH_DELAY = 1` (R387). Safe. -/
  | transferInDelaySlot
  /-- Raised by the fetch of a byte that a store of this run has written when `CODE_WRITES = refuse` (R79). Safe. -/
  | codeWritten
deriving DecidableEq, Repr

/-- The state of the machine. Everything above `written` is architectural state the spec names; `written` and what follows it are
the model's own. -/
structure State where
  /-- `R[0..31]` (R20); read and written through `readR` and `setR`, which hard-wire `R[0]` (R22). -/
  regs : Vector Word 32
  /-- The address of the instruction being executed (R24). -/
  pc : Word
  /-- R27. -/
  hi : Word
  /-- R27. -/
  lo : Word
  /-- `F[0..31]` (R28). -/
  fregs : Vector Word 32
  /-- The floating-point condition (R30). -/
  fpCond : Bool
  /-- Cause.BD, bit 31 (R35). -/
  causeBd : Bool
  /-- Cause.ExceptionCode, bits 6:2 (R35). -/
  causeExcCode : BitVec 5
  /-- Interrupt Mask, bits 15:8 of Cause as printed, of Status under `INT_FIELDS = mips32` (R35). -/
  intMask : BitVec 8
  /-- Status.UM, bit 4 (R36). -/
  statusUm : Bool
  /-- Status.EL, bit 1 (R36). -/
  statusEl : Bool
  /-- Status.IE, bit 0 (R36). -/
  statusIe : Bool
  /-- Pending Interrupt, the level of the eight lines at this step (R36, R41). -/
  irq : BitVec 8
  /-- R37. -/
  epc : Word
  /-- R38. -/
  badVAddr : Word
  /-- Whether an `ll`/`sc` pair is open (R40). -/
  llBit : Bool
  /-- The address of the open pair (R40). -/
  llAddr : Word
  /-- R42. -/
  mem : Memory
  /-- Whether the instruction at `pc` stands in a delay slot; only with `BRANCH_DELAY = 1` (R386). -/
  inDelay : Bool
  /-- Where `pc` goes after the delay slot; only with `BRANCH_DELAY = 1` (R386). -/
  delayTarget : Word
  /-- The addresses that stores of this run have written, rising (R79, R46; log 20). -/
  written : List Nat
  /-- How many draws (R11) the run has used: the number of the next one (log 7). -/
  draws : Nat
  /-- What the outside world does in the next steps (log 17). -/
  env : List EnvEvent
  /-- What other agents write in this step between its fetch and its first data access (R76, log 18). -/
  afterFetch : AgentWrites
  /-- What other agents write in this step between its data accesses (R71, R76, log 18). -/
  gaps : List AgentWrites
  /-- The parameters (R7, R46; log 1). -/
  params : Params
deriving DecidableEq, Repr

/-- R45, R380: the state after reset under the parameters `p`. The fields that R45 calls unspecified hold zero (DESIGN CHOICE,
log 4, 5, 6, 7). -/
def State.resetWith (p : Params) : State where
  regs := Vector.replicate 32 0
  pc := p.resetPc
  hi := 0
  lo := 0
  fregs := Vector.replicate 32 0
  fpCond := false
  causeBd := false
  causeExcCode := 0
  intMask := 0
  statusUm := false
  statusEl := false
  statusIe := false
  irq := 0
  epc := 0
  badVAddr := 0
  llBit := false
  llAddr := 0
  mem := ⟨[]⟩
  inDelay := false
  delayTarget := 0
  written := []
  draws := 0
  env := []
  afterFetch := []
  gaps := []
  params := p

/-- The machine right after reset, the parameters at their defaults (R7, R380; log 2, 3). -/
def State.reset : State := State.resetWith {}

end Sys2Proof.Machine
end

