-- ==== Sys2Proof/Machine/Ops.lean ====
section
/-! DEFINITION. The named operations over registers and memory, the checks on an access, taking an exception (R340) and
returning from one (R358), and the advance of `pc` (R25, R386). -/

namespace Sys2Proof.Machine

/-- What an instruction answers. -/
abbrev Outcome := Host.Outcome State Fault Refusal

/-! ## Registers -/

/-- R22: a read of `R[i]`; `R[0]` reads 0. -/
def State.readR (s : State) (i : RegNum) : Word :=
  if i = 0 then 0 else s.regs[i.toNat]'i.isLt

/-- R22: a write of `R[i]`; a write to `R[0]` is discarded. -/
def State.setR (s : State) (i : RegNum) (v : Word) : State :=
  { s with regs := if i = 0 then s.regs else s.regs.set i.toNat v i.isLt }

/-- R28: a read of `F[i]`. -/
def State.readF (s : State) (i : FRegNum) : Word := s.fregs[i.toNat]'i.isLt

/-- R28: a write of `F[i]`. -/
def State.setF (s : State) (i : FRegNum) (v : Word) : State :=
  { s with fregs := s.fregs.set i.toNat v i.isLt }

/-- R29, R214: the double `D[n] = {F[n], F[n+1]}`. -/
def State.readD (s : State) (n : FRegNum) : DWord := s.readF n ++ s.readF (n + 1)

/-- R29, R214: `D[n] <- v`: `F[n]` receives bits 63:32, `F[n+1]` bits 31:0. -/
def State.setD (s : State) (n : FRegNum) (v : DWord) : State :=
  (s.setF n (v.extractLsb' 32 32)).setF (n + 1) (v.extractLsb' 0 32)

/-- R27: a write of the pair `Hi`, `Lo`. -/
def State.setHiLo (s : State) (hi lo : Word) : State := { s with hi := hi, lo := lo }

/-- R30: a write of `FPcond`. -/
def State.setFPcond (s : State) (b : Bool) : State := { s with fpCond := b }

/-- The next `n` draws are used up (R11, log 7). -/
def State.useDraws (s : State) (n : Nat) : State := { s with draws := s.draws + n }

/-! ## Memory -/

/-- What a byte that nothing has written reads as (R45 leaves it unspecified; DESIGN CHOICE, log 6). -/
def unlistedByte : Byte := 0

/-- The byte that a list of cells holds at an address. -/
def readCells : List Host.Cell → Nat → Byte
  | [], _ => unlistedByte
  | (k, b) :: rest, a => if k = a then b else readCells rest a

/-- The list of cells with the byte at an address replaced, in canonical form. -/
def writeCells : List Host.Cell → Nat → Byte → List Host.Cell
  | [], a, v => if v = unlistedByte then [] else [(a, v)]
  | (k, b) :: rest, a, v =>
    if a < k then (if v = unlistedByte then (k, b) :: rest else (a, v) :: (k, b) :: rest)
    else if a = k then (if v = unlistedByte then rest else (a, v) :: rest)
    else (k, b) :: writeCells rest a v

/-- The canonical form from address `lo` on: addresses rise strictly and stay below 2^32, and no cell holds what an unlisted
address reads as. -/
def cellsWf (lo : Nat) : List Host.Cell → Bool
  | [] => true
  | (k, b) :: rest => decide (lo ≤ k) && decide (k < 2 ^ 32) && decide (b ≠ unlistedByte) && cellsWf (k + 1) rest

/-- Memory is in canonical form. -/
def Memory.wf (m : Memory) : Bool := cellsWf 0 m.cells

/-- `MemRead(a, 1)` (R61). -/
def Memory.read (m : Memory) (a : Word) : Byte := readCells m.cells a.toNat

/-- `MemWrite(a, 1, v)` (R61). -/
def Memory.write (m : Memory) (a : Word) (v : Byte) : Memory := ⟨writeCells m.cells a.toNat v⟩

/-- `MemRead(a, 2)` (R61): the byte at the lower address is the more significant. -/
def Memory.readHalf (m : Memory) (a : Word) : BitVec 16 := m.read a ++ m.read (a + 1)

/-- `MemRead(a, 4)` (R61). -/
def Memory.readWord (m : Memory) (a : Word) : Word :=
  wordOfBytes (m.read a) (m.read (a + 1)) (m.read (a + 2)) (m.read (a + 3))

/-- Consecutive bytes written from address `a` on, addresses modulo 2^32 (R82). -/
def Memory.writeBytes (m : Memory) (a : Word) : List Byte → Memory
  | [] => m
  | b :: bs => (m.write a b).writeBytes (a + 1) bs

/-- An address put into a rising list of addresses. -/
def insertAddr (a : Nat) : List Nat → List Nat
  | [] => [a]
  | k :: rest => if a < k then a :: k :: rest else if a = k then k :: rest else k :: insertAddr a rest

/-- `n` consecutive addresses from `a` on put into a rising list of addresses. -/
def insertAddrs (a : Word) : Nat → List Nat → List Nat
  | 0, l => l
  | n + 1, l => insertAddrs (a + 1) n (insertAddr a.toNat l)

/-- A store of this processor (R61, R170): the bytes go to memory from `a` on, and their addresses count as written (R79). -/
def State.store (s : State) (a : Word) (bytes : List Byte) : State :=
  { s with
    mem := s.mem.writeBytes a bytes
    written := insertAddrs a bytes.length s.written }

/-! ## Other agents (R76) -/

/-- The bytes another agent writes, one after another (R76). -/
def Memory.extWrites (m : Memory) : AgentWrites → Memory
  | [] => m
  | (a, b) :: rest => (m.write a b).extWrites rest

/-- The writes of other agents that may happen: none but with `EXTERNAL_WRITERS` (R76). -/
def State.allowedWrites (s : State) (ws : AgentWrites) : AgentWrites := if s.params.externalWriters then ws else []

/-- R78 item 3: the address lies in the aligned word at `LLaddr`. -/
def State.inPairWord (s : State) (a : Word) : Bool := decide (a.extractLsb' 2 30 = s.llAddr.extractLsb' 2 30)

/-- Other agents write, between two accesses of this processor (R76): the bytes go to memory, and one into the word of an open pair
closes it (R78 item 3). -/
def State.otherWrites (s : State) (ws : AgentWrites) : State :=
  { s with
    mem := s.mem.extWrites (s.allowedWrites ws)
    llBit := s.llBit && !(s.allowedWrites ws).any fun w => s.inPairWord w.1 }

/-- Other agents write between the fetch of this step and its first data access. -/
def State.fetched (s : State) : State := s.otherWrites s.afterFetch

/-- Other agents write between data accesses `k` and `k + 1` of this instruction (R71). -/
def State.inGap (s : State) (k : Nat) : State := s.otherWrites (s.gaps.getD k [])

/-- The stores of an instruction after its first, other agents writing before each; the first of them comes after gap `k`. -/
def State.storeRest (s : State) (k : Nat) : List (Word × List Byte) → State
  | [] => s
  | (a, bytes) :: rest => ((s.inGap k).store a bytes).storeRest (k + 1) rest

/-- The stores of one instruction, in order, each atomic by itself (R71), other agents writing between them. -/
def State.storeSeq (s : State) : List (Word × List Byte) → State
  | [] => s
  | (a, bytes) :: rest => (s.store a bytes).storeRest 0 rest

/-- `MemWrite(a, 2, v)` (R61), the bytes of a halfword in the order of their addresses. -/
def bytesOfHalf (v : BitVec 16) : List Byte := [v.extractLsb' 8 8, v.extractLsb' 0 8]

/-! ## Privilege -/

/-- R360: user mode is UM = 1 and EL = 0. -/
def State.userMode (s : State) : Bool := s.statusUm && !s.statusEl

/-! ## Exceptions -/

/-- The exceptions of R331; an address error carries the faulting address (R333, R334). -/
inductive Exc where
  | int
  | adEL (addr : Word)
  | adES (addr : Word)
  | ibe
  | dbe
  | sys
  | bp
  | ri
  | cpU
  | ov
  | tr
  | fpe
deriving DecidableEq, Repr

/-- R331: the number written to Cause bits 6:2. -/
def Exc.code (x : Exc) : BitVec 5 :=
  match x with
  | .int => 0
  | .adEL _ => 4
  | .adES _ => 5
  | .ibe => 6
  | .dbe => 7
  | .sys => 8
  | .bp => 9
  | .ri => 10
  | .cpU => 11
  | .ov => 12
  | .tr => 13
  | .fpe => 15

/-- R340: the address recorded in BadVAddr, for codes 4 and 5 only. -/
def Exc.badAddr (x : Exc) : Option Word :=
  match x with
  | .adEL a => some a
  | .adES a => some a
  | .int | .ibe | .dbe | .sys | .bp | .ri | .cpU | .ov | .tr | .fpe => none

/-- R386, R388: the instruction at `pc` stands in a delay slot. -/
def State.inSlot (s : State) : Bool := s.params.branchDelay && s.inDelay

/-- R340: trap entry for the instruction at `pc` (for an interrupt, the one that would have executed next). EPC and Cause.BD
are written only when EL was 0 (R349); in a delay slot EPC is the branch and BD is 1 (R388). -/
def State.trap (s : State) (x : Exc) : State :=
  { s with
    epc := if s.statusEl then s.epc else if s.inSlot then s.pc - 4 else s.pc
    causeBd := if s.statusEl then s.causeBd else s.inSlot
    causeExcCode := x.code
    badVAddr := x.badAddr.getD s.badVAddr
    statusEl := true
    llBit := false
    inDelay := false
    pc := s.params.excVector }

/-- R358: what `eret` does: `pc <- EPC`, `Status.EL <- 0`, `LLbit <- 0`, and nothing else. -/
def State.returnFromTrap (s : State) : State :=
  { s with pc := s.epc, statusEl := false, llBit := false }

/-! ## The advance of pc -/

/-- The end of an instruction that is no control transfer: `pc <- pc + 4` (R25), or with `BRANCH_DELAY = 1` the end of R386's
step with `new_delay = 0`, where an instruction in a delay slot goes to the branch's target. -/
def State.retire (s : State) : State :=
  { s with
    pc := if s.inSlot then s.delayTarget else s.pc + 4
    inDelay := if s.params.branchDelay then false else s.inDelay }

/-- A control transfer whose target is `target` when `taken` (R25, R155), or with `BRANCH_DELAY = 1` the start of a delay slot
(R386), refused inside another one (R387). -/
def State.transfer (s : State) (taken : Bool) (target : Word) : Outcome :=
  if s.params.branchDelay then
    if s.inDelay then .refused .transferInDelaySlot
    else .next { s with
      pc := s.pc + 4
      inDelay := true
      delayTarget := if taken then target else s.pc + 8 }
  else .next { s with pc := if taken then target else s.pc + 4 }

/-- R153, R239, R386: the address a link names: `pc + 4`, or `pc + 8` with `BRANCH_DELAY = 1`. -/
def State.linkAddr (s : State) : Word := if s.params.branchDelay then s.pc + 8 else s.pc + 4

/-- An instruction whose one effect is a general register: `R[rd] <- v`. -/
def State.writeR (s : State) (rd : RegNum) (v : Word) : Outcome := .next ((s.setR rd v).retire)

/-! ## The checks on a data access (R83, R169) -/

/-- The direction of an access, which chooses the address error it raises (R65). -/
inductive Access where
  | load
  | store
deriving DecidableEq, Repr

/-- R65, R333, R334: the address error of an access. -/
def Access.addressError (d : Access) (ea : Word) : Exc :=
  match d with
  | .load => .adEL ea
  | .store => .adES ea

/-- R68: the user-segment check bars the address. -/
def State.userBarred (s : State) (a : Word) : Bool :=
  s.params.userSegmentCheck && s.userMode && a.getLsbD 31

/-- R67: `MEM_POPULATED(a, n)`: an access of `n` bytes at `a` is answered. -/
def memPopulated (holes : List Config.BusHole) (a : Word) (n : Nat) : Bool :=
  !holes.any fun h => decide (h.width = n) && decide (h.base ≤ a.toNat) && decide (a.toNat < h.base + h.size)

/-- The accesses on which the bus error of `n` bytes at `a` is judged, each an address and a width: a doubleword is two words (R70,
R336). -/
def busAccesses (a : Word) (n : Nat) : List (Word × Nat) := if n = 8 then [(a, 4), (a + 4, 4)] else [(a, n)]

/-- R67, R336: every access that `n` bytes at `a` take is answered. -/
def State.populated (s : State) (a : Word) (n : Nat) : Bool :=
  (busAccesses a n).all fun p => memPopulated s.params.holes p.1 p.2

/-- R83: the exception a data access raises, if any: alignment to `align` bytes (R64, R65), user segment (R68), bus error on the
`n` bytes from `base` on (R67), in that order. -/
def State.accessFault (s : State) (d : Access) (ea : Word) (align : Nat) (base : Word) (n : Nat) : Option Exc :=
  if ea.toNat % align ≠ 0 then some (d.addressError ea)
  else if s.userBarred ea then some (d.addressError ea)
  else if s.populated base n then none
  else some .dbe

/-- R11 `raise`, R169: an access that fails a check takes its exception and writes nothing; else `done` is the next state. -/
def State.guarded (s : State) (fault : Option Exc) (done : State) : Outcome :=
  match fault with
  | some x => .next (s.trap x)
  | none => .next done

end Sys2Proof.Machine
end

