-- ==== Sys2Proof/Machine/Operands.lean ====
section
/-! DEFINITION. The derived operands of R96 to R102 and the effective address of R168. -/

namespace Sys2Proof.Machine

/-- R96: SignExtImm. -/
def signExtImm (imm : BitVec 16) : Word := imm.signExtend 32

/-- R97: ZeroExtImm. -/
def zeroExtImm (imm : BitVec 16) : Word := imm.setWidth 32

/-- R98: BranchAddr, the sign-extended immediate times 4. -/
def branchAddr (imm : BitVec 16) : Word := (imm ++ 0#2).signExtend 32

/-- R99: JumpAddr, for the jump at `pc`. -/
def jumpAddr (pc : Word) (addr : BitVec 26) : Word := (pc + 4).extractLsb' 28 4 ++ addr ++ 0#2

/-- R102: the operand of `lui`. -/
def upperImm (imm : BitVec 16) : Word := imm ++ 0#16

/-- R236: the count of a shift by a register, its low five bits. -/
def shiftCount (v : Word) : Nat := (v.extractLsb' 0 5).toNat

/-- R168: the effective address `R[rs] + SignExtImm`, modulo 2^32. -/
def State.ea (s : State) (rs : RegNum) (imm : BitVec 16) : Word := s.readR rs + signExtImm imm

/-- R25: the target of a branch at `pc`. -/
def State.branchTarget (s : State) (imm : BitVec 16) : Word := s.pc + 4 + branchAddr imm

/-- R248: the byte offset `b = EA[1:0]` in the aligned word. -/
def byteOffset (ea : Word) : Nat := (ea.extractLsb' 0 2).toNat

/-- R248: the aligned word address `A = EA - b`. -/
def alignedWord (ea : Word) : Word := ea - BitVec.ofNat 32 (byteOffset ea)

end Sys2Proof.Machine
end

