-- ==== Sys2Proof/Machine/ArithLogic.lean ====
section
/-! DEFINITION. The instructions that compute a general register from registers and immediates: R130 to R149, R182, and the
named-only R233, R236 to R238, R240, R243, R244. Both sources are read before the write (R130). -/

namespace Sys2Proof.Machine

/-- R149: an instruction that raises `Ov` on signed overflow, its destination then unwritten, and else writes the result. -/
def State.writeOrOverflow (s : State) (rd : RegNum) (overflow : Bool) (v : Word) : Outcome :=
  if overflow then .next (s.trap .ov) else s.writeR rd v

/-- `add` (R130): `R[rd] = R[rs] + R[rt]`, trapping on overflow. -/
def execAdd (rd rs rt : RegNum) (s : State) : Outcome :=
  s.writeOrOverflow rd (ovfAdd (s.readR rs) (s.readR rt)) (s.readR rs + s.readR rt)

/-- `addi` (R131): `R[rt] = R[rs] + SignExtImm`, trapping on overflow. -/
def execAddi (rt rs : RegNum) (imm : BitVec 16) (s : State) : Outcome :=
  s.writeOrOverflow rt (ovfAdd (s.readR rs) (signExtImm imm)) (s.readR rs + signExtImm imm)

/-- `addiu` (R132): `R[rt] = R[rs] + SignExtImm`, wrapping. -/
def execAddiu (rt rs : RegNum) (imm : BitVec 16) (s : State) : Outcome :=
  s.writeR rt (s.readR rs + signExtImm imm)

/-- `addu` (R133): `R[rd] = R[rs] + R[rt]`, wrapping. -/
def execAddu (rd rs rt : RegNum) (s : State) : Outcome :=
  s.writeR rd (s.readR rs + s.readR rt)

/-- `and` (R134): `R[rd] = R[rs] & R[rt]`. -/
def execAnd (rd rs rt : RegNum) (s : State) : Outcome :=
  s.writeR rd (s.readR rs &&& s.readR rt)

/-- `andi` (R135): `R[rt] = R[rs] & ZeroExtImm`. -/
def execAndi (rt rs : RegNum) (imm : BitVec 16) (s : State) : Outcome :=
  s.writeR rt (s.readR rs &&& zeroExtImm imm)

/-- `lui` (R136): `R[rt] = {imm, 16'b0}`. -/
def execLui (rt : RegNum) (imm : BitVec 16) (s : State) : Outcome :=
  s.writeR rt (upperImm imm)

/-- `nor` (R137): `R[rd] = ~(R[rs] | R[rt])`. -/
def execNor (rd rs rt : RegNum) (s : State) : Outcome :=
  s.writeR rd (~~~(s.readR rs ||| s.readR rt))

/-- `or` (R138): `R[rd] = R[rs] | R[rt]`. -/
def execOr (rd rs rt : RegNum) (s : State) : Outcome :=
  s.writeR rd (s.readR rs ||| s.readR rt)

/-- `ori` (R139): `R[rt] = R[rs] | ZeroExtImm`. -/
def execOri (rt rs : RegNum) (imm : BitVec 16) (s : State) : Outcome :=
  s.writeR rt (s.readR rs ||| zeroExtImm imm)

/-- `slt` (R140): `R[rd] = (R[rs] < R[rt]) ? 1 : 0`, signed. -/
def execSlt (rd rs rt : RegNum) (s : State) : Outcome :=
  s.writeR rd (boolWord ((s.readR rs).slt (s.readR rt)))

/-- `slti` (R141): `R[rt] = (R[rs] < SignExtImm) ? 1 : 0`, signed. -/
def execSlti (rt rs : RegNum) (imm : BitVec 16) (s : State) : Outcome :=
  s.writeR rt (boolWord ((s.readR rs).slt (signExtImm imm)))

/-- `sltiu` (R142): `R[rt] = (R[rs] < SignExtImm) ? 1 : 0`, unsigned after the sign extension. -/
def execSltiu (rt rs : RegNum) (imm : BitVec 16) (s : State) : Outcome :=
  s.writeR rt (boolWord ((s.readR rs).ult (signExtImm imm)))

/-- `sltu` (R143): `R[rd] = (R[rs] < R[rt]) ? 1 : 0`, unsigned. -/
def execSltu (rd rs rt : RegNum) (s : State) : Outcome :=
  s.writeR rd (boolWord ((s.readR rs).ult (s.readR rt)))

/-- `sll` (R144): `R[rd] = R[rt] << shamt`. -/
def execSll (rd rt : RegNum) (shamt : BitVec 5) (s : State) : Outcome :=
  s.writeR rd (s.readR rt <<< shamt.toNat)

/-- `srl` (R145): `R[rd] = R[rt] >> shamt`. -/
def execSrl (rd rt : RegNum) (shamt : BitVec 5) (s : State) : Outcome :=
  s.writeR rd (s.readR rt >>> shamt.toNat)

/-- `sub` (R146): `R[rd] = R[rs] - R[rt]`, trapping on overflow. -/
def execSub (rd rs rt : RegNum) (s : State) : Outcome :=
  s.writeOrOverflow rd (ovfSub (s.readR rs) (s.readR rt)) (s.readR rs - s.readR rt)

/-- `subu` (R147): `R[rd] = R[rs] - R[rt]`, wrapping. -/
def execSubu (rd rs rt : RegNum) (s : State) : Outcome :=
  s.writeR rd (s.readR rs - s.readR rt)

/-- `sra` (R182): `R[rd] = R[rt] >>> shamt`, arithmetic. -/
def execSra (rd rt : RegNum) (shamt : BitVec 5) (s : State) : Outcome :=
  s.writeR rd ((s.readR rt).sshiftRight shamt.toNat)

/-- `xori` (R233): `R[rt] = R[rs] ^ ZeroExtImm`. -/
def execXori (rt rs : RegNum) (imm : BitVec 16) (s : State) : Outcome :=
  s.writeR rt (s.readR rs ^^^ zeroExtImm imm)

/-- `sllv` (R236): `R[rd] = R[rt] << R[rs][4:0]`. -/
def execSllv (rd rt rs : RegNum) (s : State) : Outcome :=
  s.writeR rd (s.readR rt <<< shiftCount (s.readR rs))

/-- `srlv` (R237): `R[rd] = R[rt] >> R[rs][4:0]`. -/
def execSrlv (rd rt rs : RegNum) (s : State) : Outcome :=
  s.writeR rd (s.readR rt >>> shiftCount (s.readR rs))

/-- `srav` (R238): `R[rd] = R[rt] >>> R[rs][4:0]`, arithmetic. -/
def execSrav (rd rt rs : RegNum) (s : State) : Outcome :=
  s.writeR rd ((s.readR rt).sshiftRight (shiftCount (s.readR rs)))

/-- `xor` (R240): `R[rd] = R[rs] ^ R[rt]`. -/
def execXor (rd rs rt : RegNum) (s : State) : Outcome :=
  s.writeR rd (s.readR rs ^^^ s.readR rt)

/-- `movz` (R243): `R[rd] = R[rs]` when `R[rt] = 0`; else `R[rd]` keeps its value. -/
def execMovz (rd rs rt : RegNum) (s : State) : Outcome :=
  .next (if s.readR rt = 0 then s.setR rd (s.readR rs) else s).retire

/-- `movn` (R244): `R[rd] = R[rs]` when `R[rt]` is not 0; else `R[rd]` keeps its value. -/
def execMovn (rd rs rt : RegNum) (s : State) : Outcome :=
  .next (if s.readR rt ≠ 0 then s.setR rd (s.readR rs) else s).retire

end Sys2Proof.Machine
end

