-- ==== Sys2Proof/Machine/Control.lean ====
section
/-! DEFINITION. Branches and jumps: R150 to R157, R190, R191, and the named-only R231, R232, R239. No target is checked at the
transfer (R156). -/

namespace Sys2Proof.Machine

/-- `beq` (R150): branch when `R[rs] == R[rt]`. -/
def execBeq (rs rt : RegNum) (imm : BitVec 16) (s : State) : Outcome :=
  s.transfer (decide (s.readR rs = s.readR rt)) (s.branchTarget imm)

/-- `bne` (R151): branch when `R[rs] != R[rt]`. -/
def execBne (rs rt : RegNum) (imm : BitVec 16) (s : State) : Outcome :=
  s.transfer (decide (s.readR rs ≠ s.readR rt)) (s.branchTarget imm)

/-- `blez` (R231): branch when `R[rs] <= 0`, signed. -/
def execBlez (rs : RegNum) (imm : BitVec 16) (s : State) : Outcome :=
  s.transfer (decide ((s.readR rs).toInt ≤ 0)) (s.branchTarget imm)

/-- `bgtz` (R232): branch when `R[rs] > 0`, signed. -/
def execBgtz (rs : RegNum) (imm : BitVec 16) (s : State) : Outcome :=
  s.transfer (decide (0 < (s.readR rs).toInt)) (s.branchTarget imm)

/-- `bc1t` (R190): branch when `FPcond` is 1. -/
def execBc1t (imm : BitVec 16) (s : State) : Outcome :=
  s.transfer s.fpCond (s.branchTarget imm)

/-- `bc1f` (R191): branch when `FPcond` is 0. -/
def execBc1f (imm : BitVec 16) (s : State) : Outcome :=
  s.transfer (!s.fpCond) (s.branchTarget imm)

/-- `j` (R152): `PC = JumpAddr`. -/
def execJ (addr : BitVec 26) (s : State) : Outcome :=
  s.transfer true (jumpAddr s.pc addr)

/-- `jal` (R153): `R[31]` receives the link address, `PC = JumpAddr`. -/
def execJal (addr : BitVec 26) (s : State) : Outcome :=
  (s.setR 31 s.linkAddr).transfer true (jumpAddr s.pc addr)

/-- `jr` (R154): `PC = R[rs]`. -/
def execJr (rs : RegNum) (s : State) : Outcome :=
  s.transfer true (s.readR rs)

/-- `jalr` (R239): `R[rd]` receives the link address, `PC = R[rs]`, read before the write. -/
def execJalr (rd rs : RegNum) (s : State) : Outcome :=
  (s.setR rd s.linkAddr).transfer true (s.readR rs)

end Sys2Proof.Machine
end

