-- ==== Sys2Proof/Machine/LoadStore.lean ====
section
/-! DEFINITION. Loads and stores: R160 to R170, R206 to R209, R78, and the named-only R234, R235, R248 to R253. Every access is
checked first (R169); one that fails a check takes its exception and writes nothing. -/

namespace Sys2Proof.Machine

/-- A load of `n` bytes at an address that must be a multiple of `n`: `done` is the state after it. -/
def State.load (s : State) (ea : Word) (n : Nat) (done : State) : Outcome :=
  s.guarded (s.accessFault .load ea n ea n) done

/-- A store of `bytes` at an address that must be a multiple of their number (R170). -/
def State.storeAt (s : State) (ea : Word) (bytes : List Byte) : Outcome :=
  s.guarded (s.accessFault .store ea bytes.length ea bytes.length) ((s.store ea bytes).retire)

/-- R214: an instruction with double-precision operands is refused when one of them is odd. -/
def ifEven (regs : List FRegNum) (o : Outcome) : Outcome :=
  if regs.all evenReg then o else .refused .oddRegister

/-- R78 item 1: `LLbit <- 1`, `LLaddr <- a`. -/
def State.openPair (s : State) (a : Word) : State := { s with llBit := true, llAddr := a }

/-- R78 item 3: `LLbit <- 0`. -/
def State.closePair (s : State) : State := { s with llBit := false }

/-- R78 item 4: an `sc` to the address finds its pair open. -/
def State.paired (s : State) (ea : Word) : Bool := s.llBit && decide (s.llAddr = ea)

/-- R78 items 4, 5: the `sc` is atomic: its pair is open and, where `SC_MAY_FAIL`, the draw is success (log 10). -/
def State.scAtomic (s : State) (ea : Word) : Bool :=
  s.paired ea && (!s.params.scMayFail || Config.freeBool s.draws)

/-- R165: the state after an `sc` whose access passes its checks. -/
def State.scDone (s : State) (rt : RegNum) (ea : Word) : State :=
  let stored := if s.scAtomic ea then s.store ea (bytesOfWord (s.readR rt)) else s
  let drawn := stored.closePair.useDraws (if s.paired ea && s.params.scMayFail then 1 else 0)
  (drawn.setR rt (boolWord (s.scAtomic ea))).retire

/-- R250: the word that `lwl` makes of the aligned word `w` and the old register, `b` the byte offset. -/
def mergeLeft (w old : Word) (b : Nat) : Word := (w <<< (8 * b)) ||| (old &&& ((1#32 <<< (8 * b)) - 1))

/-- R251: the word that `lwr` makes of the aligned word `w` and the old register. -/
def mergeRight (w old : Word) (b : Nat) : Word :=
  (old &&& ~~~(0xFFFFFFFF#32 >>> (8 * (3 - b)))) ||| (w >>> (8 * (3 - b)))

/-- R248: the check of `lwl lwr swl swr`: no alignment, and the bus error is judged on the aligned word (log 26). -/
def State.partFault (s : State) (d : Access) (ea : Word) : Option Exc := s.accessFault d ea 1 (alignedWord ea) 4

/-- `lbu` (R160): the byte, zero-extended. -/
def execLbu (rt rs : RegNum) (imm : BitVec 16) (s : State) : Outcome :=
  let ea := s.ea rs imm
  s.load ea 1 ((s.setR rt ((s.mem.read ea).setWidth 32)).retire)

/-- `lhu` (R161): the halfword, zero-extended. -/
def execLhu (rt rs : RegNum) (imm : BitVec 16) (s : State) : Outcome :=
  let ea := s.ea rs imm
  s.load ea 2 ((s.setR rt ((s.mem.readHalf ea).setWidth 32)).retire)

/-- `ll` (R162): the word; opens the pair. -/
def execLl (rt rs : RegNum) (imm : BitVec 16) (s : State) : Outcome :=
  let ea := s.ea rs imm
  s.load ea 4 (((s.openPair ea).setR rt (s.mem.readWord ea)).retire)

/-- `lw` (R163): the word. -/
def execLw (rt rs : RegNum) (imm : BitVec 16) (s : State) : Outcome :=
  let ea := s.ea rs imm
  s.load ea 4 ((s.setR rt (s.mem.readWord ea)).retire)

/-- `sb` (R164): the low byte of `R[rt]`. -/
def execSb (rt rs : RegNum) (imm : BitVec 16) (s : State) : Outcome :=
  s.storeAt (s.ea rs imm) [(s.readR rt).extractLsb' 0 8]

/-- `sc` (R165): stores `R[rt]` when the pair is atomic; `R[rt]` receives 1 or 0; closes the pair. -/
def execSc (rt rs : RegNum) (imm : BitVec 16) (s : State) : Outcome :=
  let ea := s.ea rs imm
  s.guarded (s.accessFault .store ea 4 ea 4) (s.scDone rt ea)

/-- `sh` (R166): the low halfword of `R[rt]`. -/
def execSh (rt rs : RegNum) (imm : BitVec 16) (s : State) : Outcome :=
  s.storeAt (s.ea rs imm) (bytesOfHalf ((s.readR rt).extractLsb' 0 16))

/-- `sw` (R167): the word `R[rt]`. -/
def execSw (rt rs : RegNum) (imm : BitVec 16) (s : State) : Outcome :=
  s.storeAt (s.ea rs imm) (bytesOfWord (s.readR rt))

/-- `lb` (R234): the byte, sign-extended. -/
def execLb (rt rs : RegNum) (imm : BitVec 16) (s : State) : Outcome :=
  let ea := s.ea rs imm
  s.load ea 1 ((s.setR rt ((s.mem.read ea).signExtend 32)).retire)

/-- `lh` (R235): the halfword, sign-extended. -/
def execLh (rt rs : RegNum) (imm : BitVec 16) (s : State) : Outcome :=
  let ea := s.ea rs imm
  s.load ea 2 ((s.setR rt ((s.mem.readHalf ea).signExtend 32)).retire)

/-- `lwl` (R250): the bytes from EA to the end of its aligned word go to the top of `R[rt]`. -/
def execLwl (rt rs : RegNum) (imm : BitVec 16) (s : State) : Outcome :=
  let ea := s.ea rs imm
  let w := mergeLeft (s.mem.readWord (alignedWord ea)) (s.readR rt) (byteOffset ea)
  s.guarded (s.partFault .load ea) ((s.setR rt w).retire)

/-- `lwr` (R251): the bytes from the start of the aligned word to EA go to the bottom of `R[rt]`. -/
def execLwr (rt rs : RegNum) (imm : BitVec 16) (s : State) : Outcome :=
  let ea := s.ea rs imm
  let w := mergeRight (s.mem.readWord (alignedWord ea)) (s.readR rt) (byteOffset ea)
  s.guarded (s.partFault .load ea) ((s.setR rt w).retire)

/-- The byte stores of `swl`, in the order of R252: byte `i` of the register, 0 the most significant, to `EA + i`. -/
def swlStores (v ea : Word) : List (Word × List Byte) :=
  (List.range (4 - byteOffset ea)).map fun i => (ea + BitVec.ofNat 32 i, [byteOfWord v i])

/-- The byte stores of `swr`, in the order of R253: byte `i` of the register, 0 the least significant, to `EA - i`. -/
def swrStores (v ea : Word) : List (Word × List Byte) :=
  (List.range (byteOffset ea + 1)).map fun i => (ea - BitVec.ofNat 32 i, [byteOfWord v (3 - i)])

/-- `swl` (R252): the top `4 - b` bytes of `R[rt]` go to the bytes from EA to the end of its aligned word. -/
def execSwl (rt rs : RegNum) (imm : BitVec 16) (s : State) : Outcome :=
  let ea := s.ea rs imm
  s.guarded (s.partFault .store ea) ((s.storeSeq (swlStores (s.readR rt) ea)).retire)

/-- `swr` (R253): the bottom `b + 1` bytes of `R[rt]` go to the bytes from the start of the aligned word to EA. -/
def execSwr (rt rs : RegNum) (imm : BitVec 16) (s : State) : Outcome :=
  let ea := s.ea rs imm
  s.guarded (s.partFault .store ea) ((s.storeSeq (swrStores (s.readR rt) ea)).retire)

/-- `lwc1` (R206): the word, to `F[rt]`. -/
def execLwc1 (rt : FRegNum) (rs : RegNum) (imm : BitVec 16) (s : State) : Outcome :=
  let ea := s.ea rs imm
  s.load ea 4 ((s.setF rt (s.mem.readWord ea)).retire)

/-- `ldc1` (R207): two words, the lower address to `F[rt]`, the next to `F[rt+1]`; other agents may write between the two accesses
(R70, R71). -/
def execLdc1 (rt : FRegNum) (rs : RegNum) (imm : BitVec 16) (s : State) : Outcome :=
  let ea := s.ea rs imm
  let u := s.inGap 0
  ifEven [rt] (s.load ea 8 (((u.setF rt (s.mem.readWord ea)).setF (rt + 1) (u.mem.readWord (ea + 4))).retire))

/-- `swc1` (R208): the word `F[rt]`. -/
def execSwc1 (rt : FRegNum) (rs : RegNum) (imm : BitVec 16) (s : State) : Outcome :=
  s.storeAt (s.ea rs imm) (bytesOfWord (s.readF rt))

/-- The word stores of `sdc1`, in the order of R209. -/
def sdc1Stores (hi lo ea : Word) : List (Word × List Byte) := [(ea, bytesOfWord hi), (ea + 4, bytesOfWord lo)]

/-- `sdc1` (R209): `F[rt]` to the lower word, `F[rt+1]` to the next; other agents may write between the two accesses (R70, R71). -/
def execSdc1 (rt : FRegNum) (rs : RegNum) (imm : BitVec 16) (s : State) : Outcome :=
  let ea := s.ea rs imm
  ifEven [rt] (s.guarded (s.accessFault .store ea 8 ea 8)
    ((s.storeSeq (sdc1Stores (s.readF rt) (s.readF (rt + 1)) ea)).retire))

end Sys2Proof.Machine
end

