-- ==== Sys2Proof/Machine/FpOps.lean ====
section
/-! DEFINITION. How a floating-point result reaches the state: the trap of R213, the draws of R211 and R270, a single or a double
register (R28, R214), `FPcond` (R212). -/

namespace Sys2Proof.Machine

/-- A result to `F[fd]`: `FPE` when an exception it signals is in `FP.traps`, the destination then unwritten (R213). -/
def State.deliverSingle (s : State) (fd : FRegNum) (r : Fp.Result) : Outcome :=
  if fpTraps s.params.fpTraps r.signals then .next (s.trap .fpe)
  else .next (((s.useDraws r.out.drawCount).setF fd (r.out.word s.draws)).retire)

/-- A result to `D[fd]` (R214), as `deliverSingle`. -/
def State.deliverDouble (s : State) (fd : FRegNum) (r : Fp.Result) : Outcome :=
  if fpTraps s.params.fpTraps r.signals then .next (s.trap .fpe)
  else .next (((s.useDraws r.out.drawCount).setD fd (r.out.dword s.draws)).retire)

/-- An operation on two singles (R192, R200, R202, R204). -/
def State.single2 (s : State) (op : Nat → Nat → Fp.Result) (fd fs ft : FRegNum) : Outcome :=
  s.deliverSingle fd (op (s.readF fs).toNat (s.readF ft).toNat)

/-- An operation on two doubles (R193, R201, R203, R205). -/
def State.double2 (s : State) (op : Nat → Nat → Fp.Result) (fd fs ft : FRegNum) : Outcome :=
  ifEven [fd, fs, ft] (s.deliverDouble fd (op (s.readD fs).toNat (s.readD ft).toNat))

/-- An operation on one single. -/
def State.single1 (s : State) (op : Nat → Fp.Result) (fd fs : FRegNum) : Outcome :=
  s.deliverSingle fd (op (s.readF fs).toNat)

/-- An operation on one double. -/
def State.double1 (s : State) (op : Nat → Fp.Result) (fd fs : FRegNum) : Outcome :=
  ifEven [fd, fs] (s.deliverDouble fd (op (s.readD fs).toNat))

/-- An operation on one double whose result is a single or a word. -/
def State.doubleToSingle (s : State) (op : Nat → Fp.Result) (fd fs : FRegNum) : Outcome :=
  ifEven [fs] (s.deliverSingle fd (op (s.readD fs).toNat))

/-- A comparison (R212, R323): `FPcond` receives the predicate `cond` of the relation, unless an invalid it signals traps. -/
def State.compare (s : State) (f : Fp.Format) (cond : BitVec 4) (a b : Nat) : Outcome :=
  if fpTraps s.params.fpTraps (compareSignals f cond a b) then .next (s.trap .fpe)
  else .next ((s.setFPcond (fpCondition cond (f.cmp a b))).retire)

/-- A comparison of two singles (R194 to R196). -/
def State.compareSingle (s : State) (cond : BitVec 4) (fs ft : FRegNum) : Outcome :=
  s.compare Fp.single cond (s.readF fs).toNat (s.readF ft).toNat

/-- A comparison of two doubles (R197 to R199, R214). -/
def State.compareDouble (s : State) (cond : BitVec 4) (fs ft : FRegNum) : Outcome :=
  ifEven [fs, ft] (s.compare Fp.double cond (s.readD fs).toNat (s.readD ft).toNat)

end Sys2Proof.Machine
end

