-- ==== Sys2Proof/Machine/FpArith.lean ====
section
/-! DEFINITION. Floating-point arithmetic and moves: R192, R193, R200 to R205, and the named-only R271 to R282. -/

namespace Sys2Proof.Machine

/-- `add.s` (R192): `F[fd] = F[fs] + F[ft]`. -/
def execAddS (fd fs ft : FRegNum) (s : State) : Outcome :=
  s.single2 Fp.single.add fd fs ft

/-- `add.d` (R193): `D[fd] = D[fs] + D[ft]`. -/
def execAddD (fd fs ft : FRegNum) (s : State) : Outcome :=
  s.double2 Fp.double.add fd fs ft

/-- `sub.s` (R204): `F[fd] = F[fs] - F[ft]`. -/
def execSubS (fd fs ft : FRegNum) (s : State) : Outcome :=
  s.single2 Fp.single.sub fd fs ft

/-- `sub.d` (R205): `D[fd] = D[fs] - D[ft]`. -/
def execSubD (fd fs ft : FRegNum) (s : State) : Outcome :=
  s.double2 Fp.double.sub fd fs ft

/-- `mul.s` (R202): `F[fd] = F[fs] * F[ft]`. -/
def execMulS (fd fs ft : FRegNum) (s : State) : Outcome :=
  s.single2 Fp.single.mul fd fs ft

/-- `mul.d` (R203): `D[fd] = D[fs] * D[ft]`. -/
def execMulD (fd fs ft : FRegNum) (s : State) : Outcome :=
  s.double2 Fp.double.mul fd fs ft

/-- `div.s` (R200): `F[fd] = F[fs] / F[ft]`. -/
def execDivS (fd fs ft : FRegNum) (s : State) : Outcome :=
  s.single2 Fp.single.div fd fs ft

/-- `div.d` (R201): `D[fd] = D[fs] / D[ft]`. -/
def execDivD (fd fs ft : FRegNum) (s : State) : Outcome :=
  s.double2 Fp.double.div fd fs ft

/-- `sqrt.s` (R271): square root of a single. -/
def execSqrtS (fd fs : FRegNum) (s : State) : Outcome :=
  s.single1 Fp.single.sqrt fd fs

/-- `sqrt.d` (R272): square root of a double. -/
def execSqrtD (fd fs : FRegNum) (s : State) : Outcome :=
  s.double1 Fp.double.sqrt fd fs

/-- `abs.s` (R273): absolute value of a single. -/
def execAbsS (fd fs : FRegNum) (s : State) : Outcome :=
  s.single1 Fp.single.abs fd fs

/-- `abs.d` (R274): absolute value of a double. -/
def execAbsD (fd fs : FRegNum) (s : State) : Outcome :=
  s.double1 Fp.double.abs fd fs

/-- `neg.s` (R277): negation of a single. -/
def execNegS (fd fs : FRegNum) (s : State) : Outcome :=
  s.single1 Fp.single.neg fd fs

/-- `neg.d` (R278): negation of a double. -/
def execNegD (fd fs : FRegNum) (s : State) : Outcome :=
  s.double1 Fp.double.neg fd fs

/-- `mov.s` (R275): the bits copied unchanged. -/
def execMovS (fd fs : FRegNum) (s : State) : Outcome :=
  .next ((s.setF fd (s.readF fs)).retire)

/-- `mov.d` (R276): the bits copied unchanged. -/
def execMovD (fd fs : FRegNum) (s : State) : Outcome :=
  ifEven [fd, fs] (.next ((s.setD fd (s.readD fs)).retire))

/-- `movz.s` (R279): `F[fd] = F[fs]` when the general register `R[rt]` is 0. -/
def execMovzS (fd fs : FRegNum) (rt : RegNum) (s : State) : Outcome :=
  .next (if s.readR rt = 0 then s.setF fd (s.readF fs) else s).retire

/-- `movz.d` (R280): `D[fd] = D[fs]` when the general register `R[rt]` is 0. -/
def execMovzD (fd fs : FRegNum) (rt : RegNum) (s : State) : Outcome :=
  ifEven [fd, fs] (.next (if s.readR rt = 0 then s.setD fd (s.readD fs) else s).retire)

/-- `movn.s` (R281): `F[fd] = F[fs]` when the general register `R[rt]` is not 0. -/
def execMovnS (fd fs : FRegNum) (rt : RegNum) (s : State) : Outcome :=
  .next (if s.readR rt ≠ 0 then s.setF fd (s.readF fs) else s).retire

/-- `movn.d` (R282): `D[fd] = D[fs]` when the general register `R[rt]` is not 0. -/
def execMovnD (fd fs : FRegNum) (rt : RegNum) (s : State) : Outcome :=
  ifEven [fd, fs] (.next (if s.readR rt ≠ 0 then s.setD fd (s.readD fs) else s).retire)

end Sys2Proof.Machine
end

