-- ==== Sys2Proof/Machine/FpCompare.lean ====
section
/-! DEFINITION. Floating-point compares: R194 to R199, and the named-only R297 to R323. Each is the comparison with the low four bits
of its funct (R323). -/

namespace Sys2Proof.Machine

/-- `c.f.s` (R297): true when never. -/
def execCFS (fs ft : FRegNum) (s : State) : Outcome :=
  s.compareSingle 0#4 fs ft

/-- `c.f.d` (R298): true when never. -/
def execCFD (fs ft : FRegNum) (s : State) : Outcome :=
  s.compareDouble 0#4 fs ft

/-- `c.un.s` (R299): true when unordered. -/
def execCUnS (fs ft : FRegNum) (s : State) : Outcome :=
  s.compareSingle 1#4 fs ft

/-- `c.un.d` (R300): true when unordered. -/
def execCUnD (fs ft : FRegNum) (s : State) : Outcome :=
  s.compareDouble 1#4 fs ft

/-- `c.eq.s` (R194): true when equal. -/
def execCEqS (fs ft : FRegNum) (s : State) : Outcome :=
  s.compareSingle 2#4 fs ft

/-- `c.eq.d` (R197): true when equal. -/
def execCEqD (fs ft : FRegNum) (s : State) : Outcome :=
  s.compareDouble 2#4 fs ft

/-- `c.ueq.s` (R301): true when unordered or equal. -/
def execCUeqS (fs ft : FRegNum) (s : State) : Outcome :=
  s.compareSingle 3#4 fs ft

/-- `c.ueq.d` (R302): true when unordered or equal. -/
def execCUeqD (fs ft : FRegNum) (s : State) : Outcome :=
  s.compareDouble 3#4 fs ft

/-- `c.olt.s` (R303): true when less. -/
def execCOltS (fs ft : FRegNum) (s : State) : Outcome :=
  s.compareSingle 4#4 fs ft

/-- `c.olt.d` (R304): true when less. -/
def execCOltD (fs ft : FRegNum) (s : State) : Outcome :=
  s.compareDouble 4#4 fs ft

/-- `c.ult.s` (R305): true when unordered or less. -/
def execCUltS (fs ft : FRegNum) (s : State) : Outcome :=
  s.compareSingle 5#4 fs ft

/-- `c.ult.d` (R306): true when unordered or less. -/
def execCUltD (fs ft : FRegNum) (s : State) : Outcome :=
  s.compareDouble 5#4 fs ft

/-- `c.ole.s` (R307): true when less or equal. -/
def execCOleS (fs ft : FRegNum) (s : State) : Outcome :=
  s.compareSingle 6#4 fs ft

/-- `c.ole.d` (R308): true when less or equal. -/
def execCOleD (fs ft : FRegNum) (s : State) : Outcome :=
  s.compareDouble 6#4 fs ft

/-- `c.ule.s` (R309): true when unordered, less or equal. -/
def execCUleS (fs ft : FRegNum) (s : State) : Outcome :=
  s.compareSingle 7#4 fs ft

/-- `c.ule.d` (R310): true when unordered, less or equal. -/
def execCUleD (fs ft : FRegNum) (s : State) : Outcome :=
  s.compareDouble 7#4 fs ft

/-- `c.sf.s` (R311): true when never; signalling. -/
def execCSfS (fs ft : FRegNum) (s : State) : Outcome :=
  s.compareSingle 8#4 fs ft

/-- `c.sf.d` (R312): true when never; signalling. -/
def execCSfD (fs ft : FRegNum) (s : State) : Outcome :=
  s.compareDouble 8#4 fs ft

/-- `c.ngle.s` (R313): true when unordered; signalling. -/
def execCNgleS (fs ft : FRegNum) (s : State) : Outcome :=
  s.compareSingle 9#4 fs ft

/-- `c.ngle.d` (R314): true when unordered; signalling. -/
def execCNgleD (fs ft : FRegNum) (s : State) : Outcome :=
  s.compareDouble 9#4 fs ft

/-- `c.seq.s` (R315): true when equal; signalling. -/
def execCSeqS (fs ft : FRegNum) (s : State) : Outcome :=
  s.compareSingle 10#4 fs ft

/-- `c.seq.d` (R316): true when equal; signalling. -/
def execCSeqD (fs ft : FRegNum) (s : State) : Outcome :=
  s.compareDouble 10#4 fs ft

/-- `c.ngl.s` (R317): true when unordered or equal; signalling. -/
def execCNglS (fs ft : FRegNum) (s : State) : Outcome :=
  s.compareSingle 11#4 fs ft

/-- `c.ngl.d` (R318): true when unordered or equal; signalling. -/
def execCNglD (fs ft : FRegNum) (s : State) : Outcome :=
  s.compareDouble 11#4 fs ft

/-- `c.lt.s` (R195): true when less; signalling. -/
def execCLtS (fs ft : FRegNum) (s : State) : Outcome :=
  s.compareSingle 12#4 fs ft

/-- `c.lt.d` (R198): true when less; signalling. -/
def execCLtD (fs ft : FRegNum) (s : State) : Outcome :=
  s.compareDouble 12#4 fs ft

/-- `c.nge.s` (R319): true when unordered or less; signalling. -/
def execCNgeS (fs ft : FRegNum) (s : State) : Outcome :=
  s.compareSingle 13#4 fs ft

/-- `c.nge.d` (R320): true when unordered or less; signalling. -/
def execCNgeD (fs ft : FRegNum) (s : State) : Outcome :=
  s.compareDouble 13#4 fs ft

/-- `c.le.s` (R196): true when less or equal; signalling. -/
def execCLeS (fs ft : FRegNum) (s : State) : Outcome :=
  s.compareSingle 14#4 fs ft

/-- `c.le.d` (R199): true when less or equal; signalling. -/
def execCLeD (fs ft : FRegNum) (s : State) : Outcome :=
  s.compareDouble 14#4 fs ft

/-- `c.ngt.s` (R321): true when unordered, less or equal; signalling. -/
def execCNgtS (fs ft : FRegNum) (s : State) : Outcome :=
  s.compareSingle 15#4 fs ft

/-- `c.ngt.d` (R322): true when unordered, less or equal; signalling. -/
def execCNgtD (fs ft : FRegNum) (s : State) : Outcome :=
  s.compareDouble 15#4 fs ft

end Sys2Proof.Machine
end

