-- ==== Sys2Proof/Machine/FpConvert.lean ====
section
/-! DEFINITION. Floating-point conversions, named only: R283 to R296. -/

namespace Sys2Proof.Machine

/-- `cvt.s.s` (R283): no operation exists; always refused. -/
def execCvtSS (_s : State) : Outcome :=
  .refused .noOperation

/-- `cvt.s.d` (R284): `F[fd] = D[fs]` rounded to single. -/
def execCvtSD (fd fs : FRegNum) (s : State) : Outcome :=
  s.doubleToSingle (Fp.double.convert Fp.single) fd fs

/-- `cvt.d.s` (R285): `D[fd] = F[fs]`, exact. -/
def execCvtDS (fd fs : FRegNum) (s : State) : Outcome :=
  ifEven [fd] (s.deliverDouble fd (Fp.single.convert Fp.double (s.readF fs).toNat))

/-- `cvt.d.d` (R286): no operation exists; always refused. -/
def execCvtDD (_s : State) : Outcome :=
  .refused .noOperation

/-- `cvt.w.s` (R287): a single to a word, rounded to nearest even. -/
def execCvtWS (fd fs : FRegNum) (s : State) : Outcome :=
  s.single1 (Fp.single.toWord .nearestEven) fd fs

/-- `cvt.w.d` (R288): a double to a word, rounded to nearest even. -/
def execCvtWD (fd fs : FRegNum) (s : State) : Outcome :=
  s.doubleToSingle (Fp.double.toWord .nearestEven) fd fs

/-- `round.w.s` (R289): a single to a word, rounded to nearest even. -/
def execRoundWS (fd fs : FRegNum) (s : State) : Outcome :=
  s.single1 (Fp.single.toWord .nearestEven) fd fs

/-- `round.w.d` (R290): a double to a word, rounded to nearest even. -/
def execRoundWD (fd fs : FRegNum) (s : State) : Outcome :=
  s.doubleToSingle (Fp.double.toWord .nearestEven) fd fs

/-- `trunc.w.s` (R291): a single to a word, toward zero. -/
def execTruncWS (fd fs : FRegNum) (s : State) : Outcome :=
  s.single1 (Fp.single.toWord .towardZero) fd fs

/-- `trunc.w.d` (R292): a double to a word, toward zero. -/
def execTruncWD (fd fs : FRegNum) (s : State) : Outcome :=
  s.doubleToSingle (Fp.double.toWord .towardZero) fd fs

/-- `ceil.w.s` (R293): a single to a word, toward plus infinity. -/
def execCeilWS (fd fs : FRegNum) (s : State) : Outcome :=
  s.single1 (Fp.single.toWord .up) fd fs

/-- `ceil.w.d` (R294): a double to a word, toward plus infinity. -/
def execCeilWD (fd fs : FRegNum) (s : State) : Outcome :=
  s.doubleToSingle (Fp.double.toWord .up) fd fs

/-- `floor.w.s` (R295): a single to a word, toward minus infinity. -/
def execFloorWS (fd fs : FRegNum) (s : State) : Outcome :=
  s.single1 (Fp.single.toWord .down) fd fs

/-- `floor.w.d` (R296): a double to a word, toward minus infinity. -/
def execFloorWD (fd fs : FRegNum) (s : State) : Outcome :=
  s.doubleToSingle (Fp.double.toWord .down) fd fs

end Sys2Proof.Machine
end

