-- ==== Sys2Proof/Machine/HiLo.lean ====
section
/-! DEFINITION. Multiplication, division and the moves of Hi and Lo: R175 to R178, R180, R181, R183 to R185, and the named-only
R241, R242. -/

namespace Sys2Proof.Machine

/-- R184: `{Hi,Lo}` receive a 64-bit product. -/
def State.writeProduct (s : State) (p : DWord) : Outcome :=
  .next ((s.setHiLo (p.extractLsb' 32 32) (p.extractLsb' 0 32)).retire)

/-- R183: `Lo` receives the quotient and `Hi` the remainder; where the division has no stated result, each is a draw of its own
(log 9), and the instruction goes on. -/
def State.writeQuotient (s : State) (stated : Bool) (quotient remainder : Word) : Outcome :=
  if stated then .next ((s.setHiLo remainder quotient).retire)
  else .next (((s.setHiLo (Config.freeWord s.draws) (Config.freeWord (s.draws + 1))).useDraws 2).retire)

/-- R183: the signed division has a stated result: the divisor is not 0 and the quotient is not +2^31. -/
def divStated (n d : Word) : Bool :=
  decide (d.toInt ≠ 0) && !(decide (n.toInt = -2 ^ 31) && decide (d.toInt = -1))

/-- `div` (R175): signed; the quotient truncates toward zero, the remainder has the dividend's sign. -/
def execDiv (rs rt : RegNum) (s : State) : Outcome :=
  let n := s.readR rs
  let d := s.readR rt
  s.writeQuotient (divStated n d) (BitVec.ofInt 32 (n.toInt.tdiv d.toInt)) (BitVec.ofInt 32 (n.toInt.tmod d.toInt))

/-- `divu` (R176): unsigned. -/
def execDivu (rs rt : RegNum) (s : State) : Outcome :=
  let n := (s.readR rs).toNat
  let d := (s.readR rt).toNat
  s.writeQuotient (decide (d ≠ 0)) (BitVec.ofNat 32 (n / d)) (BitVec.ofNat 32 (n % d))

/-- `mfhi` (R177): `R[rd] = Hi`. -/
def execMfhi (rd : RegNum) (s : State) : Outcome :=
  s.writeR rd s.hi

/-- `mflo` (R178): `R[rd] = Lo`. -/
def execMflo (rd : RegNum) (s : State) : Outcome :=
  s.writeR rd s.lo

/-- `mult` (R180): `{Hi,Lo} = R[rs] * R[rt]`, signed. -/
def execMult (rs rt : RegNum) (s : State) : Outcome :=
  s.writeProduct (BitVec.ofInt 64 ((s.readR rs).toInt * (s.readR rt).toInt))

/-- `multu` (R181): `{Hi,Lo} = R[rs] * R[rt]`, unsigned. -/
def execMultu (rs rt : RegNum) (s : State) : Outcome :=
  s.writeProduct (BitVec.ofNat 64 ((s.readR rs).toNat * (s.readR rt).toNat))

/-- `mthi` (R241): `Hi = R[rs]`. -/
def execMthi (rs : RegNum) (s : State) : Outcome :=
  .next ((s.setHiLo (s.readR rs) s.lo).retire)

/-- `mtlo` (R242): `Lo = R[rs]`. -/
def execMtlo (rs : RegNum) (s : State) : Outcome :=
  .next ((s.setHiLo s.hi (s.readR rs)).retire)

end Sys2Proof.Machine
end

