-- ==== Sys2Proof/Machine/System.lean ====
section
/-! DEFINITION. `mfc0` (R179), the named-only system instructions (R245 to R249, R254 to R266), and the extension `mtc0` and `eret`
(R357, R358). -/

namespace Sys2Proof.Machine

/-- The field at bits 15:8 of Status (R36): the pending lines as printed, the mask under `INT_FIELDS = mips32`. -/
def State.pendingField (s : State) : BitVec 8 :=
  match s.params.intFields with
  | .asPrinted => s.irq
  | .mips32 => s.intMask

/-- The field at bits 15:8 of Cause (R35): the mask as printed, the pending lines under `INT_FIELDS = mips32`. -/
def State.causeIntField (s : State) : BitVec 8 :=
  match s.params.intFields with
  | .asPrinted => s.intMask
  | .mips32 => s.irq

/-- R36: Status as `mfc0` reads it; the unnamed bits are those of the draw `free` (log 8). -/
def State.statusWord (s : State) (free : Word) : Word :=
  free.extractLsb' 16 16 ++ s.pendingField ++ free.extractLsb' 5 3 ++ BitVec.ofBool s.statusUm ++
    free.extractLsb' 2 2 ++ BitVec.ofBool s.statusEl ++ BitVec.ofBool s.statusIe

/-- R35: Cause as `mfc0` reads it; the unnamed bits are those of the draw `free`. -/
def State.causeWord (s : State) (free : Word) : Word :=
  BitVec.ofBool s.causeBd ++ free.extractLsb' 16 15 ++ s.causeIntField ++ free.extractLsb' 7 1 ++ s.causeExcCode ++
    free.extractLsb' 0 2

/-- R179, R34, R39: the value of `CR[n]`; a number that names no register reads as the draw `free`. -/
def State.readCR (s : State) (n : CRegNum) (free : Word) : Word :=
  if n = s.params.crStatus then s.statusWord free
  else if n = s.params.crCause then s.causeWord free
  else if n = s.params.crEpc then s.epc
  else if n = s.params.crBadVAddr then s.badVAddr
  else free

/-- R357: a write of `CR[n]` by `mtc0`: UM, EL and IE of Status; the mask in the register that holds it; EPC. Every other field
and register keeps its value. -/
def State.writeCR (s : State) (n : CRegNum) (v : Word) : State :=
  { s with
    statusUm := if n = s.params.crStatus then v.getLsbD 4 else s.statusUm
    statusEl := if n = s.params.crStatus then v.getLsbD 1 else s.statusEl
    statusIe := if n = s.params.crStatus then v.getLsbD 0 else s.statusIe
    intMask :=
      if (s.params.intFields = .mips32 ∧ n = s.params.crStatus) ∨ (s.params.intFields = .asPrinted ∧ n = s.params.crCause)
      then v.extractLsb' 8 8 else s.intMask
    epc := if n = s.params.crEpc then v else s.epc }

/-- R361: an instruction of coprocessor 0: `CpU` in user mode, `o` in kernel mode. -/
def State.kernelOnly (s : State) (o : Outcome) : Outcome := if s.userMode then .next (s.trap .cpU) else o

/-- R249: a conditional trap raises `Tr` when its condition holds and else does nothing. -/
def State.trapWhen (s : State) (c : Bool) : Outcome := .next (if c then s.trap .tr else s.retire)

/-- `mfc0` (R179): `R[rt] = CR[rd]` in kernel mode; one draw stands for the bits and registers the spec does not name. -/
def execMfc0 (rt : RegNum) (rd : CRegNum) (s : State) : Outcome :=
  s.kernelOnly (.next (((s.useDraws 1).setR rt (s.readCR rd (Config.freeWord s.draws))).retire))

/-- `syscall` (R245): raises `Sys`; the code field is ignored. -/
def execSyscall (s : State) : Outcome :=
  .next (s.trap .sys)

/-- `break` (R247): raises `Bp`; the code field is ignored. -/
def execBrk (s : State) : Outcome :=
  .next (s.trap .bp)

/-- `sync` (R246): no state change: every access is already ordered (R75, R77). -/
def execSync (s : State) : Outcome :=
  .next s.retire

/-- `cache` (R254): `CpU` in user mode; no state change in kernel mode (R80). -/
def execCache (s : State) : Outcome :=
  s.kernelOnly (.next s.retire)

/-- `pref` (R255): no state change. -/
def execPref (s : State) : Outcome :=
  .next s.retire

/-- `tge` (R256): `Tr` on signed `>=`. -/
def execTge (rs rt : RegNum) (s : State) : Outcome :=
  s.trapWhen ((s.readR rt).sle (s.readR rs))

/-- `tgeu` (R257): `Tr` on unsigned `>=`. -/
def execTgeu (rs rt : RegNum) (s : State) : Outcome :=
  s.trapWhen ((s.readR rt).ule (s.readR rs))

/-- `tlt` (R258): `Tr` on signed `<`. -/
def execTlt (rs rt : RegNum) (s : State) : Outcome :=
  s.trapWhen ((s.readR rs).slt (s.readR rt))

/-- `tltu` (R259): `Tr` on unsigned `<`. -/
def execTltu (rs rt : RegNum) (s : State) : Outcome :=
  s.trapWhen ((s.readR rs).ult (s.readR rt))

/-- `teq` (R260): `Tr` on equal. -/
def execTeq (rs rt : RegNum) (s : State) : Outcome :=
  s.trapWhen (decide (s.readR rs = s.readR rt))

/-- `tne` (R261): `Tr` on not equal. -/
def execTne (rs rt : RegNum) (s : State) : Outcome :=
  s.trapWhen (decide (s.readR rs ≠ s.readR rt))

/-- `lwc2` (R262): coprocessor 2 is absent: always `CpU` (R266). -/
def execLwc2 (s : State) : Outcome :=
  .next (s.trap .cpU)

/-- `ldc2` (R263): coprocessor 2 is absent: always `CpU` (R266). -/
def execLdc2 (s : State) : Outcome :=
  .next (s.trap .cpU)

/-- `swc2` (R264): coprocessor 2 is absent: always `CpU` (R266). -/
def execSwc2 (s : State) : Outcome :=
  .next (s.trap .cpU)

/-- `sdc2` (R265): coprocessor 2 is absent: always `CpU` (R266). -/
def execSdc2 (s : State) : Outcome :=
  .next (s.trap .cpU)

/-- `mtc0` (R357): `CR[rd] = R[rt]` in kernel mode. -/
def execMtc0 (rt : RegNum) (rd : CRegNum) (s : State) : Outcome :=
  s.kernelOnly (.next ((s.writeCR rd (s.readR rt)).retire))

/-- `eret` (R358): the return from a trap, in kernel mode; it has no delay slot, and in one it is refused (R387). -/
def execEret (s : State) : Outcome :=
  s.kernelOnly (if s.inSlot then .refused .transferInDelaySlot else .next s.returnFromTrap)

/-- The meaning of an extension instruction (R357, R358). -/
def execExt (i : ExtInstr) (s : State) : Outcome :=
  match i with
  | .mtc0 rt rd => execMtc0 rt rd s
  | .eret => execEret s

end Sys2Proof.Machine
end

