-- ==== Sys2Proof/Machine/Environment.lean ====
section
/-! DEFINITION. What the outside world does in a step: the interrupt lines (R41, R346) and the writes of other agents (R76),
and the acceptance of an interrupt (R345). -/

namespace Sys2Proof.Machine

/-- The step's sample of the outside world: the lines take the event's level, the writes that come before the fetch land, and those
that come later in the step are noted (R41, R76). With no event left the lines keep their level and nothing is written (log 17,
18). -/
def State.sampleEnv (s : State) : State :=
  match s.env with
  | [] => { s with afterFetch := [], gaps := [] }
  | e :: rest => { s with env := rest, irq := e.irq, afterFetch := e.afterFetch, gaps := e.gaps }.otherWrites e.writes

/-- R345: an interrupt is accepted at the start of this step. -/
def State.interruptPending (s : State) : Bool :=
  s.statusIe && !s.statusEl && decide (s.irq &&& s.intMask ≠ 0)

end Sys2Proof.Machine
end

