-- ==== Sys2Proof/Machine/Fetch.lean ====
section
/-! DEFINITION. Instruction fetch (R66) and the placing of a word where the next step fetches. -/

namespace Sys2Proof.Machine

/-- What a fetch finds. -/
inductive FetchResult where
  /-- The word at `pc`. -/
  | word (w : Word)
  /-- An exception of the fetch; no instruction executes. -/
  | raise (x : Exc)
  /-- A byte of the word has been written by a store of this run, and `CODE_WRITES = refuse` (R79). -/
  | codeWritten
deriving DecidableEq, Repr

/-- R79: a store of this run has written one of the four bytes at an address. -/
def State.wordWritten (s : State) (a : Word) : Bool :=
  s.written.contains a.toNat || s.written.contains (a + 1).toNat || s.written.contains (a + 2).toNat ||
    s.written.contains (a + 3).toNat

/-- R66: alignment, user segment (R68) and bus error (R67), in that order; then R79; then the word, big-endian. -/
def State.fetch (s : State) : FetchResult :=
  if s.pc.extractLsb' 0 2 ≠ 0 then .raise (.adEL s.pc)
  else if s.userBarred s.pc then .raise (.adEL s.pc)
  else if !s.populated s.pc 4 then .raise .ibe
  else if decide (s.params.codeWrites = .refuse) && s.wordWritten s.pc then .codeWritten
  else .word (s.mem.readWord s.pc)

/-- The addresses of a list that are not among the four at `a`. -/
def withoutWord (a : Word) (l : List Nat) : List Nat :=
  l.filter fun k => !(k == a.toNat || k == (a + 1).toNat || k == (a + 2).toNat || k == (a + 3).toNat)

/-- The state with a word placed at `pc`, as the platform or the harness places it (R381): its bytes count as no store. -/
def State.placeWord (s : State) (w : Word) : State :=
  { s with
    mem := s.mem.writeBytes s.pc (bytesOfWord w)
    written := withoutWord s.pc s.written }

/-- The state whose `ADMIT_NAMED_ONLY` is true where it was or is asked to be (R113, log 2). -/
def State.admitting (s : State) (b : Bool) : State :=
  { s with params := { s.params with admitNamedOnly := s.params.admitNamedOnly || b } }

end Sys2Proof.Machine
end

