-- ==== Sys2Proof/Machine/Cycle.lean ====
section
/-! DEFINITION. The step of R15: interrupt acceptance, fetch, decode, execute. The advance of `pc` is in the meanings (`retire`,
`transfer`, `trap`). -/

namespace Sys2Proof.Machine

/-- R113: an instruction that the parameters admit runs; a tier 2 one not admitted is refused. -/
def State.ifAdmitted (s : State) (i : Instr) (o : Outcome) : Outcome :=
  if i.namedOnly && !s.params.admitNamedOnly then .refused .namedOnly else o

/-- R110: a word that matches no row raises `RI` or is refused. -/
def State.unmatched (s : State) : Outcome :=
  match s.params.unmatched with
  | .ri => .next (s.trap .ri)
  | .refuse => .refused .reservedWord

/-- A word that matches no row of the opcode table: under `EXT_CP0_RETURN` the extension's instruction (R357, R358), else R110. -/
def State.runReserved (s : State) (w : Word) : Outcome :=
  if s.params.extCp0Return then
    match decodeExt w with
    | some i => execExt i s
    | none => s.unmatched
  else s.unmatched

/-- R108: a word with a non-zero unused field is refused, or runs its row's rule, which refuses an odd double register itself
(R214). -/
def State.runUnused (s : State) (i : Instr) : Outcome :=
  match s.params.unusedFields with
  | .refuse => .refused .unusedField
  | .ignore => exec i s

/-- R101: what a fetched word does. A word of opcode `0x10` in user mode raises `CpU` before anything else is asked of it (R361,
log 29). -/
def State.runWord (s : State) (w : Word) : Outcome :=
  if s.userMode && decide (opcodeOf w = 0x10#6) then .next (s.trap .cpU)
  else
    match decode (bytesOfWord w) with
    | .ok i => s.ifAdmitted i (exec i s)
    | .error (.unusedField i) => s.ifAdmitted i (s.runUnused i)
    | .error (.oddRegister i) => s.ifAdmitted i (.refused .oddRegister)
    | .error .reserved => s.runReserved w
    | .error .tooShort => .refused .reservedWord

/-- R15 from the fetch on; other agents may write between the fetch and what the word does (R76). -/
def State.fetchAndRun (s : State) : Outcome :=
  match s.fetch with
  | .raise x => .next (s.trap x)
  | .codeWritten => .refused .codeWritten
  | .word w => s.fetched.runWord w

/-- R15 in the state whose inputs have been sampled: an accepted interrupt takes the whole step (R345). -/
def State.cycle (s : State) : Outcome :=
  if s.interruptPending then .next (s.trap .int) else s.fetchAndRun

end Sys2Proof.Machine
end

