-- ==== Sys2Proof/Machine/Step.lean ====
section
/-! DEFINITION. One step of the machine (R15), and the placing of an instruction where the next step fetches it. -/

namespace Sys2Proof.Machine

/-- One step of the processor (R15): one instruction or one trap entry (R389). -/
def step (s : State) : Host.Outcome State Fault Refusal := s.sampleEnv.cycle

/-- The state with the instruction whose bits are `w` (above `nbits` zero) stored at `pc`, where the next step fetches (log 27), and,
where it is a tier 2 one, which R7's default refuses, with `ADMIT_NAMED_ONLY` (R113, log 2). -/
def State.withFetchWord (s : State) (nbits w : Nat) : State :=
  (s.placeWord (BitVec.ofNat 32 (w % 2 ^ nbits))).admitting ((decodeTableWord nbits w).any Instr.namedOnly)

end Sys2Proof.Machine
end

