-- ==== Sys2Proof/Machine/Assembler.lean ====
section
/-! DEFINITION. The assembler's view that the source's tables give (R2 items d and e): the names, uses and calling convention of the
general registers (R21), and the pseudoinstructions with the expansions of R221 to R227. No step of the machine depends on it
(R220, log 35). -/

namespace Sys2Proof.Machine

/-- R21: the assembler's name of a general register. -/
def regName (i : RegNum) : String :=
  ["$zero", "$at", "$v0", "$v1", "$a0", "$a1", "$a2", "$a3",
   "$t0", "$t1", "$t2", "$t3", "$t4", "$t5", "$t6", "$t7",
   "$s0", "$s1", "$s2", "$s3", "$s4", "$s5", "$s6", "$s7",
   "$t8", "$t9", "$k0", "$k1", "$gp", "$sp", "$fp", "$ra"].getD i.toNat ""

/-- R21: the columns USE of the register table. -/
inductive RegUse where
  | constantZero
  | assemblerTemporary
  | resultsAndExpressions
  | arguments
  | temporaries
  | savedTemporaries
  | reservedForKernel
  | globalPointer
  | stackPointer
  | framePointer
  | returnAddress
deriving DecidableEq, Repr

/-- R21: the use of a general register. -/
def regUse (i : RegNum) : RegUse :=
  if i = 0 then .constantZero
  else if i = 1 then .assemblerTemporary
  else if i.toNat ≤ 3 then .resultsAndExpressions
  else if i.toNat ≤ 7 then .arguments
  else if i.toNat ≤ 15 then .temporaries
  else if i.toNat ≤ 23 then .savedTemporaries
  else if i.toNat ≤ 25 then .temporaries
  else if i.toNat ≤ 27 then .reservedForKernel
  else if i = 28 then .globalPointer
  else if i = 29 then .stackPointer
  else if i = 30 then .framePointer
  else .returnAddress

/-- R21: whether the convention preserves a register across a call; none for `$zero` ("N.A."). -/
def RegUse.preservedAcrossCall (u : RegUse) : Option Bool :=
  match u with
  | .constantZero => none
  | .assemblerTemporary => some false
  | .resultsAndExpressions => some false
  | .arguments => some false
  | .temporaries => some false
  | .savedTemporaries => some true
  | .reservedForKernel => some false
  | .globalPointer => some true
  | .stackPointer => some true
  | .framePointer => some true
  | .returnAddress => some true

/-- The pseudoinstructions (R221 to R226), and `nop` (R227). A label is the immediate of the real branch of its expansion. -/
inductive Pseudo where
  /-- R221: Branch Less Than. -/
  | blt (rs rt : RegNum) (label : BitVec 16)
  /-- R222: Branch Greater Than. -/
  | bgt (rs rt : RegNum) (label : BitVec 16)
  /-- R223: Branch Less Than or Equal. -/
  | ble (rs rt : RegNum) (label : BitVec 16)
  /-- R224: Branch Greater Than or Equal. -/
  | bge (rs rt : RegNum) (label : BitVec 16)
  /-- R225: Load Immediate. -/
  | li (rd : RegNum) (v : Word)
  /-- R226: Move. -/
  | move (rd rs : RegNum)
  /-- R227: the word 0. -/
  | nop
deriving DecidableEq, Repr

/-- R225: the expansion of `li`, by the value. -/
def expandLi (rd : RegNum) (v : Word) : List Instr :=
  let low := v.extractLsb' 0 16
  let high := v.extractLsb' 16 16
  if -32768 ≤ v.toInt ∧ v.toInt ≤ 32767 then [.addiu rd 0 low]
  else if v.toNat ≤ 0xFFFF then [.ori rd 0 low]
  else if low = 0 then [.lui rd high]
  else [.lui rd high, .ori rd rd low]

/-- R221 to R227: the instructions a pseudoinstruction stands for. -/
def Pseudo.expand (p : Pseudo) : List Instr :=
  match p with
  | .blt rs rt label => [.slt 1 rs rt, .bne 1 0 label]
  | .bgt rs rt label => [.slt 1 rt rs, .bne 1 0 label]
  | .ble rs rt label => [.slt 1 rt rs, .beq 1 0 label]
  | .bge rs rt label => [.slt 1 rs rt, .beq 1 0 label]
  | .li rd v => expandLi rd v
  | .move rd rs => [.addu rd 0 rs]
  | .nop => [.sll 0 0 0]

end Sys2Proof.Machine
end

