-- ==== Sys2Proof/Safety.lean ====
section
/-! DEFINITION. The terms in which claims are stated: the invariant of the machine, what a step leaves unchanged, how an instruction
ends, when an access passes its checks, the values of floating-point patterns, and a run that a harness ends (R390). -/

namespace Sys2Proof.Machine

/-! ## The invariant -/

/-- The codes of R331, the only ones ever written to Cause. -/
def exceptionCodes : List (BitVec 5) := [0, 4, 5, 6, 7, 8, 9, 10, 11, 12, 13, 15]

/-- What holds after reset and is kept by every step. -/
structure State.Inv (s : State) : Prop where
  /-- Memory is in its canonical form. -/
  memory : s.mem.wf = true
  /-- R22: the stored `R[0]` is 0. -/
  zero : s.regs[0] = 0
  /-- R386: without delay slots no instruction stands in one. -/
  slot : s.params.branchDelay = false → s.inDelay = false
  /-- R78 items 1 and 2: an open pair names an aligned word. -/
  pair : s.llBit = true → s.llAddr.toNat % 4 = 0
  /-- The addresses counted as written rise strictly. -/
  stores : s.written.Pairwise (· < ·)

/-! ## Frames -/

/-- The parts of State that frames speak of, but for `pc` and the delay slot. -/
inductive Part where
  /-- `R[0..31]`. -/
  | general
  /-- `Hi` and `Lo`. -/
  | hiLo
  /-- `F[0..31]`. -/
  | fp
  /-- `FPcond`. -/
  | cond
  /-- Status.UM, Status.IE, the interrupt mask and the interrupt lines. -/
  | control
  /-- Status.EL, Cause.BD, Cause.ExceptionCode, EPC and BadVAddr. -/
  | exception
  /-- `LLbit` and `LLaddr`. -/
  | pair
  /-- Every byte of memory. -/
  | memory
  /-- The addresses counted as written. -/
  | stores
  /-- The number of draws used. -/
  | draws
  /-- The parameters, the coming inputs, and what other agents still write in this step. -/
  | outside
deriving DecidableEq, Repr

/-- A part of the state is in `t` as in `s`. -/
def State.same (s t : State) (p : Part) : Prop :=
  match p with
  | .general => ∀ i, t.readR i = s.readR i
  | .hiLo => t.hi = s.hi ∧ t.lo = s.lo
  | .fp => ∀ i, t.readF i = s.readF i
  | .cond => t.fpCond = s.fpCond
  | .control => t.statusUm = s.statusUm ∧ t.statusIe = s.statusIe ∧ t.intMask = s.intMask ∧ t.irq = s.irq
  | .exception => t.statusEl = s.statusEl ∧ t.causeBd = s.causeBd ∧ t.causeExcCode = s.causeExcCode ∧ t.epc = s.epc ∧
      t.badVAddr = s.badVAddr
  | .pair => t.llBit = s.llBit ∧ t.llAddr = s.llAddr
  | .memory => ∀ a, t.mem.read a = s.mem.read a
  | .stores => t.written = s.written
  | .draws => t.draws = s.draws
  | .outside => t.params = s.params ∧ t.env = s.env ∧ t.afterFetch = s.afterFetch ∧ t.gaps = s.gaps

/-- Every part but those listed is unchanged. -/
def State.sameBut (s t : State) (changed : List Part) : Prop := ∀ p, p ∉ changed → s.same t p

/-! ## How an instruction ends -/

/-- R25, R386: the end of an instruction that is no control transfer. In a delay slot `pc` goes where the branch said. -/
structure State.Retired (s t : State) : Prop where
  pc : t.pc = if s.params.branchDelay = true ∧ s.inDelay = true then s.delayTarget else s.pc + 4
  slot : t.inDelay = if s.params.branchDelay = true then false else s.inDelay

/-- The instruction's one effect, beside its end, is the general register `rd` (R22: none when `rd` is 0). -/
structure State.WroteR (s t : State) (rd : RegNum) (v : Word) : Prop where
  result : rd ≠ 0 → t.readR rd = v
  others : ∀ i, i ≠ rd → t.readR i = s.readR i
  zero : t.readR 0 = 0
  rest : s.sameBut t [.general]
  ended : s.Retired t

/-- The instruction's one effect is nothing but its end. -/
structure State.DidNothing (s t : State) : Prop where
  rest : s.sameBut t []
  ended : s.Retired t

/-- R340: trap entry with an exception code and, for codes 4 and 5, the faulting address. -/
structure State.TookTrap (s t : State) (code : BitVec 5) (addr : Option Word) : Prop where
  /-- Status.EL was 0 and the victim stands in no delay slot: EPC is the victim, BD 0. -/
  first : s.statusEl = false → ¬(s.params.branchDelay = true ∧ s.inDelay = true) → t.epc = s.pc ∧ t.causeBd = false
  /-- Status.EL was 0 and the victim stands in a delay slot: EPC is the branch, BD 1 (R388). -/
  inSlot : s.statusEl = false → s.params.branchDelay = true → s.inDelay = true → t.epc = s.pc - 4 ∧ t.causeBd = true
  /-- Status.EL was 1: both keep their values (R349). -/
  nested : s.statusEl = true → t.epc = s.epc ∧ t.causeBd = s.causeBd
  code : t.causeExcCode = code
  badVAddr : t.badVAddr = addr.getD s.badVAddr
  level : t.statusEl = true
  pair : t.llBit = false ∧ t.llAddr = s.llAddr
  slot : t.inDelay = false
  pc : t.pc = s.params.excVector
  rest : s.sameBut t [.exception, .pair]

/-- With no delay slots, a control transfer to `target`: the instruction's one effect is `pc`. -/
structure State.WentTo (s t : State) (target : Word) : Prop where
  pc : t.pc = target
  slot : t.inDelay = s.inDelay
  rest : s.sameBut t []

/-- With delay slots (R386), a control transfer outside a slot: the next instruction stands in the slot, and after it `pc` goes to
`target`. -/
structure State.OpenedSlot (s t : State) (target : Word) : Prop where
  pc : t.pc = s.pc + 4
  slot : t.inDelay = true
  target : t.delayTarget = target

/-! ## Accesses -/

/-- R83: a data access at `ea`, of the `n` bytes from `base` on, passes every check: alignment (R64), user segment (R68), bus
error (R67; of a doubleword, both words, R336). -/
structure State.AccessOk (s : State) (ea : Word) (align : Nat) (base : Word) (n : Nat) : Prop where
  aligned : ea.toNat % align = 0
  allowed : s.params.userSegmentCheck = true → s.userMode = true → ea.getLsbD 31 = false
  populated : ∀ p ∈ busAccesses base n, memPopulated s.params.holes p.1 p.2 = true

/-- After a store of `bytes` at `a`: these bytes of memory hold them, and every other byte is as before. -/
structure Stored (m m' : Memory) (a : Word) (bytes : List Byte) : Prop where
  inside : ∀ k (h : k < bytes.length), m'.read (a + BitVec.ofNat 32 k) = bytes[k]
  others : ∀ x : Word, bytes.length ≤ (x - a).toNat → m'.read x = m.read x

/-! ## Writes in one order (R76) -/

/-- What a byte that held `old` holds after a list of writes: the last of them at its address. -/
def lastWrite : AgentWrites → Word → Byte → Byte
  | [], _, old => old
  | (a, b) :: rest, x, old => lastWrite rest x (if a = x then b else old)

/-- Consecutive bytes from an address on, as writes. -/
def bytesFrom (a : Word) : List Byte → AgentWrites
  | [] => []
  | b :: bs => (a, b) :: bytesFrom (a + 1) bs

/-- What other agents write between data accesses `k` and `k + 1` of the instruction. -/
def State.gap (s : State) (k : Nat) : AgentWrites := s.allowedWrites (s.gaps.getD k [])

/-- The stores of one instruction after its first, the first of them after gap `k`, and the writes of other agents before each. -/
def State.restWrites (s : State) (k : Nat) : List (Word × List Byte) → AgentWrites
  | [] => []
  | (a, bytes) :: rest => s.gap k ++ bytesFrom a bytes ++ s.restWrites (k + 1) rest

/-- The stores of one instruction and the writes of other agents between them, in the single order of all writes. -/
def State.seqWrites (s : State) : List (Word × List Byte) → AgentWrites
  | [] => []
  | (a, bytes) :: rest => bytesFrom a bytes ++ s.restWrites 0 rest

/-- What other agents write between the first `n + 1` data accesses of the instruction. -/
def State.gapWrites (s : State) (n : Nat) : AgentWrites := (List.range n).flatMap s.gap

/-- R78 item 3: the pair is open after the writes exactly when it was and none lies in its aligned word; it keeps its address. -/
def State.PairAfter (s t : State) (ws : AgentWrites) : Prop :=
  (t.llBit = true ↔ s.llBit = true ∧ ∀ w ∈ ws, w.1.toNat / 4 ≠ s.llAddr.toNat / 4) ∧ t.llAddr = s.llAddr

/-- R76: what other agents' writes `ws` leave of memory and of the open pair. -/
structure State.OthersWrote (s t : State) (ws : AgentWrites) : Prop where
  bytes : ∀ x, t.mem.read x = lastWrite ws x (s.mem.read x)
  pair : s.PairAfter t ws

/-- The instruction's one effect is its stores `l`, in order, each atomic by itself (R71), with what other agents write between
them. The bytes it stores, and no others, count as written (R79). -/
structure State.StoredSeq (s t : State) (l : List (Word × List Byte)) : Prop where
  bytes : ∀ x, t.mem.read x = lastWrite (s.seqWrites l) x (s.mem.read x)
  pair : s.PairAfter t (s.gapWrites (l.length - 1))
  written : ∀ x, x ∈ t.written ↔ x ∈ s.written ∨ ∃ p ∈ l, ∃ k < p.2.length, x = (p.1 + BitVec.ofNat 32 k).toNat
  rest : s.sameBut t [.memory, .stores, .pair]
  ended : s.Retired t

/-! ## Floating point -/

namespace Fp

/-- R31, R32, R33: the value of a pattern that is neither an infinity nor a NaN: `(-1)^S (1 + Fraction) 2^(Exponent - Bias)`, and
for a denormal or a zero `(-1)^S (0 + Fraction) 2^(1 - Bias)`. -/
def Format.value (f : Format) (x : Nat) : ℚ :=
  (if f.sign x then -1 else 1) *
    (if f.expField x = 0 then ((f.frac x : ℚ) / 2 ^ f.fracBits) * (2 : ℚ) ^ (1 - (f.bias : ℤ))
     else (1 + (f.frac x : ℚ) / 2 ^ f.fracBits) * (2 : ℚ) ^ ((f.expField x : ℤ) - (f.bias : ℤ)))

/-- The pattern is as wide as the format and neither an infinity nor a NaN. -/
def Format.Finite (f : Format) (x : Nat) : Prop := x < 2 ^ f.width ∧ f.expField x ≠ f.maxExp

/-- R210: the finite pattern `x` is `v` rounded to nearest, ties to the even fraction. -/
structure Format.Nearest (f : Format) (v : ℚ) (x : Nat) : Prop where
  finite : f.Finite x
  least : ∀ y, f.Finite y → |f.value x - v| ≤ |f.value y - v|
  even : ∀ y, f.Finite y → f.value y ≠ f.value x → |f.value y - v| = |f.value x - v| → f.frac x % 2 = 0

/-- From this magnitude on a value rounds to an infinity: the greatest finite value and half a unit of its last place. -/
def Format.overflowBound (f : Format) : ℚ := (2 - 1 / 2 ^ (f.fracBits + 1)) * (2 : ℚ) ^ (f.bias : ℤ)

/-- R210: the result is the exact value `v` rounded once: the nearest pattern, of the sign of `v` (a zero that `v ≠ 0` rounds to
included), or too large and an infinity of its sign. Overflow is signalled where the value is too large, and inexact where the
result is not `v` (log 16). -/
def Format.RoundsTo (f : Format) (v : ℚ) (r : Result) : Prop :=
  r.signals.invalid = false ∧ r.signals.divZero = false ∧
  if |v| < f.overflowBound then
    ∃ x, r.out = .bits x ∧ f.Nearest v x ∧ (v ≠ 0 → f.sign x = decide (v < 0)) ∧ r.signals.overflow = false ∧
      (r.signals.inexact = true ↔ f.value x ≠ v)
  else r.out = .bits (f.signBit (decide (v < 0)) + f.maxExp * 2 ^ f.fracBits) ∧ r.signals.overflow = true ∧
    r.signals.inexact = true

/-- The word a result may leave in a register: its pattern, or any NaN (R211), or any word (R270). -/
def Out.AllowsWord (o : Out) (w : Word) : Prop :=
  match o with
  | .bits x => w = BitVec.ofNat 32 x
  | .anyNaN => single.isNaN w.toNat = true
  | .anyWord => True

/-- The doubleword a result may leave in a pair. -/
def Out.AllowsDWord (o : Out) (w : DWord) : Prop :=
  match o with
  | .bits x => w = BitVec.ofNat 64 x
  | .anyNaN => double.isNaN w.toNat = true
  | .anyWord => True

end Fp

/-- The instruction's one effect is `F[fd]`, which holds a word that the result allows. -/
structure State.WroteF (s t : State) (fd : FRegNum) (o : Fp.Out) : Prop where
  result : o.AllowsWord (t.readF fd)
  others : ∀ i, i ≠ fd → t.readF i = s.readF i
  rest : s.sameBut t [.fp, .draws]
  ended : s.Retired t

/-- The instruction's one effect is the pair `D[fd]`. -/
structure State.WroteD (s t : State) (fd : FRegNum) (o : Fp.Out) : Prop where
  result : o.AllowsDWord (t.readD fd)
  others : ∀ i, i ≠ fd → i ≠ fd + 1 → t.readF i = s.readF i
  rest : s.sameBut t [.fp, .draws]
  ended : s.Retired t

/-- The instruction's one effect is `FPcond`. -/
structure State.WroteCond (s t : State) (b : Bool) : Prop where
  result : t.fpCond = b
  rest : s.sameBut t [.cond]
  ended : s.Retired t

/-! ## Instructions of one shape -/

/-- The loads that need alignment (R64, R65), with the bytes each moves. -/
def alignedLoads (rt : RegNum) (ft : FRegNum) (rs : RegNum) (imm : BitVec 16) : List (Instr × Nat) :=
  [(.lhu rt rs imm, 2), (.lh rt rs imm, 2), (.lw rt rs imm, 4), (.ll rt rs imm, 4), (.lwc1 ft rs imm, 4),
   (.ldc1 ft rs imm, 8)]

/-- The stores that need alignment (R64, R65), with the bytes each moves. -/
def alignedStores (rt : RegNum) (ft : FRegNum) (rs : RegNum) (imm : BitVec 16) : List (Instr × Nat) :=
  [(.sh rt rs imm, 2), (.sw rt rs imm, 4), (.sc rt rs imm, 4), (.swc1 ft rs imm, 4), (.sdc1 ft rs imm, 8)]

/-- Every load, with the alignment it needs, and the bytes it touches as their first address less the effective address and their
number (R64, R67, R248): `lwl` and `lwr` touch the aligned word. -/
def loads (rt : RegNum) (ft : FRegNum) (rs : RegNum) (imm : BitVec 16) (ea : Word) : List (Instr × Nat × Word × Nat) :=
  (.lbu rt rs imm, 1, ea, 1) :: (.lb rt rs imm, 1, ea, 1) :: (.lwl rt rs imm, 1, alignedWord ea, 4) ::
    (.lwr rt rs imm, 1, alignedWord ea, 4) :: (alignedLoads rt ft rs imm).map fun p => (p.1, p.2, ea, p.2)

/-- Every store, as `loads`. -/
def stores (rt : RegNum) (ft : FRegNum) (rs : RegNum) (imm : BitVec 16) (ea : Word) : List (Instr × Nat × Word × Nat) :=
  (.sb rt rs imm, 1, ea, 1) :: (.swl rt rs imm, 1, alignedWord ea, 4) :: (.swr rt rs imm, 1, alignedWord ea, 4) ::
    (alignedStores rt ft rs imm).map fun p => (p.1, p.2, ea, p.2)

/-- The control transfers that do not link, with whether each is taken and its target (R150 to R154, R190, R191, R231, R232). -/
def plainTransfers (s : State) (rs rt : RegNum) (imm : BitVec 16) (addr : BitVec 26) : List (Instr × Bool × Word) :=
  let branch := s.pc + 4 + BitVec.ofInt 32 (4 * imm.toInt)
  [(.beq rs rt imm, decide (s.readR rs = s.readR rt), branch), (.bne rs rt imm, decide (s.readR rs ≠ s.readR rt), branch),
   (.blez rs imm, decide ((s.readR rs).toInt ≤ 0), branch), (.bgtz rs imm, decide ((s.readR rs).toInt > 0), branch),
   (.bc1t imm, s.fpCond, branch), (.bc1f imm, !s.fpCond, branch),
   (.j addr, true, (s.pc + 4).extractLsb' 28 4 ++ addr ++ 0#2), (.jr rs, true, s.readR rs)]

/-- The control transfers that link, with the register each links and its target (R153, R239). -/
def linkingTransfers (s : State) (rd rs : RegNum) (addr : BitVec 26) : List (Instr × RegNum × Word) :=
  [(.jal addr, 31, (s.pc + 4).extractLsb' 28 4 ++ addr ++ 0#2), (.jalr rd rs, rd, s.readR rs)]

/-- The conditional traps with their conditions (R256 to R261). -/
def conditionalTraps (s : State) (rs rt : RegNum) (tcode : BitVec 10) : List (Instr × Bool) :=
  let a := s.readR rs
  let b := s.readR rt
  [(.tge rs rt tcode, decide (b.toInt ≤ a.toInt)), (.tgeu rs rt tcode, decide (b.toNat ≤ a.toNat)),
   (.tlt rs rt tcode, decide (a.toInt < b.toInt)), (.tltu rs rt tcode, decide (a.toNat < b.toNat)),
   (.teq rs rt tcode, decide (a = b)), (.tne rs rt tcode, decide (a ≠ b))]

/-- The conversions of a single to a word, with their rounding modes (R287, R289, R291, R293, R295). -/
def singleToWord (fd fs : FRegNum) : List (Instr × Fp.Mode) :=
  [(.cvtWS fd fs, .nearestEven), (.roundWS fd fs, .nearestEven), (.truncWS fd fs, .towardZero), (.ceilWS fd fs, .up),
   (.floorWS fd fs, .down)]

/-- The conversions of a double to a word, with their rounding modes (R288, R290, R292, R294, R296). -/
def doubleToWord (fd fs : FRegNum) : List (Instr × Fp.Mode) :=
  [(.cvtWD fd fs, .nearestEven), (.roundWD fd fs, .nearestEven), (.truncWD fd fs, .towardZero), (.ceilWD fd fs, .up),
   (.floorWD fd fs, .down)]

/-- The instructions whose result is one word of an `F` register, with the register numbers that must be even and the result: single
arithmetic (R192, R200, R202, R204, R271), `abs` and `neg` (R273, R277), the conversion from double (R284), the conversions to a word
(R287 to R296). -/
def singleResults (s : State) (fd fs ft : FRegNum) : List (Instr × List FRegNum × Fp.Result) :=
  let a := (s.readF fs).toNat
  let b := (s.readF ft).toNat
  let d := (s.readD fs).toNat
  [(.addS fd fs ft, [], Fp.single.add a b), (.subS fd fs ft, [], Fp.single.sub a b), (.mulS fd fs ft, [], Fp.single.mul a b),
   (.divS fd fs ft, [], Fp.single.div a b), (.sqrtS fd fs, [], Fp.single.sqrt a), (.absS fd fs, [], Fp.single.abs a),
   (.negS fd fs, [], Fp.single.neg a), (.cvtSD fd fs, [fs], Fp.double.convert Fp.single d)] ++
    (singleToWord fd fs).map (fun p => (p.1, [], Fp.single.toWord p.2 a)) ++
    (doubleToWord fd fs).map (fun p => (p.1, [fs], Fp.double.toWord p.2 d))

/-- The instructions whose result is one double, as `singleResults`: R193, R201, R203, R205, R272, R274, R278, R285. -/
def doubleResults (s : State) (fd fs ft : FRegNum) : List (Instr × List FRegNum × Fp.Result) :=
  let a := (s.readD fs).toNat
  let b := (s.readD ft).toNat
  [(.addD fd fs ft, [fd, fs, ft], Fp.double.add a b), (.subD fd fs ft, [fd, fs, ft], Fp.double.sub a b),
   (.mulD fd fs ft, [fd, fs, ft], Fp.double.mul a b), (.divD fd fs ft, [fd, fs, ft], Fp.double.div a b),
   (.sqrtD fd fs, [fd, fs], Fp.double.sqrt a), (.absD fd fs, [fd, fs], Fp.double.abs a), (.negD fd fs, [fd, fs], Fp.double.neg a),
   (.cvtDS fd fs, [fd], Fp.single.convert Fp.double (s.readF fs).toNat)]

/-- R270: the integer is the value rounded in the mode. -/
def Fp.Mode.Rounds (mode : Fp.Mode) (x : ℚ) (n : Int) : Prop :=
  match mode with
  | .nearestEven => |x - n| ≤ 1 / 2 ∧ (|x - n| = 1 / 2 → n % 2 = 0)
  | .towardZero => n = if 0 ≤ x then ⌊x⌋ else ⌈x⌉
  | .up => n = ⌈x⌉
  | .down => n = ⌊x⌋

/-- A compare of singles and the same compare of doubles, the relations that make them true (the table of R323), and whether they
signal invalid on every NaN (R212, R323). -/
structure CompareRow where
  single : Instr
  double : Instr
  less : Bool
  equal : Bool
  unordered : Bool
  signalling : Bool
deriving DecidableEq, Repr

/-- The compares, in the order of the table of R323. -/
def compares (fs ft : FRegNum) : List CompareRow :=
  [⟨.cFS fs ft, .cFD fs ft, false, false, false, false⟩, ⟨.cUnS fs ft, .cUnD fs ft, false, false, true, false⟩,
   ⟨.cEqS fs ft, .cEqD fs ft, false, true, false, false⟩, ⟨.cUeqS fs ft, .cUeqD fs ft, false, true, true, false⟩,
   ⟨.cOltS fs ft, .cOltD fs ft, true, false, false, false⟩, ⟨.cUltS fs ft, .cUltD fs ft, true, false, true, false⟩,
   ⟨.cOleS fs ft, .cOleD fs ft, true, true, false, false⟩, ⟨.cUleS fs ft, .cUleD fs ft, true, true, true, false⟩,
   ⟨.cSfS fs ft, .cSfD fs ft, false, false, false, true⟩, ⟨.cNgleS fs ft, .cNgleD fs ft, false, false, true, true⟩,
   ⟨.cSeqS fs ft, .cSeqD fs ft, false, true, false, true⟩, ⟨.cNglS fs ft, .cNglD fs ft, false, true, true, true⟩,
   ⟨.cLtS fs ft, .cLtD fs ft, true, false, false, true⟩, ⟨.cNgeS fs ft, .cNgeD fs ft, true, false, true, true⟩,
   ⟨.cLeS fs ft, .cLeD fs ft, true, true, false, true⟩, ⟨.cNgtS fs ft, .cNgtD fs ft, true, true, true, true⟩]

/-- R212: a compare of the row signals invalid on the operands: one of them is a NaN, and the compare is a signalling one or a NaN
operand is a signalling NaN (log 13). -/
def CompareRow.signalsInvalid (p : CompareRow) (f : Fp.Format) (a b : Nat) : Bool :=
  (f.isNaN a || f.isNaN b) && (p.signalling || f.signalling a || f.signalling b)

/-- The truth of a compare of the row, from the relation of its operands. -/
def CompareRow.holds (p : CompareRow) (r : Fp.Relation) : Bool :=
  match r with
  | .less => p.less
  | .equal => p.equal
  | .greater => false
  | .unordered => p.unordered

/-- Every instruction with a double-precision operand, with the register numbers that must be even (R214). -/
def doubleOperands (fd fs ft : FRegNum) (rs : RegNum) (imm : BitVec 16) : List (Instr × List FRegNum) :=
  [(.addD fd fs ft, [fd, fs, ft]), (.subD fd fs ft, [fd, fs, ft]), (.mulD fd fs ft, [fd, fs, ft]),
   (.divD fd fs ft, [fd, fs, ft]), (.sqrtD fd fs, [fd, fs]), (.absD fd fs, [fd, fs]), (.negD fd fs, [fd, fs]),
   (.movD fd fs, [fd, fs]), (.movzD fd fs rs, [fd, fs]), (.movnD fd fs rs, [fd, fs]), (.cvtSD fd fs, [fs]),
   (.cvtDS fd fs, [fd]), (.ldc1 fd rs imm, [fd]), (.sdc1 fd rs imm, [fd])] ++
    (doubleToWord fd fs).map (fun p => (p.1, [fs])) ++ (compares fs ft).map (fun p => (p.double, [fs, ft]))

/-! ## Runs -/

/-- The meanings of a list of instructions, one after another: what an expansion of R221 to R227 does. -/
def execAll : List Instr → State → Outcome
  | [], s => .next s
  | i :: rest, s =>
    match exec i s with
    | .next t => execAll rest t
    | .fault f => .fault f
    | .refused r => .refused r

/-- R390: a run of at most `fuel` steps, `HALT` examined before each; a refusal ends it too (log 31). -/
def runUntil (halt : State → Bool) : Nat → State → Outcome
  | 0, s => .next s
  | fuel + 1, s =>
    if halt s then .next s
    else match step s with
      | .next t => runUntil halt fuel t
      | .fault f => .fault f
      | .refused r => .refused r

end Sys2Proof.Machine
end

