-- ==== Sys2Proof/Certificates/Slice0/Obligations.lean ====
section
/-! DEFINITION. The statements for the provers. `∃ t, exec i s = .next t ∧ …` says that the instruction completes and what the next
state is; the frames are in the predicates of Safety.lean. -/

open Sys2Proof Sys2Proof.Machine

/-! ## Encoding -/

/-- Decoding an encoded well-formed instruction gives it back (R61, R90 to R95, R103 to R107). -/
def Obligations.DecodeOfEncode : Prop :=
  ∀ i : Instr, i.wellFormed = true → decode (encodeBytes i) = .ok i

/-- A word that decodes to an instruction is the word the encoder writes for it, and the instruction is well formed: each word has
one meaning, and no bit of it is dropped (R101, R108, R214). -/
def Obligations.EncodeOfDecode : Prop :=
  ∀ (w : Word) (i : Instr), decode (bytesOfWord w) = .ok i → encode i = w ∧ i.wellFormed = true

/-- R111: the words that match no row are exactly those of the blank slots. -/
def Obligations.ReservedEncodings : Prop :=
  ∀ w : Word, decode (bytesOfWord w) = .error .reserved ↔
    opcodeOf w ∈ [0x01#6, 0x12#6, 0x13#6, 0x14#6, 0x15#6, 0x16#6, 0x17#6, 0x18#6, 0x19#6, 0x1a#6, 0x1b#6, 0x1c#6, 0x1d#6,
      0x1e#6, 0x1f#6, 0x27#6, 0x2c#6, 0x2d#6, 0x34#6, 0x37#6, 0x3b#6, 0x3c#6, 0x3f#6] ∨
    (opcodeOf w = 0x10#6 ∧ (rsOf w ≠ 0 ∨ functOf w ≠ 0)) ∨
    (opcodeOf w = 0x11#6 ∧ fmtOf w ∉ [0x08#5, 0x10#5, 0x11#5]) ∨
    (opcodeOf w = 0x11#6 ∧ fmtOf w = 0x08#5 ∧ ftOf w ∉ [0#5, 1#5]) ∨
    (opcodeOf w = 0x00#6 ∧ functOf w ∈ [0x01#6, 0x05#6, 0x0e#6, 0x14#6, 0x15#6, 0x16#6, 0x17#6, 0x1c#6, 0x1d#6, 0x1e#6,
      0x1f#6, 0x28#6, 0x29#6, 0x2c#6, 0x2d#6, 0x2e#6, 0x2f#6, 0x35#6, 0x37#6, 0x38#6, 0x39#6, 0x3a#6, 0x3b#6, 0x3c#6, 0x3d#6,
      0x3e#6, 0x3f#6]) ∨
    (opcodeOf w = 0x11#6 ∧ (fmtOf w = 0x10#5 ∨ fmtOf w = 0x11#5) ∧ functOf w ∈ [0x08#6, 0x09#6, 0x0a#6, 0x0b#6, 0x10#6,
      0x11#6, 0x14#6, 0x15#6, 0x16#6, 0x17#6, 0x18#6, 0x19#6, 0x1a#6, 0x1b#6, 0x1c#6, 0x1d#6, 0x1e#6, 0x1f#6, 0x22#6, 0x23#6,
      0x25#6, 0x26#6, 0x27#6, 0x28#6, 0x29#6, 0x2a#6, 0x2b#6, 0x2c#6, 0x2d#6, 0x2e#6, 0x2f#6])

/-- Words printed in the spec decode to the instructions they stand for. -/
def Obligations.PrintedWordsDecode : Prop :=
  decode [0x01, 0x09, 0x08, 0x2A] = .ok (.slt 1 8 9) ∧ decode [0x14, 0x20, 0x00, 0x03] = .ok (.bne 1 0 3) ∧
  decode [0x24, 0x08, 0xFF, 0xFB] = .ok (.addiu 8 0 0xFFFB) ∧ decode [0x00, 0x09, 0x40, 0x21] = .ok (.addu 8 0 9) ∧
  decode [0x46, 0x20, 0x10, 0x20] = .ok (.cvtSD 0 2) ∧ decode [0x00, 0x00, 0x00, 0x00] = .ok (.sll 0 0 0)

/-- R96 to R99: the derived operands as numbers. -/
def Obligations.DerivedOperands : Prop :=
  ∀ (imm : BitVec 16) (addr : BitVec 26) (pc : Word),
    (signExtImm imm).toInt = imm.toInt ∧ (zeroExtImm imm).toNat = imm.toNat ∧
    (branchAddr imm).toInt = 4 * imm.toInt ∧
    (jumpAddr pc addr).toNat = (pc + 4).toNat / 2 ^ 28 * 2 ^ 28 + 4 * addr.toNat

/-! ## Memory -/

/-- In memory of canonical form (`Memory.wf`) a byte written reads back, every other byte reads as before, and the form is kept; two
memories of canonical form that read alike at every address are equal. The form itself is the model's choice and no rule's words (log
6, DESIGN CHOICE): the list of the bytes that differ from what an unlisted address reads as, by rising address. -/
def Obligations.MemoryBytes : Prop :=
  (∀ (m : Memory) (a : Word) (v : Byte), m.wf = true →
    (m.write a v).read a = v ∧ (∀ x, x ≠ a → (m.write a v).read x = m.read x) ∧ (m.write a v).wf = true) ∧
  (∀ m m' : Memory, m.wf = true → m'.wf = true → (∀ a, m.read a = m'.read a) → m = m')

/-- R61: reads and writes of halfwords and words are big-endian, for data and for fetch. -/
def Obligations.ByteOrder : Prop :=
  (∀ (m : Memory) (a : Word),
    (m.readHalf a).toNat = (m.read a).toNat * 2 ^ 8 + (m.read (a + 1)).toNat ∧
    (m.readWord a).toNat = (m.read a).toNat * 2 ^ 24 + (m.read (a + 1)).toNat * 2 ^ 16 + (m.read (a + 2)).toNat * 2 ^ 8 +
      (m.read (a + 3)).toNat) ∧
  (∀ (m : Memory) (a : Word) (v : Byte), m.wf = true → (m.writeBytes a [v]).read a = v) ∧
  (∀ (m : Memory) (a : Word) (v : BitVec 16), m.wf = true →
    (m.writeBytes a (bytesOfHalf v)).read a = v.extractLsb' 8 8 ∧
    (m.writeBytes a (bytesOfHalf v)).read (a + 1) = v.extractLsb' 0 8) ∧
  (∀ (m : Memory) (a : Word) (v : Word), m.wf = true →
    (m.writeBytes a (bytesOfWord v)).read a = v.extractLsb' 24 8 ∧
    (m.writeBytes a (bytesOfWord v)).read (a + 1) = v.extractLsb' 16 8 ∧
    (m.writeBytes a (bytesOfWord v)).read (a + 2) = v.extractLsb' 8 8 ∧
    (m.writeBytes a (bytesOfWord v)).read (a + 3) = v.extractLsb' 0 8) ∧
  (∀ (s : State) (w : Word), s.fetch = .word w → w = s.mem.readWord s.pc)

/-! ## The step -/

/-- R15: when no interrupt is accepted, the fetch finds a word and its bytes decode to an instruction that the parameters admit, the
step is that instruction's meaning in the state whose inputs have been sampled and in which the writes that other agents make after
the fetch have landed (R76; the moments at which they may land are named by the step's event, the model's choice, log 18). -/
def Obligations.StepRunsDecoded : Prop :=
  ∀ (s : State) (w : Word) (i : Instr), s.sampleEnv.interruptPending = false → s.sampleEnv.fetch = .word w →
    decode (bytesOfWord w) = .ok i → (s.userMode = true → opcodeOf w ≠ 0x10#6) →
    (i.namedOnly = true → s.params.admitNamedOnly = true) → step s = exec i s.sampleEnv.fetched

/-- R41, R345: at the start of a step, in the state whose inputs have been sampled, an interrupt is accepted exactly when IE is 1,
EL is 0 and an unmasked line is pending; then the whole step is trap entry with code 0; otherwise the step fetches. That the
sampled lines are those of the first of a list of events is the model's choice (log 17). -/
def Obligations.InterruptAcceptance : Prop :=
  (∀ s : State, s.statusIe = true → s.statusEl = false → (∃ k, s.sampleEnv.irq.getLsbD k = true ∧ s.intMask.getLsbD k = true) →
    ∃ t, step s = .next t ∧ s.sampleEnv.TookTrap t 0 none) ∧
  (∀ s : State, s.statusIe = false ∨ s.statusEl = true ∨ (∀ k, s.sampleEnv.irq.getLsbD k = true → s.intMask.getLsbD k = false) →
    step s = s.sampleEnv.fetchAndRun) ∧
  (∀ (s : State) (e : EnvEvent) (rest : List EnvEvent), s.env = e :: rest → s.sampleEnv.irq = e.irq ∧ s.sampleEnv.env = rest)

/-- R76, R78 item 3: what other agents write, any list of writes, lands in order: each byte holds the last write to it, and the open
pair is closed exactly when one lies in its aligned word; without `EXTERNAL_WRITERS` nothing lands; nothing else changes. That a step
takes the first of a list of events, which names the lines, the writes before the fetch, those after it and those between data
accesses, is the model's choice (log 17, 18); with no event left the lines stay and nothing is written. -/
def Obligations.OtherAgentsWrite : Prop :=
  (∀ (s : State) (ws : AgentWrites), s.mem.wf = true →
    s.OthersWrote (s.otherWrites ws) (if s.params.externalWriters then ws else []) ∧
    s.sameBut (s.otherWrites ws) [.memory, .pair] ∧ (s.otherWrites ws).pc = s.pc ∧ (s.otherWrites ws).inDelay = s.inDelay ∧ (s.otherWrites ws).delayTarget = s.delayTarget) ∧
  (∀ (s : State) (e : EnvEvent) (rest : List EnvEvent), s.env = e :: rest → s.mem.wf = true →
    s.OthersWrote s.sampleEnv (if s.params.externalWriters then e.writes else []) ∧
    s.sampleEnv.afterFetch = e.afterFetch ∧ s.sampleEnv.gaps = e.gaps ∧ s.sampleEnv.env = rest ∧ s.sampleEnv.irq = e.irq ∧
    s.sampleEnv.intMask = s.intMask ∧ s.sampleEnv.statusUm = s.statusUm ∧ s.sampleEnv.statusIe = s.statusIe ∧
    s.sameBut s.sampleEnv [.memory, .pair, .control, .outside] ∧ s.sampleEnv.params = s.params ∧ s.sampleEnv.pc = s.pc ∧
    s.sampleEnv.inDelay = s.inDelay ∧ s.sampleEnv.delayTarget = s.delayTarget) ∧
  (∀ s : State, s.env = [] → s.sampleEnv = { s with afterFetch := [], gaps := [] }) ∧
  (∀ s : State, s.fetched = s.otherWrites s.afterFetch) ∧
  (∀ (s : State) (n : Nat), s.params.externalWriters = false → s.gapWrites n = [])

/-- R66, R67, R68, R79: the fetch checks alignment, then the user segment, then the bus; each failure is a whole step that takes its
exception, and no instruction executes. Past the checks, with `CODE_WRITES = refuse`, a word that a store of this run has written
into is refused; any other word, and with `coherent` every word, is the big-endian word at `pc`, and the step is what it does
after the writes of other agents that follow the fetch (log 18). `u` is the state whose inputs have been sampled (log 17). -/
def Obligations.FetchChecks : Prop :=
  ∀ s u : State, u = s.sampleEnv → u.interruptPending = false →
    (u.pc.toNat % 4 ≠ 0 → ∃ t, step s = .next t ∧ u.TookTrap t 4 (some u.pc)) ∧
    (u.pc.toNat % 4 = 0 → u.params.userSegmentCheck = true → u.userMode = true → u.pc.getLsbD 31 = true →
      ∃ t, step s = .next t ∧ u.TookTrap t 4 (some u.pc)) ∧
    (u.pc.toNat % 4 = 0 → (u.params.userSegmentCheck = true → u.userMode = true → u.pc.getLsbD 31 = false) →
      memPopulated u.params.holes u.pc 4 = false → ∃ t, step s = .next t ∧ u.TookTrap t 6 none) ∧
    (u.AccessOk u.pc 4 u.pc 4 → u.params.codeWrites = .refuse → (∃ k < 4, (u.pc + BitVec.ofNat 32 k).toNat ∈ u.written) →
      step s = .refused .codeWritten) ∧
    (u.AccessOk u.pc 4 u.pc 4 →
      u.params.codeWrites = .coherent ∨ (∀ k < 4, (u.pc + BitVec.ofNat 32 k).toNat ∉ u.written) →
      u.fetch = .word (u.mem.readWord u.pc) ∧ step s = u.fetched.runWord (u.mem.readWord u.pc))

/-- R361: in user mode every fetched word of opcode `0x10` takes `CpU`, whatever its other bits, in the state after the writes of other
agents that follow the fetch (log 17, 18). -/
def Obligations.UserCoprocessorZero : Prop :=
  ∀ (s : State) (w : Word), s.userMode = true → s.sampleEnv.interruptPending = false → s.sampleEnv.fetch = .word w →
    opcodeOf w = 0x10#6 → ∃ t, step s = .next t ∧ s.sampleEnv.fetched.TookTrap t 11 none

/-- R108, R110, R113, R214: outside user mode's opcode `0x10`, a word that matches no row, and is no word of the extension, takes `RI`,
or under `UNMATCHED = refuse` is refused; a tier 2 word that is not admitted is refused; a word with a non-zero unused field is
refused under `UNUSED_FIELDS = refuse` and runs its row's rule under `ignore`; a word with an odd double register is refused. -/
def Obligations.WordsWithoutMeaning : Prop :=
  ∀ (s : State) (w : Word) (i : Instr), (s.userMode = true → opcodeOf w ≠ 0x10#6) →
    (decode (bytesOfWord w) = .error .reserved → (s.params.extCp0Return = true → decodeExt w = none) →
      (s.params.unmatched = .ri → ∃ t, s.runWord w = .next t ∧ s.TookTrap t 10 none) ∧
      (s.params.unmatched = .refuse → s.runWord w = .refused .reservedWord)) ∧
    (decode (bytesOfWord w) = .ok i → i.namedOnly = true → s.params.admitNamedOnly = false →
      s.runWord w = .refused .namedOnly) ∧
    (decode (bytesOfWord w) = .error (.unusedField i) → (i.namedOnly = true → s.params.admitNamedOnly = true) →
      (s.params.unusedFields = .refuse → s.runWord w = .refused .unusedField) ∧
      (s.params.unusedFields = .ignore → s.runWord w = exec i s)) ∧
    (decode (bytesOfWord w) = .error (.oddRegister i) → (i.namedOnly = true → s.params.admitNamedOnly = true) →
      s.runWord w = .refused .oddRegister)

/-- R357: with `EXT_CP0_RETURN`, `mtc0` in kernel mode writes UM, EL and IE of Status, the mask in the register that holds it, or EPC,
and nothing else; the numbers of the registers are distinct. -/
def Obligations.MoveToControl : Prop :=
  ∀ (s : State) (rt : RegNum) (rd : CRegNum), s.userMode = false → s.params.extCp0Return = true →
    [s.params.crBadVAddr, s.params.crStatus, s.params.crCause, s.params.crEpc].Nodup →
    ∃ t, s.runWord (encR 0x10#6 0x04#5 rt rd 0#5 0#6) = .next t ∧ s.Retired t ∧ s.sameBut t [.control, .exception] ∧
      t.irq = s.irq ∧ t.causeBd = s.causeBd ∧ t.causeExcCode = s.causeExcCode ∧ t.badVAddr = s.badVAddr ∧
      (rd = s.params.crStatus → t.statusUm = (s.readR rt).getLsbD 4 ∧ t.statusEl = (s.readR rt).getLsbD 1 ∧
        t.statusIe = (s.readR rt).getLsbD 0 ∧
        t.intMask = (if s.params.intFields = .mips32 then (s.readR rt).extractLsb' 8 8 else s.intMask) ∧ t.epc = s.epc) ∧
      (rd = s.params.crCause → t.statusUm = s.statusUm ∧ t.statusEl = s.statusEl ∧ t.statusIe = s.statusIe ∧
        t.intMask = (if s.params.intFields = .asPrinted then (s.readR rt).extractLsb' 8 8 else s.intMask) ∧ t.epc = s.epc) ∧
      (rd = s.params.crEpc → t.epc = s.readR rt ∧ t.statusEl = s.statusEl ∧ s.same t .control) ∧
      (rd ∉ [s.params.crStatus, s.params.crCause, s.params.crEpc] → s.same t .control ∧ s.same t .exception)

/-- R358, R387: with `EXT_CP0_RETURN`, `eret` in user mode takes `CpU`, and in kernel mode resumes at EPC with EL and `LLbit` cleared
and changes nothing else; in a delay slot it is refused. -/
def Obligations.ExceptionReturn : Prop :=
  ∀ s : State, s.params.extCp0Return = true →
    (s.userMode = true → ∃ t, s.runWord 0x42000018#32 = .next t ∧ s.TookTrap t 11 none) ∧
    (s.userMode = false → ¬(s.params.branchDelay = true ∧ s.inDelay = true) →
      ∃ t, s.runWord 0x42000018#32 = .next t ∧ t.pc = s.epc ∧
      t.statusEl = false ∧ t.llBit = false ∧ t.llAddr = s.llAddr ∧ t.inDelay = s.inDelay ∧ t.epc = s.epc ∧
      t.causeBd = s.causeBd ∧ t.causeExcCode = s.causeExcCode ∧ t.badVAddr = s.badVAddr ∧
      s.sameBut t [.exception, .pair]) ∧
    (s.userMode = false → s.params.branchDelay = true → s.inDelay = true → s.runWord 0x42000018#32 = .refused .transferInDelaySlot)

/-! ## Traps and modes -/

/-- R340, R349, R388: trap entry, for every exception, with the codes of R331. -/
def Obligations.TrapEntry : Prop :=
  ∀ (s : State) (a : Word),
    s.TookTrap (s.trap .int) 0 none ∧ s.TookTrap (s.trap (.adEL a)) 4 (some a) ∧ s.TookTrap (s.trap (.adES a)) 5 (some a) ∧
    s.TookTrap (s.trap .ibe) 6 none ∧ s.TookTrap (s.trap .dbe) 7 none ∧ s.TookTrap (s.trap .sys) 8 none ∧
    s.TookTrap (s.trap .bp) 9 none ∧ s.TookTrap (s.trap .ri) 10 none ∧ s.TookTrap (s.trap .cpU) 11 none ∧
    s.TookTrap (s.trap .ov) 12 none ∧ s.TookTrap (s.trap .tr) 13 none ∧ s.TookTrap (s.trap .fpe) 15 none

/-- R360: the processor is in user mode exactly when UM is 1 and EL is 0; trap entry and reset enter kernel mode; a step enters user
mode only with `EXT_CP0_RETURN`, by `mtc0` to Status or by `eret`. -/
def Obligations.Modes : Prop :=
  (∀ s : State, s.userMode = true ↔ s.statusUm = true ∧ s.statusEl = false) ∧
  (∀ (s : State) (x : Exc), (s.trap x).userMode = false) ∧ (∀ p, (State.resetWith p).userMode = false) ∧
  (∀ s t : State, s.userMode = false → step s = .next t → t.userMode = true → s.params.extCp0Return = true ∧
    ∃ w, s.sampleEnv.fetch = .word w ∧
      (decodeExt w = some .eret ∨ ∃ rt, decodeExt w = some (.mtc0 rt s.params.crStatus)))

/-! ## The whole machine -/

/-- Every step keeps the invariant. Three of its clauses are about the model's own data, DESIGN CHOICE: the canonical form of memory (log
6), the rising list of written addresses (log 20) and the stored slot of `R[0]` (log 34). -/
def Obligations.StepKeepsInvariant : Prop := ∀ s t : State, s.Inv → step s = .next t → t.Inv

/-- The state after reset has the invariant, whatever the parameters. -/
def Obligations.ResetInvariant : Prop := ∀ p, (State.resetWith p).Inv

/-- R45, R380: the values the spec gives for reset. The values it leaves unspecified are not stated. -/
def Obligations.ResetValues : Prop :=
  ∀ p, (State.resetWith p).pc = p.resetPc ∧ (State.resetWith p).readR 0 = 0 ∧ (State.resetWith p).statusUm = false ∧
    (State.resetWith p).statusEl = false ∧ (State.resetWith p).statusIe = false ∧ (State.resetWith p).intMask = 0 ∧
    (State.resetWith p).llBit = false ∧ (State.resetWith p).inDelay = false ∧ State.reset.pc = 0xBFC00000

/-- R350, R360: without the extension no step writes UM, IE or the mask, none clears EL, and none leaves kernel mode for user
mode. -/
def Obligations.ControlIsReadOnly : Prop :=
  ∀ s t : State, s.params.extCp0Return = false → step s = .next t →
    t.statusUm = s.statusUm ∧ t.statusIe = s.statusIe ∧ t.intMask = s.intMask ∧ (s.statusEl = true → t.statusEl = true) ∧
    (s.userMode = false → t.userMode = false)

/-- R37, R38, R331, R349: Cause.ExceptionCode changes only to a code of the table, and BadVAddr only in a step that ends with code 4
or 5, both only by trap entry; without the extension EPC and Cause.BD change only by a trap entry that finds EL 0. -/
def Obligations.TrapRegisters : Prop :=
  ∀ s t : State, step s = .next t →
    (t.causeExcCode ≠ s.causeExcCode → t.causeExcCode ∈ exceptionCodes ∧ t.statusEl = true ∧ t.pc = s.params.excVector) ∧
    (t.badVAddr ≠ s.badVAddr → (t.causeExcCode = 4 ∨ t.causeExcCode = 5) ∧ t.statusEl = true ∧ t.pc = s.params.excVector) ∧
    (s.params.extCp0Return = false → t.epc ≠ s.epc ∨ t.causeBd ≠ s.causeBd →
      s.statusEl = false ∧ t.statusEl = true ∧ t.pc = s.params.excVector)

/-- R360, R362: a step in user mode, with or without the extension, leaves every control field as it is or ends in kernel mode at the
vector; it never writes UM, IE or the mask, and never the parameters. -/
def Obligations.UserModeIsConfined : Prop :=
  ∀ s t : State, s.userMode = true → step s = .next t →
    t.statusUm = s.statusUm ∧ t.statusIe = s.statusIe ∧ t.intMask = s.intMask ∧ t.params = s.params ∧
    ((t.userMode = false ∧ t.pc = s.params.excVector) ∨ s.same t .exception)

/-! ## Arithmetic and logic -/

/-- R130, R131, R146, R149: `add`, `addi` and `sub` write the exact result when it fits in a signed word, and otherwise, whatever the
destination, take `Ov`. -/
def Obligations.SignedSums : Prop :=
  ∀ (s : State) (rd rs rt : RegNum) (imm : BitVec 16),
    ∀ p ∈ [(Instr.add rd rs rt, rd, (s.readR rs).toInt + (s.readR rt).toInt),
        (.addi rt rs imm, rt, (s.readR rs).toInt + imm.toInt),
        (.sub rd rs rt, rd, (s.readR rs).toInt - (s.readR rt).toInt)],
      (-2 ^ 31 ≤ p.2.2 → p.2.2 ≤ 2 ^ 31 - 1 → ∃ t v, exec p.1 s = .next t ∧ s.WroteR t p.2.1 v ∧ v.toInt = p.2.2) ∧
      (p.2.2 < -2 ^ 31 ∨ 2 ^ 31 - 1 < p.2.2 → ∃ t, exec p.1 s = .next t ∧ s.TookTrap t 12 none)

/-- R132, R133, R147: `addiu`, `addu`, `subu` wrap modulo 2^32. -/
def Obligations.WrappingSums : Prop :=
  ∀ (s : State) (rd rs rt : RegNum) (imm : BitVec 16),
    (∃ t, exec (.addiu rt rs imm) s = .next t ∧ s.WroteR t rt (BitVec.ofInt 32 ((s.readR rs).toInt + imm.toInt))) ∧
    (∃ t v, exec (.addu rd rs rt) s = .next t ∧ s.WroteR t rd v ∧ v.toNat = ((s.readR rs).toNat + (s.readR rt).toNat) % 2 ^ 32) ∧
    (∃ t v, exec (.subu rd rs rt) s = .next t ∧ s.WroteR t rd v ∧
      (v.toNat + (s.readR rt).toNat) % 2 ^ 32 = (s.readR rs).toNat)

/-- R134 to R139, R233, R240: the bitwise instructions, bit by bit, and `lui`. -/
def Obligations.BitwiseLogic : Prop :=
  ∀ (s : State) (rd rs rt : RegNum) (imm : BitVec 16),
    (∃ t v, exec (.and rd rs rt) s = .next t ∧ s.WroteR t rd v ∧
      ∀ k < 32, v.getLsbD k = ((s.readR rs).getLsbD k && (s.readR rt).getLsbD k)) ∧
    (∃ t v, exec (.or rd rs rt) s = .next t ∧ s.WroteR t rd v ∧
      ∀ k < 32, v.getLsbD k = ((s.readR rs).getLsbD k || (s.readR rt).getLsbD k)) ∧
    (∃ t v, exec (.xor rd rs rt) s = .next t ∧ s.WroteR t rd v ∧
      ∀ k < 32, v.getLsbD k = ((s.readR rs).getLsbD k ^^ (s.readR rt).getLsbD k)) ∧
    (∃ t v, exec (.nor rd rs rt) s = .next t ∧ s.WroteR t rd v ∧
      ∀ k < 32, v.getLsbD k = !((s.readR rs).getLsbD k || (s.readR rt).getLsbD k)) ∧
    (∃ t v, exec (.andi rt rs imm) s = .next t ∧ s.WroteR t rt v ∧
      ∀ k < 32, v.getLsbD k = ((s.readR rs).getLsbD k && imm.getLsbD k)) ∧
    (∃ t v, exec (.ori rt rs imm) s = .next t ∧ s.WroteR t rt v ∧
      ∀ k < 32, v.getLsbD k = ((s.readR rs).getLsbD k || imm.getLsbD k)) ∧
    (∃ t v, exec (.xori rt rs imm) s = .next t ∧ s.WroteR t rt v ∧
      ∀ k < 32, v.getLsbD k = ((s.readR rs).getLsbD k ^^ imm.getLsbD k)) ∧
    (∃ t v, exec (.lui rt imm) s = .next t ∧ s.WroteR t rt v ∧ v.toNat = imm.toNat * 2 ^ 16)

/-- R140 to R143: the comparisons into a register; `sltiu` compares unsigned after the sign extension. -/
def Obligations.SetOnCompare : Prop :=
  ∀ (s : State) (rd rs rt : RegNum) (imm : BitVec 16),
    (∃ t, exec (.slt rd rs rt) s = .next t ∧ s.WroteR t rd (if (s.readR rs).toInt < (s.readR rt).toInt then 1 else 0)) ∧
    (∃ t, exec (.slti rt rs imm) s = .next t ∧ s.WroteR t rt (if (s.readR rs).toInt < imm.toInt then 1 else 0)) ∧
    (∃ t, exec (.sltu rd rs rt) s = .next t ∧ s.WroteR t rd (if (s.readR rs).toNat < (s.readR rt).toNat then 1 else 0)) ∧
    (∃ t, exec (.sltiu rt rs imm) s = .next t ∧
      s.WroteR t rt (if (s.readR rs).toNat < (BitVec.ofInt 32 imm.toInt).toNat then 1 else 0))

/-- R144, R145, R182, R236 to R238: the shifts as arithmetic on numbers; a count from a register is its value modulo 32. -/
def Obligations.Shifts : Prop :=
  ∀ (s : State) (rd rs rt : RegNum) (shamt : BitVec 5),
    (∃ t v, exec (.sll rd rt shamt) s = .next t ∧ s.WroteR t rd v ∧
      v.toNat = (s.readR rt).toNat * 2 ^ shamt.toNat % 2 ^ 32) ∧
    (∃ t v, exec (.srl rd rt shamt) s = .next t ∧ s.WroteR t rd v ∧ v.toNat = (s.readR rt).toNat / 2 ^ shamt.toNat) ∧
    (∃ t v, exec (.sra rd rt shamt) s = .next t ∧ s.WroteR t rd v ∧ v.toInt = (s.readR rt).toInt / 2 ^ shamt.toNat) ∧
    (∃ t v, exec (.sllv rd rt rs) s = .next t ∧ s.WroteR t rd v ∧
      v.toNat = (s.readR rt).toNat * 2 ^ ((s.readR rs).toNat % 32) % 2 ^ 32) ∧
    (∃ t v, exec (.srlv rd rt rs) s = .next t ∧ s.WroteR t rd v ∧
      v.toNat = (s.readR rt).toNat / 2 ^ ((s.readR rs).toNat % 32)) ∧
    (∃ t v, exec (.srav rd rt rs) s = .next t ∧ s.WroteR t rd v ∧
      v.toInt = (s.readR rt).toInt / 2 ^ ((s.readR rs).toNat % 32))

/-- R243, R244, R279 to R282: the moves on a condition over a general register write their destination, a general register, an `F`
register or a pair, or do nothing. -/
def Obligations.ConditionalMoves : Prop :=
  ∀ (s : State) (rd rs rt : RegNum) (fd fs : FRegNum),
    (∃ t, exec (.movz rd rs rt) s = .next t ∧ (s.readR rt = 0 → s.WroteR t rd (s.readR rs)) ∧
      (s.readR rt ≠ 0 → s.DidNothing t)) ∧
    (∃ t, exec (.movn rd rs rt) s = .next t ∧ (s.readR rt ≠ 0 → s.WroteR t rd (s.readR rs)) ∧
      (s.readR rt = 0 → s.DidNothing t)) ∧
    (∃ t, exec (.movzS fd fs rt) s = .next t ∧ (s.readR rt = 0 → s.WroteF t fd (.bits (s.readF fs).toNat)) ∧
      (s.readR rt ≠ 0 → s.DidNothing t)) ∧
    (∃ t, exec (.movnS fd fs rt) s = .next t ∧ (s.readR rt ≠ 0 → s.WroteF t fd (.bits (s.readF fs).toNat)) ∧
      (s.readR rt = 0 → s.DidNothing t)) ∧
    (evenReg fd = true → evenReg fs = true →
      (∃ t, exec (.movzD fd fs rt) s = .next t ∧ (s.readR rt = 0 → s.WroteD t fd (.bits (s.readD fs).toNat)) ∧
        (s.readR rt ≠ 0 → s.DidNothing t)) ∧
      (∃ t, exec (.movnD fd fs rt) s = .next t ∧ (s.readR rt ≠ 0 → s.WroteD t fd (.bits (s.readD fs).toNat)) ∧
        (s.readR rt = 0 → s.DidNothing t)))

/-- R184: `mult` and `multu` write the whole product to Hi and Lo, and nothing else. -/
def Obligations.Products : Prop :=
  ∀ (s : State) (rs rt : RegNum),
    (∃ t, exec (.mult rs rt) s = .next t ∧ (t.hi ++ t.lo).toInt = (s.readR rs).toInt * (s.readR rt).toInt ∧
      s.sameBut t [.hiLo] ∧ s.Retired t) ∧
    (∃ t, exec (.multu rs rt) s = .next t ∧ t.hi.toNat * 2 ^ 32 + t.lo.toNat = (s.readR rs).toNat * (s.readR rt).toNat ∧
      s.sameBut t [.hiLo] ∧ s.Retired t)

/-- R183: the division law, where the divisor is not 0 and the signed quotient fits; elsewhere Hi and Lo receive any values, nothing
else changes, and the program goes on. -/
def Obligations.Quotients : Prop :=
  ∀ (s : State) (rs rt : RegNum),
    (s.readR rt ≠ 0 → ¬((s.readR rs).toInt = -2 ^ 31 ∧ (s.readR rt).toInt = -1) →
      ∃ t, exec (.div rs rt) s = .next t ∧ (s.readR rs).toInt = t.lo.toInt * (s.readR rt).toInt + t.hi.toInt ∧
        |t.hi.toInt| < |(s.readR rt).toInt| ∧ 0 ≤ t.hi.toInt * (s.readR rs).toInt ∧ s.sameBut t [.hiLo] ∧ s.Retired t) ∧
    (s.readR rt ≠ 0 → ∃ t, exec (.divu rs rt) s = .next t ∧
      (s.readR rs).toNat = t.lo.toNat * (s.readR rt).toNat + t.hi.toNat ∧ t.hi.toNat < (s.readR rt).toNat ∧
      s.sameBut t [.hiLo] ∧ s.Retired t) ∧
    (s.readR rt = 0 ∨ ((s.readR rs).toInt = -2 ^ 31 ∧ (s.readR rt).toInt = -1) →
      ∃ t, exec (.div rs rt) s = .next t ∧ s.sameBut t [.hiLo, .draws] ∧ s.Retired t) ∧
    (s.readR rt = 0 → ∃ t, exec (.divu rs rt) s = .next t ∧ s.sameBut t [.hiLo, .draws] ∧ s.Retired t)

/-- R177, R178, R241, R242: the moves between Hi, Lo and the general registers. -/
def Obligations.HiLoMoves : Prop :=
  ∀ (s : State) (r : RegNum),
    (∃ t, exec (.mfhi r) s = .next t ∧ s.WroteR t r s.hi) ∧ (∃ t, exec (.mflo r) s = .next t ∧ s.WroteR t r s.lo) ∧
    (∃ t, exec (.mthi r) s = .next t ∧ t.hi = s.readR r ∧ t.lo = s.lo ∧ s.sameBut t [.hiLo] ∧ s.Retired t) ∧
    (∃ t, exec (.mtlo r) s = .next t ∧ t.lo = s.readR r ∧ t.hi = s.hi ∧ s.sameBut t [.hiLo] ∧ s.Retired t)

/-! ## Control transfers -/

/-- R155: with `BRANCH_DELAY = 0` the branches and jumps assign `pc`, link `pc + 4`, and change nothing else. -/
def Obligations.ControlTransfers : Prop :=
  ∀ (s : State) (rd rs rt : RegNum) (imm : BitVec 16) (addr : BitVec 26), s.params.branchDelay = false →
    (∀ p ∈ plainTransfers s rs rt imm addr, ∃ t, exec p.1 s = .next t ∧ s.WentTo t (if p.2.1 then p.2.2 else s.pc + 4)) ∧
    (∀ p ∈ linkingTransfers s rd rs addr, ∃ t, exec p.1 s = .next t ∧ t.pc = p.2.2 ∧ t.inDelay = s.inDelay ∧
      (p.2.1 ≠ 0 → t.readR p.2.1 = s.pc + 4) ∧ (∀ i, i ≠ p.2.1 → t.readR i = s.readR i) ∧ s.sameBut t [.general])

/-- R386, R387: with `BRANCH_DELAY = 1`, outside a delay slot, the branches and jumps open a slot to the target or to `pc + 8`, and
link `pc + 8`; in a delay slot they are refused. -/
def Obligations.DelaySlots : Prop :=
  ∀ (s : State) (rd rs rt : RegNum) (imm : BitVec 16) (addr : BitVec 26), s.params.branchDelay = true →
    (s.inDelay = false → ∀ p ∈ plainTransfers s rs rt imm addr, ∃ t, exec p.1 s = .next t ∧
      s.OpenedSlot t (if p.2.1 then p.2.2 else s.pc + 8) ∧ s.sameBut t []) ∧
    (s.inDelay = false → ∀ p ∈ linkingTransfers s rd rs addr, ∃ t, exec p.1 s = .next t ∧ s.OpenedSlot t p.2.2 ∧
      (p.2.1 ≠ 0 → t.readR p.2.1 = s.pc + 8) ∧ (∀ i, i ≠ p.2.1 → t.readR i = s.readR i) ∧ s.sameBut t [.general]) ∧
    (s.inDelay = true → (∀ p ∈ plainTransfers s rs rt imm addr, exec p.1 s = .refused .transferInDelaySlot) ∧
      (∀ p ∈ linkingTransfers s rd rs addr, exec p.1 s = .refused .transferInDelaySlot))

/-- R221 to R227: what the expansions of the pseudoinstructions do with `BRANCH_DELAY = 0`: a label lies its words after the branch of
the expansion and 4; a branch overwrites `R[1]`, and no expansion changes another register than its own. -/
def Obligations.Pseudoinstructions : Prop :=
  ∀ (s : State) (rd rs rt : RegNum) (v : Word) (label : BitVec 16), s.params.branchDelay = false →
    (∀ p ∈ [(Pseudo.li rd v, v), (.move rd rs, s.readR rs)], ∃ t, execAll p.1.expand s = .next t ∧
      (rd ≠ 0 → t.readR rd = p.2) ∧ (∀ i, i ≠ rd → t.readR i = s.readR i) ∧ s.sameBut t [.general] ∧
      t.pc = s.pc + BitVec.ofNat 32 (4 * p.1.expand.length)) ∧
    (∀ p ∈ [(Pseudo.blt rs rt label, decide ((s.readR rs).toInt < (s.readR rt).toInt)),
        (.bgt rs rt label, decide ((s.readR rs).toInt > (s.readR rt).toInt)),
        (.ble rs rt label, decide ((s.readR rs).toInt ≤ (s.readR rt).toInt)),
        (.bge rs rt label, decide ((s.readR rs).toInt ≥ (s.readR rt).toInt))], ∃ t, execAll p.1.expand s = .next t ∧
      t.pc = s.pc + 8 + (if p.2 then BitVec.ofInt 32 (4 * label.toInt) else 0) ∧ (∀ i, i ≠ 1 → t.readR i = s.readR i) ∧
      s.sameBut t [.general]) ∧
    (∃ t, execAll Pseudo.nop.expand s = .next t ∧ s.DidNothing t)

/-! ## Loads and stores -/

/-- R160, R161, R163, R234, R235: the loads of a general register, from the bytes at the effective address. -/
def Obligations.GeneralLoads : Prop :=
  ∀ (s : State) (rt rs : RegNum) (imm : BitVec 16) (ea : Word), ea = s.readR rs + signExtImm imm →
    (s.AccessOk ea 1 ea 1 →
      (∃ t v, exec (.lbu rt rs imm) s = .next t ∧ s.WroteR t rt v ∧ v.toNat = (s.mem.read ea).toNat) ∧
      (∃ t v, exec (.lb rt rs imm) s = .next t ∧ s.WroteR t rt v ∧ v.toInt = (s.mem.read ea).toInt)) ∧
    (s.AccessOk ea 2 ea 2 →
      (∃ t v, exec (.lhu rt rs imm) s = .next t ∧ s.WroteR t rt v ∧
        v.toNat = (s.mem.read ea).toNat * 2 ^ 8 + (s.mem.read (ea + 1)).toNat) ∧
      (∃ t v, exec (.lh rt rs imm) s = .next t ∧ s.WroteR t rt v ∧
        v.toInt = (s.mem.read ea).toInt * 2 ^ 8 + (s.mem.read (ea + 1)).toNat)) ∧
    (s.AccessOk ea 4 ea 4 → ∃ t v, exec (.lw rt rs imm) s = .next t ∧ s.WroteR t rt v ∧
      ∀ k < 4, byteOfWord v k = s.mem.read (ea + BitVec.ofNat 32 k))

/-- R78 item 1, R162: `ll` loads the word and opens the pair. -/
def Obligations.LoadLinked : Prop :=
  ∀ (s : State) (rt rs : RegNum) (imm : BitVec 16) (ea : Word), ea = s.readR rs + signExtImm imm → s.AccessOk ea 4 ea 4 →
    ∃ t v, exec (.ll rt rs imm) s = .next t ∧ (∀ k < 4, byteOfWord v k = s.mem.read (ea + BitVec.ofNat 32 k)) ∧
      (rt ≠ 0 → t.readR rt = v) ∧ (∀ i, i ≠ rt → t.readR i = s.readR i) ∧ t.llBit = true ∧ t.llAddr = ea ∧
      s.sameBut t [.general, .pair] ∧ s.Retired t

/-- R78 items 3, 4, 5 and 7, R165: `sc` succeeds or fails as the pair says, a paired one that may fail either way; it stores only on
success, the register's old value, whose bytes then count as written (R79, log 20), and always closes the pair. -/
def Obligations.StoreConditional : Prop :=
  ∀ (s : State) (rt rs : RegNum) (imm : BitVec 16) (ea : Word), ea = s.readR rs + signExtImm imm → s.AccessOk ea 4 ea 4 →
    s.mem.wf = true → ∃ t ok, exec (.sc rt rs imm) s = .next t ∧
      (¬(s.llBit = true ∧ s.llAddr = ea) → ok = false) ∧
      (s.llBit = true → s.llAddr = ea → s.params.scMayFail = false → ok = true) ∧
      (ok = true → Stored s.mem t.mem ea (bytesOfWord (s.readR rt)) ∧
        ∀ x, x ∈ t.written ↔ x ∈ s.written ∨ ∃ k < 4, x = (ea + BitVec.ofNat 32 k).toNat) ∧
      (ok = false → s.same t .memory ∧ s.same t .stores) ∧
      (rt ≠ 0 → t.readR rt = if ok then 1 else 0) ∧ (∀ i, i ≠ rt → t.readR i = s.readR i) ∧
      t.llBit = false ∧ t.llAddr = s.llAddr ∧ s.sameBut t [.general, .pair, .memory, .stores, .draws] ∧ s.Retired t

/-- R250, R251: `lwl` and `lwr`, byte by byte of the register, 0 the most significant. -/
def Obligations.UnalignedLoads : Prop :=
  ∀ (s : State) (rt rs : RegNum) (imm : BitVec 16) (ea : Word), ea = s.readR rs + signExtImm imm →
    s.AccessOk ea 1 (alignedWord ea) 4 →
    (∃ t v, exec (.lwl rt rs imm) s = .next t ∧ s.WroteR t rt v ∧ ∀ j < 4, byteOfWord v j =
      if j + ea.toNat % 4 ≤ 3 then s.mem.read (ea + BitVec.ofNat 32 j) else byteOfWord (s.readR rt) j) ∧
    (∃ t v, exec (.lwr rt rs imm) s = .next t ∧ s.WroteR t rt v ∧ ∀ j < 4, byteOfWord v (3 - j) =
      if j ≤ ea.toNat % 4 then s.mem.read (ea - BitVec.ofNat 32 j) else byteOfWord (s.readR rt) (3 - j))

/-- R206, R207: the loads of floating-point registers; `ldc1` fills `F[rt]` from the lower word, then `F[rt+1]` from the next, as two
accesses (R71): what other agents write between them, nothing without `EXTERNAL_WRITERS`, reaches the second word only. -/
def Obligations.FpLoads : Prop :=
  ∀ (s : State) (ft : FRegNum) (rs : RegNum) (imm : BitVec 16) (ea : Word), ea = s.readR rs + signExtImm imm →
    (s.AccessOk ea 4 ea 4 → ∃ t, exec (.lwc1 ft rs imm) s = .next t ∧
      (∀ k < 4, byteOfWord (t.readF ft) k = s.mem.read (ea + BitVec.ofNat 32 k)) ∧ (∀ i, i ≠ ft → t.readF i = s.readF i) ∧
      s.sameBut t [.fp] ∧ s.Retired t) ∧
    (s.AccessOk ea 8 ea 8 → evenReg ft = true → s.mem.wf = true → ∃ t, exec (.ldc1 ft rs imm) s = .next t ∧
      (∀ k < 4, byteOfWord (t.readF ft) k = s.mem.read (ea + BitVec.ofNat 32 k)) ∧
      (∀ k < 4, byteOfWord (t.readF (ft + 1)) k =
        lastWrite (s.gapWrites 1) (ea + BitVec.ofNat 32 (4 + k)) (s.mem.read (ea + BitVec.ofNat 32 (4 + k)))) ∧
      s.OthersWrote t (s.gapWrites 1) ∧ (∀ i, i ≠ ft → i ≠ ft + 1 → t.readF i = s.readF i) ∧
      s.sameBut t [.fp, .memory, .pair] ∧ s.Retired t)

/-- R164, R166 to R170, R208, R209: the stores write the bytes of their width at the effective address, leave every other byte, and
count the bytes as written; the base register and every other register are as before. `sdc1` is two accesses (R71): what other agents
write between them, nothing without `EXTERNAL_WRITERS`, comes after the first word and before the second. -/
def Obligations.Stores : Prop :=
  ∀ (s : State) (rt rs : RegNum) (ft : FRegNum) (imm : BitVec 16) (ea : Word), ea = s.readR rs + signExtImm imm →
    s.mem.wf = true →
    (∀ p ∈ [(Instr.sb rt rs imm, [byteOfWord (s.readR rt) 3]),
        (.sh rt rs imm, [byteOfWord (s.readR rt) 2, byteOfWord (s.readR rt) 3]),
        (.sw rt rs imm, [0, 1, 2, 3].map (byteOfWord (s.readR rt))),
        (.swc1 ft rs imm, [0, 1, 2, 3].map (byteOfWord (s.readF ft)))],
      s.AccessOk ea p.2.length ea p.2.length →
      ∃ t, exec p.1 s = .next t ∧ Stored s.mem t.mem ea p.2 ∧
        (∀ x, x ∈ t.written ↔ x ∈ s.written ∨ ∃ k < p.2.length, x = (ea + BitVec.ofNat 32 k).toNat) ∧
        s.sameBut t [.memory, .stores] ∧ s.Retired t) ∧
    (evenReg ft = true → s.AccessOk ea 8 ea 8 → ∃ t, exec (.sdc1 ft rs imm) s = .next t ∧
      s.StoredSeq t [(ea, [0, 1, 2, 3].map (byteOfWord (s.readF ft))),
        (ea + 4, [0, 1, 2, 3].map (byteOfWord (s.readF (ft + 1))))] ∧
      (s.gapWrites 1 = [] → Stored s.mem t.mem ea
        ([0, 1, 2, 3].map (byteOfWord (s.readF ft)) ++ [0, 1, 2, 3].map (byteOfWord (s.readF (ft + 1))))))

/-- R252, R253: `swl` and `swr`, byte by byte of the register, 0 the most significant, each byte a store of its own that counts as
written (R79); every other byte of memory is as before. Other agents may write between the bytes (R76), nothing without
`EXTERNAL_WRITERS`. -/
def Obligations.UnalignedStores : Prop :=
  ∀ (s : State) (rt rs : RegNum) (imm : BitVec 16) (ea : Word), ea = s.readR rs + signExtImm imm →
    s.AccessOk ea 1 (alignedWord ea) 4 → s.mem.wf = true →
    (∃ t, exec (.swl rt rs imm) s = .next t ∧
      s.StoredSeq t ((List.range (4 - ea.toNat % 4)).map fun j => (ea + BitVec.ofNat 32 j, [byteOfWord (s.readR rt) j])) ∧
      (s.gapWrites (3 - ea.toNat % 4) = [] →
        (∀ j, j + ea.toNat % 4 ≤ 3 → t.mem.read (ea + BitVec.ofNat 32 j) = byteOfWord (s.readR rt) j) ∧
        (∀ x, (∀ j, j + ea.toNat % 4 ≤ 3 → x ≠ ea + BitVec.ofNat 32 j) → t.mem.read x = s.mem.read x))) ∧
    (∃ t, exec (.swr rt rs imm) s = .next t ∧
      s.StoredSeq t ((List.range (ea.toNat % 4 + 1)).map fun j => (ea - BitVec.ofNat 32 j, [byteOfWord (s.readR rt) (3 - j)])) ∧
      (s.gapWrites (ea.toNat % 4) = [] →
        (∀ j ≤ ea.toNat % 4, t.mem.read (ea - BitVec.ofNat 32 j) = byteOfWord (s.readR rt) (3 - j)) ∧
        (∀ x, (∀ j ≤ ea.toNat % 4, x ≠ ea - BitVec.ofNat 32 j) → t.mem.read x = s.mem.read x)))

/-- R64, R65: a misaligned load takes `AdEL`, a misaligned store `AdES`, with the effective address; nothing is loaded or stored. That
trap entry closes an open pair is the model's reading of R65 and R348 (log 25). -/
def Obligations.MisalignedAccesses : Prop :=
  ∀ (s : State) (rt rs : RegNum) (ft : FRegNum) (imm : BitVec 16) (ea : Word), ea = s.readR rs + signExtImm imm →
    (∀ p ∈ alignedLoads rt ft rs imm, (p.1 = .ldc1 ft rs imm → evenReg ft = true) → ea.toNat % p.2 ≠ 0 →
      ∃ t, exec p.1 s = .next t ∧ s.TookTrap t 4 (some ea)) ∧
    (∀ p ∈ alignedStores rt ft rs imm, (p.1 = .sdc1 ft rs imm → evenReg ft = true) → ea.toNat % p.2 ≠ 0 →
      ∃ t, exec p.1 s = .next t ∧ s.TookTrap t 5 (some ea))

/-- R67, R68, R83, R336: past the alignment check, an access barred from user mode takes its address error; past that, one that
`MEM_POPULATED` does not answer, either word of a doubleword, takes `DBE`. Two things here are the model's reading of the spec, DEDUCED
and no rule's words: that the user-segment check is made for `lb` and for `lwl lwr swl swr` too, of which R234 and R248 say that they
raise no address error (log 26), and that the trap of an `ll` or an `sc` closes an open pair (log 25). -/
def Obligations.BarredAccesses : Prop :=
  ∀ (s : State) (rt rs : RegNum) (ft : FRegNum) (imm : BitVec 16) (ea : Word), ea = s.readR rs + signExtImm imm →
    ∀ p ∈ loads rt ft rs imm ea ++ stores rt ft rs imm ea,
    (p.1 = .ldc1 ft rs imm ∨ p.1 = .sdc1 ft rs imm → evenReg ft = true) → ea.toNat % p.2.1 = 0 →
    (s.params.userSegmentCheck = true → s.userMode = true → ea.getLsbD 31 = true →
      ∃ t, exec p.1 s = .next t ∧ s.TookTrap t (if p ∈ loads rt ft rs imm ea then 4 else 5) (some ea)) ∧
    ((s.params.userSegmentCheck = true → s.userMode = true → ea.getLsbD 31 = false) →
      (∃ q ∈ busAccesses p.2.2.1 p.2.2.2, memPopulated s.params.holes q.1 q.2 = false) →
      ∃ t, exec p.1 s = .next t ∧ s.TookTrap t 7 none)

/-! ## System instructions -/

/-- R35 to R39, R179: `mfc0` in kernel mode reads the named fields of Status and Cause, EPC and BadVAddr, the numbers distinct; what
the spec does not name is any value. In user mode it takes `CpU`. -/
def Obligations.MoveFromControl : Prop :=
  ∀ (s : State) (rt : RegNum) (rd : CRegNum),
    (s.userMode = true → ∃ t, exec (.mfc0 rt rd) s = .next t ∧ s.TookTrap t 11 none) ∧
    (s.userMode = false → [s.params.crBadVAddr, s.params.crStatus, s.params.crCause, s.params.crEpc].Nodup →
      ∃ t v, exec (.mfc0 rt rd) s = .next t ∧ (rt ≠ 0 → t.readR rt = v) ∧ (∀ i, i ≠ rt → t.readR i = s.readR i) ∧
        s.sameBut t [.general, .draws] ∧ s.Retired t ∧
        (rd = s.params.crStatus → v.getLsbD 4 = s.statusUm ∧ v.getLsbD 1 = s.statusEl ∧ v.getLsbD 0 = s.statusIe ∧
          v.extractLsb' 8 8 = (if s.params.intFields = .asPrinted then s.irq else s.intMask)) ∧
        (rd = s.params.crCause → v.getLsbD 31 = s.causeBd ∧ v.extractLsb' 2 5 = s.causeExcCode ∧
          v.extractLsb' 8 8 = (if s.params.intFields = .asPrinted then s.intMask else s.irq)) ∧
        (rd = s.params.crEpc → v = s.epc) ∧ (rd = s.params.crBadVAddr → v = s.badVAddr))

/-- R245, R247, R262 to R266: `syscall` takes `Sys`, `break` takes `Bp`, the transfers of the absent coprocessor 2 take `CpU`, in
every mode and whatever their operands. -/
def Obligations.AlwaysTrapping : Prop :=
  ∀ (s : State) (code : BitVec 20) (rt rs : RegNum) (imm : BitVec 16),
    (∃ t, exec (.syscall code) s = .next t ∧ s.TookTrap t 8 none) ∧ (∃ t, exec (.brk code) s = .next t ∧ s.TookTrap t 9 none) ∧
    ∀ i ∈ [Instr.lwc2 rt rs imm, .ldc2 rt rs imm, .swc2 rt rs imm, .sdc2 rt rs imm],
      ∃ t, exec i s = .next t ∧ s.TookTrap t 11 none

/-- R246, R254, R255: `sync`, `pref`, and in kernel mode `cache`, change nothing but `pc`; in user mode `cache` takes `CpU`. -/
def Obligations.HintsAndBarriers : Prop :=
  ∀ (s : State) (stype op hint : BitVec 5) (rs : RegNum) (imm : BitVec 16),
    (∃ t, exec (.sync stype) s = .next t ∧ s.DidNothing t) ∧ (∃ t, exec (.pref hint rs imm) s = .next t ∧ s.DidNothing t) ∧
    (s.userMode = false → ∃ t, exec (.cache op rs imm) s = .next t ∧ s.DidNothing t) ∧
    (s.userMode = true → ∃ t, exec (.cache op rs imm) s = .next t ∧ s.TookTrap t 11 none)

/-- R256 to R261: a conditional trap does nothing when its condition fails, and takes `Tr` when it holds. -/
def Obligations.ConditionalTraps : Prop :=
  ∀ (s : State) (rs rt : RegNum) (tcode : BitVec 10), ∀ p ∈ conditionalTraps s rs rt tcode,
    (p.2 = false → ∃ t, exec p.1 s = .next t ∧ s.DidNothing t) ∧
    (p.2 = true → ∃ t, exec p.1 s = .next t ∧ s.TookTrap t 13 none)

/-! ## Floating point -/

/-- R192, R193, R200 to R205, R213, R271 to R274, R277, R278, R284, R285, R287 to R296: unless an exception it signals is in `FP.traps`,
a result is delivered to `F[fd]` or the pair `D[fd]`, any NaN where it is a NaN, any word where it is a draw, and nothing else
changes. -/
def Obligations.ArithmeticResults : Prop :=
  ∀ (s : State) (fd fs ft : FRegNum),
    (∀ p ∈ singleResults s fd fs ft, (∀ n ∈ p.2.1, evenReg n = true) → fpTraps s.params.fpTraps p.2.2.signals = false →
      ∃ t, exec p.1 s = .next t ∧ s.WroteF t fd p.2.2.out) ∧
    (∀ p ∈ doubleResults s fd fs ft, (∀ n ∈ p.2.1, evenReg n = true) → fpTraps s.params.fpTraps p.2.2.signals = false →
      ∃ t, exec p.1 s = .next t ∧ s.WroteD t fd p.2.2.out)

/-- R273 to R278: `mov` copies, whatever `FP.traps` is; `abs` and `neg` clear and invert the sign bit, and give a NaN for a NaN, unless
an exception they signal (invalid for a NaN, log 15) is in `FP.traps`. -/
def Obligations.SignOperations : Prop :=
  ∀ (s : State) (fd fs : FRegNum),
    (∃ t, exec (.movS fd fs) s = .next t ∧ s.WroteF t fd (.bits (s.readF fs).toNat)) ∧
    (fpTraps s.params.fpTraps (Fp.single.abs (s.readF fs).toNat).signals = false →
      ∃ t, exec (.absS fd fs) s = .next t ∧ s.WroteF t fd
        (if Fp.single.isNaN (s.readF fs).toNat then .anyNaN else .bits (s.readF fs &&& 0x7FFFFFFF#32).toNat)) ∧
    (fpTraps s.params.fpTraps (Fp.single.neg (s.readF fs).toNat).signals = false →
      ∃ t, exec (.negS fd fs) s = .next t ∧ s.WroteF t fd
        (if Fp.single.isNaN (s.readF fs).toNat then .anyNaN else .bits (s.readF fs ^^^ 0x80000000#32).toNat)) ∧
    (evenReg fd = true → evenReg fs = true →
      (∃ t, exec (.movD fd fs) s = .next t ∧ s.WroteD t fd (.bits (s.readD fs).toNat)) ∧
      (fpTraps s.params.fpTraps (Fp.double.abs (s.readD fs).toNat).signals = false →
        ∃ t, exec (.absD fd fs) s = .next t ∧ s.WroteD t fd
          (if Fp.double.isNaN (s.readD fs).toNat then .anyNaN else .bits (s.readD fs &&& 0x7FFFFFFFFFFFFFFF#64).toNat)) ∧
      (fpTraps s.params.fpTraps (Fp.double.neg (s.readD fs).toNat).signals = false →
        ∃ t, exec (.negD fd fs) s = .next t ∧ s.WroteD t fd
          (if Fp.double.isNaN (s.readD fs).toNat then .anyNaN else .bits (s.readD fs ^^^ 0x8000000000000000#64).toNat)))

/-- R213, R270, R287 to R296: unless an exception it signals is in `FP.traps`, a conversion to a word writes the operand's value
rounded in its mode where it fits, any word where the operand is an infinity or a NaN or does not fit, and nothing else changes; of a
finite operand it signals invalid exactly where it does not fit. -/
def Obligations.WordConversions : Prop :=
  ∀ (s : State) (fd fs : FRegNum),
    (∀ p ∈ singleToWord fd fs, ∀ (a : Nat) (r : Fp.Result), a = (s.readF fs).toNat → r = Fp.single.toWord p.2 a →
      fpTraps s.params.fpTraps r.signals = false → ∃ t, exec p.1 s = .next t ∧ (∀ i, i ≠ fd → t.readF i = s.readF i) ∧
      s.sameBut t [.fp, .draws] ∧ s.Retired t ∧
      (Fp.single.Finite a → ∃ n : Int, p.2.Rounds (Fp.single.value a) n ∧
        (r.signals.invalid = true ↔ n < -2 ^ 31 ∨ 2 ^ 31 ≤ n) ∧ (-2 ^ 31 ≤ n → n < 2 ^ 31 → (t.readF fd).toInt = n))) ∧
    (evenReg fs = true → ∀ p ∈ doubleToWord fd fs, ∀ (a : Nat) (r : Fp.Result), a = (s.readD fs).toNat →
      r = Fp.double.toWord p.2 a →
      fpTraps s.params.fpTraps r.signals = false → ∃ t, exec p.1 s = .next t ∧ (∀ i, i ≠ fd → t.readF i = s.readF i) ∧
      s.sameBut t [.fp, .draws] ∧ s.Retired t ∧
      (Fp.double.Finite a → ∃ n : Int, p.2.Rounds (Fp.double.value a) n ∧
        (r.signals.invalid = true ↔ n < -2 ^ 31 ∨ 2 ^ 31 ≤ n) ∧ (-2 ^ 31 ≤ n → n < 2 ^ 31 → (t.readF fd).toInt = n)))

/-- R30, R212, R213, R323: unless it signals invalid (of a NaN operand, where the compare is a signalling one or the NaN is, log 13 and
36) and invalid is in `FP.traps`, each compare sets `FPcond` as the table says of the relation of its operands, and nothing else
changes. -/
def Obligations.Compares : Prop :=
  ∀ (s : State) (fs ft : FRegNum), ∀ p ∈ compares fs ft,
    (¬(s.params.fpTraps.invalid = true ∧ p.signalsInvalid Fp.single (s.readF fs).toNat (s.readF ft).toNat = true) →
      ∃ t, exec p.single s = .next t ∧ s.WroteCond t (p.holds (Fp.single.cmp (s.readF fs).toNat (s.readF ft).toNat))) ∧
    (evenReg fs = true → evenReg ft = true →
      ¬(s.params.fpTraps.invalid = true ∧ p.signalsInvalid Fp.double (s.readD fs).toNat (s.readD ft).toNat = true) →
      ∃ t, exec p.double s = .next t ∧ s.WroteCond t (p.holds (Fp.double.cmp (s.readD fs).toNat (s.readD ft).toNat)))

/-- R212: the relation is that of the values, not of the patterns; infinities compare as the extended reals, first or second operand;
it is unordered exactly when an operand is a NaN. -/
def Obligations.CompareOfValues : Prop :=
  ∀ f ∈ [Fp.single, Fp.double], ∀ a b : Nat,
    (f.cmp a b = .unordered ↔ f.isNaN a = true ∨ f.isNaN b = true) ∧
    (f.Finite a → f.Finite b →
      (f.cmp a b = .less ↔ f.value a < f.value b) ∧ (f.cmp a b = .equal ↔ f.value a = f.value b) ∧
      (f.cmp a b = .greater ↔ f.value a > f.value b)) ∧
    (f.Finite a → f.classify b = .infinity → f.cmp a b = (if f.sign b then .greater else .less)) ∧
    (f.classify a = .infinity → f.Finite b → f.cmp a b = (if f.sign a then .less else .greater)) ∧
    (f.classify a = .infinity → f.classify b = .infinity →
      f.cmp a b = (if f.sign a = f.sign b then .equal else if f.sign a then .less else .greater))

/-- R213, R344: when an exception that the instruction signals is in `FP.traps`, it takes `FPE` and writes nothing: every instruction
with a floating-point result, of both formats and to a word, and every compare of both formats. Which exceptions a result signals
rests on log 14 and 16 (overflow, underflow, inexact as in IEEE 754), log 15 (`abs`, `neg`) and log 13 and 36 (signalling NaNs). -/
def Obligations.FpTraps : Prop :=
  ∀ (s : State) (fd fs ft : FRegNum),
    (∀ p ∈ singleResults s fd fs ft ++ doubleResults s fd fs ft, (∀ n ∈ p.2.1, evenReg n = true) →
      fpTraps s.params.fpTraps p.2.2.signals = true → ∃ t, exec p.1 s = .next t ∧ s.TookTrap t 15 none) ∧
    (∀ p ∈ compares fs ft, s.params.fpTraps.invalid = true →
      (p.signalsInvalid Fp.single (s.readF fs).toNat (s.readF ft).toNat = true →
        ∃ t, exec p.single s = .next t ∧ s.TookTrap t 15 none) ∧
      (evenReg fs = true → evenReg ft = true → p.signalsInvalid Fp.double (s.readD fs).toNat (s.readD ft).toNat = true →
        ∃ t, exec p.double s = .next t ∧ s.TookTrap t 15 none))

/-- R29, R214: an instruction with an odd register in a double-precision operand is refused. -/
def Obligations.OddDoubles : Prop :=
  ∀ (s : State) (fd fs ft : FRegNum) (rs : RegNum) (imm : BitVec 16), ∀ p ∈ doubleOperands fd fs ft rs imm,
    (∃ n ∈ p.2, n.toNat % 2 = 1) → exec p.1 s = .refused .oddRegister

/-- R283, R286: `cvt.s.s` and `cvt.d.d` have no operation: they are refused, and so are their words, whatever `ADMIT_NAMED_ONLY` is. -/
def Obligations.NoOperation : Prop :=
  ∀ (s : State) (fd fs : FRegNum), ∀ i ∈ [Instr.cvtSS fd fs, .cvtDD fd fs],
    exec i s = .refused .noOperation ∧ ∃ r, s.runWord (encode i) = .refused r

/-- R210: rounding gives the nearest pattern, ties to the even fraction, and an infinity where the value is too large, of the sign
asked for, a zero included; it signals overflow where the value is too large and inexact where the result is not the value (R213 as
IEEE 754 has it, log 16). -/
def Obligations.RoundsToNearest : Prop :=
  ∀ f ∈ [Fp.single, Fp.double], ∀ (neg : Bool) (m : Nat) (e : ℤ),
    f.RoundsTo ((if neg then -1 else 1) * (m : ℚ) * (2 : ℚ) ^ e) (f.round neg m e) ∧
    ∃ x, (f.round neg m e).out = .bits x ∧ f.sign x = neg

/-- R210: on finite operands `+`, `-` and `*` are the exact result rounded once, and so is `/` when the divisor is not zero. Overflow
and inexact are signalled as the rounding says (log 16). -/
def Obligations.ArithmeticRoundsExact : Prop :=
  ∀ f ∈ [Fp.single, Fp.double], ∀ a b : Nat, f.Finite a → f.Finite b →
    f.RoundsTo (f.value a + f.value b) (f.add a b) ∧ f.RoundsTo (f.value a - f.value b) (f.sub a b) ∧
    f.RoundsTo (f.value a * f.value b) (f.mul a b) ∧
    (f.value b ≠ 0 → f.RoundsTo (f.value a / f.value b) (f.div a b))

/-- R270, R284, R285: the square root of a finite operand that is not negative is the pattern nearest to the real root, and that of a
negative one a NaN, IEEE invalid; a conversion between the formats is the value rounded once, which signals as log 16 says. NaNs,
infinities and the signs of zeros are in SpecialOperands. -/
def Obligations.RootsAndConversionsRound : Prop :=
  ∀ f ∈ [Fp.single, Fp.double], ∀ a : Nat, f.Finite a →
    (0 ≤ f.value a → ∃ x, (f.sqrt a).out = .bits x ∧ f.Finite x ∧ 0 ≤ f.value x ∧
      ∀ y, f.Finite y → |(f.value x : ℝ) - Real.sqrt (f.value a)| ≤ |(f.value y : ℝ) - Real.sqrt (f.value a)|) ∧
    (f.value a < 0 → f.sqrt a = Fp.invalidNaN) ∧
    (∀ g ∈ [Fp.single, Fp.double], g.RoundsTo (f.value a) (f.convert g a))

/-- R211, and R270, R284, R285 for `sqrt` and the conversions: the special operands. A NaN operand, and the invalid forms, give any NaN;
the infinities and zeros are those of the table. An infinity with a zero under `+ - /`, the difference and the product of two zeros,
`sqrt` of an infinity and a converted infinity or zero stand in no table: there the model takes IEEE 754 (R210, DEDUCED, log 37). -/
def Obligations.SpecialOperands : Prop :=
  ∀ f ∈ [Fp.single, Fp.double], ∀ a b : Nat,
    (f.isNaN a = true ∨ f.isNaN b = true → (f.add a b).out = .anyNaN ∧ (f.sub a b).out = .anyNaN ∧ (f.mul a b).out = .anyNaN ∧
      (f.div a b).out = .anyNaN) ∧
    (f.classify a = .infinity → f.classify b = .infinity →
      (f.add a b = if f.sign a = f.sign b then f.infinity (f.sign a) else Fp.invalidNaN) ∧
      (f.sub a b = if f.sign a = f.sign b then Fp.invalidNaN else f.infinity (f.sign a)) ∧
      f.mul a b = f.infinity (f.sign a != f.sign b) ∧ f.div a b = Fp.invalidNaN) ∧
    (f.classify a = .infinity → f.Finite b → f.add a b = f.infinity (f.sign a) ∧ f.add b a = f.infinity (f.sign a) ∧
      f.sub a b = f.infinity (f.sign a) ∧ f.sub b a = f.infinity (!f.sign a) ∧
      f.div a b = f.infinity (f.sign a != f.sign b) ∧ f.div b a = f.zero (f.sign b != f.sign a)) ∧
    (f.classify a = .infinity → f.Finite b → f.value b ≠ 0 →
      f.mul a b = f.infinity (f.sign a != f.sign b) ∧ f.mul b a = f.infinity (f.sign b != f.sign a)) ∧
    (f.classify a = .infinity → f.classify b = .zero → f.mul a b = Fp.invalidNaN ∧ f.mul b a = Fp.invalidNaN) ∧
    (f.classify a = .zero → f.classify b = .zero → f.div a b = Fp.invalidNaN ∧ f.add a b = f.zero (f.sign a && f.sign b) ∧
      f.sub a b = f.zero (f.sign a && !f.sign b) ∧ f.mul a b = f.zero (f.sign a != f.sign b)) ∧
    (f.Finite a → f.value a ≠ 0 → f.classify b = .zero →
      f.div a b = ⟨(f.infinity (f.sign a != f.sign b)).out, { divZero := true }⟩ ∧
      f.mul a b = f.zero (f.sign a != f.sign b) ∧ f.mul b a = f.zero (f.sign b != f.sign a) ∧
      f.div b a = f.zero (f.sign b != f.sign a)) ∧
    (f.Finite a → f.Finite b → f.value a ≠ 0 → (f.value a + f.value b = 0 → f.add a b = f.zero false) ∧
      (f.value a = f.value b → f.sub a b = f.zero false)) ∧
    (f.isNaN a = true → (f.sqrt a).out = .anyNaN) ∧
    (f.classify a = .infinity → f.sqrt a = if f.sign a then Fp.invalidNaN else f.infinity false) ∧
    (f.classify a = .zero → f.sqrt a = f.zero (f.sign a)) ∧
    (∀ g ∈ [Fp.single, Fp.double], (f.isNaN a = true → (f.convert g a).out = .anyNaN) ∧
      (f.classify a = .infinity → f.convert g a = g.infinity (f.sign a)) ∧
      (f.classify a = .zero → f.convert g a = g.zero (f.sign a))) ∧
    (f.isNaN a = true ∨ f.classify a = .infinity → ∀ mode, f.toWord mode a = ⟨.anyWord, { invalid := true }⟩)
end

