-- ==== Sys2Proof/Laws/State.lean ====
section
/-! SUPPORT. One lemma per field per update of State, and the reads that each update leaves alone. -/

namespace Sys2Proof.Machine

/-! ### State.setR -/

@[simp] theorem State.setR_regs (s : State) (i : RegNum) (v : Word) :
    (s.setR i v).regs = if i = 0 then s.regs else s.regs.set i.toNat v i.isLt := rfl
@[simp] theorem State.setR_pc (s : State) (i : RegNum) (v : Word) : (s.setR i v).pc = s.pc := rfl
@[simp] theorem State.setR_hi (s : State) (i : RegNum) (v : Word) : (s.setR i v).hi = s.hi := rfl
@[simp] theorem State.setR_lo (s : State) (i : RegNum) (v : Word) : (s.setR i v).lo = s.lo := rfl
@[simp] theorem State.setR_fregs (s : State) (i : RegNum) (v : Word) : (s.setR i v).fregs = s.fregs := rfl
@[simp] theorem State.setR_fpCond (s : State) (i : RegNum) (v : Word) : (s.setR i v).fpCond = s.fpCond := rfl
@[simp] theorem State.setR_causeBd (s : State) (i : RegNum) (v : Word) : (s.setR i v).causeBd = s.causeBd := rfl
@[simp] theorem State.setR_causeExcCode (s : State) (i : RegNum) (v : Word) : (s.setR i v).causeExcCode = s.causeExcCode := rfl
@[simp] theorem State.setR_intMask (s : State) (i : RegNum) (v : Word) : (s.setR i v).intMask = s.intMask := rfl
@[simp] theorem State.setR_statusUm (s : State) (i : RegNum) (v : Word) : (s.setR i v).statusUm = s.statusUm := rfl
@[simp] theorem State.setR_statusEl (s : State) (i : RegNum) (v : Word) : (s.setR i v).statusEl = s.statusEl := rfl
@[simp] theorem State.setR_statusIe (s : State) (i : RegNum) (v : Word) : (s.setR i v).statusIe = s.statusIe := rfl
@[simp] theorem State.setR_irq (s : State) (i : RegNum) (v : Word) : (s.setR i v).irq = s.irq := rfl
@[simp] theorem State.setR_epc (s : State) (i : RegNum) (v : Word) : (s.setR i v).epc = s.epc := rfl
@[simp] theorem State.setR_badVAddr (s : State) (i : RegNum) (v : Word) : (s.setR i v).badVAddr = s.badVAddr := rfl
@[simp] theorem State.setR_llBit (s : State) (i : RegNum) (v : Word) : (s.setR i v).llBit = s.llBit := rfl
@[simp] theorem State.setR_llAddr (s : State) (i : RegNum) (v : Word) : (s.setR i v).llAddr = s.llAddr := rfl
@[simp] theorem State.setR_mem (s : State) (i : RegNum) (v : Word) : (s.setR i v).mem = s.mem := rfl
@[simp] theorem State.setR_inDelay (s : State) (i : RegNum) (v : Word) : (s.setR i v).inDelay = s.inDelay := rfl
@[simp] theorem State.setR_delayTarget (s : State) (i : RegNum) (v : Word) : (s.setR i v).delayTarget = s.delayTarget := rfl
@[simp] theorem State.setR_written (s : State) (i : RegNum) (v : Word) : (s.setR i v).written = s.written := rfl
@[simp] theorem State.setR_draws (s : State) (i : RegNum) (v : Word) : (s.setR i v).draws = s.draws := rfl
@[simp] theorem State.setR_env (s : State) (i : RegNum) (v : Word) : (s.setR i v).env = s.env := rfl
@[simp] theorem State.setR_afterFetch (s : State) (i : RegNum) (v : Word) : (s.setR i v).afterFetch = s.afterFetch := rfl
@[simp] theorem State.setR_gaps (s : State) (i : RegNum) (v : Word) : (s.setR i v).gaps = s.gaps := rfl
@[simp] theorem State.setR_params (s : State) (i : RegNum) (v : Word) : (s.setR i v).params = s.params := rfl
@[simp] theorem State.readF_setR (s : State) (i : RegNum) (v : Word) (j : FRegNum) : (s.setR i v).readF j = s.readF j := rfl
@[simp] theorem State.readD_setR (s : State) (i : RegNum) (v : Word) (j : FRegNum) : (s.setR i v).readD j = s.readD j := rfl
@[simp] theorem State.userMode_setR (s : State) (i : RegNum) (v : Word) : (s.setR i v).userMode = s.userMode := rfl
@[simp] theorem State.inSlot_setR (s : State) (i : RegNum) (v : Word) : (s.setR i v).inSlot = s.inSlot := rfl
@[simp] theorem State.linkAddr_setR (s : State) (i : RegNum) (v : Word) : (s.setR i v).linkAddr = s.linkAddr := rfl
@[simp] theorem State.interruptPending_setR (s : State) (i : RegNum) (v : Word) : (s.setR i v).interruptPending = s.interruptPending := rfl

/-! ### State.setF -/

@[simp] theorem State.setF_regs (s : State) (i : FRegNum) (v : Word) : (s.setF i v).regs = s.regs := rfl
@[simp] theorem State.setF_pc (s : State) (i : FRegNum) (v : Word) : (s.setF i v).pc = s.pc := rfl
@[simp] theorem State.setF_hi (s : State) (i : FRegNum) (v : Word) : (s.setF i v).hi = s.hi := rfl
@[simp] theorem State.setF_lo (s : State) (i : FRegNum) (v : Word) : (s.setF i v).lo = s.lo := rfl
@[simp] theorem State.setF_fregs (s : State) (i : FRegNum) (v : Word) : (s.setF i v).fregs = s.fregs.set i.toNat v i.isLt := rfl
@[simp] theorem State.setF_fpCond (s : State) (i : FRegNum) (v : Word) : (s.setF i v).fpCond = s.fpCond := rfl
@[simp] theorem State.setF_causeBd (s : State) (i : FRegNum) (v : Word) : (s.setF i v).causeBd = s.causeBd := rfl
@[simp] theorem State.setF_causeExcCode (s : State) (i : FRegNum) (v : Word) : (s.setF i v).causeExcCode = s.causeExcCode := rfl
@[simp] theorem State.setF_intMask (s : State) (i : FRegNum) (v : Word) : (s.setF i v).intMask = s.intMask := rfl
@[simp] theorem State.setF_statusUm (s : State) (i : FRegNum) (v : Word) : (s.setF i v).statusUm = s.statusUm := rfl
@[simp] theorem State.setF_statusEl (s : State) (i : FRegNum) (v : Word) : (s.setF i v).statusEl = s.statusEl := rfl
@[simp] theorem State.setF_statusIe (s : State) (i : FRegNum) (v : Word) : (s.setF i v).statusIe = s.statusIe := rfl
@[simp] theorem State.setF_irq (s : State) (i : FRegNum) (v : Word) : (s.setF i v).irq = s.irq := rfl
@[simp] theorem State.setF_epc (s : State) (i : FRegNum) (v : Word) : (s.setF i v).epc = s.epc := rfl
@[simp] theorem State.setF_badVAddr (s : State) (i : FRegNum) (v : Word) : (s.setF i v).badVAddr = s.badVAddr := rfl
@[simp] theorem State.setF_llBit (s : State) (i : FRegNum) (v : Word) : (s.setF i v).llBit = s.llBit := rfl
@[simp] theorem State.setF_llAddr (s : State) (i : FRegNum) (v : Word) : (s.setF i v).llAddr = s.llAddr := rfl
@[simp] theorem State.setF_mem (s : State) (i : FRegNum) (v : Word) : (s.setF i v).mem = s.mem := rfl
@[simp] theorem State.setF_inDelay (s : State) (i : FRegNum) (v : Word) : (s.setF i v).inDelay = s.inDelay := rfl
@[simp] theorem State.setF_delayTarget (s : State) (i : FRegNum) (v : Word) : (s.setF i v).delayTarget = s.delayTarget := rfl
@[simp] theorem State.setF_written (s : State) (i : FRegNum) (v : Word) : (s.setF i v).written = s.written := rfl
@[simp] theorem State.setF_draws (s : State) (i : FRegNum) (v : Word) : (s.setF i v).draws = s.draws := rfl
@[simp] theorem State.setF_env (s : State) (i : FRegNum) (v : Word) : (s.setF i v).env = s.env := rfl
@[simp] theorem State.setF_afterFetch (s : State) (i : FRegNum) (v : Word) : (s.setF i v).afterFetch = s.afterFetch := rfl
@[simp] theorem State.setF_gaps (s : State) (i : FRegNum) (v : Word) : (s.setF i v).gaps = s.gaps := rfl
@[simp] theorem State.setF_params (s : State) (i : FRegNum) (v : Word) : (s.setF i v).params = s.params := rfl
@[simp] theorem State.readR_setF (s : State) (i : FRegNum) (v : Word) (j : RegNum) : (s.setF i v).readR j = s.readR j := rfl
@[simp] theorem State.userMode_setF (s : State) (i : FRegNum) (v : Word) : (s.setF i v).userMode = s.userMode := rfl
@[simp] theorem State.inSlot_setF (s : State) (i : FRegNum) (v : Word) : (s.setF i v).inSlot = s.inSlot := rfl
@[simp] theorem State.linkAddr_setF (s : State) (i : FRegNum) (v : Word) : (s.setF i v).linkAddr = s.linkAddr := rfl
@[simp] theorem State.interruptPending_setF (s : State) (i : FRegNum) (v : Word) : (s.setF i v).interruptPending = s.interruptPending := rfl

/-! ### State.setD -/

@[simp] theorem State.setD_regs (s : State) (n : FRegNum) (v : DWord) : (s.setD n v).regs = s.regs := rfl
@[simp] theorem State.setD_pc (s : State) (n : FRegNum) (v : DWord) : (s.setD n v).pc = s.pc := rfl
@[simp] theorem State.setD_hi (s : State) (n : FRegNum) (v : DWord) : (s.setD n v).hi = s.hi := rfl
@[simp] theorem State.setD_lo (s : State) (n : FRegNum) (v : DWord) : (s.setD n v).lo = s.lo := rfl
@[simp] theorem State.setD_fregs (s : State) (n : FRegNum) (v : DWord) :
    (s.setD n v).fregs = ((s.setF n (v.extractLsb' 32 32)).setF (n + 1) (v.extractLsb' 0 32)).fregs := rfl
@[simp] theorem State.setD_fpCond (s : State) (n : FRegNum) (v : DWord) : (s.setD n v).fpCond = s.fpCond := rfl
@[simp] theorem State.setD_causeBd (s : State) (n : FRegNum) (v : DWord) : (s.setD n v).causeBd = s.causeBd := rfl
@[simp] theorem State.setD_causeExcCode (s : State) (n : FRegNum) (v : DWord) :
    (s.setD n v).causeExcCode = s.causeExcCode := rfl
@[simp] theorem State.setD_intMask (s : State) (n : FRegNum) (v : DWord) : (s.setD n v).intMask = s.intMask := rfl
@[simp] theorem State.setD_statusUm (s : State) (n : FRegNum) (v : DWord) : (s.setD n v).statusUm = s.statusUm := rfl
@[simp] theorem State.setD_statusEl (s : State) (n : FRegNum) (v : DWord) : (s.setD n v).statusEl = s.statusEl := rfl
@[simp] theorem State.setD_statusIe (s : State) (n : FRegNum) (v : DWord) : (s.setD n v).statusIe = s.statusIe := rfl
@[simp] theorem State.setD_irq (s : State) (n : FRegNum) (v : DWord) : (s.setD n v).irq = s.irq := rfl
@[simp] theorem State.setD_epc (s : State) (n : FRegNum) (v : DWord) : (s.setD n v).epc = s.epc := rfl
@[simp] theorem State.setD_badVAddr (s : State) (n : FRegNum) (v : DWord) : (s.setD n v).badVAddr = s.badVAddr := rfl
@[simp] theorem State.setD_llBit (s : State) (n : FRegNum) (v : DWord) : (s.setD n v).llBit = s.llBit := rfl
@[simp] theorem State.setD_llAddr (s : State) (n : FRegNum) (v : DWord) : (s.setD n v).llAddr = s.llAddr := rfl
@[simp] theorem State.setD_mem (s : State) (n : FRegNum) (v : DWord) : (s.setD n v).mem = s.mem := rfl
@[simp] theorem State.setD_inDelay (s : State) (n : FRegNum) (v : DWord) : (s.setD n v).inDelay = s.inDelay := rfl
@[simp] theorem State.setD_delayTarget (s : State) (n : FRegNum) (v : DWord) : (s.setD n v).delayTarget = s.delayTarget := rfl
@[simp] theorem State.setD_written (s : State) (n : FRegNum) (v : DWord) : (s.setD n v).written = s.written := rfl
@[simp] theorem State.setD_draws (s : State) (n : FRegNum) (v : DWord) : (s.setD n v).draws = s.draws := rfl
@[simp] theorem State.setD_env (s : State) (n : FRegNum) (v : DWord) : (s.setD n v).env = s.env := rfl
@[simp] theorem State.setD_afterFetch (s : State) (n : FRegNum) (v : DWord) : (s.setD n v).afterFetch = s.afterFetch := rfl
@[simp] theorem State.setD_gaps (s : State) (n : FRegNum) (v : DWord) : (s.setD n v).gaps = s.gaps := rfl
@[simp] theorem State.setD_params (s : State) (n : FRegNum) (v : DWord) : (s.setD n v).params = s.params := rfl
@[simp] theorem State.readR_setD (s : State) (n : FRegNum) (v : DWord) (j : RegNum) : (s.setD n v).readR j = s.readR j := rfl
@[simp] theorem State.userMode_setD (s : State) (n : FRegNum) (v : DWord) : (s.setD n v).userMode = s.userMode := rfl
@[simp] theorem State.inSlot_setD (s : State) (n : FRegNum) (v : DWord) : (s.setD n v).inSlot = s.inSlot := rfl
@[simp] theorem State.linkAddr_setD (s : State) (n : FRegNum) (v : DWord) : (s.setD n v).linkAddr = s.linkAddr := rfl
@[simp] theorem State.interruptPending_setD (s : State) (n : FRegNum) (v : DWord) : (s.setD n v).interruptPending = s.interruptPending := rfl

/-! ### State.setHiLo -/

@[simp] theorem State.setHiLo_regs (s : State) (h l : Word) : (s.setHiLo h l).regs = s.regs := rfl
@[simp] theorem State.setHiLo_pc (s : State) (h l : Word) : (s.setHiLo h l).pc = s.pc := rfl
@[simp] theorem State.setHiLo_hi (s : State) (h l : Word) : (s.setHiLo h l).hi = h := rfl
@[simp] theorem State.setHiLo_lo (s : State) (h l : Word) : (s.setHiLo h l).lo = l := rfl
@[simp] theorem State.setHiLo_fregs (s : State) (h l : Word) : (s.setHiLo h l).fregs = s.fregs := rfl
@[simp] theorem State.setHiLo_fpCond (s : State) (h l : Word) : (s.setHiLo h l).fpCond = s.fpCond := rfl
@[simp] theorem State.setHiLo_causeBd (s : State) (h l : Word) : (s.setHiLo h l).causeBd = s.causeBd := rfl
@[simp] theorem State.setHiLo_causeExcCode (s : State) (h l : Word) : (s.setHiLo h l).causeExcCode = s.causeExcCode := rfl
@[simp] theorem State.setHiLo_intMask (s : State) (h l : Word) : (s.setHiLo h l).intMask = s.intMask := rfl
@[simp] theorem State.setHiLo_statusUm (s : State) (h l : Word) : (s.setHiLo h l).statusUm = s.statusUm := rfl
@[simp] theorem State.setHiLo_statusEl (s : State) (h l : Word) : (s.setHiLo h l).statusEl = s.statusEl := rfl
@[simp] theorem State.setHiLo_statusIe (s : State) (h l : Word) : (s.setHiLo h l).statusIe = s.statusIe := rfl
@[simp] theorem State.setHiLo_irq (s : State) (h l : Word) : (s.setHiLo h l).irq = s.irq := rfl
@[simp] theorem State.setHiLo_epc (s : State) (h l : Word) : (s.setHiLo h l).epc = s.epc := rfl
@[simp] theorem State.setHiLo_badVAddr (s : State) (h l : Word) : (s.setHiLo h l).badVAddr = s.badVAddr := rfl
@[simp] theorem State.setHiLo_llBit (s : State) (h l : Word) : (s.setHiLo h l).llBit = s.llBit := rfl
@[simp] theorem State.setHiLo_llAddr (s : State) (h l : Word) : (s.setHiLo h l).llAddr = s.llAddr := rfl
@[simp] theorem State.setHiLo_mem (s : State) (h l : Word) : (s.setHiLo h l).mem = s.mem := rfl
@[simp] theorem State.setHiLo_inDelay (s : State) (h l : Word) : (s.setHiLo h l).inDelay = s.inDelay := rfl
@[simp] theorem State.setHiLo_delayTarget (s : State) (h l : Word) : (s.setHiLo h l).delayTarget = s.delayTarget := rfl
@[simp] theorem State.setHiLo_written (s : State) (h l : Word) : (s.setHiLo h l).written = s.written := rfl
@[simp] theorem State.setHiLo_draws (s : State) (h l : Word) : (s.setHiLo h l).draws = s.draws := rfl
@[simp] theorem State.setHiLo_env (s : State) (h l : Word) : (s.setHiLo h l).env = s.env := rfl
@[simp] theorem State.setHiLo_afterFetch (s : State) (h l : Word) : (s.setHiLo h l).afterFetch = s.afterFetch := rfl
@[simp] theorem State.setHiLo_gaps (s : State) (h l : Word) : (s.setHiLo h l).gaps = s.gaps := rfl
@[simp] theorem State.setHiLo_params (s : State) (h l : Word) : (s.setHiLo h l).params = s.params := rfl
@[simp] theorem State.readR_setHiLo (s : State) (h l : Word) (j : RegNum) : (s.setHiLo h l).readR j = s.readR j := rfl
@[simp] theorem State.readF_setHiLo (s : State) (h l : Word) (j : FRegNum) : (s.setHiLo h l).readF j = s.readF j := rfl
@[simp] theorem State.readD_setHiLo (s : State) (h l : Word) (j : FRegNum) : (s.setHiLo h l).readD j = s.readD j := rfl
@[simp] theorem State.userMode_setHiLo (s : State) (h l : Word) : (s.setHiLo h l).userMode = s.userMode := rfl
@[simp] theorem State.inSlot_setHiLo (s : State) (h l : Word) : (s.setHiLo h l).inSlot = s.inSlot := rfl
@[simp] theorem State.linkAddr_setHiLo (s : State) (h l : Word) : (s.setHiLo h l).linkAddr = s.linkAddr := rfl
@[simp] theorem State.interruptPending_setHiLo (s : State) (h l : Word) : (s.setHiLo h l).interruptPending = s.interruptPending := rfl

/-! ### State.setFPcond -/

@[simp] theorem State.setFPcond_regs (s : State) (b : Bool) : (s.setFPcond b).regs = s.regs := rfl
@[simp] theorem State.setFPcond_pc (s : State) (b : Bool) : (s.setFPcond b).pc = s.pc := rfl
@[simp] theorem State.setFPcond_hi (s : State) (b : Bool) : (s.setFPcond b).hi = s.hi := rfl
@[simp] theorem State.setFPcond_lo (s : State) (b : Bool) : (s.setFPcond b).lo = s.lo := rfl
@[simp] theorem State.setFPcond_fregs (s : State) (b : Bool) : (s.setFPcond b).fregs = s.fregs := rfl
@[simp] theorem State.setFPcond_fpCond (s : State) (b : Bool) : (s.setFPcond b).fpCond = b := rfl
@[simp] theorem State.setFPcond_causeBd (s : State) (b : Bool) : (s.setFPcond b).causeBd = s.causeBd := rfl
@[simp] theorem State.setFPcond_causeExcCode (s : State) (b : Bool) : (s.setFPcond b).causeExcCode = s.causeExcCode := rfl
@[simp] theorem State.setFPcond_intMask (s : State) (b : Bool) : (s.setFPcond b).intMask = s.intMask := rfl
@[simp] theorem State.setFPcond_statusUm (s : State) (b : Bool) : (s.setFPcond b).statusUm = s.statusUm := rfl
@[simp] theorem State.setFPcond_statusEl (s : State) (b : Bool) : (s.setFPcond b).statusEl = s.statusEl := rfl
@[simp] theorem State.setFPcond_statusIe (s : State) (b : Bool) : (s.setFPcond b).statusIe = s.statusIe := rfl
@[simp] theorem State.setFPcond_irq (s : State) (b : Bool) : (s.setFPcond b).irq = s.irq := rfl
@[simp] theorem State.setFPcond_epc (s : State) (b : Bool) : (s.setFPcond b).epc = s.epc := rfl
@[simp] theorem State.setFPcond_badVAddr (s : State) (b : Bool) : (s.setFPcond b).badVAddr = s.badVAddr := rfl
@[simp] theorem State.setFPcond_llBit (s : State) (b : Bool) : (s.setFPcond b).llBit = s.llBit := rfl
@[simp] theorem State.setFPcond_llAddr (s : State) (b : Bool) : (s.setFPcond b).llAddr = s.llAddr := rfl
@[simp] theorem State.setFPcond_mem (s : State) (b : Bool) : (s.setFPcond b).mem = s.mem := rfl
@[simp] theorem State.setFPcond_inDelay (s : State) (b : Bool) : (s.setFPcond b).inDelay = s.inDelay := rfl
@[simp] theorem State.setFPcond_delayTarget (s : State) (b : Bool) : (s.setFPcond b).delayTarget = s.delayTarget := rfl
@[simp] theorem State.setFPcond_written (s : State) (b : Bool) : (s.setFPcond b).written = s.written := rfl
@[simp] theorem State.setFPcond_draws (s : State) (b : Bool) : (s.setFPcond b).draws = s.draws := rfl
@[simp] theorem State.setFPcond_env (s : State) (b : Bool) : (s.setFPcond b).env = s.env := rfl
@[simp] theorem State.setFPcond_afterFetch (s : State) (b : Bool) : (s.setFPcond b).afterFetch = s.afterFetch := rfl
@[simp] theorem State.setFPcond_gaps (s : State) (b : Bool) : (s.setFPcond b).gaps = s.gaps := rfl
@[simp] theorem State.setFPcond_params (s : State) (b : Bool) : (s.setFPcond b).params = s.params := rfl
@[simp] theorem State.readR_setFPcond (s : State) (b : Bool) (j : RegNum) : (s.setFPcond b).readR j = s.readR j := rfl
@[simp] theorem State.readF_setFPcond (s : State) (b : Bool) (j : FRegNum) : (s.setFPcond b).readF j = s.readF j := rfl
@[simp] theorem State.readD_setFPcond (s : State) (b : Bool) (j : FRegNum) : (s.setFPcond b).readD j = s.readD j := rfl
@[simp] theorem State.userMode_setFPcond (s : State) (b : Bool) : (s.setFPcond b).userMode = s.userMode := rfl
@[simp] theorem State.inSlot_setFPcond (s : State) (b : Bool) : (s.setFPcond b).inSlot = s.inSlot := rfl
@[simp] theorem State.linkAddr_setFPcond (s : State) (b : Bool) : (s.setFPcond b).linkAddr = s.linkAddr := rfl
@[simp] theorem State.interruptPending_setFPcond (s : State) (b : Bool) : (s.setFPcond b).interruptPending = s.interruptPending := rfl

/-! ### State.useDraws -/

@[simp] theorem State.useDraws_regs (s : State) (n : Nat) : (s.useDraws n).regs = s.regs := rfl
@[simp] theorem State.useDraws_pc (s : State) (n : Nat) : (s.useDraws n).pc = s.pc := rfl
@[simp] theorem State.useDraws_hi (s : State) (n : Nat) : (s.useDraws n).hi = s.hi := rfl
@[simp] theorem State.useDraws_lo (s : State) (n : Nat) : (s.useDraws n).lo = s.lo := rfl
@[simp] theorem State.useDraws_fregs (s : State) (n : Nat) : (s.useDraws n).fregs = s.fregs := rfl
@[simp] theorem State.useDraws_fpCond (s : State) (n : Nat) : (s.useDraws n).fpCond = s.fpCond := rfl
@[simp] theorem State.useDraws_causeBd (s : State) (n : Nat) : (s.useDraws n).causeBd = s.causeBd := rfl
@[simp] theorem State.useDraws_causeExcCode (s : State) (n : Nat) : (s.useDraws n).causeExcCode = s.causeExcCode := rfl
@[simp] theorem State.useDraws_intMask (s : State) (n : Nat) : (s.useDraws n).intMask = s.intMask := rfl
@[simp] theorem State.useDraws_statusUm (s : State) (n : Nat) : (s.useDraws n).statusUm = s.statusUm := rfl
@[simp] theorem State.useDraws_statusEl (s : State) (n : Nat) : (s.useDraws n).statusEl = s.statusEl := rfl
@[simp] theorem State.useDraws_statusIe (s : State) (n : Nat) : (s.useDraws n).statusIe = s.statusIe := rfl
@[simp] theorem State.useDraws_irq (s : State) (n : Nat) : (s.useDraws n).irq = s.irq := rfl
@[simp] theorem State.useDraws_epc (s : State) (n : Nat) : (s.useDraws n).epc = s.epc := rfl
@[simp] theorem State.useDraws_badVAddr (s : State) (n : Nat) : (s.useDraws n).badVAddr = s.badVAddr := rfl
@[simp] theorem State.useDraws_llBit (s : State) (n : Nat) : (s.useDraws n).llBit = s.llBit := rfl
@[simp] theorem State.useDraws_llAddr (s : State) (n : Nat) : (s.useDraws n).llAddr = s.llAddr := rfl
@[simp] theorem State.useDraws_mem (s : State) (n : Nat) : (s.useDraws n).mem = s.mem := rfl
@[simp] theorem State.useDraws_inDelay (s : State) (n : Nat) : (s.useDraws n).inDelay = s.inDelay := rfl
@[simp] theorem State.useDraws_delayTarget (s : State) (n : Nat) : (s.useDraws n).delayTarget = s.delayTarget := rfl
@[simp] theorem State.useDraws_written (s : State) (n : Nat) : (s.useDraws n).written = s.written := rfl
@[simp] theorem State.useDraws_draws (s : State) (n : Nat) : (s.useDraws n).draws = s.draws + n := rfl
@[simp] theorem State.useDraws_env (s : State) (n : Nat) : (s.useDraws n).env = s.env := rfl
@[simp] theorem State.useDraws_afterFetch (s : State) (n : Nat) : (s.useDraws n).afterFetch = s.afterFetch := rfl
@[simp] theorem State.useDraws_gaps (s : State) (n : Nat) : (s.useDraws n).gaps = s.gaps := rfl
@[simp] theorem State.useDraws_params (s : State) (n : Nat) : (s.useDraws n).params = s.params := rfl
@[simp] theorem State.readR_useDraws (s : State) (n : Nat) (j : RegNum) : (s.useDraws n).readR j = s.readR j := rfl
@[simp] theorem State.readF_useDraws (s : State) (n : Nat) (j : FRegNum) : (s.useDraws n).readF j = s.readF j := rfl
@[simp] theorem State.readD_useDraws (s : State) (n : Nat) (j : FRegNum) : (s.useDraws n).readD j = s.readD j := rfl
@[simp] theorem State.userMode_useDraws (s : State) (n : Nat) : (s.useDraws n).userMode = s.userMode := rfl
@[simp] theorem State.inSlot_useDraws (s : State) (n : Nat) : (s.useDraws n).inSlot = s.inSlot := rfl
@[simp] theorem State.linkAddr_useDraws (s : State) (n : Nat) : (s.useDraws n).linkAddr = s.linkAddr := rfl
@[simp] theorem State.interruptPending_useDraws (s : State) (n : Nat) : (s.useDraws n).interruptPending = s.interruptPending := rfl

/-! ### State.store -/

@[simp] theorem State.store_regs (s : State) (a : Word) (bytes : List Byte) : (s.store a bytes).regs = s.regs := rfl
@[simp] theorem State.store_pc (s : State) (a : Word) (bytes : List Byte) : (s.store a bytes).pc = s.pc := rfl
@[simp] theorem State.store_hi (s : State) (a : Word) (bytes : List Byte) : (s.store a bytes).hi = s.hi := rfl
@[simp] theorem State.store_lo (s : State) (a : Word) (bytes : List Byte) : (s.store a bytes).lo = s.lo := rfl
@[simp] theorem State.store_fregs (s : State) (a : Word) (bytes : List Byte) : (s.store a bytes).fregs = s.fregs := rfl
@[simp] theorem State.store_fpCond (s : State) (a : Word) (bytes : List Byte) : (s.store a bytes).fpCond = s.fpCond := rfl
@[simp] theorem State.store_causeBd (s : State) (a : Word) (bytes : List Byte) : (s.store a bytes).causeBd = s.causeBd := rfl
@[simp] theorem State.store_causeExcCode (s : State) (a : Word) (bytes : List Byte) :
    (s.store a bytes).causeExcCode = s.causeExcCode := rfl
@[simp] theorem State.store_intMask (s : State) (a : Word) (bytes : List Byte) : (s.store a bytes).intMask = s.intMask := rfl
@[simp] theorem State.store_statusUm (s : State) (a : Word) (bytes : List Byte) : (s.store a bytes).statusUm = s.statusUm := rfl
@[simp] theorem State.store_statusEl (s : State) (a : Word) (bytes : List Byte) : (s.store a bytes).statusEl = s.statusEl := rfl
@[simp] theorem State.store_statusIe (s : State) (a : Word) (bytes : List Byte) : (s.store a bytes).statusIe = s.statusIe := rfl
@[simp] theorem State.store_irq (s : State) (a : Word) (bytes : List Byte) : (s.store a bytes).irq = s.irq := rfl
@[simp] theorem State.store_epc (s : State) (a : Word) (bytes : List Byte) : (s.store a bytes).epc = s.epc := rfl
@[simp] theorem State.store_badVAddr (s : State) (a : Word) (bytes : List Byte) : (s.store a bytes).badVAddr = s.badVAddr := rfl
@[simp] theorem State.store_llBit (s : State) (a : Word) (bytes : List Byte) : (s.store a bytes).llBit = s.llBit := rfl
@[simp] theorem State.store_llAddr (s : State) (a : Word) (bytes : List Byte) : (s.store a bytes).llAddr = s.llAddr := rfl
@[simp] theorem State.store_mem (s : State) (a : Word) (bytes : List Byte) :
    (s.store a bytes).mem = s.mem.writeBytes a bytes := rfl
@[simp] theorem State.store_inDelay (s : State) (a : Word) (bytes : List Byte) : (s.store a bytes).inDelay = s.inDelay := rfl
@[simp] theorem State.store_delayTarget (s : State) (a : Word) (bytes : List Byte) :
    (s.store a bytes).delayTarget = s.delayTarget := rfl
@[simp] theorem State.store_written (s : State) (a : Word) (bytes : List Byte) :
    (s.store a bytes).written = insertAddrs a bytes.length s.written := rfl
@[simp] theorem State.store_draws (s : State) (a : Word) (bytes : List Byte) : (s.store a bytes).draws = s.draws := rfl
@[simp] theorem State.store_env (s : State) (a : Word) (bytes : List Byte) : (s.store a bytes).env = s.env := rfl
@[simp] theorem State.store_afterFetch (s : State) (a : Word) (bytes : List Byte) :
    (s.store a bytes).afterFetch = s.afterFetch := rfl
@[simp] theorem State.store_gaps (s : State) (a : Word) (bytes : List Byte) : (s.store a bytes).gaps = s.gaps := rfl
@[simp] theorem State.store_params (s : State) (a : Word) (bytes : List Byte) : (s.store a bytes).params = s.params := rfl
@[simp] theorem State.readR_store (s : State) (a : Word) (bytes : List Byte) (j : RegNum) : (s.store a bytes).readR j = s.readR j := rfl
@[simp] theorem State.readF_store (s : State) (a : Word) (bytes : List Byte) (j : FRegNum) : (s.store a bytes).readF j = s.readF j := rfl
@[simp] theorem State.readD_store (s : State) (a : Word) (bytes : List Byte) (j : FRegNum) : (s.store a bytes).readD j = s.readD j := rfl
@[simp] theorem State.userMode_store (s : State) (a : Word) (bytes : List Byte) : (s.store a bytes).userMode = s.userMode := rfl
@[simp] theorem State.inSlot_store (s : State) (a : Word) (bytes : List Byte) : (s.store a bytes).inSlot = s.inSlot := rfl
@[simp] theorem State.linkAddr_store (s : State) (a : Word) (bytes : List Byte) : (s.store a bytes).linkAddr = s.linkAddr := rfl
@[simp] theorem State.interruptPending_store (s : State) (a : Word) (bytes : List Byte) : (s.store a bytes).interruptPending = s.interruptPending := rfl

/-! ### State.trap -/

@[simp] theorem State.trap_regs (s : State) (x : Exc) : (s.trap x).regs = s.regs := rfl
@[simp] theorem State.trap_pc (s : State) (x : Exc) : (s.trap x).pc = s.params.excVector := rfl
@[simp] theorem State.trap_hi (s : State) (x : Exc) : (s.trap x).hi = s.hi := rfl
@[simp] theorem State.trap_lo (s : State) (x : Exc) : (s.trap x).lo = s.lo := rfl
@[simp] theorem State.trap_fregs (s : State) (x : Exc) : (s.trap x).fregs = s.fregs := rfl
@[simp] theorem State.trap_fpCond (s : State) (x : Exc) : (s.trap x).fpCond = s.fpCond := rfl
@[simp] theorem State.trap_causeBd (s : State) (x : Exc) :
    (s.trap x).causeBd = if s.statusEl then s.causeBd else s.inSlot := rfl
@[simp] theorem State.trap_causeExcCode (s : State) (x : Exc) : (s.trap x).causeExcCode = x.code := rfl
@[simp] theorem State.trap_intMask (s : State) (x : Exc) : (s.trap x).intMask = s.intMask := rfl
@[simp] theorem State.trap_statusUm (s : State) (x : Exc) : (s.trap x).statusUm = s.statusUm := rfl
@[simp] theorem State.trap_statusEl (s : State) (x : Exc) : (s.trap x).statusEl = true := rfl
@[simp] theorem State.trap_statusIe (s : State) (x : Exc) : (s.trap x).statusIe = s.statusIe := rfl
@[simp] theorem State.trap_irq (s : State) (x : Exc) : (s.trap x).irq = s.irq := rfl
@[simp] theorem State.trap_epc (s : State) (x : Exc) :
    (s.trap x).epc = if s.statusEl then s.epc else if s.inSlot then s.pc - 4 else s.pc := rfl
@[simp] theorem State.trap_badVAddr (s : State) (x : Exc) : (s.trap x).badVAddr = x.badAddr.getD s.badVAddr := rfl
@[simp] theorem State.trap_llBit (s : State) (x : Exc) : (s.trap x).llBit = false := rfl
@[simp] theorem State.trap_llAddr (s : State) (x : Exc) : (s.trap x).llAddr = s.llAddr := rfl
@[simp] theorem State.trap_mem (s : State) (x : Exc) : (s.trap x).mem = s.mem := rfl
@[simp] theorem State.trap_inDelay (s : State) (x : Exc) : (s.trap x).inDelay = false := rfl
@[simp] theorem State.trap_delayTarget (s : State) (x : Exc) : (s.trap x).delayTarget = s.delayTarget := rfl
@[simp] theorem State.trap_written (s : State) (x : Exc) : (s.trap x).written = s.written := rfl
@[simp] theorem State.trap_draws (s : State) (x : Exc) : (s.trap x).draws = s.draws := rfl
@[simp] theorem State.trap_env (s : State) (x : Exc) : (s.trap x).env = s.env := rfl
@[simp] theorem State.trap_afterFetch (s : State) (x : Exc) : (s.trap x).afterFetch = s.afterFetch := rfl
@[simp] theorem State.trap_gaps (s : State) (x : Exc) : (s.trap x).gaps = s.gaps := rfl
@[simp] theorem State.trap_params (s : State) (x : Exc) : (s.trap x).params = s.params := rfl
@[simp] theorem State.readR_trap (s : State) (x : Exc) (j : RegNum) : (s.trap x).readR j = s.readR j := rfl
@[simp] theorem State.readF_trap (s : State) (x : Exc) (j : FRegNum) : (s.trap x).readF j = s.readF j := rfl
@[simp] theorem State.readD_trap (s : State) (x : Exc) (j : FRegNum) : (s.trap x).readD j = s.readD j := rfl

/-! ### State.returnFromTrap -/

@[simp] theorem State.returnFromTrap_regs (s : State) : s.returnFromTrap.regs = s.regs := rfl
@[simp] theorem State.returnFromTrap_pc (s : State) : s.returnFromTrap.pc = s.epc := rfl
@[simp] theorem State.returnFromTrap_hi (s : State) : s.returnFromTrap.hi = s.hi := rfl
@[simp] theorem State.returnFromTrap_lo (s : State) : s.returnFromTrap.lo = s.lo := rfl
@[simp] theorem State.returnFromTrap_fregs (s : State) : s.returnFromTrap.fregs = s.fregs := rfl
@[simp] theorem State.returnFromTrap_fpCond (s : State) : s.returnFromTrap.fpCond = s.fpCond := rfl
@[simp] theorem State.returnFromTrap_causeBd (s : State) : s.returnFromTrap.causeBd = s.causeBd := rfl
@[simp] theorem State.returnFromTrap_causeExcCode (s : State) : s.returnFromTrap.causeExcCode = s.causeExcCode := rfl
@[simp] theorem State.returnFromTrap_intMask (s : State) : s.returnFromTrap.intMask = s.intMask := rfl
@[simp] theorem State.returnFromTrap_statusUm (s : State) : s.returnFromTrap.statusUm = s.statusUm := rfl
@[simp] theorem State.returnFromTrap_statusEl (s : State) : s.returnFromTrap.statusEl = false := rfl
@[simp] theorem State.returnFromTrap_statusIe (s : State) : s.returnFromTrap.statusIe = s.statusIe := rfl
@[simp] theorem State.returnFromTrap_irq (s : State) : s.returnFromTrap.irq = s.irq := rfl
@[simp] theorem State.returnFromTrap_epc (s : State) : s.returnFromTrap.epc = s.epc := rfl
@[simp] theorem State.returnFromTrap_badVAddr (s : State) : s.returnFromTrap.badVAddr = s.badVAddr := rfl
@[simp] theorem State.returnFromTrap_llBit (s : State) : s.returnFromTrap.llBit = false := rfl
@[simp] theorem State.returnFromTrap_llAddr (s : State) : s.returnFromTrap.llAddr = s.llAddr := rfl
@[simp] theorem State.returnFromTrap_mem (s : State) : s.returnFromTrap.mem = s.mem := rfl
@[simp] theorem State.returnFromTrap_inDelay (s : State) : s.returnFromTrap.inDelay = s.inDelay := rfl
@[simp] theorem State.returnFromTrap_delayTarget (s : State) : s.returnFromTrap.delayTarget = s.delayTarget := rfl
@[simp] theorem State.returnFromTrap_written (s : State) : s.returnFromTrap.written = s.written := rfl
@[simp] theorem State.returnFromTrap_draws (s : State) : s.returnFromTrap.draws = s.draws := rfl
@[simp] theorem State.returnFromTrap_env (s : State) : s.returnFromTrap.env = s.env := rfl
@[simp] theorem State.returnFromTrap_afterFetch (s : State) : s.returnFromTrap.afterFetch = s.afterFetch := rfl
@[simp] theorem State.returnFromTrap_gaps (s : State) : s.returnFromTrap.gaps = s.gaps := rfl
@[simp] theorem State.returnFromTrap_params (s : State) : s.returnFromTrap.params = s.params := rfl
@[simp] theorem State.readR_returnFromTrap (s : State) (j : RegNum) : s.returnFromTrap.readR j = s.readR j := rfl
@[simp] theorem State.readF_returnFromTrap (s : State) (j : FRegNum) : s.returnFromTrap.readF j = s.readF j := rfl
@[simp] theorem State.readD_returnFromTrap (s : State) (j : FRegNum) : s.returnFromTrap.readD j = s.readD j := rfl

/-! ### State.retire -/

@[simp] theorem State.retire_regs (s : State) : s.retire.regs = s.regs := rfl
@[simp] theorem State.retire_pc (s : State) : s.retire.pc = if s.inSlot then s.delayTarget else s.pc + 4 := rfl
@[simp] theorem State.retire_hi (s : State) : s.retire.hi = s.hi := rfl
@[simp] theorem State.retire_lo (s : State) : s.retire.lo = s.lo := rfl
@[simp] theorem State.retire_fregs (s : State) : s.retire.fregs = s.fregs := rfl
@[simp] theorem State.retire_fpCond (s : State) : s.retire.fpCond = s.fpCond := rfl
@[simp] theorem State.retire_causeBd (s : State) : s.retire.causeBd = s.causeBd := rfl
@[simp] theorem State.retire_causeExcCode (s : State) : s.retire.causeExcCode = s.causeExcCode := rfl
@[simp] theorem State.retire_intMask (s : State) : s.retire.intMask = s.intMask := rfl
@[simp] theorem State.retire_statusUm (s : State) : s.retire.statusUm = s.statusUm := rfl
@[simp] theorem State.retire_statusEl (s : State) : s.retire.statusEl = s.statusEl := rfl
@[simp] theorem State.retire_statusIe (s : State) : s.retire.statusIe = s.statusIe := rfl
@[simp] theorem State.retire_irq (s : State) : s.retire.irq = s.irq := rfl
@[simp] theorem State.retire_epc (s : State) : s.retire.epc = s.epc := rfl
@[simp] theorem State.retire_badVAddr (s : State) : s.retire.badVAddr = s.badVAddr := rfl
@[simp] theorem State.retire_llBit (s : State) : s.retire.llBit = s.llBit := rfl
@[simp] theorem State.retire_llAddr (s : State) : s.retire.llAddr = s.llAddr := rfl
@[simp] theorem State.retire_mem (s : State) : s.retire.mem = s.mem := rfl
@[simp] theorem State.retire_inDelay (s : State) : s.retire.inDelay = if s.params.branchDelay then false else s.inDelay := rfl
@[simp] theorem State.retire_delayTarget (s : State) : s.retire.delayTarget = s.delayTarget := rfl
@[simp] theorem State.retire_written (s : State) : s.retire.written = s.written := rfl
@[simp] theorem State.retire_draws (s : State) : s.retire.draws = s.draws := rfl
@[simp] theorem State.retire_env (s : State) : s.retire.env = s.env := rfl
@[simp] theorem State.retire_afterFetch (s : State) : s.retire.afterFetch = s.afterFetch := rfl
@[simp] theorem State.retire_gaps (s : State) : s.retire.gaps = s.gaps := rfl
@[simp] theorem State.retire_params (s : State) : s.retire.params = s.params := rfl
@[simp] theorem State.readR_retire (s : State) (j : RegNum) : s.retire.readR j = s.readR j := rfl
@[simp] theorem State.readF_retire (s : State) (j : FRegNum) : s.retire.readF j = s.readF j := rfl
@[simp] theorem State.readD_retire (s : State) (j : FRegNum) : s.retire.readD j = s.readD j := rfl
@[simp] theorem State.userMode_retire (s : State) : s.retire.userMode = s.userMode := rfl
@[simp] theorem State.interruptPending_retire (s : State) : s.retire.interruptPending = s.interruptPending := rfl

/-! ### State.openPair -/

@[simp] theorem State.openPair_regs (s : State) (a : Word) : (s.openPair a).regs = s.regs := rfl
@[simp] theorem State.openPair_pc (s : State) (a : Word) : (s.openPair a).pc = s.pc := rfl
@[simp] theorem State.openPair_hi (s : State) (a : Word) : (s.openPair a).hi = s.hi := rfl
@[simp] theorem State.openPair_lo (s : State) (a : Word) : (s.openPair a).lo = s.lo := rfl
@[simp] theorem State.openPair_fregs (s : State) (a : Word) : (s.openPair a).fregs = s.fregs := rfl
@[simp] theorem State.openPair_fpCond (s : State) (a : Word) : (s.openPair a).fpCond = s.fpCond := rfl
@[simp] theorem State.openPair_causeBd (s : State) (a : Word) : (s.openPair a).causeBd = s.causeBd := rfl
@[simp] theorem State.openPair_causeExcCode (s : State) (a : Word) : (s.openPair a).causeExcCode = s.causeExcCode := rfl
@[simp] theorem State.openPair_intMask (s : State) (a : Word) : (s.openPair a).intMask = s.intMask := rfl
@[simp] theorem State.openPair_statusUm (s : State) (a : Word) : (s.openPair a).statusUm = s.statusUm := rfl
@[simp] theorem State.openPair_statusEl (s : State) (a : Word) : (s.openPair a).statusEl = s.statusEl := rfl
@[simp] theorem State.openPair_statusIe (s : State) (a : Word) : (s.openPair a).statusIe = s.statusIe := rfl
@[simp] theorem State.openPair_irq (s : State) (a : Word) : (s.openPair a).irq = s.irq := rfl
@[simp] theorem State.openPair_epc (s : State) (a : Word) : (s.openPair a).epc = s.epc := rfl
@[simp] theorem State.openPair_badVAddr (s : State) (a : Word) : (s.openPair a).badVAddr = s.badVAddr := rfl
@[simp] theorem State.openPair_llBit (s : State) (a : Word) : (s.openPair a).llBit = true := rfl
@[simp] theorem State.openPair_llAddr (s : State) (a : Word) : (s.openPair a).llAddr = a := rfl
@[simp] theorem State.openPair_mem (s : State) (a : Word) : (s.openPair a).mem = s.mem := rfl
@[simp] theorem State.openPair_inDelay (s : State) (a : Word) : (s.openPair a).inDelay = s.inDelay := rfl
@[simp] theorem State.openPair_delayTarget (s : State) (a : Word) : (s.openPair a).delayTarget = s.delayTarget := rfl
@[simp] theorem State.openPair_written (s : State) (a : Word) : (s.openPair a).written = s.written := rfl
@[simp] theorem State.openPair_draws (s : State) (a : Word) : (s.openPair a).draws = s.draws := rfl
@[simp] theorem State.openPair_env (s : State) (a : Word) : (s.openPair a).env = s.env := rfl
@[simp] theorem State.openPair_afterFetch (s : State) (a : Word) : (s.openPair a).afterFetch = s.afterFetch := rfl
@[simp] theorem State.openPair_gaps (s : State) (a : Word) : (s.openPair a).gaps = s.gaps := rfl
@[simp] theorem State.openPair_params (s : State) (a : Word) : (s.openPair a).params = s.params := rfl
@[simp] theorem State.readR_openPair (s : State) (a : Word) (j : RegNum) : (s.openPair a).readR j = s.readR j := rfl
@[simp] theorem State.readF_openPair (s : State) (a : Word) (j : FRegNum) : (s.openPair a).readF j = s.readF j := rfl
@[simp] theorem State.readD_openPair (s : State) (a : Word) (j : FRegNum) : (s.openPair a).readD j = s.readD j := rfl
@[simp] theorem State.userMode_openPair (s : State) (a : Word) : (s.openPair a).userMode = s.userMode := rfl
@[simp] theorem State.inSlot_openPair (s : State) (a : Word) : (s.openPair a).inSlot = s.inSlot := rfl
@[simp] theorem State.linkAddr_openPair (s : State) (a : Word) : (s.openPair a).linkAddr = s.linkAddr := rfl
@[simp] theorem State.interruptPending_openPair (s : State) (a : Word) : (s.openPair a).interruptPending = s.interruptPending := rfl

/-! ### State.closePair -/

@[simp] theorem State.closePair_regs (s : State) : s.closePair.regs = s.regs := rfl
@[simp] theorem State.closePair_pc (s : State) : s.closePair.pc = s.pc := rfl
@[simp] theorem State.closePair_hi (s : State) : s.closePair.hi = s.hi := rfl
@[simp] theorem State.closePair_lo (s : State) : s.closePair.lo = s.lo := rfl
@[simp] theorem State.closePair_fregs (s : State) : s.closePair.fregs = s.fregs := rfl
@[simp] theorem State.closePair_fpCond (s : State) : s.closePair.fpCond = s.fpCond := rfl
@[simp] theorem State.closePair_causeBd (s : State) : s.closePair.causeBd = s.causeBd := rfl
@[simp] theorem State.closePair_causeExcCode (s : State) : s.closePair.causeExcCode = s.causeExcCode := rfl
@[simp] theorem State.closePair_intMask (s : State) : s.closePair.intMask = s.intMask := rfl
@[simp] theorem State.closePair_statusUm (s : State) : s.closePair.statusUm = s.statusUm := rfl
@[simp] theorem State.closePair_statusEl (s : State) : s.closePair.statusEl = s.statusEl := rfl
@[simp] theorem State.closePair_statusIe (s : State) : s.closePair.statusIe = s.statusIe := rfl
@[simp] theorem State.closePair_irq (s : State) : s.closePair.irq = s.irq := rfl
@[simp] theorem State.closePair_epc (s : State) : s.closePair.epc = s.epc := rfl
@[simp] theorem State.closePair_badVAddr (s : State) : s.closePair.badVAddr = s.badVAddr := rfl
@[simp] theorem State.closePair_llBit (s : State) : s.closePair.llBit = false := rfl
@[simp] theorem State.closePair_llAddr (s : State) : s.closePair.llAddr = s.llAddr := rfl
@[simp] theorem State.closePair_mem (s : State) : s.closePair.mem = s.mem := rfl
@[simp] theorem State.closePair_inDelay (s : State) : s.closePair.inDelay = s.inDelay := rfl
@[simp] theorem State.closePair_delayTarget (s : State) : s.closePair.delayTarget = s.delayTarget := rfl
@[simp] theorem State.closePair_written (s : State) : s.closePair.written = s.written := rfl
@[simp] theorem State.closePair_draws (s : State) : s.closePair.draws = s.draws := rfl
@[simp] theorem State.closePair_env (s : State) : s.closePair.env = s.env := rfl
@[simp] theorem State.closePair_afterFetch (s : State) : s.closePair.afterFetch = s.afterFetch := rfl
@[simp] theorem State.closePair_gaps (s : State) : s.closePair.gaps = s.gaps := rfl
@[simp] theorem State.closePair_params (s : State) : s.closePair.params = s.params := rfl
@[simp] theorem State.readR_closePair (s : State) (j : RegNum) : s.closePair.readR j = s.readR j := rfl
@[simp] theorem State.readF_closePair (s : State) (j : FRegNum) : s.closePair.readF j = s.readF j := rfl
@[simp] theorem State.readD_closePair (s : State) (j : FRegNum) : s.closePair.readD j = s.readD j := rfl
@[simp] theorem State.userMode_closePair (s : State) : s.closePair.userMode = s.userMode := rfl
@[simp] theorem State.inSlot_closePair (s : State) : s.closePair.inSlot = s.inSlot := rfl
@[simp] theorem State.linkAddr_closePair (s : State) : s.closePair.linkAddr = s.linkAddr := rfl
@[simp] theorem State.interruptPending_closePair (s : State) : s.closePair.interruptPending = s.interruptPending := rfl

/-! ### State.writeCR -/

@[simp] theorem State.writeCR_regs (s : State) (n : CRegNum) (v : Word) : (s.writeCR n v).regs = s.regs := rfl
@[simp] theorem State.writeCR_pc (s : State) (n : CRegNum) (v : Word) : (s.writeCR n v).pc = s.pc := rfl
@[simp] theorem State.writeCR_hi (s : State) (n : CRegNum) (v : Word) : (s.writeCR n v).hi = s.hi := rfl
@[simp] theorem State.writeCR_lo (s : State) (n : CRegNum) (v : Word) : (s.writeCR n v).lo = s.lo := rfl
@[simp] theorem State.writeCR_fregs (s : State) (n : CRegNum) (v : Word) : (s.writeCR n v).fregs = s.fregs := rfl
@[simp] theorem State.writeCR_fpCond (s : State) (n : CRegNum) (v : Word) : (s.writeCR n v).fpCond = s.fpCond := rfl
@[simp] theorem State.writeCR_causeBd (s : State) (n : CRegNum) (v : Word) : (s.writeCR n v).causeBd = s.causeBd := rfl
@[simp] theorem State.writeCR_causeExcCode (s : State) (n : CRegNum) (v : Word) :
    (s.writeCR n v).causeExcCode = s.causeExcCode := rfl
@[simp] theorem State.writeCR_intMask (s : State) (n : CRegNum) (v : Word) : (s.writeCR n v).intMask =
      if (s.params.intFields = .mips32 ∧ n = s.params.crStatus) ∨ (s.params.intFields = .asPrinted ∧ n = s.params.crCause)
      then v.extractLsb' 8 8 else s.intMask := rfl
@[simp] theorem State.writeCR_statusUm (s : State) (n : CRegNum) (v : Word) :
    (s.writeCR n v).statusUm = if n = s.params.crStatus then v.getLsbD 4 else s.statusUm := rfl
@[simp] theorem State.writeCR_statusEl (s : State) (n : CRegNum) (v : Word) :
    (s.writeCR n v).statusEl = if n = s.params.crStatus then v.getLsbD 1 else s.statusEl := rfl
@[simp] theorem State.writeCR_statusIe (s : State) (n : CRegNum) (v : Word) :
    (s.writeCR n v).statusIe = if n = s.params.crStatus then v.getLsbD 0 else s.statusIe := rfl
@[simp] theorem State.writeCR_irq (s : State) (n : CRegNum) (v : Word) : (s.writeCR n v).irq = s.irq := rfl
@[simp] theorem State.writeCR_epc (s : State) (n : CRegNum) (v : Word) :
    (s.writeCR n v).epc = if n = s.params.crEpc then v else s.epc := rfl
@[simp] theorem State.writeCR_badVAddr (s : State) (n : CRegNum) (v : Word) : (s.writeCR n v).badVAddr = s.badVAddr := rfl
@[simp] theorem State.writeCR_llBit (s : State) (n : CRegNum) (v : Word) : (s.writeCR n v).llBit = s.llBit := rfl
@[simp] theorem State.writeCR_llAddr (s : State) (n : CRegNum) (v : Word) : (s.writeCR n v).llAddr = s.llAddr := rfl
@[simp] theorem State.writeCR_mem (s : State) (n : CRegNum) (v : Word) : (s.writeCR n v).mem = s.mem := rfl
@[simp] theorem State.writeCR_inDelay (s : State) (n : CRegNum) (v : Word) : (s.writeCR n v).inDelay = s.inDelay := rfl
@[simp] theorem State.writeCR_delayTarget (s : State) (n : CRegNum) (v : Word) :
    (s.writeCR n v).delayTarget = s.delayTarget := rfl
@[simp] theorem State.writeCR_written (s : State) (n : CRegNum) (v : Word) : (s.writeCR n v).written = s.written := rfl
@[simp] theorem State.writeCR_draws (s : State) (n : CRegNum) (v : Word) : (s.writeCR n v).draws = s.draws := rfl
@[simp] theorem State.writeCR_env (s : State) (n : CRegNum) (v : Word) : (s.writeCR n v).env = s.env := rfl
@[simp] theorem State.writeCR_afterFetch (s : State) (n : CRegNum) (v : Word) : (s.writeCR n v).afterFetch = s.afterFetch := rfl
@[simp] theorem State.writeCR_gaps (s : State) (n : CRegNum) (v : Word) : (s.writeCR n v).gaps = s.gaps := rfl
@[simp] theorem State.writeCR_params (s : State) (n : CRegNum) (v : Word) : (s.writeCR n v).params = s.params := rfl
@[simp] theorem State.readR_writeCR (s : State) (n : CRegNum) (v : Word) (j : RegNum) : (s.writeCR n v).readR j = s.readR j := rfl
@[simp] theorem State.readF_writeCR (s : State) (n : CRegNum) (v : Word) (j : FRegNum) : (s.writeCR n v).readF j = s.readF j := rfl
@[simp] theorem State.readD_writeCR (s : State) (n : CRegNum) (v : Word) (j : FRegNum) : (s.writeCR n v).readD j = s.readD j := rfl
@[simp] theorem State.inSlot_writeCR (s : State) (n : CRegNum) (v : Word) : (s.writeCR n v).inSlot = s.inSlot := rfl
@[simp] theorem State.linkAddr_writeCR (s : State) (n : CRegNum) (v : Word) : (s.writeCR n v).linkAddr = s.linkAddr := rfl

/-! ### State.otherWrites -/

@[simp] theorem State.otherWrites_regs (s : State) (ws : AgentWrites) : (s.otherWrites ws).regs = s.regs := rfl
@[simp] theorem State.otherWrites_pc (s : State) (ws : AgentWrites) : (s.otherWrites ws).pc = s.pc := rfl
@[simp] theorem State.otherWrites_hi (s : State) (ws : AgentWrites) : (s.otherWrites ws).hi = s.hi := rfl
@[simp] theorem State.otherWrites_lo (s : State) (ws : AgentWrites) : (s.otherWrites ws).lo = s.lo := rfl
@[simp] theorem State.otherWrites_fregs (s : State) (ws : AgentWrites) : (s.otherWrites ws).fregs = s.fregs := rfl
@[simp] theorem State.otherWrites_fpCond (s : State) (ws : AgentWrites) : (s.otherWrites ws).fpCond = s.fpCond := rfl
@[simp] theorem State.otherWrites_causeBd (s : State) (ws : AgentWrites) : (s.otherWrites ws).causeBd = s.causeBd := rfl
@[simp] theorem State.otherWrites_causeExcCode (s : State) (ws : AgentWrites) :
    (s.otherWrites ws).causeExcCode = s.causeExcCode := rfl
@[simp] theorem State.otherWrites_intMask (s : State) (ws : AgentWrites) : (s.otherWrites ws).intMask = s.intMask := rfl
@[simp] theorem State.otherWrites_statusUm (s : State) (ws : AgentWrites) : (s.otherWrites ws).statusUm = s.statusUm := rfl
@[simp] theorem State.otherWrites_statusEl (s : State) (ws : AgentWrites) : (s.otherWrites ws).statusEl = s.statusEl := rfl
@[simp] theorem State.otherWrites_statusIe (s : State) (ws : AgentWrites) : (s.otherWrites ws).statusIe = s.statusIe := rfl
@[simp] theorem State.otherWrites_irq (s : State) (ws : AgentWrites) : (s.otherWrites ws).irq = s.irq := rfl
@[simp] theorem State.otherWrites_epc (s : State) (ws : AgentWrites) : (s.otherWrites ws).epc = s.epc := rfl
@[simp] theorem State.otherWrites_badVAddr (s : State) (ws : AgentWrites) : (s.otherWrites ws).badVAddr = s.badVAddr := rfl
@[simp] theorem State.otherWrites_llBit (s : State) (ws : AgentWrites) :
    (s.otherWrites ws).llBit = (s.llBit && !(s.allowedWrites ws).any fun w => s.inPairWord w.1) := rfl
@[simp] theorem State.otherWrites_llAddr (s : State) (ws : AgentWrites) : (s.otherWrites ws).llAddr = s.llAddr := rfl
@[simp] theorem State.otherWrites_mem (s : State) (ws : AgentWrites) :
    (s.otherWrites ws).mem = s.mem.extWrites (s.allowedWrites ws) := rfl
@[simp] theorem State.otherWrites_inDelay (s : State) (ws : AgentWrites) : (s.otherWrites ws).inDelay = s.inDelay := rfl
@[simp] theorem State.otherWrites_delayTarget (s : State) (ws : AgentWrites) :
    (s.otherWrites ws).delayTarget = s.delayTarget := rfl
@[simp] theorem State.otherWrites_written (s : State) (ws : AgentWrites) : (s.otherWrites ws).written = s.written := rfl
@[simp] theorem State.otherWrites_draws (s : State) (ws : AgentWrites) : (s.otherWrites ws).draws = s.draws := rfl
@[simp] theorem State.otherWrites_env (s : State) (ws : AgentWrites) : (s.otherWrites ws).env = s.env := rfl
@[simp] theorem State.otherWrites_afterFetch (s : State) (ws : AgentWrites) :
    (s.otherWrites ws).afterFetch = s.afterFetch := rfl
@[simp] theorem State.otherWrites_gaps (s : State) (ws : AgentWrites) : (s.otherWrites ws).gaps = s.gaps := rfl
@[simp] theorem State.otherWrites_params (s : State) (ws : AgentWrites) : (s.otherWrites ws).params = s.params := rfl
@[simp] theorem State.readR_otherWrites (s : State) (ws : AgentWrites) (j : RegNum) : (s.otherWrites ws).readR j = s.readR j := rfl
@[simp] theorem State.readF_otherWrites (s : State) (ws : AgentWrites) (j : FRegNum) : (s.otherWrites ws).readF j = s.readF j := rfl
@[simp] theorem State.readD_otherWrites (s : State) (ws : AgentWrites) (j : FRegNum) : (s.otherWrites ws).readD j = s.readD j := rfl
@[simp] theorem State.userMode_otherWrites (s : State) (ws : AgentWrites) : (s.otherWrites ws).userMode = s.userMode := rfl
@[simp] theorem State.inSlot_otherWrites (s : State) (ws : AgentWrites) : (s.otherWrites ws).inSlot = s.inSlot := rfl
@[simp] theorem State.linkAddr_otherWrites (s : State) (ws : AgentWrites) : (s.otherWrites ws).linkAddr = s.linkAddr := rfl
@[simp] theorem State.interruptPending_otherWrites (s : State) (ws : AgentWrites) : (s.otherWrites ws).interruptPending = s.interruptPending := rfl

/-! ### State.placeWord -/

@[simp] theorem State.placeWord_regs (s : State) (w : Word) : (s.placeWord w).regs = s.regs := rfl
@[simp] theorem State.placeWord_pc (s : State) (w : Word) : (s.placeWord w).pc = s.pc := rfl
@[simp] theorem State.placeWord_hi (s : State) (w : Word) : (s.placeWord w).hi = s.hi := rfl
@[simp] theorem State.placeWord_lo (s : State) (w : Word) : (s.placeWord w).lo = s.lo := rfl
@[simp] theorem State.placeWord_fregs (s : State) (w : Word) : (s.placeWord w).fregs = s.fregs := rfl
@[simp] theorem State.placeWord_fpCond (s : State) (w : Word) : (s.placeWord w).fpCond = s.fpCond := rfl
@[simp] theorem State.placeWord_causeBd (s : State) (w : Word) : (s.placeWord w).causeBd = s.causeBd := rfl
@[simp] theorem State.placeWord_causeExcCode (s : State) (w : Word) : (s.placeWord w).causeExcCode = s.causeExcCode := rfl
@[simp] theorem State.placeWord_intMask (s : State) (w : Word) : (s.placeWord w).intMask = s.intMask := rfl
@[simp] theorem State.placeWord_statusUm (s : State) (w : Word) : (s.placeWord w).statusUm = s.statusUm := rfl
@[simp] theorem State.placeWord_statusEl (s : State) (w : Word) : (s.placeWord w).statusEl = s.statusEl := rfl
@[simp] theorem State.placeWord_statusIe (s : State) (w : Word) : (s.placeWord w).statusIe = s.statusIe := rfl
@[simp] theorem State.placeWord_irq (s : State) (w : Word) : (s.placeWord w).irq = s.irq := rfl
@[simp] theorem State.placeWord_epc (s : State) (w : Word) : (s.placeWord w).epc = s.epc := rfl
@[simp] theorem State.placeWord_badVAddr (s : State) (w : Word) : (s.placeWord w).badVAddr = s.badVAddr := rfl
@[simp] theorem State.placeWord_llBit (s : State) (w : Word) : (s.placeWord w).llBit = s.llBit := rfl
@[simp] theorem State.placeWord_llAddr (s : State) (w : Word) : (s.placeWord w).llAddr = s.llAddr := rfl
@[simp] theorem State.placeWord_mem (s : State) (w : Word) : (s.placeWord w).mem = s.mem.writeBytes s.pc (bytesOfWord w) := rfl
@[simp] theorem State.placeWord_inDelay (s : State) (w : Word) : (s.placeWord w).inDelay = s.inDelay := rfl
@[simp] theorem State.placeWord_delayTarget (s : State) (w : Word) : (s.placeWord w).delayTarget = s.delayTarget := rfl
@[simp] theorem State.placeWord_written (s : State) (w : Word) : (s.placeWord w).written = withoutWord s.pc s.written := rfl
@[simp] theorem State.placeWord_draws (s : State) (w : Word) : (s.placeWord w).draws = s.draws := rfl
@[simp] theorem State.placeWord_env (s : State) (w : Word) : (s.placeWord w).env = s.env := rfl
@[simp] theorem State.placeWord_afterFetch (s : State) (w : Word) : (s.placeWord w).afterFetch = s.afterFetch := rfl
@[simp] theorem State.placeWord_gaps (s : State) (w : Word) : (s.placeWord w).gaps = s.gaps := rfl
@[simp] theorem State.placeWord_params (s : State) (w : Word) : (s.placeWord w).params = s.params := rfl
@[simp] theorem State.readR_placeWord (s : State) (w : Word) (j : RegNum) : (s.placeWord w).readR j = s.readR j := rfl
@[simp] theorem State.readF_placeWord (s : State) (w : Word) (j : FRegNum) : (s.placeWord w).readF j = s.readF j := rfl
@[simp] theorem State.readD_placeWord (s : State) (w : Word) (j : FRegNum) : (s.placeWord w).readD j = s.readD j := rfl
@[simp] theorem State.userMode_placeWord (s : State) (w : Word) : (s.placeWord w).userMode = s.userMode := rfl
@[simp] theorem State.inSlot_placeWord (s : State) (w : Word) : (s.placeWord w).inSlot = s.inSlot := rfl
@[simp] theorem State.linkAddr_placeWord (s : State) (w : Word) : (s.placeWord w).linkAddr = s.linkAddr := rfl
@[simp] theorem State.interruptPending_placeWord (s : State) (w : Word) : (s.placeWord w).interruptPending = s.interruptPending := rfl

/-! ### State.admitting -/

@[simp] theorem State.admitting_regs (s : State) (b : Bool) : (s.admitting b).regs = s.regs := rfl
@[simp] theorem State.admitting_pc (s : State) (b : Bool) : (s.admitting b).pc = s.pc := rfl
@[simp] theorem State.admitting_hi (s : State) (b : Bool) : (s.admitting b).hi = s.hi := rfl
@[simp] theorem State.admitting_lo (s : State) (b : Bool) : (s.admitting b).lo = s.lo := rfl
@[simp] theorem State.admitting_fregs (s : State) (b : Bool) : (s.admitting b).fregs = s.fregs := rfl
@[simp] theorem State.admitting_fpCond (s : State) (b : Bool) : (s.admitting b).fpCond = s.fpCond := rfl
@[simp] theorem State.admitting_causeBd (s : State) (b : Bool) : (s.admitting b).causeBd = s.causeBd := rfl
@[simp] theorem State.admitting_causeExcCode (s : State) (b : Bool) : (s.admitting b).causeExcCode = s.causeExcCode := rfl
@[simp] theorem State.admitting_intMask (s : State) (b : Bool) : (s.admitting b).intMask = s.intMask := rfl
@[simp] theorem State.admitting_statusUm (s : State) (b : Bool) : (s.admitting b).statusUm = s.statusUm := rfl
@[simp] theorem State.admitting_statusEl (s : State) (b : Bool) : (s.admitting b).statusEl = s.statusEl := rfl
@[simp] theorem State.admitting_statusIe (s : State) (b : Bool) : (s.admitting b).statusIe = s.statusIe := rfl
@[simp] theorem State.admitting_irq (s : State) (b : Bool) : (s.admitting b).irq = s.irq := rfl
@[simp] theorem State.admitting_epc (s : State) (b : Bool) : (s.admitting b).epc = s.epc := rfl
@[simp] theorem State.admitting_badVAddr (s : State) (b : Bool) : (s.admitting b).badVAddr = s.badVAddr := rfl
@[simp] theorem State.admitting_llBit (s : State) (b : Bool) : (s.admitting b).llBit = s.llBit := rfl
@[simp] theorem State.admitting_llAddr (s : State) (b : Bool) : (s.admitting b).llAddr = s.llAddr := rfl
@[simp] theorem State.admitting_mem (s : State) (b : Bool) : (s.admitting b).mem = s.mem := rfl
@[simp] theorem State.admitting_inDelay (s : State) (b : Bool) : (s.admitting b).inDelay = s.inDelay := rfl
@[simp] theorem State.admitting_delayTarget (s : State) (b : Bool) : (s.admitting b).delayTarget = s.delayTarget := rfl
@[simp] theorem State.admitting_written (s : State) (b : Bool) : (s.admitting b).written = s.written := rfl
@[simp] theorem State.admitting_draws (s : State) (b : Bool) : (s.admitting b).draws = s.draws := rfl
@[simp] theorem State.admitting_env (s : State) (b : Bool) : (s.admitting b).env = s.env := rfl
@[simp] theorem State.admitting_afterFetch (s : State) (b : Bool) : (s.admitting b).afterFetch = s.afterFetch := rfl
@[simp] theorem State.admitting_gaps (s : State) (b : Bool) : (s.admitting b).gaps = s.gaps := rfl
@[simp] theorem State.admitting_params (s : State) (b : Bool) :
    (s.admitting b).params = { s.params with admitNamedOnly := s.params.admitNamedOnly || b } := rfl
@[simp] theorem State.readR_admitting (s : State) (b : Bool) (j : RegNum) : (s.admitting b).readR j = s.readR j := rfl
@[simp] theorem State.readF_admitting (s : State) (b : Bool) (j : FRegNum) : (s.admitting b).readF j = s.readF j := rfl
@[simp] theorem State.readD_admitting (s : State) (b : Bool) (j : FRegNum) : (s.admitting b).readD j = s.readD j := rfl
@[simp] theorem State.userMode_admitting (s : State) (b : Bool) : (s.admitting b).userMode = s.userMode := rfl
@[simp] theorem State.inSlot_admitting (s : State) (b : Bool) : (s.admitting b).inSlot = s.inSlot := rfl
@[simp] theorem State.linkAddr_admitting (s : State) (b : Bool) : (s.admitting b).linkAddr = s.linkAddr := rfl
@[simp] theorem State.interruptPending_admitting (s : State) (b : Bool) : (s.admitting b).interruptPending = s.interruptPending := rfl

/-- The writes after the fetch are one case of `otherWrites`. -/
@[simp] theorem State.fetched_eq (s : State) : s.fetched = s.otherWrites s.afterFetch := rfl

/-- The writes in a gap are one case of `otherWrites`. -/
@[simp] theorem State.inGap_eq (s : State) (k : Nat) : s.inGap k = s.otherWrites (s.gaps.getD k []) := rfl

theorem Memory.extWrites_append (m : Memory) (l r : AgentWrites) : m.extWrites (l ++ r) = (m.extWrites l).extWrites r := by
  induction l generalizing m with
  | nil => rfl
  | cons w l ih => exact ih _

/-- Without other agents their writes do nothing. -/
theorem State.otherWrites_none (s : State) (ws : AgentWrites) (h : s.params.externalWriters = false) : s.otherWrites ws = s := by
  unfold State.otherWrites State.allowedWrites
  rw [h]
  cases s
  simp [Memory.extWrites]

/-- No writes do nothing. -/
@[simp] theorem State.otherWrites_nil (s : State) : s.otherWrites [] = s := by
  unfold State.otherWrites State.allowedWrites
  cases s
  simp [Memory.extWrites]

/-! ### State.storeRest and State.storeSeq: memory, its written addresses and the open pair may change -/

@[simp] theorem State.storeRest_regs (s : State) (k : Nat) (l : List (Word × List Byte)) : (s.storeRest k l).regs = s.regs := by
  induction l generalizing s k with
  | nil => rfl
  | cons p r ih => exact ih _ _
@[simp] theorem State.storeRest_pc (s : State) (k : Nat) (l : List (Word × List Byte)) : (s.storeRest k l).pc = s.pc := by
  induction l generalizing s k with
  | nil => rfl
  | cons p r ih => exact ih _ _
@[simp] theorem State.storeRest_hi (s : State) (k : Nat) (l : List (Word × List Byte)) : (s.storeRest k l).hi = s.hi := by
  induction l generalizing s k with
  | nil => rfl
  | cons p r ih => exact ih _ _
@[simp] theorem State.storeRest_lo (s : State) (k : Nat) (l : List (Word × List Byte)) : (s.storeRest k l).lo = s.lo := by
  induction l generalizing s k with
  | nil => rfl
  | cons p r ih => exact ih _ _
@[simp] theorem State.storeRest_fregs (s : State) (k : Nat) (l : List (Word × List Byte)) : (s.storeRest k l).fregs = s.fregs := by
  induction l generalizing s k with
  | nil => rfl
  | cons p r ih => exact ih _ _
@[simp] theorem State.storeRest_fpCond (s : State) (k : Nat) (l : List (Word × List Byte)) : (s.storeRest k l).fpCond = s.fpCond := by
  induction l generalizing s k with
  | nil => rfl
  | cons p r ih => exact ih _ _
@[simp] theorem State.storeRest_causeBd (s : State) (k : Nat) (l : List (Word × List Byte)) : (s.storeRest k l).causeBd = s.causeBd := by
  induction l generalizing s k with
  | nil => rfl
  | cons p r ih => exact ih _ _
@[simp] theorem State.storeRest_causeExcCode (s : State) (k : Nat) (l : List (Word × List Byte)) : (s.storeRest k l).causeExcCode = s.causeExcCode := by
  induction l generalizing s k with
  | nil => rfl
  | cons p r ih => exact ih _ _
@[simp] theorem State.storeRest_intMask (s : State) (k : Nat) (l : List (Word × List Byte)) : (s.storeRest k l).intMask = s.intMask := by
  induction l generalizing s k with
  | nil => rfl
  | cons p r ih => exact ih _ _
@[simp] theorem State.storeRest_statusUm (s : State) (k : Nat) (l : List (Word × List Byte)) : (s.storeRest k l).statusUm = s.statusUm := by
  induction l generalizing s k with
  | nil => rfl
  | cons p r ih => exact ih _ _
@[simp] theorem State.storeRest_statusEl (s : State) (k : Nat) (l : List (Word × List Byte)) : (s.storeRest k l).statusEl = s.statusEl := by
  induction l generalizing s k with
  | nil => rfl
  | cons p r ih => exact ih _ _
@[simp] theorem State.storeRest_statusIe (s : State) (k : Nat) (l : List (Word × List Byte)) : (s.storeRest k l).statusIe = s.statusIe := by
  induction l generalizing s k with
  | nil => rfl
  | cons p r ih => exact ih _ _
@[simp] theorem State.storeRest_irq (s : State) (k : Nat) (l : List (Word × List Byte)) : (s.storeRest k l).irq = s.irq := by
  induction l generalizing s k with
  | nil => rfl
  | cons p r ih => exact ih _ _
@[simp] theorem State.storeRest_epc (s : State) (k : Nat) (l : List (Word × List Byte)) : (s.storeRest k l).epc = s.epc := by
  induction l generalizing s k with
  | nil => rfl
  | cons p r ih => exact ih _ _
@[simp] theorem State.storeRest_badVAddr (s : State) (k : Nat) (l : List (Word × List Byte)) : (s.storeRest k l).badVAddr = s.badVAddr := by
  induction l generalizing s k with
  | nil => rfl
  | cons p r ih => exact ih _ _
@[simp] theorem State.storeRest_llAddr (s : State) (k : Nat) (l : List (Word × List Byte)) : (s.storeRest k l).llAddr = s.llAddr := by
  induction l generalizing s k with
  | nil => rfl
  | cons p r ih => exact ih _ _
@[simp] theorem State.storeRest_inDelay (s : State) (k : Nat) (l : List (Word × List Byte)) : (s.storeRest k l).inDelay = s.inDelay := by
  induction l generalizing s k with
  | nil => rfl
  | cons p r ih => exact ih _ _
@[simp] theorem State.storeRest_delayTarget (s : State) (k : Nat) (l : List (Word × List Byte)) : (s.storeRest k l).delayTarget = s.delayTarget := by
  induction l generalizing s k with
  | nil => rfl
  | cons p r ih => exact ih _ _
@[simp] theorem State.storeRest_draws (s : State) (k : Nat) (l : List (Word × List Byte)) : (s.storeRest k l).draws = s.draws := by
  induction l generalizing s k with
  | nil => rfl
  | cons p r ih => exact ih _ _
@[simp] theorem State.storeRest_env (s : State) (k : Nat) (l : List (Word × List Byte)) : (s.storeRest k l).env = s.env := by
  induction l generalizing s k with
  | nil => rfl
  | cons p r ih => exact ih _ _
@[simp] theorem State.storeRest_afterFetch (s : State) (k : Nat) (l : List (Word × List Byte)) : (s.storeRest k l).afterFetch = s.afterFetch := by
  induction l generalizing s k with
  | nil => rfl
  | cons p r ih => exact ih _ _
@[simp] theorem State.storeRest_gaps (s : State) (k : Nat) (l : List (Word × List Byte)) : (s.storeRest k l).gaps = s.gaps := by
  induction l generalizing s k with
  | nil => rfl
  | cons p r ih => exact ih _ _
@[simp] theorem State.storeRest_params (s : State) (k : Nat) (l : List (Word × List Byte)) : (s.storeRest k l).params = s.params := by
  induction l generalizing s k with
  | nil => rfl
  | cons p r ih => exact ih _ _
@[simp] theorem State.storeSeq_regs (s : State) (l : List (Word × List Byte)) : (s.storeSeq l).regs = s.regs := by
  cases l with
  | nil => rfl
  | cons p r => exact State.storeRest_regs _ _ _
@[simp] theorem State.storeSeq_pc (s : State) (l : List (Word × List Byte)) : (s.storeSeq l).pc = s.pc := by
  cases l with
  | nil => rfl
  | cons p r => exact State.storeRest_pc _ _ _
@[simp] theorem State.storeSeq_hi (s : State) (l : List (Word × List Byte)) : (s.storeSeq l).hi = s.hi := by
  cases l with
  | nil => rfl
  | cons p r => exact State.storeRest_hi _ _ _
@[simp] theorem State.storeSeq_lo (s : State) (l : List (Word × List Byte)) : (s.storeSeq l).lo = s.lo := by
  cases l with
  | nil => rfl
  | cons p r => exact State.storeRest_lo _ _ _
@[simp] theorem State.storeSeq_fregs (s : State) (l : List (Word × List Byte)) : (s.storeSeq l).fregs = s.fregs := by
  cases l with
  | nil => rfl
  | cons p r => exact State.storeRest_fregs _ _ _
@[simp] theorem State.storeSeq_fpCond (s : State) (l : List (Word × List Byte)) : (s.storeSeq l).fpCond = s.fpCond := by
  cases l with
  | nil => rfl
  | cons p r => exact State.storeRest_fpCond _ _ _
@[simp] theorem State.storeSeq_causeBd (s : State) (l : List (Word × List Byte)) : (s.storeSeq l).causeBd = s.causeBd := by
  cases l with
  | nil => rfl
  | cons p r => exact State.storeRest_causeBd _ _ _
@[simp] theorem State.storeSeq_causeExcCode (s : State) (l : List (Word × List Byte)) : (s.storeSeq l).causeExcCode = s.causeExcCode := by
  cases l with
  | nil => rfl
  | cons p r => exact State.storeRest_causeExcCode _ _ _
@[simp] theorem State.storeSeq_intMask (s : State) (l : List (Word × List Byte)) : (s.storeSeq l).intMask = s.intMask := by
  cases l with
  | nil => rfl
  | cons p r => exact State.storeRest_intMask _ _ _
@[simp] theorem State.storeSeq_statusUm (s : State) (l : List (Word × List Byte)) : (s.storeSeq l).statusUm = s.statusUm := by
  cases l with
  | nil => rfl
  | cons p r => exact State.storeRest_statusUm _ _ _
@[simp] theorem State.storeSeq_statusEl (s : State) (l : List (Word × List Byte)) : (s.storeSeq l).statusEl = s.statusEl := by
  cases l with
  | nil => rfl
  | cons p r => exact State.storeRest_statusEl _ _ _
@[simp] theorem State.storeSeq_statusIe (s : State) (l : List (Word × List Byte)) : (s.storeSeq l).statusIe = s.statusIe := by
  cases l with
  | nil => rfl
  | cons p r => exact State.storeRest_statusIe _ _ _
@[simp] theorem State.storeSeq_irq (s : State) (l : List (Word × List Byte)) : (s.storeSeq l).irq = s.irq := by
  cases l with
  | nil => rfl
  | cons p r => exact State.storeRest_irq _ _ _
@[simp] theorem State.storeSeq_epc (s : State) (l : List (Word × List Byte)) : (s.storeSeq l).epc = s.epc := by
  cases l with
  | nil => rfl
  | cons p r => exact State.storeRest_epc _ _ _
@[simp] theorem State.storeSeq_badVAddr (s : State) (l : List (Word × List Byte)) : (s.storeSeq l).badVAddr = s.badVAddr := by
  cases l with
  | nil => rfl
  | cons p r => exact State.storeRest_badVAddr _ _ _
@[simp] theorem State.storeSeq_llAddr (s : State) (l : List (Word × List Byte)) : (s.storeSeq l).llAddr = s.llAddr := by
  cases l with
  | nil => rfl
  | cons p r => exact State.storeRest_llAddr _ _ _
@[simp] theorem State.storeSeq_inDelay (s : State) (l : List (Word × List Byte)) : (s.storeSeq l).inDelay = s.inDelay := by
  cases l with
  | nil => rfl
  | cons p r => exact State.storeRest_inDelay _ _ _
@[simp] theorem State.storeSeq_delayTarget (s : State) (l : List (Word × List Byte)) : (s.storeSeq l).delayTarget = s.delayTarget := by
  cases l with
  | nil => rfl
  | cons p r => exact State.storeRest_delayTarget _ _ _
@[simp] theorem State.storeSeq_draws (s : State) (l : List (Word × List Byte)) : (s.storeSeq l).draws = s.draws := by
  cases l with
  | nil => rfl
  | cons p r => exact State.storeRest_draws _ _ _
@[simp] theorem State.storeSeq_env (s : State) (l : List (Word × List Byte)) : (s.storeSeq l).env = s.env := by
  cases l with
  | nil => rfl
  | cons p r => exact State.storeRest_env _ _ _
@[simp] theorem State.storeSeq_afterFetch (s : State) (l : List (Word × List Byte)) : (s.storeSeq l).afterFetch = s.afterFetch := by
  cases l with
  | nil => rfl
  | cons p r => exact State.storeRest_afterFetch _ _ _
@[simp] theorem State.storeSeq_gaps (s : State) (l : List (Word × List Byte)) : (s.storeSeq l).gaps = s.gaps := by
  cases l with
  | nil => rfl
  | cons p r => exact State.storeRest_gaps _ _ _
@[simp] theorem State.storeSeq_params (s : State) (l : List (Word × List Byte)) : (s.storeSeq l).params = s.params := by
  cases l with
  | nil => rfl
  | cons p r => exact State.storeRest_params _ _ _
@[simp] theorem State.readR_storeSeq (s : State) (l : List (Word × List Byte)) (j : RegNum) : (s.storeSeq l).readR j = s.readR j := by
  simp [State.readR]
@[simp] theorem State.readF_storeSeq (s : State) (l : List (Word × List Byte)) (j : FRegNum) : (s.storeSeq l).readF j = s.readF j := by
  simp [State.readF]
@[simp] theorem State.inSlot_storeSeq (s : State) (l : List (Word × List Byte)) : (s.storeSeq l).inSlot = s.inSlot := by
  simp [State.inSlot]

/-! ### State.sampleEnv: the inputs, memory and the open pair may change -/

@[simp] theorem State.sampleEnv_regs (s : State) : s.sampleEnv.regs = s.regs := by
  unfold State.sampleEnv; split <;> rfl
@[simp] theorem State.sampleEnv_pc (s : State) : s.sampleEnv.pc = s.pc := by
  unfold State.sampleEnv; split <;> rfl
@[simp] theorem State.sampleEnv_hi (s : State) : s.sampleEnv.hi = s.hi := by
  unfold State.sampleEnv; split <;> rfl
@[simp] theorem State.sampleEnv_lo (s : State) : s.sampleEnv.lo = s.lo := by
  unfold State.sampleEnv; split <;> rfl
@[simp] theorem State.sampleEnv_fregs (s : State) : s.sampleEnv.fregs = s.fregs := by
  unfold State.sampleEnv; split <;> rfl
@[simp] theorem State.sampleEnv_fpCond (s : State) : s.sampleEnv.fpCond = s.fpCond := by
  unfold State.sampleEnv; split <;> rfl
@[simp] theorem State.sampleEnv_causeBd (s : State) : s.sampleEnv.causeBd = s.causeBd := by
  unfold State.sampleEnv; split <;> rfl
@[simp] theorem State.sampleEnv_causeExcCode (s : State) : s.sampleEnv.causeExcCode = s.causeExcCode := by
  unfold State.sampleEnv; split <;> rfl
@[simp] theorem State.sampleEnv_intMask (s : State) : s.sampleEnv.intMask = s.intMask := by
  unfold State.sampleEnv; split <;> rfl
@[simp] theorem State.sampleEnv_statusUm (s : State) : s.sampleEnv.statusUm = s.statusUm := by
  unfold State.sampleEnv; split <;> rfl
@[simp] theorem State.sampleEnv_statusEl (s : State) : s.sampleEnv.statusEl = s.statusEl := by
  unfold State.sampleEnv; split <;> rfl
@[simp] theorem State.sampleEnv_statusIe (s : State) : s.sampleEnv.statusIe = s.statusIe := by
  unfold State.sampleEnv; split <;> rfl
@[simp] theorem State.sampleEnv_epc (s : State) : s.sampleEnv.epc = s.epc := by
  unfold State.sampleEnv; split <;> rfl
@[simp] theorem State.sampleEnv_badVAddr (s : State) : s.sampleEnv.badVAddr = s.badVAddr := by
  unfold State.sampleEnv; split <;> rfl
@[simp] theorem State.sampleEnv_llAddr (s : State) : s.sampleEnv.llAddr = s.llAddr := by
  unfold State.sampleEnv; split <;> rfl
@[simp] theorem State.sampleEnv_inDelay (s : State) : s.sampleEnv.inDelay = s.inDelay := by
  unfold State.sampleEnv; split <;> rfl
@[simp] theorem State.sampleEnv_delayTarget (s : State) : s.sampleEnv.delayTarget = s.delayTarget := by
  unfold State.sampleEnv; split <;> rfl
@[simp] theorem State.sampleEnv_written (s : State) : s.sampleEnv.written = s.written := by
  unfold State.sampleEnv; split <;> rfl
@[simp] theorem State.sampleEnv_draws (s : State) : s.sampleEnv.draws = s.draws := by
  unfold State.sampleEnv; split <;> rfl
@[simp] theorem State.sampleEnv_params (s : State) : s.sampleEnv.params = s.params := by
  unfold State.sampleEnv; split <;> rfl
@[simp] theorem State.readR_sampleEnv (s : State) (j : RegNum) : s.sampleEnv.readR j = s.readR j := by simp [State.readR]
@[simp] theorem State.readF_sampleEnv (s : State) (j : FRegNum) : s.sampleEnv.readF j = s.readF j := by simp [State.readF]
@[simp] theorem State.userMode_sampleEnv (s : State) : s.sampleEnv.userMode = s.userMode := by simp [State.userMode]
@[simp] theorem State.inSlot_sampleEnv (s : State) : s.sampleEnv.inSlot = s.inSlot := by simp [State.inSlot]

theorem State.sampleEnv_of_nil (s : State) (h : s.env = []) : s.sampleEnv = { s with afterFetch := [], gaps := [] } := by
  unfold State.sampleEnv; rw [h]

theorem State.sampleEnv_of_cons (s : State) (e : EnvEvent) (rest : List EnvEvent) (h : s.env = e :: rest) :
    s.sampleEnv = { s with env := rest, irq := e.irq, afterFetch := e.afterFetch, gaps := e.gaps }.otherWrites e.writes := by
  unfold State.sampleEnv; rw [h]

/-! ### Registers -/

/-- R22: register 0 reads 0. -/
@[simp] theorem State.readR_zero (s : State) : s.readR 0 = 0 := rfl

theorem State.readR_setR (s : State) (i j : RegNum) (v : Word) :
    (s.setR i v).readR j = if j = 0 then 0 else if i = j then v else s.readR j := by
  unfold State.readR State.setR
  by_cases hj : j = 0
  · simp [hj]
  · simp only [if_neg hj]
    by_cases hi : i = 0
    · subst hi
      rw [if_pos rfl, if_neg (Ne.symm hj)]
    · simp only [if_neg hi, Vector.getElem_set]
      by_cases hij : i = j
      · simp [hij]
      · rw [if_neg hij, if_neg]
        intro h; exact hij (BitVec.eq_of_toNat_eq h)

/-- R22: the register written reads the value, unless it is register 0. -/
theorem State.readR_setR_same (s : State) (i : RegNum) (v : Word) (h : i ≠ 0) : (s.setR i v).readR i = v := by
  rw [State.readR_setR, if_neg h, if_pos rfl]

@[simp] theorem State.readR_setR_ne (s : State) (i j : RegNum) (v : Word) (h : j ≠ i) :
    (s.setR i v).readR j = s.readR j := by
  rw [State.readR_setR]
  split
  · rename_i h0; subst h0; rfl
  · rw [if_neg (Ne.symm h)]

/-- R22: a write of register 0 is discarded. -/
@[simp] theorem State.setR_zero (s : State) (v : Word) : s.setR 0 v = s := rfl

theorem State.readF_setF (s : State) (i j : FRegNum) (v : Word) :
    (s.setF i v).readF j = if i = j then v else s.readF j := by
  unfold State.readF State.setF
  simp only [Vector.getElem_set]
  congr 1
  exact propext ⟨fun h => BitVec.eq_of_toNat_eq h, fun h => by rw [h]⟩

@[simp] theorem State.readF_setF_same (s : State) (i : FRegNum) (v : Word) : (s.setF i v).readF i = v := by
  rw [State.readF_setF, if_pos rfl]

@[simp] theorem State.readF_setF_ne (s : State) (i j : FRegNum) (v : Word) (h : j ≠ i) :
    (s.setF i v).readF j = s.readF j := by
  rw [State.readF_setF, if_neg (Ne.symm h)]

theorem State.readF_setD (s : State) (n j : FRegNum) (v : DWord) :
    (s.setD n v).readF j =
      if n + 1 = j then v.extractLsb' 0 32 else if n = j then v.extractLsb' 32 32 else s.readF j := by
  unfold State.setD
  rw [State.readF_setF, State.readF_setF]

/-- R29: a double reads back. -/
theorem State.readD_setD_same (s : State) (n : FRegNum) (v : DWord) : (s.setD n v).readD n = v := by
  unfold State.readD
  have h : ¬ n + 1 = n := by bv_omega
  rw [State.readF_setD, State.readF_setD, if_neg h, if_pos rfl, if_pos rfl]
  apply BitVec.eq_of_getLsbD_eq
  intro i hi
  simp only [BitVec.getLsbD_append, BitVec.getLsbD_extractLsb']
  by_cases h32 : i < 32
  · simp [h32]
  · simp only [h32, if_false]
    rw [show 32 + (i - 32) = i by omega]
    simp [show i - 32 < 32 by omega]

theorem State.readR_of_regs {s t : State} (h : t.regs = s.regs) (i : RegNum) : t.readR i = s.readR i := by
  unfold State.readR; rw [h]

theorem State.readF_of_fregs {s t : State} (h : t.fregs = s.fregs) (i : FRegNum) : t.readF i = s.readF i := by
  unfold State.readF; rw [h]

end Sys2Proof.Machine
end

