-- ==== Sys2Proof/Laws/Memory.lean ====
section
/-! SUPPORT. Memory: a read after a write, the canonical form, and the addresses counted as written. -/

namespace Sys2Proof.Machine

/-! ### Cells -/

theorem readCells_writeCells_ne (l : List Host.Cell) (a a' : Nat) (v : Byte) (h : a' ≠ a) :
    readCells (writeCells l a v) a' = readCells l a' := by
  induction l with
  | nil =>
    simp only [writeCells]
    split
    · rfl
    · simp [readCells, Ne.symm h]
  | cons c rest ih =>
    obtain ⟨k, b⟩ := c
    simp only [writeCells]
    split
    · split
      · rfl
      · simp [readCells, Ne.symm h]
    · split
      · rename_i h1 h2
        subst h2
        split <;> simp [readCells, Ne.symm h]
      · simp [readCells, ih]

theorem readCells_below (l : List Host.Cell) (lo a : Nat) (hw : cellsWf lo l = true) (h : a < lo) :
    readCells l a = unlistedByte := by
  induction l generalizing lo with
  | nil => rfl
  | cons c rest ih =>
    obtain ⟨k, b⟩ := c
    simp only [cellsWf, Bool.and_eq_true, decide_eq_true_eq] at hw
    simp only [readCells]
    rw [if_neg (by omega)]
    exact ih (k + 1) hw.2 (by omega)

theorem readCells_writeCells_same (l : List Host.Cell) (lo a : Nat) (v : Byte) (hw : cellsWf lo l = true) :
    readCells (writeCells l a v) a = v := by
  induction l generalizing lo with
  | nil =>
    simp only [writeCells]
    split
    · rename_i h; simp [readCells, h]
    · simp [readCells]
  | cons c rest ih =>
    obtain ⟨k, b⟩ := c
    have hw' := hw
    simp only [cellsWf, Bool.and_eq_true, decide_eq_true_eq] at hw
    simp only [writeCells]
    split
    · split
      · rename_i h1 h2
        rw [h2]
        simp only [readCells]
        rw [if_neg (by omega)]
        exact readCells_below rest (k + 1) a hw.2 (by omega)
      · simp [readCells]
    · split
      · rename_i h1 h2
        subst h2
        split
        · rename_i h3
          rw [h3]
          exact readCells_below rest (a + 1) a hw.2 (by omega)
        · simp [readCells]
      · rename_i h1 h2
        simp only [readCells]
        rw [if_neg (fun h => h2 h.symm)]
        exact ih (k + 1) hw.2

theorem cellsWf_mono (l : List Host.Cell) (lo lo' : Nat) (h : lo' ≤ lo) (hw : cellsWf lo l = true) :
    cellsWf lo' l = true := by
  cases l with
  | nil => rfl
  | cons c rest =>
    obtain ⟨k, b⟩ := c
    simp only [cellsWf, Bool.and_eq_true, decide_eq_true_eq] at hw ⊢
    exact ⟨⟨⟨by omega, hw.1.1.2⟩, hw.1.2⟩, hw.2⟩

theorem cellsWf_writeCells (l : List Host.Cell) (lo a : Nat) (v : Byte) (hlo : lo ≤ a) (ha : a < 2 ^ 32)
    (hw : cellsWf lo l = true) : cellsWf lo (writeCells l a v) = true := by
  induction l generalizing lo with
  | nil =>
    simp only [writeCells]
    split
    · rfl
    · rename_i h; simp [cellsWf, hlo, h]; omega
  | cons c rest ih =>
    obtain ⟨k, b⟩ := c
    have hw' := hw
    simp only [cellsWf, Bool.and_eq_true, decide_eq_true_eq] at hw
    simp only [writeCells]
    split
    · split
      · exact hw'
      · rename_i h1 h2
        simp only [cellsWf, Bool.and_eq_true, decide_eq_true_eq]
        exact ⟨⟨⟨hlo, ha⟩, h2⟩, ⟨⟨by omega, hw.1.1.2⟩, hw.1.2⟩, hw.2⟩
    · split
      · rename_i h1 h2
        subst h2
        split
        · exact cellsWf_mono rest (a + 1) lo (by omega) hw.2
        · rename_i h3
          simp only [cellsWf, Bool.and_eq_true, decide_eq_true_eq]
          exact ⟨⟨⟨hlo, ha⟩, h3⟩, hw.2⟩
      · rename_i h1 h2
        simp only [cellsWf, Bool.and_eq_true, decide_eq_true_eq]
        exact ⟨hw.1, ih (k + 1) (by omega) hw.2⟩

/-! ### Bytes of memory -/

/-- A byte written reads back. -/
theorem Memory.read_write_same (m : Memory) (a : Word) (v : Byte) (hw : m.wf = true) : (m.write a v).read a = v :=
  readCells_writeCells_same m.cells 0 a.toNat v hw

/-- A write leaves every other byte alone. -/
theorem Memory.read_write_ne (m : Memory) (a a' : Word) (v : Byte) (h : a' ≠ a) :
    (m.write a v).read a' = m.read a' :=
  readCells_writeCells_ne m.cells a.toNat a'.toNat v (fun h' => h (BitVec.eq_of_toNat_eq h'))

/-- A write keeps the canonical form. -/
theorem Memory.wf_write (m : Memory) (a : Word) (v : Byte) (hw : m.wf = true) : (m.write a v).wf = true :=
  cellsWf_writeCells m.cells 0 a.toNat v (Nat.zero_le _) a.isLt hw

/-- Writing consecutive bytes keeps the canonical form. -/
theorem Memory.wf_writeBytes (m : Memory) (a : Word) (bytes : List Byte) (hw : m.wf = true) :
    (m.writeBytes a bytes).wf = true := by
  induction bytes generalizing m a with
  | nil => exact hw
  | cons b bs ih => exact ih _ _ (m.wf_write a b hw)

/-- The writes of other agents keep the canonical form. -/
theorem Memory.wf_extWrites (m : Memory) (l : List (Word × Byte)) (hw : m.wf = true) : (m.extWrites l).wf = true := by
  induction l generalizing m with
  | nil => exact hw
  | cons c rest ih => exact ih _ (m.wf_write c.1 c.2 hw)

/-- The memory after reset is in canonical form. -/
theorem State.resetWith_mem_wf (p : Config.Params) : (State.resetWith p).mem.wf = true := rfl

/-- A byte outside the bytes written keeps its value; addresses count modulo 2^32. -/
theorem Memory.read_writeBytes_outside (m : Memory) (a a' : Word) (bytes : List Byte)
    (h : bytes.length ≤ (a' - a).toNat) : (m.writeBytes a bytes).read a' = m.read a' := by
  induction bytes generalizing m a with
  | nil => rfl
  | cons b bs ih =>
    simp only [List.length_cons] at h
    simp only [Memory.writeBytes]
    have h1 : (a' - a).toNat ≠ 0 := by omega
    have h2 : a' ≠ a := by
      intro h'; subst h'; simp at h1
    rw [ih (m.write a b) (a + 1) (by bv_omega), Memory.read_write_ne m a a' b h2]

/-- The byte at offset `k` of the bytes written reads back. -/
theorem Memory.read_writeBytes_inside (m : Memory) (a : Word) (bytes : List Byte) (k : Nat) (hw : m.wf = true)
    (hk : k < bytes.length) (hl : bytes.length ≤ 2 ^ 32) :
    (m.writeBytes a bytes).read (a + BitVec.ofNat 32 k) = bytes[k] := by
  induction bytes generalizing m a k with
  | nil => simp at hk
  | cons b bs ih =>
    simp only [List.length_cons] at hk hl
    simp only [Memory.writeBytes]
    cases k with
    | zero =>
      rw [Memory.read_writeBytes_outside _ _ _ _ (by bv_omega)]
      simp [Memory.read_write_same m a b hw]
    | succ k =>
      have e : a + BitVec.ofNat 32 (k + 1) = a + 1 + BitVec.ofNat 32 k := by bv_omega
      rw [e, ih (m.write a b) (a + 1) k (m.wf_write a b hw) (by omega) (by omega)]
      rfl

/-! ### Words -/

/-- The bytes of a word make the word. -/
theorem wordOfBytes_bytes (w : Word) :
    wordOfBytes (byteOfWord w 0) (byteOfWord w 1) (byteOfWord w 2) (byteOfWord w 3) = w := by
  apply BitVec.eq_of_getLsbD_eq
  intro i hi
  simp only [wordOfBytes, byteOfWord, BitVec.getLsbD_append, BitVec.getLsbD_extractLsb']
  interval_cases i <;> rfl

/-- The byte at offset `k` of a word made of four bytes is the `k`th of them. -/
theorem byteOfWord_wordOfBytes (b0 b1 b2 b3 : Byte) :
    byteOfWord (wordOfBytes b0 b1 b2 b3) 0 = b0 ∧ byteOfWord (wordOfBytes b0 b1 b2 b3) 1 = b1 ∧
      byteOfWord (wordOfBytes b0 b1 b2 b3) 2 = b2 ∧ byteOfWord (wordOfBytes b0 b1 b2 b3) 3 = b3 := by
  refine ⟨?_, ?_, ?_, ?_⟩ <;>
  · apply BitVec.eq_of_getLsbD_eq
    intro i hi
    simp only [wordOfBytes, byteOfWord, BitVec.getLsbD_append, BitVec.getLsbD_extractLsb']
    interval_cases i <;> simp

/-- A word stored reads back. -/
theorem Memory.readWord_writeBytes (m : Memory) (a : Word) (w : Word) (hw : m.wf = true) :
    (m.writeBytes a (bytesOfWord w)).readWord a = w := by
  have h0 := m.read_writeBytes_inside a (bytesOfWord w) 0 hw (by simp [bytesOfWord]) (by simp [bytesOfWord])
  have h1 := m.read_writeBytes_inside a (bytesOfWord w) 1 hw (by simp [bytesOfWord]) (by simp [bytesOfWord])
  have h2 := m.read_writeBytes_inside a (bytesOfWord w) 2 hw (by simp [bytesOfWord]) (by simp [bytesOfWord])
  have h3 := m.read_writeBytes_inside a (bytesOfWord w) 3 hw (by simp [bytesOfWord]) (by simp [bytesOfWord])
  simp only [BitVec.add_zero, bytesOfWord, List.getElem_cons_zero, List.getElem_cons_succ] at h0 h1 h2 h3
  unfold Memory.readWord
  rw [show (1 : Word) = BitVec.ofNat 32 1 from rfl, show (2 : Word) = BitVec.ofNat 32 2 from rfl,
    show (3 : Word) = BitVec.ofNat 32 3 from rfl]
  simp only [bytesOfWord]
  rw [h0, h1, h2, h3]
  exact wordOfBytes_bytes w

/-- Two memories that read alike have the same words. -/
theorem Memory.readWord_congr {m m' : Memory} (h : ∀ a, m'.read a = m.read a) (a : Word) :
    m'.readWord a = m.readWord a := by
  simp [Memory.readWord, h]

/-! ### The addresses counted as written -/

theorem mem_insertAddr (a k : Nat) (l : List Nat) : k ∈ insertAddr a l ↔ k = a ∨ k ∈ l := by
  induction l with
  | nil => simp [insertAddr]
  | cons h t ih =>
    simp only [insertAddr]
    split
    · simp
    · split
      · rename_i h1 h2; subst h2; simp
      · simp only [List.mem_cons, ih]; tauto

theorem pairwise_insertAddr (a : Nat) (l : List Nat) (h : l.Pairwise (· < ·)) : (insertAddr a l).Pairwise (· < ·) := by
  induction l with
  | nil => simp [insertAddr]
  | cons k t ih =>
    simp only [insertAddr]
    rw [List.pairwise_cons] at h
    split
    · rename_i h1
      rw [List.pairwise_cons]
      refine ⟨?_, List.pairwise_cons.2 h⟩
      intro b hb
      rcases List.mem_cons.1 hb with rfl | hb
      · exact h1
      · have := h.1 b hb; omega
    · split
      · exact List.pairwise_cons.2 h
      · rw [List.pairwise_cons]
        refine ⟨?_, ih h.2⟩
        intro b hb
        rcases (mem_insertAddr a b t).1 hb with rfl | hb
        · omega
        · exact h.1 b hb

theorem pairwise_insertAddrs (a : Word) (n : Nat) (l : List Nat) (h : l.Pairwise (· < ·)) :
    (insertAddrs a n l).Pairwise (· < ·) := by
  induction n generalizing a l with
  | zero => exact h
  | succ n ih => exact ih _ _ (pairwise_insertAddr _ _ h)

/-- The addresses counted as written after a store: those before it, and the bytes stored to. -/
theorem mem_insertAddrs (a : Word) (n : Nat) (l : List Nat) (k : Nat) :
    k ∈ insertAddrs a n l ↔ k ∈ l ∨ ∃ j < n, k = (a + BitVec.ofNat 32 j).toNat := by
  induction n generalizing a l with
  | zero => simp [insertAddrs]
  | succ n ih =>
    simp only [insertAddrs]
    rw [ih, mem_insertAddr]
    constructor
    · rintro ((rfl | h) | ⟨j, hj, rfl⟩)
      · exact .inr ⟨0, by omega, by simp⟩
      · exact .inl h
      · refine .inr ⟨j + 1, by omega, ?_⟩
        congr 1; bv_omega
    · rintro (h | ⟨j, hj, rfl⟩)
      · exact .inl (.inr h)
      · cases j with
        | zero => exact .inl (.inl (by simp))
        | succ j =>
          refine .inr ⟨j, by omega, ?_⟩
          congr 1; bv_omega

end Sys2Proof.Machine
end

