-- ==== Sys2Proof/Laws/Agents.lean ====
section
/-! SUPPORT. The writes of other agents, and the stores of one instruction with such writes between them, in one order (R71, R76). -/

namespace Sys2Proof.Machine

/-! ### Memory after a list of writes -/

theorem lastWrite_append (l l' : AgentWrites) (x : Word) (b : Byte) :
    lastWrite (l ++ l') x b = lastWrite l' x (lastWrite l x b) := by
  induction l generalizing b with
  | nil => rfl
  | cons w rest ih => exact ih _

/-- A byte that no write hits keeps its value. -/
theorem lastWrite_of_notin (l : AgentWrites) (x : Word) (b : Byte) (h : ∀ w ∈ l, w.1 ≠ x) : lastWrite l x b = b := by
  induction l generalizing b with
  | nil => rfl
  | cons w rest ih =>
    obtain ⟨a, v⟩ := w
    simp only [lastWrite]
    rw [if_neg (h (a, v) (by simp))]
    exact ih b fun w hw => h w (by simp [hw])

theorem Memory.read_write (m : Memory) (a x : Word) (v : Byte) (hw : m.wf = true) :
    (m.write a v).read x = if a = x then v else m.read x := by
  split
  · rename_i h; subst h; exact m.read_write_same a v hw
  · rename_i h; exact m.read_write_ne a x v (Ne.symm h)

/-- R76: a byte holds the last of the writes of other agents to it. -/
theorem Memory.read_extWrites (m : Memory) (l : AgentWrites) (x : Word) (hw : m.wf = true) :
    (m.extWrites l).read x = lastWrite l x (m.read x) := by
  induction l generalizing m with
  | nil => rfl
  | cons w rest ih => exact (ih (m.write w.1 w.2) (m.wf_write w.1 w.2 hw)).trans (by rw [m.read_write _ _ _ hw]; rfl)

/-- A store's bytes are writes of one byte after another. -/
theorem Memory.read_writeBytes (m : Memory) (a x : Word) (bytes : List Byte) (hw : m.wf = true) :
    (m.writeBytes a bytes).read x = lastWrite (bytesFrom a bytes) x (m.read x) := by
  induction bytes generalizing m a with
  | nil => rfl
  | cons b bs ih => exact (ih (m.write a b) (a + 1) (m.wf_write a b hw)).trans (by rw [m.read_write _ _ _ hw]; rfl)

/-! ### Writes of other agents -/

theorem State.inPairWord_iff (s : State) (a : Word) : s.inPairWord a = true ↔ a.toNat / 4 = s.llAddr.toNat / 4 := by
  have ha := a.isLt
  have hl := s.llAddr.isLt
  unfold State.inPairWord
  rw [decide_eq_true_eq, ← BitVec.toNat_inj, BitVec.extractLsb'_toNat, BitVec.extractLsb'_toNat, Nat.shiftRight_eq_div_pow,
    Nat.shiftRight_eq_div_pow]
  omega

/-- R78 item 3: the open pair after writes of other agents. -/
theorem State.pairAfter_otherWrites (s : State) (ws : AgentWrites) :
    s.PairAfter (s.otherWrites ws) (s.allowedWrites ws) := by
  refine ⟨?_, rfl⟩
  simp only [State.otherWrites, Bool.and_eq_true, Bool.not_eq_true', List.any_eq_false, State.inPairWord_iff]

theorem State.read_otherWrites (s : State) (ws : AgentWrites) (x : Word) (hw : s.mem.wf = true) :
    (s.otherWrites ws).mem.read x = lastWrite (s.allowedWrites ws) x (s.mem.read x) :=
  s.mem.read_extWrites _ x hw

theorem State.wf_otherWrites (s : State) (ws : AgentWrites) (hw : s.mem.wf = true) : (s.otherWrites ws).mem.wf = true :=
  s.mem.wf_extWrites _ hw

/-- R76: the effect of other agents' writes. -/
theorem State.othersWrote_otherWrites (s : State) (ws : AgentWrites) (hw : s.mem.wf = true) :
    s.OthersWrote (s.otherWrites ws) (s.allowedWrites ws) :=
  ⟨fun x => s.read_otherWrites ws x hw, s.pairAfter_otherWrites ws⟩

/-- Pairs compose: the writes of one stretch after those of another. -/
theorem State.PairAfter.trans {s t u : State} {l l' : AgentWrites} (h : s.PairAfter t l) (k : t.PairAfter u l') :
    s.PairAfter u (l ++ l') := by
  refine ⟨?_, k.2.trans h.2⟩
  rw [k.1, h.1, h.2]
  simp only [List.mem_append, or_imp, forall_and, and_assoc]

/-! ### The stores of one instruction (R71) -/

/-- What the stores of one instruction after its first leave, the first of them after gap `k`. -/
structure RestStored (s t : State) (k : Nat) (l : List (Word × List Byte)) : Prop where
  wf : t.mem.wf = true
  read : ∀ x, t.mem.read x = lastWrite (s.restWrites k l) x (s.mem.read x)
  pair : s.PairAfter t ((List.range' k l.length).flatMap s.gap)
  written : ∀ x, x ∈ t.written ↔ x ∈ s.written ∨ ∃ p ∈ l, ∃ j < p.2.length, x = (p.1 + BitVec.ofNat 32 j).toNat

theorem State.restWrites_congr {s t : State} (h : ∀ k, t.gap k = s.gap k) (k : Nat) (l : List (Word × List Byte)) :
    t.restWrites k l = s.restWrites k l := by
  induction l generalizing k with
  | nil => rfl
  | cons p rest ih => simp only [State.restWrites, h, ih]

theorem State.restStored_storeRest (s : State) (k : Nat) (l : List (Word × List Byte)) (hw : s.mem.wf = true) :
    RestStored s (s.storeRest k l) k l := by
  induction l generalizing s k with
  | nil => exact ⟨hw, fun _ => rfl, by simp [State.PairAfter, State.storeRest], by simp [State.storeRest]⟩
  | cons p rest ih =>
    obtain ⟨a, bytes⟩ := p
    have hg : (s.inGap k).mem.wf = true := s.wf_otherWrites _ hw
    have hu : ((s.inGap k).store a bytes).mem.wf = true := (s.inGap k).mem.wf_writeBytes a bytes hg
    have hgap : ((s.inGap k).store a bytes).gap = s.gap := rfl
    have h := ih ((s.inGap k).store a bytes) (k + 1) hu
    refine ⟨h.wf, fun x => ?_, ?_, fun x => ?_⟩
    · rw [State.storeRest, h.read, State.restWrites_congr (s := s) (t := (s.inGap k).store a bytes) fun _ => rfl]
      simp only [State.restWrites, lastWrite_append]
      congr 1
      exact ((s.inGap k).mem.read_writeBytes a x bytes hg).trans (by rw [State.inGap, s.read_otherWrites _ _ hw]; rfl)
    · have hp := (s.pairAfter_otherWrites (s.gaps.getD k [])).trans h.pair
      rw [hgap] at hp
      rwa [List.length_cons, List.range'_succ, List.flatMap_cons]
    · rw [State.storeRest, h.written, State.store_written, mem_insertAddrs, State.inGap_eq, State.otherWrites_written]
      simp only [List.mem_cons, exists_eq_or_imp, or_assoc]

/-- R71: what the stores of one instruction leave, the writes of other agents between them: memory in the order of all writes, the
open pair, and the addresses counted as written. -/
theorem State.storeSeq_spec (s : State) (l : List (Word × List Byte)) (hw : s.mem.wf = true) :
    (s.storeSeq l).mem.wf = true ∧ (∀ x, (s.storeSeq l).mem.read x = lastWrite (s.seqWrites l) x (s.mem.read x)) ∧
      s.PairAfter (s.storeSeq l) (s.gapWrites (l.length - 1)) ∧
      ∀ x, x ∈ (s.storeSeq l).written ↔ x ∈ s.written ∨ ∃ p ∈ l, ∃ j < p.2.length, x = (p.1 + BitVec.ofNat 32 j).toNat := by
  cases l with
  | nil => exact ⟨hw, fun _ => rfl, by simp [State.PairAfter, State.storeSeq, State.gapWrites], by simp [State.storeSeq]⟩
  | cons p rest =>
    obtain ⟨a, bytes⟩ := p
    have h := (s.store a bytes).restStored_storeRest 0 rest (s.mem.wf_writeBytes a bytes hw)
    refine ⟨h.wf, fun x => ?_, ?_, fun x => ?_⟩
    · rw [State.storeSeq, h.read, State.restWrites_congr (s := s) (t := s.store a bytes) fun _ => rfl, State.seqWrites, lastWrite_append]
      congr 1
      exact s.mem.read_writeBytes a x bytes hw
    · have hp : s.PairAfter _ ((List.range' 0 rest.length).flatMap s.gap) := h.pair
      simpa only [State.storeSeq, State.gapWrites, List.length_cons, Nat.add_sub_cancel, List.range_eq_range'] using hp
    · rw [State.storeSeq, h.written, State.store_written, mem_insertAddrs]
      simp only [List.mem_cons, exists_eq_or_imp, or_assoc]

end Sys2Proof.Machine
end

