-- ==== Sys2Proof/Laws/Decode.lean ====
section
/-! SUPPORT. Decoding: the fields of a word built from fields, and what a decoder's answer says of the word. -/

namespace Sys2Proof

/-! ### Fields of the encoder's words -/

@[simp] theorem opcodeOf_encR (op : BitVec 6) (rs rt rd sh : BitVec 5) (f : BitVec 6) :
    opcodeOf (encR op rs rt rd sh f) = op := by
  apply BitVec.eq_of_getLsbD_eq; intro i hi
  simp only [opcodeOf, encR, BitVec.getLsbD_extractLsb', BitVec.getLsbD_append]
  interval_cases i <;> simp

@[simp] theorem rsOf_encR (op : BitVec 6) (rs rt rd sh : BitVec 5) (f : BitVec 6) :
    rsOf (encR op rs rt rd sh f) = rs := by
  apply BitVec.eq_of_getLsbD_eq; intro i hi
  simp only [rsOf, encR, BitVec.getLsbD_extractLsb', BitVec.getLsbD_append]
  interval_cases i <;> simp

@[simp] theorem rtOf_encR (op : BitVec 6) (rs rt rd sh : BitVec 5) (f : BitVec 6) :
    rtOf (encR op rs rt rd sh f) = rt := by
  apply BitVec.eq_of_getLsbD_eq; intro i hi
  simp only [rtOf, encR, BitVec.getLsbD_extractLsb', BitVec.getLsbD_append]
  interval_cases i <;> simp

@[simp] theorem rdOf_encR (op : BitVec 6) (rs rt rd sh : BitVec 5) (f : BitVec 6) :
    rdOf (encR op rs rt rd sh f) = rd := by
  apply BitVec.eq_of_getLsbD_eq; intro i hi
  simp only [rdOf, encR, BitVec.getLsbD_extractLsb', BitVec.getLsbD_append]
  interval_cases i <;> simp

@[simp] theorem shamtOf_encR (op : BitVec 6) (rs rt rd sh : BitVec 5) (f : BitVec 6) :
    shamtOf (encR op rs rt rd sh f) = sh := by
  apply BitVec.eq_of_getLsbD_eq; intro i hi
  simp only [shamtOf, encR, BitVec.getLsbD_extractLsb', BitVec.getLsbD_append]
  interval_cases i <;> simp

@[simp] theorem functOf_encR (op : BitVec 6) (rs rt rd sh : BitVec 5) (f : BitVec 6) :
    functOf (encR op rs rt rd sh f) = f := by
  apply BitVec.eq_of_getLsbD_eq; intro i hi
  simp only [functOf, encR, BitVec.getLsbD_extractLsb', BitVec.getLsbD_append]
  interval_cases i <;> simp

@[simp] theorem opcodeOf_encI (op : BitVec 6) (rs rt : BitVec 5) (imm : BitVec 16) :
    opcodeOf (encI op rs rt imm) = op := by
  apply BitVec.eq_of_getLsbD_eq; intro i hi
  simp only [opcodeOf, encI, BitVec.getLsbD_extractLsb', BitVec.getLsbD_append]
  interval_cases i <;> simp

@[simp] theorem rsOf_encI (op : BitVec 6) (rs rt : BitVec 5) (imm : BitVec 16) : rsOf (encI op rs rt imm) = rs := by
  apply BitVec.eq_of_getLsbD_eq; intro i hi
  simp only [rsOf, encI, BitVec.getLsbD_extractLsb', BitVec.getLsbD_append]
  interval_cases i <;> simp

@[simp] theorem rtOf_encI (op : BitVec 6) (rs rt : BitVec 5) (imm : BitVec 16) : rtOf (encI op rs rt imm) = rt := by
  apply BitVec.eq_of_getLsbD_eq; intro i hi
  simp only [rtOf, encI, BitVec.getLsbD_extractLsb', BitVec.getLsbD_append]
  interval_cases i <;> simp

@[simp] theorem immOf_encI (op : BitVec 6) (rs rt : BitVec 5) (imm : BitVec 16) : immOf (encI op rs rt imm) = imm := by
  apply BitVec.eq_of_getLsbD_eq; intro i hi
  simp only [immOf, encI, BitVec.getLsbD_extractLsb', BitVec.getLsbD_append]
  interval_cases i <;> simp

@[simp] theorem opcodeOf_encJ (op : BitVec 6) (addr : BitVec 26) : opcodeOf (encJ op addr) = op := by
  apply BitVec.eq_of_getLsbD_eq; intro i hi
  simp only [opcodeOf, encJ, BitVec.getLsbD_extractLsb', BitVec.getLsbD_append]
  interval_cases i <;> simp

@[simp] theorem addrOf_encJ (op : BitVec 6) (addr : BitVec 26) : addrOf (encJ op addr) = addr := by
  apply BitVec.eq_of_getLsbD_eq; intro i hi
  simp only [addrOf, encJ, BitVec.getLsbD_extractLsb', BitVec.getLsbD_append]
  interval_cases i <;> simp

@[simp] theorem opcodeOf_encCode (code : BitVec 20) (f : BitVec 6) : opcodeOf (encCode code f) = 0#6 := by
  apply BitVec.eq_of_getLsbD_eq; intro i hi
  simp only [opcodeOf, encCode, BitVec.getLsbD_extractLsb', BitVec.getLsbD_append]
  interval_cases i <;> simp

@[simp] theorem functOf_encCode (code : BitVec 20) (f : BitVec 6) : functOf (encCode code f) = f := by
  apply BitVec.eq_of_getLsbD_eq; intro i hi
  simp only [functOf, encCode, BitVec.getLsbD_extractLsb', BitVec.getLsbD_append]
  interval_cases i <;> simp

@[simp] theorem codeOf_encCode (code : BitVec 20) (f : BitVec 6) : codeOf (encCode code f) = code := by
  apply BitVec.eq_of_getLsbD_eq; intro i hi
  simp only [codeOf, encCode, BitVec.getLsbD_extractLsb', BitVec.getLsbD_append]
  interval_cases i <;> simp

@[simp] theorem opcodeOf_encTrap (rs rt : BitVec 5) (code : BitVec 10) (f : BitVec 6) :
    opcodeOf (encTrap rs rt code f) = 0#6 := by
  apply BitVec.eq_of_getLsbD_eq; intro i hi
  simp only [opcodeOf, encTrap, BitVec.getLsbD_extractLsb', BitVec.getLsbD_append]
  interval_cases i <;> simp

@[simp] theorem rsOf_encTrap (rs rt : BitVec 5) (code : BitVec 10) (f : BitVec 6) : rsOf (encTrap rs rt code f) = rs := by
  apply BitVec.eq_of_getLsbD_eq; intro i hi
  simp only [rsOf, encTrap, BitVec.getLsbD_extractLsb', BitVec.getLsbD_append]
  interval_cases i <;> simp

@[simp] theorem rtOf_encTrap (rs rt : BitVec 5) (code : BitVec 10) (f : BitVec 6) : rtOf (encTrap rs rt code f) = rt := by
  apply BitVec.eq_of_getLsbD_eq; intro i hi
  simp only [rtOf, encTrap, BitVec.getLsbD_extractLsb', BitVec.getLsbD_append]
  interval_cases i <;> simp

@[simp] theorem trapCodeOf_encTrap (rs rt : BitVec 5) (code : BitVec 10) (f : BitVec 6) :
    trapCodeOf (encTrap rs rt code f) = code := by
  apply BitVec.eq_of_getLsbD_eq; intro i hi
  simp only [trapCodeOf, encTrap, BitVec.getLsbD_extractLsb', BitVec.getLsbD_append]
  interval_cases i <;> simp

@[simp] theorem functOf_encTrap (rs rt : BitVec 5) (code : BitVec 10) (f : BitVec 6) :
    functOf (encTrap rs rt code f) = f := by
  apply BitVec.eq_of_getLsbD_eq; intro i hi
  simp only [functOf, encTrap, BitVec.getLsbD_extractLsb', BitVec.getLsbD_append]
  interval_cases i <;> simp

/-! ### A mask of an unused field finds the field zero -/

@[simp] theorem encR_and_rsMask (op : BitVec 6) (rt rd sh : BitVec 5) (f : BitVec 6) :
    encR op 0#5 rt rd sh f &&& rsMask = 0#32 := by
  apply BitVec.eq_of_getLsbD_eq; intro i hi
  simp only [encR, rsMask, BitVec.getLsbD_and, BitVec.getLsbD_append]
  interval_cases i <;> simp

@[simp] theorem encR_and_rtMask (op : BitVec 6) (rs rd sh : BitVec 5) (f : BitVec 6) :
    encR op rs 0#5 rd sh f &&& rtMask = 0#32 := by
  apply BitVec.eq_of_getLsbD_eq; intro i hi
  simp only [encR, rtMask, BitVec.getLsbD_and, BitVec.getLsbD_append]
  interval_cases i <;> simp

@[simp] theorem encR_and_rdMask (op : BitVec 6) (rs rt sh : BitVec 5) (f : BitVec 6) :
    encR op rs rt 0#5 sh f &&& rdMask = 0#32 := by
  apply BitVec.eq_of_getLsbD_eq; intro i hi
  simp only [encR, rdMask, BitVec.getLsbD_and, BitVec.getLsbD_append]
  interval_cases i <;> simp

@[simp] theorem encR_and_shamtMask (op : BitVec 6) (rs rt rd : BitVec 5) (f : BitVec 6) :
    encR op rs rt rd 0#5 f &&& shamtMask = 0#32 := by
  apply BitVec.eq_of_getLsbD_eq; intro i hi
  simp only [encR, shamtMask, BitVec.getLsbD_and, BitVec.getLsbD_append]
  interval_cases i <;> simp

@[simp] theorem encI_and_rsMask (op : BitVec 6) (rt : BitVec 5) (imm : BitVec 16) :
    encI op 0#5 rt imm &&& rsMask = 0#32 := by
  apply BitVec.eq_of_getLsbD_eq; intro i hi
  simp only [encI, rsMask, BitVec.getLsbD_and, BitVec.getLsbD_append]
  interval_cases i <;> simp

@[simp] theorem encI_and_rtMask (op : BitVec 6) (rs : BitVec 5) (imm : BitVec 16) :
    encI op rs 0#5 imm &&& rtMask = 0#32 := by
  apply BitVec.eq_of_getLsbD_eq; intro i hi
  simp only [encI, rtMask, BitVec.getLsbD_and, BitVec.getLsbD_append]
  interval_cases i <;> simp

/-- Two masks find a word zero when each does. -/
theorem and_or_eq_zero (w a b : Word) : w &&& (a ||| b) = 0#32 ↔ w &&& a = 0#32 ∧ w &&& b = 0#32 := by
  constructor
  · intro h
    constructor <;>
    · apply BitVec.eq_of_getLsbD_eq; intro i hi
      have := congrArg (BitVec.getLsbD · i) h
      simp only [BitVec.getLsbD_and, BitVec.getLsbD_or, BitVec.getLsbD_zero] at this ⊢
      revert this
      cases w.getLsbD i <;> cases a.getLsbD i <;> cases b.getLsbD i <;> simp
  · rintro ⟨ha, hb⟩
    apply BitVec.eq_of_getLsbD_eq; intro i hi
    have h1 := congrArg (BitVec.getLsbD · i) ha
    have h2 := congrArg (BitVec.getLsbD · i) hb
    simp only [BitVec.getLsbD_and, BitVec.getLsbD_or, BitVec.getLsbD_zero] at h1 h2 ⊢
    revert h1 h2
    cases w.getLsbD i <;> cases a.getLsbD i <;> cases b.getLsbD i <;> simp

/-! ### What decoding answers -/

/-- Four bytes or more are decoded as the word they make. -/
theorem decode_bytesOfWord (w : Word) : decode (bytesOfWord w) = decodeWord w := by
  simp only [decode, bytesOfWord]
  congr 1
  apply BitVec.eq_of_getLsbD_eq
  intro i hi
  simp only [wordOfBytes, byteOfWord, BitVec.getLsbD_append, BitVec.getLsbD_extractLsb']
  interval_cases i <;> rfl

/-- Everything `decodeWord` can answer, by the row the word matches. -/
theorem decodeWord_cases (w : Word) :
    (decodeRow w = none ∧ decodeWord w = .error .reserved) ∨
    (∃ i m, decodeRow w = some (i, m) ∧ w &&& m ≠ 0#32 ∧ decodeWord w = .error (.unusedField i)) ∨
    (∃ i m, decodeRow w = some (i, m) ∧ w &&& m = 0#32 ∧ i.wellFormed = true ∧ decodeWord w = .ok i) ∨
    (∃ i m, decodeRow w = some (i, m) ∧ w &&& m = 0#32 ∧ i.wellFormed = false ∧ decodeWord w = .error (.oddRegister i)) := by
  unfold decodeWord
  cases h : decodeRow w with
  | none => exact .inl ⟨rfl, rfl⟩
  | some p =>
    obtain ⟨i, m⟩ := p
    by_cases hm : w &&& m = 0#32
    · cases hw : i.wellFormed
      · exact .inr (.inr (.inr ⟨i, m, rfl, hm, hw, by simp [hm, hw]⟩))
      · exact .inr (.inr (.inl ⟨i, m, rfl, hm, hw, by simp [hm, hw]⟩))
    · exact .inr (.inl ⟨i, m, rfl, hm, by simp [hm]⟩)

/-- A word that decodes to an instruction matches its row, with the row's unused fields zero, and the instruction is well
formed. -/
theorem decodeWord_eq_ok {w : Word} {i : Instr} (h : decodeWord w = .ok i) :
    (∃ m, decodeRow w = some (i, m) ∧ w &&& m = 0#32) ∧ i.wellFormed = true := by
  rcases decodeWord_cases w with ⟨_, h'⟩ | ⟨j, m, _, _, h'⟩ | ⟨j, m, hr, hm, hw, h'⟩ | ⟨j, m, _, _, _, h'⟩ <;> rw [h] at h'
  · cases h'
  · cases h'
  · cases h'; exact ⟨⟨m, hr, hm⟩, hw⟩
  · cases h'

end Sys2Proof
end

