-- ==== Sys2Proof/Laws/Ops.lean ====
section
/-! SUPPORT. One lemma per shared operation: everything it can do. -/

namespace Sys2Proof.Machine

/-! ### Ends of an instruction -/

/-- An instruction that retires from a state with the same `pc` and delay slot ends as R25 and R386 say. -/
theorem State.retired_retire {s u : State} (hp : u.params = s.params) (hpc : u.pc = s.pc) (hd : u.inDelay = s.inDelay)
    (ht : u.delayTarget = s.delayTarget) : s.Retired u.retire where
  pc := by simp only [State.retire_pc, State.inSlot, hp, hpc, hd, ht, Bool.and_eq_true]
  slot := by rw [State.retire_inDelay, hp, hd]

/-- `retire` ends the instruction and does nothing else. -/
theorem State.didNothing_retire (s : State) : s.DidNothing s.retire where
  rest := by intro p _; cases p <;> simp [State.same]
  ended := State.retired_retire rfl rfl rfl rfl

/-- A write of one general register is an instruction's whole effect. -/
theorem State.wroteR_setR (s : State) (rd : RegNum) (v : Word) : s.WroteR (s.setR rd v).retire rd v where
  result := fun h => by rw [State.readR_retire, State.readR_setR_same s rd v h]
  others := fun i hi => by rw [State.readR_retire, State.readR_setR_ne s rd i v hi]
  zero := rfl
  rest := by intro p hp; cases p <;> simp_all [State.same]
  ended := State.retired_retire rfl rfl rfl rfl

/-- `writeR` always answers the state with the register written. -/
theorem State.writeR_eq (s : State) (rd : RegNum) (v : Word) :
    ∃ t, s.writeR rd v = .next t ∧ s.WroteR t rd v := ⟨_, rfl, s.wroteR_setR rd v⟩

/-- R340: trap entry. -/
theorem State.tookTrap_trap (s : State) (x : Exc) : s.TookTrap (s.trap x) x.code x.badAddr where
  first := by intro h hs; simp only [State.trap_epc, State.trap_causeBd, h, State.inSlot]; simp_all
  inSlot := by intro h h1 h2; simp [h, h1, h2, State.inSlot]
  nested := by intro h; simp [h]
  code := rfl
  badVAddr := rfl
  level := rfl
  pair := ⟨rfl, rfl⟩
  slot := rfl
  pc := rfl
  rest := by intro p hp; cases p <;> simp_all [State.same]

/-- R149: `Ov`, or the result. -/
theorem State.writeOrOverflow_cases (s : State) (rd : RegNum) (o : Bool) (v : Word) :
    (o = true ∧ s.writeOrOverflow rd o v = .next (s.trap .ov)) ∨
    (o = false ∧ s.writeOrOverflow rd o v = s.writeR rd v) := by
  cases o
  · exact .inr ⟨rfl, rfl⟩
  · exact .inl ⟨rfl, rfl⟩

/-- R155, R386, R387: everything a control transfer can do. -/
theorem State.transfer_cases (s : State) (taken : Bool) (target : Word) :
    (s.params.branchDelay = false ∧
      s.transfer taken target = .next { s with pc := if taken then target else s.pc + 4 }) ∨
    (s.params.branchDelay = true ∧ s.inDelay = true ∧ s.transfer taken target = .refused .transferInDelaySlot) ∨
    (s.params.branchDelay = true ∧ s.inDelay = false ∧ s.transfer taken target =
      .next { s with pc := s.pc + 4, inDelay := true, delayTarget := if taken then target else s.pc + 8 }) := by
  unfold State.transfer
  cases hb : s.params.branchDelay
  · exact .inl ⟨rfl, by simp⟩
  · cases hd : s.inDelay
    · exact .inr (.inr ⟨rfl, rfl, by simp⟩)
    · exact .inr (.inl ⟨rfl, rfl, by simp⟩)

/-! ### The checks on an access -/

theorem State.populated_eq_true (s : State) (a : Word) (n : Nat) :
    s.populated a n = true ↔ ∀ p ∈ busAccesses a n, memPopulated s.params.holes p.1 p.2 = true := List.all_eq_true

/-- R7: every predicate on an address and a width is `MEM_POPULATED` of some list, for any list of widths. -/
theorem exists_memPopulated (P : Word → Nat → Bool) (widths : List Nat) :
    ∃ holes, ∀ a, ∀ n ∈ widths, memPopulated holes a n = P a n := by
  refine ⟨widths.flatMap fun n => ((List.finRange (2 ^ 32)).filter fun k => !P (BitVec.ofFin k) n).map
    fun k : Fin (2 ^ 32) => (⟨k.val, 1, n⟩ : Config.BusHole), fun a n hn => ?_⟩
  rw [memPopulated, Bool.not_eq_eq_eq_not, Bool.eq_iff_iff]
  simp only [List.any_eq_true, List.mem_flatMap, List.mem_map, List.mem_filter, List.mem_finRange, true_and, Bool.and_eq_true,
    decide_eq_true_eq]
  constructor
  · rintro ⟨_, ⟨m, _, k, hk, rfl⟩, ⟨rfl, h1⟩, h2⟩
    obtain rfl : k = a.toFin := Fin.ext (Nat.le_antisymm h1 (Nat.le_of_lt_succ h2))
    exact hk
  · exact fun h => ⟨⟨a.toNat, 1, n⟩, ⟨n, hn, a.toFin, h, rfl⟩, ⟨rfl, Nat.le_refl _⟩, Nat.lt_succ_self _⟩

theorem State.userBarred_eq_false (s : State) (a : Word) :
    s.userBarred a = false ↔ (s.params.userSegmentCheck = true → s.userMode = true → a.getLsbD 31 = false) := by
  unfold State.userBarred
  cases s.params.userSegmentCheck <;> cases s.userMode <;> simp

/-- R83: an access meets no fault exactly when it passes every check. -/
theorem State.accessFault_eq_none (s : State) (d : Access) (ea : Word) (align : Nat) (base : Word) (n : Nat) :
    s.accessFault d ea align base n = none ↔ s.AccessOk ea align base n := by
  unfold State.accessFault
  constructor
  · intro h
    split at h
    · cases h
    · split at h
      · cases h
      · split at h
        · rename_i h1 h2 h3
          exact ⟨by omega, (s.userBarred_eq_false ea).1 (by simpa using h2), (s.populated_eq_true base n).1 h3⟩
        · cases h
  · rintro ⟨h1, h2, h3⟩
    rw [if_neg (by omega), if_neg (by simp [(s.userBarred_eq_false ea).2 h2]), if_pos ((s.populated_eq_true base n).2 h3)]

/-- R83: the fault of an access is its address error or a bus error. -/
theorem State.accessFault_cases (s : State) (d : Access) (ea : Word) (align : Nat) (base : Word) (n : Nat) :
    s.accessFault d ea align base n = none ∨ s.accessFault d ea align base n = some (d.addressError ea) ∨
      s.accessFault d ea align base n = some .dbe := by
  unfold State.accessFault
  split
  · exact .inr (.inl rfl)
  · split
    · exact .inr (.inl rfl)
    · split
      · exact .inl rfl
      · exact .inr (.inr rfl)

/-- R65: a misaligned access is an address error before any other check. -/
theorem State.accessFault_misaligned (s : State) (d : Access) (ea : Word) (align : Nat) (base : Word) (n : Nat)
    (h : ea.toNat % align ≠ 0) : s.accessFault d ea align base n = some (d.addressError ea) := by
  unfold State.accessFault; rw [if_pos h]

/-- R169: an access that passes its checks is done. -/
theorem State.guarded_of_none (s : State) {f : Option Exc} (h : f = none) (done : State) :
    s.guarded f done = .next done := by
  subst h; rfl

/-- R169: an access that fails a check takes its exception. -/
theorem State.guarded_of_some (s : State) {f : Option Exc} {x : Exc} (h : f = some x) (done : State) :
    s.guarded f done = .next (s.trap x) := by
  subst h; rfl

/-- Everything a guarded access can answer: the trap, or the state after it. -/
theorem State.guarded_cases (s : State) (f : Option Exc) (done : State) :
    (f = none ∧ s.guarded f done = .next done) ∨ (∃ x, f = some x ∧ s.guarded f done = .next (s.trap x)) := by
  cases f with
  | none => exact .inl ⟨rfl, rfl⟩
  | some x => exact .inr ⟨x, rfl, rfl⟩

/-- A load that passes its checks is done. -/
theorem State.load_of_ok (s : State) (ea : Word) (n : Nat) (done : State) (h : s.AccessOk ea n ea n) :
    s.load ea n done = .next done :=
  s.guarded_of_none ((s.accessFault_eq_none .load ea n ea n).2 h) done

/-- A store that passes its checks is done. -/
theorem State.storeAt_of_ok (s : State) (ea : Word) (bytes : List Byte) (h : s.AccessOk ea bytes.length ea bytes.length) :
    s.storeAt ea bytes = .next (s.store ea bytes).retire :=
  s.guarded_of_none ((s.accessFault_eq_none .store ea bytes.length ea bytes.length).2 h) _

/-- The bytes of memory after a store. -/
theorem stored_writeBytes (m : Memory) (a : Word) (bytes : List Byte) (hw : m.wf = true) (hl : bytes.length ≤ 2 ^ 32) :
    Stored m (m.writeBytes a bytes) a bytes where
  inside := fun k h => m.read_writeBytes_inside a bytes k hw h hl
  others := fun x h => m.read_writeBytes_outside a x bytes h

/-- R71: an instruction that makes its stores and ends has no other effect. -/
theorem State.storedSeq_retire (s : State) (l : List (Word × List Byte)) (hw : s.mem.wf = true) :
    s.StoredSeq (s.storeSeq l).retire l := by
  obtain ⟨_, h2, h3, h4⟩ := s.storeSeq_spec l hw
  refine ⟨h2, h3, h4, ?_, State.retired_retire (by simp) (by simp) (by simp) (by simp)⟩
  intro p hp; cases p <;> simp_all [State.same]

/-! ### Privilege, traps, doubles -/

/-- R361: `CpU` in user mode, the instruction in kernel mode. -/
theorem State.kernelOnly_cases (s : State) (o : Outcome) :
    (s.userMode = true ∧ s.kernelOnly o = .next (s.trap .cpU)) ∨ (s.userMode = false ∧ s.kernelOnly o = o) := by
  unfold State.kernelOnly
  cases s.userMode
  · exact .inr ⟨rfl, rfl⟩
  · exact .inl ⟨rfl, rfl⟩

/-- R249: `Tr`, or nothing. -/
theorem State.trapWhen_cases (s : State) (c : Bool) :
    (c = true ∧ s.trapWhen c = .next (s.trap .tr)) ∨ (c = false ∧ s.trapWhen c = .next s.retire) := by
  cases c
  · exact .inr ⟨rfl, rfl⟩
  · exact .inl ⟨rfl, rfl⟩

/-- R214: even operands run, an odd one is refused. -/
theorem ifEven_cases (regs : List FRegNum) (o : Outcome) :
    (regs.all evenReg = true ∧ ifEven regs o = o) ∨
    (regs.all evenReg = false ∧ ifEven regs o = .refused .oddRegister) := by
  unfold ifEven
  cases regs.all evenReg
  · exact .inr ⟨rfl, rfl⟩
  · exact .inl ⟨rfl, rfl⟩

/-! ### Floating point -/

/-- With no traps in `FP`, nothing raises `FPE` (R213). -/
@[simp] theorem fpTraps_none (e : Config.FpExceptions) : fpTraps {} e = false := rfl

theorem or_nan_bits (w : Word) : Fp.single.isNaN (w ||| 0x7F800001#32).toNat = true := by
  have hn : (w ||| 0x7F800001#32).toNat = w.toNat ||| 0x7F800001 := by simp
  have he : Fp.single.expField (w ||| 0x7F800001#32).toNat = 255 := by
    have : ((w ||| 0x7F800001#32).extractLsb' 23 8) = 255#8 := by
      apply BitVec.eq_of_getLsbD_eq; intro i hi
      rw [BitVec.getLsbD_extractLsb', BitVec.getLsbD_or]
      interval_cases i <;> simp
    have h2 := congrArg BitVec.toNat this
    rw [BitVec.extractLsb'_toNat, Nat.shiftRight_eq_div_pow] at h2
    exact h2
  have hf : Fp.single.frac (w ||| 0x7F800001#32).toNat ≠ 0 := by
    intro h
    simp only [Fp.Format.frac, Fp.single] at h
    have : (w ||| 0x7F800001#32).toNat % 2 = 1 := by simp
    omega
  simp only [Fp.Format.isNaN, Fp.Format.classify, he]
  rw [if_neg (by decide), if_pos (by decide), if_neg hf]
  rfl

theorem or_nan_dbits (w : DWord) : Fp.double.isNaN (w ||| 0x7FF0000000000001#64).toNat = true := by
  have he : Fp.double.expField (w ||| 0x7FF0000000000001#64).toNat = 2047 := by
    have : ((w ||| 0x7FF0000000000001#64).extractLsb' 52 11) = 2047#11 := by
      apply BitVec.eq_of_getLsbD_eq; intro i hi
      rw [BitVec.getLsbD_extractLsb', BitVec.getLsbD_or]
      interval_cases i <;> simp
    have h2 := congrArg BitVec.toNat this
    rw [BitVec.extractLsb'_toNat, Nat.shiftRight_eq_div_pow] at h2
    exact h2
  have hf : Fp.double.frac (w ||| 0x7FF0000000000001#64).toNat ≠ 0 := by
    intro h
    simp only [Fp.Format.frac, Fp.double] at h
    have : (w ||| 0x7FF0000000000001#64).toNat % 2 = 1 := by simp
    omega
  simp only [Fp.Format.isNaN, Fp.Format.classify, he]
  rw [if_neg (by decide), if_pos (by decide), if_neg hf]
  rfl

/-- R211: a draw among the NaNs is a NaN. -/
theorem Fp.nanOfWord_isNaN (w : Word) : Fp.single.isNaN (Fp.nanOfWord w).toNat = true := by
  unfold Fp.nanOfWord
  split
  · assumption
  · exact or_nan_bits w

theorem Fp.nanOfDWord_isNaN (w : DWord) : Fp.double.isNaN (Fp.nanOfDWord w).toNat = true := by
  unfold Fp.nanOfDWord
  split
  · assumption
  · exact or_nan_dbits w

/-- The word a result leaves is one it allows, whatever the draw. -/
theorem Fp.Out.allowsWord_word (o : Fp.Out) (n : Nat) : o.AllowsWord (o.word n) := by
  cases o with
  | bits x => rfl
  | anyNaN => exact Fp.nanOfWord_isNaN _
  | anyWord => trivial

theorem Fp.Out.allowsDWord_dword (o : Fp.Out) (n : Nat) : o.AllowsDWord (o.dword n) := by
  cases o with
  | bits x => rfl
  | anyNaN => exact Fp.nanOfDWord_isNaN _
  | anyWord => trivial

/-- R213: a single result is delivered, or its exception traps. -/
theorem State.deliverSingle_cases (s : State) (fd : FRegNum) (r : Fp.Result) :
    (fpTraps s.params.fpTraps r.signals = true ∧ s.deliverSingle fd r = .next (s.trap .fpe)) ∨
    (fpTraps s.params.fpTraps r.signals = false ∧ ∃ t, s.deliverSingle fd r = .next t ∧ s.WroteF t fd r.out) := by
  unfold State.deliverSingle
  cases h : fpTraps s.params.fpTraps r.signals
  · refine .inr ⟨rfl, _, rfl, ?_, ?_, ?_, ?_⟩
    · simpa using r.out.allowsWord_word s.draws
    · intro i hi; simp [State.readF_setF_ne _ _ _ _ hi]
    · intro p hp; cases p <;> simp_all [State.same]
    · exact State.retired_retire rfl rfl rfl rfl
  · exact .inl ⟨rfl, rfl⟩

/-- R213: a double result is delivered, or its exception traps. -/
theorem State.deliverDouble_cases (s : State) (fd : FRegNum) (r : Fp.Result) :
    (fpTraps s.params.fpTraps r.signals = true ∧ s.deliverDouble fd r = .next (s.trap .fpe)) ∨
    (fpTraps s.params.fpTraps r.signals = false ∧ ∃ t, s.deliverDouble fd r = .next t ∧ s.WroteD t fd r.out) := by
  unfold State.deliverDouble
  cases h : fpTraps s.params.fpTraps r.signals
  · refine .inr ⟨rfl, _, rfl, ?_, ?_, ?_, ?_⟩
    · rw [State.readD_retire, State.readD_setD_same]; exact r.out.allowsDWord_dword s.draws
    · intro i h1 h2
      rw [State.readF_retire, State.readF_setD, if_neg (Ne.symm h2), if_neg (Ne.symm h1), State.readF_useDraws]
    · intro p hp; cases p <;> simp_all [State.same]
    · exact State.retired_retire rfl rfl rfl rfl
  · exact .inl ⟨rfl, rfl⟩

/-- R212, R213: a comparison sets `FPcond`, or its invalid traps. -/
theorem State.compare_cases (s : State) (f : Fp.Format) (cond : BitVec 4) (a b : Nat) :
    (fpTraps s.params.fpTraps (compareSignals f cond a b) = true ∧ s.compare f cond a b = .next (s.trap .fpe)) ∨
    (fpTraps s.params.fpTraps (compareSignals f cond a b) = false ∧
      ∃ t, s.compare f cond a b = .next t ∧ s.WroteCond t (fpCondition cond (f.cmp a b))) := by
  unfold State.compare
  cases h : fpTraps s.params.fpTraps (compareSignals f cond a b)
  · refine .inr ⟨rfl, _, rfl, ?_, ?_, ?_⟩
    · simp
    · intro p hp; cases p <;> simp_all [State.same]
    · exact State.retired_retire rfl rfl rfl rfl
  · exact .inl ⟨rfl, rfl⟩

/-! ### Fetch and step -/

/-- R66, R79: everything a fetch can find. -/
theorem State.fetch_cases (s : State) :
    (s.pc.toNat % 4 ≠ 0 ∧ s.fetch = .raise (.adEL s.pc)) ∨
    (s.pc.toNat % 4 = 0 ∧ s.userBarred s.pc = true ∧ s.fetch = .raise (.adEL s.pc)) ∨
    (s.pc.toNat % 4 = 0 ∧ s.userBarred s.pc = false ∧ s.populated s.pc 4 = false ∧ s.fetch = .raise .ibe) ∨
    (s.pc.toNat % 4 = 0 ∧ s.userBarred s.pc = false ∧ s.populated s.pc 4 = true ∧ s.params.codeWrites = .refuse ∧
      s.wordWritten s.pc = true ∧ s.fetch = .codeWritten) ∨
    (s.pc.toNat % 4 = 0 ∧ s.userBarred s.pc = false ∧ s.populated s.pc 4 = true ∧
      (s.params.codeWrites = .refuse → s.wordWritten s.pc = false) ∧ s.fetch = .word (s.mem.readWord s.pc)) := by
  have hal : s.pc.extractLsb' 0 2 = 0 ↔ s.pc.toNat % 4 = 0 := by
    rw [← BitVec.toNat_inj, BitVec.extractLsb'_toNat]; simp
  unfold State.fetch
  by_cases h1 : s.pc.extractLsb' 0 2 = 0
  · have h1' := hal.1 h1
    cases h2 : s.userBarred s.pc
    · cases h3 : s.populated s.pc 4
      · simp [h1, h1']
      · by_cases h4 : s.params.codeWrites = .refuse
        · cases h5 : s.wordWritten s.pc <;> simp [h1, h1', h4]
        · simp [h1, h1', h4]
    · simp [h1, h1']
  · have h1' := fun h => h1 (hal.2 h)
    exact .inl ⟨h1', by rw [if_pos h1]⟩

/-- Everything a step can do, in the state whose inputs have been sampled (R15), a fetched word after the writes that follow the
fetch (R76). -/
theorem step_cases (s : State) :
    (s.sampleEnv.interruptPending = true ∧ step s = .next (s.sampleEnv.trap .int)) ∨
    (s.sampleEnv.interruptPending = false ∧ ∃ x, s.sampleEnv.fetch = .raise x ∧ step s = .next (s.sampleEnv.trap x)) ∨
    (s.sampleEnv.interruptPending = false ∧ s.sampleEnv.fetch = .codeWritten ∧ step s = .refused .codeWritten) ∨
    (s.sampleEnv.interruptPending = false ∧ ∃ w, s.sampleEnv.fetch = .word w ∧ step s = s.sampleEnv.fetched.runWord w) := by
  unfold step State.cycle State.fetchAndRun
  cases hp : s.sampleEnv.interruptPending
  · cases hf : s.sampleEnv.fetch with
    | word w => exact .inr (.inr (.inr ⟨rfl, w, rfl, rfl⟩))
    | raise x => exact .inr (.inl ⟨rfl, x, rfl, rfl⟩)
    | codeWritten => exact .inr (.inr (.inl ⟨rfl, rfl, rfl⟩))
  · exact .inl ⟨rfl, rfl⟩

/-- Everything a fetched word can do when its step answers a next state: `CpU` in user mode, an instruction's meaning, `RI`, or an
instruction of the extension. -/
theorem State.runWord_next {s t : State} {w : Word} (h : s.runWord w = .next t) :
    (s.userMode = true ∧ opcodeOf w = 0x10#6 ∧ t = s.trap .cpU) ∨
    (∃ i m, decodeRow w = some (i, m) ∧ exec i s = .next t) ∨
    (decodeRow w = none ∧ t = s.trap .ri) ∨
    (decodeRow w = none ∧ s.params.extCp0Return = true ∧ ∃ i, decodeExt w = some i ∧ execExt i s = .next t) := by
  have admitted_next : ∀ i o, s.ifAdmitted i o = .next t → o = .next t := by
    intro i o ho; unfold State.ifAdmitted at ho; split at ho
    · cases ho
    · exact ho
  have unmatched_next : s.unmatched = .next t → t = s.trap .ri := by
    intro hu; unfold State.unmatched at hu; split at hu <;> cases hu; rfl
  unfold State.runWord at h
  split at h
  · rename_i hc
    simp only [Bool.and_eq_true, decide_eq_true_eq] at hc
    cases h
    exact .inl ⟨hc.1, hc.2, rfl⟩
  · rw [decode_bytesOfWord] at h
    rcases decodeWord_cases w with ⟨hr, hd⟩ | ⟨i, m, hr, _, hd⟩ | ⟨i, m, hr, _, _, hd⟩ | ⟨i, m, hr, _, _, hd⟩ <;>
      rw [hd] at h <;> simp only at h
    · unfold State.runReserved at h
      split at h
      · rename_i hx
        cases he : decodeExt w with
        | none => rw [he] at h; exact .inr (.inr (.inl ⟨hr, unmatched_next h⟩))
        | some i => rw [he] at h; exact .inr (.inr (.inr ⟨hr, hx, i, rfl, h⟩))
      · exact .inr (.inr (.inl ⟨hr, unmatched_next h⟩))
    · have h' := admitted_next _ _ h
      unfold State.runUnused at h'
      split at h'
      · cases h'
      · exact .inr (.inl ⟨i, m, hr, h'⟩)
    · exact .inr (.inl ⟨i, m, hr, admitted_next _ _ h⟩)
    · cases admitted_next _ _ h

end Sys2Proof.Machine
end

