-- ==== Sys2Proof/Laws/Exec.lean ====
section
/-! SUPPORT. What the meaning of any instruction can do: take a trap, or run and leave the control and exception registers, the
parameters and the inputs alone. -/

namespace Sys2Proof.Machine

/-- What an instruction that takes no trap leaves of the state. -/
structure Ran (s t : State) : Prop where
  control : s.same t .control
  exception : s.same t .exception
  outside : s.same t .outside
  memory : s.mem.wf = true → t.mem.wf = true
  zero : s.regs[0] = 0 → t.regs[0] = 0
  slot : s.params.branchDelay = false → t.inDelay = s.inDelay
  pair : t.llBit = true → (s.llBit = true ∧ t.llAddr = s.llAddr) ∨ t.llAddr.toNat % 4 = 0
  stores : s.written.Pairwise (· < ·) → t.written.Pairwise (· < ·)

theorem Ran.refl (s : State) : Ran s s :=
  ⟨⟨rfl, rfl, rfl, rfl⟩, ⟨rfl, rfl, rfl, rfl, rfl⟩, ⟨rfl, rfl, rfl, rfl⟩, id, id, fun _ => rfl, fun h => .inl ⟨h, rfl⟩, id⟩

theorem Ran.trans {s t u : State} (h : Ran s t) (k : Ran t u) : Ran s u where
  control := by
    obtain ⟨a, b, c, d⟩ := h.control; obtain ⟨a', b', c', d'⟩ := k.control
    exact ⟨a'.trans a, b'.trans b, c'.trans c, d'.trans d⟩
  exception := by
    obtain ⟨a, b, c, d, e⟩ := h.exception; obtain ⟨a', b', c', d', e'⟩ := k.exception
    exact ⟨a'.trans a, b'.trans b, c'.trans c, d'.trans d, e'.trans e⟩
  outside := by
    obtain ⟨a, b, c, d⟩ := h.outside; obtain ⟨a', b', c', d'⟩ := k.outside
    exact ⟨a'.trans a, b'.trans b, c'.trans c, d'.trans d⟩
  memory := k.memory ∘ h.memory
  zero := k.zero ∘ h.zero
  slot := fun hb => (k.slot (by rw [h.outside.1]; exact hb)).trans (h.slot hb)
  pair := fun hl => by
    rcases k.pair hl with ⟨h1, h2⟩ | h1
    · rcases h.pair h1 with ⟨h3, h4⟩ | h3
      · exact .inl ⟨h3, h2.trans h4⟩
      · exact .inr (by rw [h2]; exact h3)
    · exact .inr h1
  stores := k.stores ∘ h.stores

/-- A change of nothing but registers, `FPcond`, `pc` and the count of draws. -/
theorem Ran.of_registers {s t : State} (h1 : s.same t .control) (h2 : s.same t .exception) (h3 : s.same t .outside)
    (h4 : t.mem = s.mem) (h5 : s.regs[0] = 0 → t.regs[0] = 0) (h6 : s.params.branchDelay = false → t.inDelay = s.inDelay)
    (h7 : s.same t .pair) (h8 : t.written = s.written) : Ran s t :=
  ⟨h1, h2, h3, fun h => by rw [h4]; exact h, h5, h6, fun h => .inl ⟨by rw [← h7.1]; exact h, h7.2⟩, fun h => by rw [h8]; exact h⟩

theorem regs_zero_setR (s : State) (i : RegNum) (v : Word) (h : s.regs[0] = 0) : (s.setR i v).regs[0] = 0 := by
  rw [State.setR_regs]
  split
  · exact h
  · rename_i hi
    rw [Vector.getElem_set, if_neg]
    · exact h
    · intro h'; exact hi (BitVec.eq_of_toNat_eq h')

theorem Ran.setR (s : State) (i : RegNum) (v : Word) : Ran s (s.setR i v) :=
  Ran.of_registers ⟨rfl, rfl, rfl, rfl⟩ ⟨rfl, rfl, rfl, rfl, rfl⟩ ⟨rfl, rfl, rfl, rfl⟩ rfl (regs_zero_setR s i v) (fun _ => rfl) ⟨rfl, rfl⟩ rfl

theorem Ran.setF (s : State) (i : FRegNum) (v : Word) : Ran s (s.setF i v) :=
  Ran.of_registers ⟨rfl, rfl, rfl, rfl⟩ ⟨rfl, rfl, rfl, rfl, rfl⟩ ⟨rfl, rfl, rfl, rfl⟩ rfl id (fun _ => rfl) ⟨rfl, rfl⟩ rfl

theorem Ran.setD (s : State) (i : FRegNum) (v : DWord) : Ran s (s.setD i v) :=
  Ran.of_registers ⟨rfl, rfl, rfl, rfl⟩ ⟨rfl, rfl, rfl, rfl, rfl⟩ ⟨rfl, rfl, rfl, rfl⟩ rfl id (fun _ => rfl) ⟨rfl, rfl⟩ rfl

theorem Ran.setHiLo (s : State) (h l : Word) : Ran s (s.setHiLo h l) :=
  Ran.of_registers ⟨rfl, rfl, rfl, rfl⟩ ⟨rfl, rfl, rfl, rfl, rfl⟩ ⟨rfl, rfl, rfl, rfl⟩ rfl id (fun _ => rfl) ⟨rfl, rfl⟩ rfl

theorem Ran.setFPcond (s : State) (b : Bool) : Ran s (s.setFPcond b) :=
  Ran.of_registers ⟨rfl, rfl, rfl, rfl⟩ ⟨rfl, rfl, rfl, rfl, rfl⟩ ⟨rfl, rfl, rfl, rfl⟩ rfl id (fun _ => rfl) ⟨rfl, rfl⟩ rfl

theorem Ran.useDraws (s : State) (n : Nat) : Ran s (s.useDraws n) :=
  Ran.of_registers ⟨rfl, rfl, rfl, rfl⟩ ⟨rfl, rfl, rfl, rfl, rfl⟩ ⟨rfl, rfl, rfl, rfl⟩ rfl id (fun _ => rfl) ⟨rfl, rfl⟩ rfl

theorem Ran.retire (s : State) : Ran s s.retire :=
  Ran.of_registers ⟨rfl, rfl, rfl, rfl⟩ ⟨rfl, rfl, rfl, rfl, rfl⟩ ⟨rfl, rfl, rfl, rfl⟩ rfl id (fun h => by simp [h]) ⟨rfl, rfl⟩ rfl

theorem Ran.store (s : State) (a : Word) (bytes : List Byte) : Ran s (s.store a bytes) :=
  ⟨⟨rfl, rfl, rfl, rfl⟩, ⟨rfl, rfl, rfl, rfl, rfl⟩, ⟨rfl, rfl, rfl, rfl⟩, s.mem.wf_writeBytes a bytes, id, fun _ => rfl,
    fun h => .inl ⟨h, rfl⟩, pairwise_insertAddrs a bytes.length s.written⟩

/-- Other agents write (R76). -/
theorem Ran.otherWrites (s : State) (ws : AgentWrites) : Ran s (s.otherWrites ws) :=
  ⟨⟨rfl, rfl, rfl, rfl⟩, ⟨rfl, rfl, rfl, rfl, rfl⟩, ⟨rfl, rfl, rfl, rfl⟩, s.wf_otherWrites ws, id, fun _ => rfl,
    fun h => .inl ⟨((s.pairAfter_otherWrites ws).1.1 h).1, rfl⟩, id⟩

theorem Ran.storeRest (s : State) (k : Nat) (l : List (Word × List Byte)) : Ran s (s.storeRest k l) := by
  induction l generalizing s k with
  | nil => exact Ran.refl s
  | cons p rest ih => exact ((Ran.otherWrites s _).trans (Ran.store _ p.1 p.2)).trans (ih _ _)

/-- The stores of one instruction, with the writes of other agents between them. -/
theorem Ran.storeSeq (s : State) (l : List (Word × List Byte)) : Ran s (s.storeSeq l) := by
  cases l with
  | nil => exact Ran.refl s
  | cons p rest => exact (Ran.store s p.1 p.2).trans (Ran.storeRest _ 0 rest)

theorem Ran.openPair (s : State) (a : Word) (h : a.toNat % 4 = 0) : Ran s (s.openPair a) :=
  ⟨⟨rfl, rfl, rfl, rfl⟩, ⟨rfl, rfl, rfl, rfl, rfl⟩, ⟨rfl, rfl, rfl, rfl⟩, id, id, fun _ => rfl, fun _ => .inr h, id⟩

theorem Ran.closePair (s : State) : Ran s s.closePair :=
  ⟨⟨rfl, rfl, rfl, rfl⟩, ⟨rfl, rfl, rfl, rfl, rfl⟩, ⟨rfl, rfl, rfl, rfl⟩, id, id, fun _ => rfl, fun h => by simp at h, id⟩

/-- An outcome from `s` whose next state is a trap's or one that `s` ran to. -/
def EndsFrom (s : State) (o : Outcome) : Prop := ∀ t, o = .next t → (∃ x, t = s.trap x) ∨ Ran s t

theorem EndsFrom.ran {s t : State} (h : Ran s t) : EndsFrom s (.next t) := fun _ h' => by cases h'; exact .inr h

theorem EndsFrom.trap (s : State) (x : Exc) : EndsFrom s (.next (s.trap x)) := fun _ h' => by cases h'; exact .inl ⟨x, rfl⟩

theorem EndsFrom.refused (s : State) (r : Refusal) : EndsFrom s (.refused r) := fun _ h' => by cases h'

theorem EndsFrom.writeR (s : State) (rd : RegNum) (v : Word) : EndsFrom s (s.writeR rd v) :=
  .ran ((Ran.setR s rd v).trans (Ran.retire _))

theorem EndsFrom.writeOrOverflow (s : State) (rd : RegNum) (o : Bool) (v : Word) : EndsFrom s (s.writeOrOverflow rd o v) := by
  rcases s.writeOrOverflow_cases rd o v with ⟨_, h⟩ | ⟨_, h⟩ <;> rw [h]
  · exact .trap s _
  · exact .writeR s rd v

theorem EndsFrom.transfer (s u : State) (hs : Ran s u) (taken : Bool) (target : Word) :
    EndsFrom s (u.transfer taken target) := by
  rcases u.transfer_cases taken target with ⟨_, h⟩ | ⟨_, _, h⟩ | ⟨hb, _, h⟩ <;> rw [h]
  · exact .ran (hs.trans (Ran.of_registers ⟨rfl, rfl, rfl, rfl⟩ ⟨rfl, rfl, rfl, rfl, rfl⟩ ⟨rfl, rfl, rfl, rfl⟩ rfl id (fun _ => rfl)
      ⟨rfl, rfl⟩ rfl))
  · exact .refused s _
  · exact .ran (hs.trans (Ran.of_registers ⟨rfl, rfl, rfl, rfl⟩ ⟨rfl, rfl, rfl, rfl, rfl⟩ ⟨rfl, rfl, rfl, rfl⟩ rfl id
      (fun h => by rw [hb] at h; cases h) ⟨rfl, rfl⟩ rfl))

theorem EndsFrom.guarded (s : State) (f : Option Exc) (done : State) (h : f = none → Ran s done) :
    EndsFrom s (s.guarded f done) := by
  rcases s.guarded_cases f done with ⟨hf, hg⟩ | ⟨x, _, hg⟩ <;> rw [hg]
  · exact .ran (h hf)
  · exact .trap s x

theorem EndsFrom.ifEven {s : State} {o : Outcome} (regs : List FRegNum) (h : EndsFrom s o) : EndsFrom s (ifEven regs o) := by
  rcases ifEven_cases regs o with ⟨_, hg⟩ | ⟨_, hg⟩ <;> rw [hg]
  · exact h
  · exact .refused s _

theorem EndsFrom.kernelOnly {s : State} {o : Outcome} (h : EndsFrom s o) : EndsFrom s (s.kernelOnly o) := by
  rcases s.kernelOnly_cases o with ⟨_, hg⟩ | ⟨_, hg⟩ <;> rw [hg]
  · exact .trap s _
  · exact h

theorem EndsFrom.trapWhen (s : State) (c : Bool) : EndsFrom s (s.trapWhen c) := by
  rcases s.trapWhen_cases c with ⟨_, hg⟩ | ⟨_, hg⟩ <;> rw [hg]
  · exact .trap s _
  · exact .ran (Ran.retire s)

theorem EndsFrom.deliverSingle (s : State) (fd : FRegNum) (r : Fp.Result) : EndsFrom s (s.deliverSingle fd r) := by
  unfold State.deliverSingle
  split
  · exact .trap s _
  · exact .ran (((Ran.useDraws s _).trans (Ran.setF _ fd _)).trans (Ran.retire _))

theorem EndsFrom.deliverDouble (s : State) (fd : FRegNum) (r : Fp.Result) : EndsFrom s (s.deliverDouble fd r) := by
  unfold State.deliverDouble
  split
  · exact .trap s _
  · exact .ran (((Ran.useDraws s _).trans (Ran.setD _ fd _)).trans (Ran.retire _))

theorem EndsFrom.compare (s : State) (f : Fp.Format) (cond : BitVec 4) (a b : Nat) : EndsFrom s (s.compare f cond a b) := by
  unfold State.compare
  split
  · exact .trap s _
  · exact .ran ((Ran.setFPcond s _).trans (Ran.retire _))

theorem EndsFrom.writeProduct (s : State) (p : DWord) : EndsFrom s (s.writeProduct p) :=
  .ran ((Ran.setHiLo s _ _).trans (Ran.retire _))

theorem EndsFrom.writeQuotient (s : State) (b : Bool) (q r : Word) : EndsFrom s (s.writeQuotient b q r) := by
  unfold State.writeQuotient
  split
  · exact .ran ((Ran.setHiLo s _ _).trans (Ran.retire _))
  · exact .ran (((Ran.setHiLo s _ _).trans (Ran.useDraws _ 2)).trans (Ran.retire _))

theorem EndsFrom.loadR (s : State) (f : Option Exc) (rt : RegNum) (v : Word) :
    EndsFrom s (s.guarded f (s.setR rt v).retire) :=
  .guarded s f _ fun _ => (Ran.setR s rt v).trans (Ran.retire _)

theorem EndsFrom.loadF (s : State) (f : Option Exc) (rt : FRegNum) (v : Word) :
    EndsFrom s (s.guarded f (s.setF rt v).retire) :=
  .guarded s f _ fun _ => (Ran.setF s rt v).trans (Ran.retire _)

theorem EndsFrom.storeBytes (s : State) (f : Option Exc) (a : Word) (bytes : List Byte) :
    EndsFrom s (s.guarded f (s.store a bytes).retire) :=
  .guarded s f _ fun _ => (Ran.store s a bytes).trans (Ran.retire _)

theorem EndsFrom.storeSeq (s : State) (f : Option Exc) (l : List (Word × List Byte)) :
    EndsFrom s (s.guarded f (s.storeSeq l).retire) :=
  .guarded s f _ fun _ => (Ran.storeSeq s l).trans (Ran.retire _)

theorem Ran.scDone (s : State) (rt : RegNum) (ea : Word) : Ran s (s.scDone rt ea) := by
  unfold State.scDone
  have h : Ran s (if s.scAtomic ea then s.store ea (bytesOfWord (s.readR rt)) else s) := by
    split
    · exact Ran.store s _ _
    · exact Ran.refl s
  exact (((h.trans (Ran.closePair _)).trans (Ran.useDraws _ _)).trans (Ran.setR _ rt _)).trans (Ran.retire _)

theorem EndsFrom.move {s u : State} (c : Prop) [Decidable c] (h : Ran s u) : EndsFrom s (.next (if c then u else s).retire) := by
  split
  · exact .ran (h.trans (Ran.retire _))
  · exact .ran (Ran.retire _)

theorem EndsFrom.execLl (s : State) (rt rs : RegNum) (imm : BitVec 16) : EndsFrom s (execLl rt rs imm s) := by
  refine .guarded s _ _ fun hn => ?_
  have ha : (s.ea rs imm).toNat % 4 = 0 := ((s.accessFault_eq_none .load _ 4 _ 4).1 hn).aligned
  exact ((Ran.openPair s _ ha).trans (Ran.setR _ rt _)).trans (Ran.retire _)

/-- Every instruction ends from its state: its next state is a trap's, or one it ran to. -/
theorem EndsFrom.exec (i : Instr) (s : State) : EndsFrom s (exec i s) :=
  match i with
  | .add .. => .writeOrOverflow s _ _ _
  | .addi .. => .writeOrOverflow s _ _ _
  | .addiu .. => .writeR s _ _
  | .addu .. => .writeR s _ _
  | .and .. => .writeR s _ _
  | .andi .. => .writeR s _ _
  | .lui .. => .writeR s _ _
  | .nor .. => .writeR s _ _
  | .or .. => .writeR s _ _
  | .ori .. => .writeR s _ _
  | .slt .. => .writeR s _ _
  | .slti .. => .writeR s _ _
  | .sltiu .. => .writeR s _ _
  | .sltu .. => .writeR s _ _
  | .sll .. => .writeR s _ _
  | .srl .. => .writeR s _ _
  | .sub .. => .writeOrOverflow s _ _ _
  | .subu .. => .writeR s _ _
  | .beq .. => .transfer s _ (Ran.refl s) _ _
  | .bne .. => .transfer s _ (Ran.refl s) _ _
  | .j .. => .transfer s _ (Ran.refl s) _ _
  | .jal .. => .transfer s _ (Ran.setR s _ _) _ _
  | .jr .. => .transfer s _ (Ran.refl s) _ _
  | .lbu .. => .loadR s _ _ _
  | .lhu .. => .loadR s _ _ _
  | .ll .. => .execLl s _ _ _
  | .lw .. => .loadR s _ _ _
  | .sb .. => .storeBytes s _ _ _
  | .sc .. => .guarded s _ _ fun _ => Ran.scDone s _ _
  | .sh .. => .storeBytes s _ _ _
  | .sw .. => .storeBytes s _ _ _
  | .div .. => .writeQuotient s _ _ _
  | .divu .. => .writeQuotient s _ _ _
  | .mfhi .. => .writeR s _ _
  | .mflo .. => .writeR s _ _
  | .mfc0 .. => .kernelOnly (.ran (((Ran.useDraws s 1).trans (Ran.setR _ _ _)).trans (Ran.retire _)))
  | .mult .. => .writeProduct s _
  | .multu .. => .writeProduct s _
  | .sra .. => .writeR s _ _
  | .bc1t .. => .transfer s _ (Ran.refl s) _ _
  | .bc1f .. => .transfer s _ (Ran.refl s) _ _
  | .addS .. => .deliverSingle s _ _
  | .addD .. => .ifEven _ (.deliverDouble s _ _)
  | .cEqS .. => .compare s _ _ _ _
  | .cLtS .. => .compare s _ _ _ _
  | .cLeS .. => .compare s _ _ _ _
  | .cEqD .. => .ifEven _ (.compare s _ _ _ _)
  | .cLtD .. => .ifEven _ (.compare s _ _ _ _)
  | .cLeD .. => .ifEven _ (.compare s _ _ _ _)
  | .divS .. => .deliverSingle s _ _
  | .divD .. => .ifEven _ (.deliverDouble s _ _)
  | .mulS .. => .deliverSingle s _ _
  | .mulD .. => .ifEven _ (.deliverDouble s _ _)
  | .subS .. => .deliverSingle s _ _
  | .subD .. => .ifEven _ (.deliverDouble s _ _)
  | .lwc1 .. => .loadF s _ _ _
  | .ldc1 .. => .ifEven _ (.guarded s _ _ fun _ =>
      (((Ran.otherWrites s _).trans (Ran.setF _ _ _)).trans (Ran.setF _ _ _)).trans (Ran.retire _))
  | .swc1 .. => .storeBytes s _ _ _
  | .sdc1 .. => .ifEven _ (.storeSeq s _ _)
  | .blez .. => .transfer s _ (Ran.refl s) _ _
  | .bgtz .. => .transfer s _ (Ran.refl s) _ _
  | .xori .. => .writeR s _ _
  | .lb .. => .loadR s _ _ _
  | .lh .. => .loadR s _ _ _
  | .sllv .. => .writeR s _ _
  | .srlv .. => .writeR s _ _
  | .srav .. => .writeR s _ _
  | .jalr .. => .transfer s _ (Ran.setR s _ _) _ _
  | .xor .. => .writeR s _ _
  | .mthi .. => .ran ((Ran.setHiLo s _ _).trans (Ran.retire _))
  | .mtlo .. => .ran ((Ran.setHiLo s _ _).trans (Ran.retire _))
  | .movz .. => .move _ (Ran.setR s _ _)
  | .movn .. => .move _ (Ran.setR s _ _)
  | .syscall .. => .trap s _
  | .sync .. => .ran (Ran.retire s)
  | .brk .. => .trap s _
  | .lwl .. => .loadR s _ _ _
  | .lwr .. => .loadR s _ _ _
  | .swl .. => .storeSeq s _ _
  | .swr .. => .storeSeq s _ _
  | .cache .. => .kernelOnly (.ran (Ran.retire s))
  | .pref .. => .ran (Ran.retire s)
  | .tge .. => .trapWhen s _
  | .tgeu .. => .trapWhen s _
  | .tlt .. => .trapWhen s _
  | .tltu .. => .trapWhen s _
  | .teq .. => .trapWhen s _
  | .tne .. => .trapWhen s _
  | .lwc2 .. => .trap s _
  | .ldc2 .. => .trap s _
  | .swc2 .. => .trap s _
  | .sdc2 .. => .trap s _
  | .sqrtS .. => .deliverSingle s _ _
  | .sqrtD .. => .ifEven _ (.deliverDouble s _ _)
  | .absS .. => .deliverSingle s _ _
  | .absD .. => .ifEven _ (.deliverDouble s _ _)
  | .movS .. => .ran ((Ran.setF s _ _).trans (Ran.retire _))
  | .movD .. => .ifEven _ (.ran ((Ran.setD s _ _).trans (Ran.retire _)))
  | .negS .. => .deliverSingle s _ _
  | .negD .. => .ifEven _ (.deliverDouble s _ _)
  | .movzS .. => .move _ (Ran.setF s _ _)
  | .movzD .. => .ifEven _ (.move _ (Ran.setD s _ _))
  | .movnS .. => .move _ (Ran.setF s _ _)
  | .movnD .. => .ifEven _ (.move _ (Ran.setD s _ _))
  | .cvtSS .. => .refused s _
  | .cvtSD .. => .ifEven _ (.deliverSingle s _ _)
  | .cvtDS .. => .ifEven _ (.deliverDouble s _ _)
  | .cvtDD .. => .refused s _
  | .cvtWS .. => .deliverSingle s _ _
  | .cvtWD .. => .ifEven _ (.deliverSingle s _ _)
  | .roundWS .. => .deliverSingle s _ _
  | .roundWD .. => .ifEven _ (.deliverSingle s _ _)
  | .truncWS .. => .deliverSingle s _ _
  | .truncWD .. => .ifEven _ (.deliverSingle s _ _)
  | .ceilWS .. => .deliverSingle s _ _
  | .ceilWD .. => .ifEven _ (.deliverSingle s _ _)
  | .floorWS .. => .deliverSingle s _ _
  | .floorWD .. => .ifEven _ (.deliverSingle s _ _)
  | .cFS .. => .compare s _ _ _ _
  | .cFD .. => .ifEven _ (.compare s _ _ _ _)
  | .cUnS .. => .compare s _ _ _ _
  | .cUnD .. => .ifEven _ (.compare s _ _ _ _)
  | .cUeqS .. => .compare s _ _ _ _
  | .cUeqD .. => .ifEven _ (.compare s _ _ _ _)
  | .cOltS .. => .compare s _ _ _ _
  | .cOltD .. => .ifEven _ (.compare s _ _ _ _)
  | .cUltS .. => .compare s _ _ _ _
  | .cUltD .. => .ifEven _ (.compare s _ _ _ _)
  | .cOleS .. => .compare s _ _ _ _
  | .cOleD .. => .ifEven _ (.compare s _ _ _ _)
  | .cUleS .. => .compare s _ _ _ _
  | .cUleD .. => .ifEven _ (.compare s _ _ _ _)
  | .cSfS .. => .compare s _ _ _ _
  | .cSfD .. => .ifEven _ (.compare s _ _ _ _)
  | .cNgleS .. => .compare s _ _ _ _
  | .cNgleD .. => .ifEven _ (.compare s _ _ _ _)
  | .cSeqS .. => .compare s _ _ _ _
  | .cSeqD .. => .ifEven _ (.compare s _ _ _ _)
  | .cNglS .. => .compare s _ _ _ _
  | .cNglD .. => .ifEven _ (.compare s _ _ _ _)
  | .cNgeS .. => .compare s _ _ _ _
  | .cNgeD .. => .ifEven _ (.compare s _ _ _ _)
  | .cNgtS .. => .compare s _ _ _ _
  | .cNgtD .. => .ifEven _ (.compare s _ _ _ _)

/-- All that an instruction of the extension can answer next (R357, R358, R361). -/
theorem execExt_next (i : ExtInstr) (s t : State) (h : execExt i s = .next t) :
    t = s.trap .cpU ∨
      (s.userMode = false ∧ ((∃ rd v, t = (s.writeCR rd v).retire) ∨ t = s.returnFromTrap)) := by
  cases i with
  | mtc0 rt rd =>
    simp only [execExt, execMtc0] at h
    rcases s.kernelOnly_cases (.next ((s.writeCR rd (s.readR rt)).retire)) with ⟨_, h'⟩ | ⟨hu, h'⟩ <;> rw [h'] at h <;> cases h
    · exact .inl rfl
    · exact .inr ⟨hu, .inl ⟨_, _, rfl⟩⟩
  | eret =>
    simp only [execExt, execEret] at h
    rcases s.kernelOnly_cases (if s.inSlot then .refused .transferInDelaySlot else .next s.returnFromTrap) with
      ⟨_, h'⟩ | ⟨hu, h'⟩ <;> rw [h'] at h
    · cases h; exact .inl rfl
    · split at h <;> cases h; exact .inr ⟨hu, .inr rfl⟩

/-- All that a step can answer next: trap entry, what an instruction that takes no trap does, or in kernel mode with
`EXT_CP0_RETURN` what `mtc0` or `eret` does, each from the state whose inputs have been sampled, or what it is after the writes that
follow the fetch. -/
theorem step_kinds (s t : State) (h : step s = .next t) : ∃ u, (u = s.sampleEnv ∨ u = s.sampleEnv.fetched) ∧
    ((∃ x, t = u.trap x) ∨ Ran u t ∨ (s.params.extCp0Return = true ∧ s.userMode = false ∧
      ((∃ rd v, t = (u.writeCR rd v).retire) ∨ t = u.returnFromTrap))) := by
  rcases step_cases s with ⟨_, h'⟩ | ⟨_, x, _, h'⟩ | ⟨_, _, h'⟩ | ⟨_, w, _, h'⟩ <;> rw [h'] at h
  · cases h; exact ⟨_, .inl rfl, .inl ⟨_, rfl⟩⟩
  · cases h; exact ⟨_, .inl rfl, .inl ⟨_, rfl⟩⟩
  · cases h
  · refine ⟨_, .inr rfl, ?_⟩
    rcases State.runWord_next h with ⟨_, _, h⟩ | ⟨i, m, _, h⟩ | ⟨_, h⟩ | ⟨_, hx, i, _, h⟩
    · exact .inl ⟨_, h⟩
    · rcases EndsFrom.exec i _ t h with h | h
      · exact .inl h
      · exact .inr (.inl h)
    · exact .inl ⟨_, h⟩
    · rcases execExt_next i _ _ h with h | ⟨hu, h⟩
      · exact .inl ⟨_, h⟩
      · exact .inr (.inr ⟨by simpa using hx, by simpa using hu, h⟩)

end Sys2Proof.Machine
end

