-- ==== Sys2Proof/Laws/Float.lean ====
section
/-! SUPPORT. What a floating-point pattern of each class is read as, and the value that a finite one denotes. -/

namespace Sys2Proof.Machine.Fp

theorem Format.unpack_of_isNaN {f : Format} {x : Nat} (h : f.isNaN x = true) : f.unpack x = .nan := by
  simp only [Format.isNaN, decide_eq_true_eq] at h
  simp [Format.unpack, h]

theorem Format.unpack_of_infinity {f : Format} {x : Nat} (h : f.classify x = .infinity) :
    f.isNaN x = false ∧ f.unpack x = .inf (f.sign x) := by
  simp [Format.isNaN, Format.unpack, h]

theorem Format.unpack_of_zero {f : Format} {x : Nat} (h : f.classify x = .zero) :
    f.isNaN x = false ∧ f.unpack x = .num (f.sign x) 0 f.minQuantum := by
  simp [Format.isNaN, Format.unpack, h]

/-- A denormal's fraction of `n` bits, as a multiple of the least quantum. -/
theorem scale_fraction (n : Nat) (v : ℚ) (k : ℤ) : v / 2 ^ n * (2 : ℚ) ^ k = v * (2 : ℚ) ^ (k - n) := by
  rw [zpow_sub₀ (by norm_num), zpow_natCast]
  ring

/-- A finite pattern is read as the number that its value is, and is no NaN. -/
theorem Format.unpack_of_finite {f : Format} {x : Nat} (h : f.Finite x) : f.isNaN x = false ∧
    ∃ m e, f.unpack x = .num (f.sign x) m e ∧ f.value x = (if f.sign x then -1 else 1) * (m : ℚ) * (2 : ℚ) ^ e ∧
      (m = 0 ↔ f.value x = 0) := by
  have key : ∀ (m : Nat) (e : ℤ), f.value x = (if f.sign x then -1 else 1) * (m : ℚ) * (2 : ℚ) ^ e →
      (m = 0 ↔ f.value x = 0) := by
    intro m e hv
    have : (2 : ℚ) ^ e ≠ 0 := zpow_ne_zero _ (by norm_num)
    rw [hv]
    cases f.sign x <;> simp [this]
  by_cases h0 : f.expField x = 0
  · have hv : f.value x = (if f.sign x then -1 else 1) * (f.frac x : ℚ) * (2 : ℚ) ^ f.minQuantum := by
      unfold Format.value
      rw [if_pos h0, scale_fraction, mul_assoc]
      rfl
    by_cases h1 : f.frac x = 0
    · have hc : f.classify x = .zero := by simp [Format.classify, h0, h1]
      exact ⟨by simp [Format.isNaN, hc], 0, _, by simp [Format.unpack, hc]; rfl, by rw [hv, h1],
        h1 ▸ key _ _ hv⟩
    · have hc : f.classify x = .denorm := by simp [Format.classify, h0, h1]
      exact ⟨by simp [Format.isNaN, hc], f.frac x, _, by simp [Format.unpack, hc], hv, key _ _ hv⟩
  · have hc : f.classify x = .number := by simp [Format.classify, h0, h.2]
    have hv : f.value x = (if f.sign x then -1 else 1) * ((2 ^ f.fracBits + f.frac x : Nat) : ℚ) *
        (2 : ℚ) ^ (f.minQuantum + ((f.expField x : Int) - 1)) := by
      unfold Format.value
      rw [if_neg h0, mul_assoc, show (1 + (f.frac x : ℚ) / 2 ^ f.fracBits) =
        ((2 ^ f.fracBits + f.frac x : Nat) : ℚ) / 2 ^ f.fracBits by push_cast; field_simp, scale_fraction]
      congr 3
      unfold Format.minQuantum
      ring
    exact ⟨by simp [Format.isNaN, hc], _, _, by simp only [Format.unpack, hc], hv, key _ _ hv⟩

end Sys2Proof.Machine.Fp
end

