-- ==== Sys2Proof/Laws/PerInstr.lean ====
section
/-! SUPPORT. The per-instruction family RoundTrip: the word the encoder writes matches the instruction's own row of the opcode
table, every operand read back, and the fields the row does not use are zero in it. -/

namespace Sys2Proof.Laws.RoundTrip

set_option Elab.async false

/-- The encoder's word matches the instruction's row, and the row's unused fields are zero in it. -/
def Statement (i : Instr) : Prop := ∃ m, decodeRow (encode i) = some (i, m) ∧ encode i &&& m = 0#32

theorem special {i : Instr} {m : Word} (ho : opcodeOf (encode i) = 0x00#6) (h : decodeSpecial (encode i) = some (i, m))
    (hm : encode i &&& m = 0#32) : Statement i := ⟨m, by simp only [decodeRow, ho]; exact h, hm⟩

theorem single {i : Instr} {m : Word} (ho : opcodeOf (encode i) = 0x11#6) (hf : rsOf (encode i) = 0x10#5)
    (h : decodeSingle (encode i) = some (i, m)) (hm : encode i &&& m = 0#32) : Statement i :=
  ⟨m, by simp only [decodeRow, ho, decodeCop1, fmtOf, hf]; exact h, hm⟩

theorem double {i : Instr} {m : Word} (ho : opcodeOf (encode i) = 0x11#6) (hf : rsOf (encode i) = 0x11#5)
    (h : decodeDouble (encode i) = some (i, m)) (hm : encode i &&& m = 0#32) : Statement i :=
  ⟨m, by simp only [decodeRow, ho, decodeCop1, fmtOf, hf]; exact h, hm⟩

theorem add (rd rs rt : RegNum) : Statement (.add rd rs rt) :=
  special (by simp [encode]) (by simp [encode, decodeSpecial]; rfl) (by simp [encode])

theorem addi (rt rs : RegNum) (imm : BitVec 16) : Statement (.addi rt rs imm) :=
  ⟨_, by simp [encode, decodeRow]; rfl, by simp [encode]⟩

theorem addiu (rt rs : RegNum) (imm : BitVec 16) : Statement (.addiu rt rs imm) :=
  ⟨_, by simp [encode, decodeRow]; rfl, by simp [encode]⟩

theorem addu (rd rs rt : RegNum) : Statement (.addu rd rs rt) :=
  special (by simp [encode]) (by simp [encode, decodeSpecial]; rfl) (by simp [encode])

theorem and (rd rs rt : RegNum) : Statement (.and rd rs rt) :=
  special (by simp [encode]) (by simp [encode, decodeSpecial]; rfl) (by simp [encode])

theorem andi (rt rs : RegNum) (imm : BitVec 16) : Statement (.andi rt rs imm) :=
  ⟨_, by simp [encode, decodeRow]; rfl, by simp [encode]⟩

theorem lui (rt : RegNum) (imm : BitVec 16) : Statement (.lui rt imm) :=
  ⟨_, by simp [encode, decodeRow]; rfl, by simp [encode]⟩

theorem nor (rd rs rt : RegNum) : Statement (.nor rd rs rt) :=
  special (by simp [encode]) (by simp [encode, decodeSpecial]; rfl) (by simp [encode])

theorem or (rd rs rt : RegNum) : Statement (.or rd rs rt) :=
  special (by simp [encode]) (by simp [encode, decodeSpecial]; rfl) (by simp [encode])

theorem ori (rt rs : RegNum) (imm : BitVec 16) : Statement (.ori rt rs imm) :=
  ⟨_, by simp [encode, decodeRow]; rfl, by simp [encode]⟩

theorem slt (rd rs rt : RegNum) : Statement (.slt rd rs rt) :=
  special (by simp [encode]) (by simp [encode, decodeSpecial]; rfl) (by simp [encode])

theorem slti (rt rs : RegNum) (imm : BitVec 16) : Statement (.slti rt rs imm) :=
  ⟨_, by simp [encode, decodeRow]; rfl, by simp [encode]⟩

theorem sltiu (rt rs : RegNum) (imm : BitVec 16) : Statement (.sltiu rt rs imm) :=
  ⟨_, by simp [encode, decodeRow]; rfl, by simp [encode]⟩

theorem sltu (rd rs rt : RegNum) : Statement (.sltu rd rs rt) :=
  special (by simp [encode]) (by simp [encode, decodeSpecial]; rfl) (by simp [encode])

theorem sll (rd rt : RegNum) (shamt : BitVec 5) : Statement (.sll rd rt shamt) :=
  special (by simp [encode]) (by simp [encode, decodeSpecial]; rfl) (by simp [encode])

theorem srl (rd rt : RegNum) (shamt : BitVec 5) : Statement (.srl rd rt shamt) :=
  special (by simp [encode]) (by simp [encode, decodeSpecial]; rfl) (by simp [encode])

theorem sub (rd rs rt : RegNum) : Statement (.sub rd rs rt) :=
  special (by simp [encode]) (by simp [encode, decodeSpecial]; rfl) (by simp [encode])

theorem subu (rd rs rt : RegNum) : Statement (.subu rd rs rt) :=
  special (by simp [encode]) (by simp [encode, decodeSpecial]; rfl) (by simp [encode])

theorem beq (rs rt : RegNum) (imm : BitVec 16) : Statement (.beq rs rt imm) :=
  ⟨_, by simp [encode, decodeRow]; rfl, by simp [encode]⟩

theorem bne (rs rt : RegNum) (imm : BitVec 16) : Statement (.bne rs rt imm) :=
  ⟨_, by simp [encode, decodeRow]; rfl, by simp [encode]⟩

theorem j (addr : BitVec 26) : Statement (.j addr) :=
  ⟨_, by simp [encode, decodeRow]; rfl, by simp [encode]⟩

theorem jal (addr : BitVec 26) : Statement (.jal addr) :=
  ⟨_, by simp [encode, decodeRow]; rfl, by simp [encode]⟩

theorem jr (rs : RegNum) : Statement (.jr rs) :=
  special (by simp [encode]) (by simp [encode, decodeSpecial]; rfl) (by simp [encode, and_or_eq_zero])

theorem lbu (rt rs : RegNum) (imm : BitVec 16) : Statement (.lbu rt rs imm) :=
  ⟨_, by simp [encode, decodeRow]; rfl, by simp [encode]⟩

theorem lhu (rt rs : RegNum) (imm : BitVec 16) : Statement (.lhu rt rs imm) :=
  ⟨_, by simp [encode, decodeRow]; rfl, by simp [encode]⟩

theorem ll (rt rs : RegNum) (imm : BitVec 16) : Statement (.ll rt rs imm) :=
  ⟨_, by simp [encode, decodeRow]; rfl, by simp [encode]⟩

theorem lw (rt rs : RegNum) (imm : BitVec 16) : Statement (.lw rt rs imm) :=
  ⟨_, by simp [encode, decodeRow]; rfl, by simp [encode]⟩

theorem sb (rt rs : RegNum) (imm : BitVec 16) : Statement (.sb rt rs imm) :=
  ⟨_, by simp [encode, decodeRow]; rfl, by simp [encode]⟩

theorem sc (rt rs : RegNum) (imm : BitVec 16) : Statement (.sc rt rs imm) :=
  ⟨_, by simp [encode, decodeRow]; rfl, by simp [encode]⟩

theorem sh (rt rs : RegNum) (imm : BitVec 16) : Statement (.sh rt rs imm) :=
  ⟨_, by simp [encode, decodeRow]; rfl, by simp [encode]⟩

theorem sw (rt rs : RegNum) (imm : BitVec 16) : Statement (.sw rt rs imm) :=
  ⟨_, by simp [encode, decodeRow]; rfl, by simp [encode]⟩

theorem div (rs rt : RegNum) : Statement (.div rs rt) :=
  special (by simp [encode]) (by simp [encode, decodeSpecial]; rfl) (by simp [encode, and_or_eq_zero])

theorem divu (rs rt : RegNum) : Statement (.divu rs rt) :=
  special (by simp [encode]) (by simp [encode, decodeSpecial]; rfl) (by simp [encode, and_or_eq_zero])

theorem mfhi (rd : RegNum) : Statement (.mfhi rd) :=
  special (by simp [encode]) (by simp [encode, decodeSpecial]; rfl) (by simp [encode, and_or_eq_zero])

theorem mflo (rd : RegNum) : Statement (.mflo rd) :=
  special (by simp [encode]) (by simp [encode, decodeSpecial]; rfl) (by simp [encode, and_or_eq_zero])

theorem mfc0 (rt : RegNum) (rd : CRegNum) : Statement (.mfc0 rt rd) :=
  ⟨_, by simp [encode, decodeRow, decodeCop0]; rfl, by simp [encode]⟩

theorem mult (rs rt : RegNum) : Statement (.mult rs rt) :=
  special (by simp [encode]) (by simp [encode, decodeSpecial]; rfl) (by simp [encode, and_or_eq_zero])

theorem multu (rs rt : RegNum) : Statement (.multu rs rt) :=
  special (by simp [encode]) (by simp [encode, decodeSpecial]; rfl) (by simp [encode, and_or_eq_zero])

theorem sra (rd rt : RegNum) (shamt : BitVec 5) : Statement (.sra rd rt shamt) :=
  special (by simp [encode]) (by simp [encode, decodeSpecial]; rfl) (by simp [encode])

theorem bc1t (imm : BitVec 16) : Statement (.bc1t imm) :=
  ⟨_, by simp [encode, decodeRow, decodeCop1, decodeFpBranch]; rfl, by simp [encode]⟩

theorem bc1f (imm : BitVec 16) : Statement (.bc1f imm) :=
  ⟨_, by simp [encode, decodeRow, decodeCop1, decodeFpBranch]; rfl, by simp [encode]⟩

theorem addS (fd fs ft : FRegNum) : Statement (.addS fd fs ft) :=
  single (by simp [encode]) (by simp [encode]) (by simp [encode, decodeSingle]; rfl) (by simp [encode])

theorem addD (fd fs ft : FRegNum) : Statement (.addD fd fs ft) :=
  double (by simp [encode]) (by simp [encode]) (by simp [encode, decodeDouble]; rfl) (by simp [encode])

theorem cEqS (fs ft : FRegNum) : Statement (.cEqS fs ft) :=
  single (by simp [encode]) (by simp [encode]) (by simp [encode, decodeSingle]; rfl) (by simp [encode])

theorem cLtS (fs ft : FRegNum) : Statement (.cLtS fs ft) :=
  single (by simp [encode]) (by simp [encode]) (by simp [encode, decodeSingle]; rfl) (by simp [encode])

theorem cLeS (fs ft : FRegNum) : Statement (.cLeS fs ft) :=
  single (by simp [encode]) (by simp [encode]) (by simp [encode, decodeSingle]; rfl) (by simp [encode])

theorem cEqD (fs ft : FRegNum) : Statement (.cEqD fs ft) :=
  double (by simp [encode]) (by simp [encode]) (by simp [encode, decodeDouble]; rfl) (by simp [encode])

theorem cLtD (fs ft : FRegNum) : Statement (.cLtD fs ft) :=
  double (by simp [encode]) (by simp [encode]) (by simp [encode, decodeDouble]; rfl) (by simp [encode])

theorem cLeD (fs ft : FRegNum) : Statement (.cLeD fs ft) :=
  double (by simp [encode]) (by simp [encode]) (by simp [encode, decodeDouble]; rfl) (by simp [encode])

theorem divS (fd fs ft : FRegNum) : Statement (.divS fd fs ft) :=
  single (by simp [encode]) (by simp [encode]) (by simp [encode, decodeSingle]; rfl) (by simp [encode])

theorem divD (fd fs ft : FRegNum) : Statement (.divD fd fs ft) :=
  double (by simp [encode]) (by simp [encode]) (by simp [encode, decodeDouble]; rfl) (by simp [encode])

theorem mulS (fd fs ft : FRegNum) : Statement (.mulS fd fs ft) :=
  single (by simp [encode]) (by simp [encode]) (by simp [encode, decodeSingle]; rfl) (by simp [encode])

theorem mulD (fd fs ft : FRegNum) : Statement (.mulD fd fs ft) :=
  double (by simp [encode]) (by simp [encode]) (by simp [encode, decodeDouble]; rfl) (by simp [encode])

theorem subS (fd fs ft : FRegNum) : Statement (.subS fd fs ft) :=
  single (by simp [encode]) (by simp [encode]) (by simp [encode, decodeSingle]; rfl) (by simp [encode])

theorem subD (fd fs ft : FRegNum) : Statement (.subD fd fs ft) :=
  double (by simp [encode]) (by simp [encode]) (by simp [encode, decodeDouble]; rfl) (by simp [encode])

theorem lwc1 (rt : FRegNum) (rs : RegNum) (imm : BitVec 16) : Statement (.lwc1 rt rs imm) :=
  ⟨_, by simp [encode, decodeRow]; rfl, by simp [encode]⟩

theorem ldc1 (rt : FRegNum) (rs : RegNum) (imm : BitVec 16) : Statement (.ldc1 rt rs imm) :=
  ⟨_, by simp [encode, decodeRow]; rfl, by simp [encode]⟩

theorem swc1 (rt : FRegNum) (rs : RegNum) (imm : BitVec 16) : Statement (.swc1 rt rs imm) :=
  ⟨_, by simp [encode, decodeRow]; rfl, by simp [encode]⟩

theorem sdc1 (rt : FRegNum) (rs : RegNum) (imm : BitVec 16) : Statement (.sdc1 rt rs imm) :=
  ⟨_, by simp [encode, decodeRow]; rfl, by simp [encode]⟩

theorem blez (rs : RegNum) (imm : BitVec 16) : Statement (.blez rs imm) :=
  ⟨_, by simp [encode, decodeRow]; rfl, by simp [encode]⟩

theorem bgtz (rs : RegNum) (imm : BitVec 16) : Statement (.bgtz rs imm) :=
  ⟨_, by simp [encode, decodeRow]; rfl, by simp [encode]⟩

theorem xori (rt rs : RegNum) (imm : BitVec 16) : Statement (.xori rt rs imm) :=
  ⟨_, by simp [encode, decodeRow]; rfl, by simp [encode]⟩

theorem lb (rt rs : RegNum) (imm : BitVec 16) : Statement (.lb rt rs imm) :=
  ⟨_, by simp [encode, decodeRow]; rfl, by simp [encode]⟩

theorem lh (rt rs : RegNum) (imm : BitVec 16) : Statement (.lh rt rs imm) :=
  ⟨_, by simp [encode, decodeRow]; rfl, by simp [encode]⟩

theorem sllv (rd rt rs : RegNum) : Statement (.sllv rd rt rs) :=
  special (by simp [encode]) (by simp [encode, decodeSpecial]; rfl) (by simp [encode])

theorem srlv (rd rt rs : RegNum) : Statement (.srlv rd rt rs) :=
  special (by simp [encode]) (by simp [encode, decodeSpecial]; rfl) (by simp [encode])

theorem srav (rd rt rs : RegNum) : Statement (.srav rd rt rs) :=
  special (by simp [encode]) (by simp [encode, decodeSpecial]; rfl) (by simp [encode])

theorem jalr (rd rs : RegNum) : Statement (.jalr rd rs) :=
  special (by simp [encode]) (by simp [encode, decodeSpecial]; rfl) (by simp [encode, and_or_eq_zero])

theorem xor (rd rs rt : RegNum) : Statement (.xor rd rs rt) :=
  special (by simp [encode]) (by simp [encode, decodeSpecial]; rfl) (by simp [encode])

theorem mthi (rs : RegNum) : Statement (.mthi rs) :=
  special (by simp [encode]) (by simp [encode, decodeSpecial]; rfl) (by simp [encode, and_or_eq_zero])

theorem mtlo (rs : RegNum) : Statement (.mtlo rs) :=
  special (by simp [encode]) (by simp [encode, decodeSpecial]; rfl) (by simp [encode, and_or_eq_zero])

theorem movz (rd rs rt : RegNum) : Statement (.movz rd rs rt) :=
  special (by simp [encode]) (by simp [encode, decodeSpecial]; rfl) (by simp [encode])

theorem movn (rd rs rt : RegNum) : Statement (.movn rd rs rt) :=
  special (by simp [encode]) (by simp [encode, decodeSpecial]; rfl) (by simp [encode])

theorem syscall (code : BitVec 20) : Statement (.syscall code) :=
  special (by simp [encode]) (by simp [encode, decodeSpecial]; rfl) (by simp [encode])

theorem sync (stype : BitVec 5) : Statement (.sync stype) :=
  special (by simp [encode]) (by simp [encode, decodeSpecial]; rfl) (by simp [encode, and_or_eq_zero])

theorem brk (code : BitVec 20) : Statement (.brk code) :=
  special (by simp [encode]) (by simp [encode, decodeSpecial]; rfl) (by simp [encode])

theorem lwl (rt rs : RegNum) (imm : BitVec 16) : Statement (.lwl rt rs imm) :=
  ⟨_, by simp [encode, decodeRow]; rfl, by simp [encode]⟩

theorem lwr (rt rs : RegNum) (imm : BitVec 16) : Statement (.lwr rt rs imm) :=
  ⟨_, by simp [encode, decodeRow]; rfl, by simp [encode]⟩

theorem swl (rt rs : RegNum) (imm : BitVec 16) : Statement (.swl rt rs imm) :=
  ⟨_, by simp [encode, decodeRow]; rfl, by simp [encode]⟩

theorem swr (rt rs : RegNum) (imm : BitVec 16) : Statement (.swr rt rs imm) :=
  ⟨_, by simp [encode, decodeRow]; rfl, by simp [encode]⟩

theorem cache (op : BitVec 5) (rs : RegNum) (imm : BitVec 16) : Statement (.cache op rs imm) :=
  ⟨_, by simp [encode, decodeRow]; rfl, by simp [encode]⟩

theorem pref (hint : BitVec 5) (rs : RegNum) (imm : BitVec 16) : Statement (.pref hint rs imm) :=
  ⟨_, by simp [encode, decodeRow]; rfl, by simp [encode]⟩

theorem tge (rs rt : RegNum) (tcode : BitVec 10) : Statement (.tge rs rt tcode) :=
  special (by simp [encode]) (by simp [encode, decodeSpecial]; rfl) (by simp [encode])

theorem tgeu (rs rt : RegNum) (tcode : BitVec 10) : Statement (.tgeu rs rt tcode) :=
  special (by simp [encode]) (by simp [encode, decodeSpecial]; rfl) (by simp [encode])

theorem tlt (rs rt : RegNum) (tcode : BitVec 10) : Statement (.tlt rs rt tcode) :=
  special (by simp [encode]) (by simp [encode, decodeSpecial]; rfl) (by simp [encode])

theorem tltu (rs rt : RegNum) (tcode : BitVec 10) : Statement (.tltu rs rt tcode) :=
  special (by simp [encode]) (by simp [encode, decodeSpecial]; rfl) (by simp [encode])

theorem teq (rs rt : RegNum) (tcode : BitVec 10) : Statement (.teq rs rt tcode) :=
  special (by simp [encode]) (by simp [encode, decodeSpecial]; rfl) (by simp [encode])

theorem tne (rs rt : RegNum) (tcode : BitVec 10) : Statement (.tne rs rt tcode) :=
  special (by simp [encode]) (by simp [encode, decodeSpecial]; rfl) (by simp [encode])

theorem lwc2 (rt : BitVec 5) (rs : RegNum) (imm : BitVec 16) : Statement (.lwc2 rt rs imm) :=
  ⟨_, by simp [encode, decodeRow]; rfl, by simp [encode]⟩

theorem ldc2 (rt : BitVec 5) (rs : RegNum) (imm : BitVec 16) : Statement (.ldc2 rt rs imm) :=
  ⟨_, by simp [encode, decodeRow]; rfl, by simp [encode]⟩

theorem swc2 (rt : BitVec 5) (rs : RegNum) (imm : BitVec 16) : Statement (.swc2 rt rs imm) :=
  ⟨_, by simp [encode, decodeRow]; rfl, by simp [encode]⟩

theorem sdc2 (rt : BitVec 5) (rs : RegNum) (imm : BitVec 16) : Statement (.sdc2 rt rs imm) :=
  ⟨_, by simp [encode, decodeRow]; rfl, by simp [encode]⟩

theorem sqrtS (fd fs : FRegNum) : Statement (.sqrtS fd fs) :=
  single (by simp [encode]) (by simp [encode]) (by simp [encode, decodeSingle]; rfl) (by simp [encode])

theorem sqrtD (fd fs : FRegNum) : Statement (.sqrtD fd fs) :=
  double (by simp [encode]) (by simp [encode]) (by simp [encode, decodeDouble]; rfl) (by simp [encode])

theorem absS (fd fs : FRegNum) : Statement (.absS fd fs) :=
  single (by simp [encode]) (by simp [encode]) (by simp [encode, decodeSingle]; rfl) (by simp [encode])

theorem absD (fd fs : FRegNum) : Statement (.absD fd fs) :=
  double (by simp [encode]) (by simp [encode]) (by simp [encode, decodeDouble]; rfl) (by simp [encode])

theorem movS (fd fs : FRegNum) : Statement (.movS fd fs) :=
  single (by simp [encode]) (by simp [encode]) (by simp [encode, decodeSingle]; rfl) (by simp [encode])

theorem movD (fd fs : FRegNum) : Statement (.movD fd fs) :=
  double (by simp [encode]) (by simp [encode]) (by simp [encode, decodeDouble]; rfl) (by simp [encode])

theorem negS (fd fs : FRegNum) : Statement (.negS fd fs) :=
  single (by simp [encode]) (by simp [encode]) (by simp [encode, decodeSingle]; rfl) (by simp [encode])

theorem negD (fd fs : FRegNum) : Statement (.negD fd fs) :=
  double (by simp [encode]) (by simp [encode]) (by simp [encode, decodeDouble]; rfl) (by simp [encode])

theorem movzS (fd fs : FRegNum) (rt : RegNum) : Statement (.movzS fd fs rt) :=
  single (by simp [encode]) (by simp [encode]) (by simp [encode, decodeSingle]; rfl) (by simp [encode])

theorem movzD (fd fs : FRegNum) (rt : RegNum) : Statement (.movzD fd fs rt) :=
  double (by simp [encode]) (by simp [encode]) (by simp [encode, decodeDouble]; rfl) (by simp [encode])

theorem movnS (fd fs : FRegNum) (rt : RegNum) : Statement (.movnS fd fs rt) :=
  single (by simp [encode]) (by simp [encode]) (by simp [encode, decodeSingle]; rfl) (by simp [encode])

theorem movnD (fd fs : FRegNum) (rt : RegNum) : Statement (.movnD fd fs rt) :=
  double (by simp [encode]) (by simp [encode]) (by simp [encode, decodeDouble]; rfl) (by simp [encode])

theorem cvtSS (fd fs : FRegNum) : Statement (.cvtSS fd fs) :=
  single (by simp [encode]) (by simp [encode]) (by simp [encode, decodeSingle]; rfl) (by simp [encode])

theorem cvtSD (fd fs : FRegNum) : Statement (.cvtSD fd fs) :=
  double (by simp [encode]) (by simp [encode]) (by simp [encode, decodeDouble]; rfl) (by simp [encode])

theorem cvtDS (fd fs : FRegNum) : Statement (.cvtDS fd fs) :=
  single (by simp [encode]) (by simp [encode]) (by simp [encode, decodeSingle]; rfl) (by simp [encode])

theorem cvtDD (fd fs : FRegNum) : Statement (.cvtDD fd fs) :=
  double (by simp [encode]) (by simp [encode]) (by simp [encode, decodeDouble]; rfl) (by simp [encode])

theorem cvtWS (fd fs : FRegNum) : Statement (.cvtWS fd fs) :=
  single (by simp [encode]) (by simp [encode]) (by simp [encode, decodeSingle]; rfl) (by simp [encode])

theorem cvtWD (fd fs : FRegNum) : Statement (.cvtWD fd fs) :=
  double (by simp [encode]) (by simp [encode]) (by simp [encode, decodeDouble]; rfl) (by simp [encode])

theorem roundWS (fd fs : FRegNum) : Statement (.roundWS fd fs) :=
  single (by simp [encode]) (by simp [encode]) (by simp [encode, decodeSingle]; rfl) (by simp [encode])

theorem roundWD (fd fs : FRegNum) : Statement (.roundWD fd fs) :=
  double (by simp [encode]) (by simp [encode]) (by simp [encode, decodeDouble]; rfl) (by simp [encode])

theorem truncWS (fd fs : FRegNum) : Statement (.truncWS fd fs) :=
  single (by simp [encode]) (by simp [encode]) (by simp [encode, decodeSingle]; rfl) (by simp [encode])

theorem truncWD (fd fs : FRegNum) : Statement (.truncWD fd fs) :=
  double (by simp [encode]) (by simp [encode]) (by simp [encode, decodeDouble]; rfl) (by simp [encode])

theorem ceilWS (fd fs : FRegNum) : Statement (.ceilWS fd fs) :=
  single (by simp [encode]) (by simp [encode]) (by simp [encode, decodeSingle]; rfl) (by simp [encode])

theorem ceilWD (fd fs : FRegNum) : Statement (.ceilWD fd fs) :=
  double (by simp [encode]) (by simp [encode]) (by simp [encode, decodeDouble]; rfl) (by simp [encode])

theorem floorWS (fd fs : FRegNum) : Statement (.floorWS fd fs) :=
  single (by simp [encode]) (by simp [encode]) (by simp [encode, decodeSingle]; rfl) (by simp [encode])

theorem floorWD (fd fs : FRegNum) : Statement (.floorWD fd fs) :=
  double (by simp [encode]) (by simp [encode]) (by simp [encode, decodeDouble]; rfl) (by simp [encode])

theorem cFS (fs ft : FRegNum) : Statement (.cFS fs ft) :=
  single (by simp [encode]) (by simp [encode]) (by simp [encode, decodeSingle]; rfl) (by simp [encode])

theorem cFD (fs ft : FRegNum) : Statement (.cFD fs ft) :=
  double (by simp [encode]) (by simp [encode]) (by simp [encode, decodeDouble]; rfl) (by simp [encode])

theorem cUnS (fs ft : FRegNum) : Statement (.cUnS fs ft) :=
  single (by simp [encode]) (by simp [encode]) (by simp [encode, decodeSingle]; rfl) (by simp [encode])

theorem cUnD (fs ft : FRegNum) : Statement (.cUnD fs ft) :=
  double (by simp [encode]) (by simp [encode]) (by simp [encode, decodeDouble]; rfl) (by simp [encode])

theorem cUeqS (fs ft : FRegNum) : Statement (.cUeqS fs ft) :=
  single (by simp [encode]) (by simp [encode]) (by simp [encode, decodeSingle]; rfl) (by simp [encode])

theorem cUeqD (fs ft : FRegNum) : Statement (.cUeqD fs ft) :=
  double (by simp [encode]) (by simp [encode]) (by simp [encode, decodeDouble]; rfl) (by simp [encode])

theorem cOltS (fs ft : FRegNum) : Statement (.cOltS fs ft) :=
  single (by simp [encode]) (by simp [encode]) (by simp [encode, decodeSingle]; rfl) (by simp [encode])

theorem cOltD (fs ft : FRegNum) : Statement (.cOltD fs ft) :=
  double (by simp [encode]) (by simp [encode]) (by simp [encode, decodeDouble]; rfl) (by simp [encode])

theorem cUltS (fs ft : FRegNum) : Statement (.cUltS fs ft) :=
  single (by simp [encode]) (by simp [encode]) (by simp [encode, decodeSingle]; rfl) (by simp [encode])

theorem cUltD (fs ft : FRegNum) : Statement (.cUltD fs ft) :=
  double (by simp [encode]) (by simp [encode]) (by simp [encode, decodeDouble]; rfl) (by simp [encode])

theorem cOleS (fs ft : FRegNum) : Statement (.cOleS fs ft) :=
  single (by simp [encode]) (by simp [encode]) (by simp [encode, decodeSingle]; rfl) (by simp [encode])

theorem cOleD (fs ft : FRegNum) : Statement (.cOleD fs ft) :=
  double (by simp [encode]) (by simp [encode]) (by simp [encode, decodeDouble]; rfl) (by simp [encode])

theorem cUleS (fs ft : FRegNum) : Statement (.cUleS fs ft) :=
  single (by simp [encode]) (by simp [encode]) (by simp [encode, decodeSingle]; rfl) (by simp [encode])

theorem cUleD (fs ft : FRegNum) : Statement (.cUleD fs ft) :=
  double (by simp [encode]) (by simp [encode]) (by simp [encode, decodeDouble]; rfl) (by simp [encode])

theorem cSfS (fs ft : FRegNum) : Statement (.cSfS fs ft) :=
  single (by simp [encode]) (by simp [encode]) (by simp [encode, decodeSingle]; rfl) (by simp [encode])

theorem cSfD (fs ft : FRegNum) : Statement (.cSfD fs ft) :=
  double (by simp [encode]) (by simp [encode]) (by simp [encode, decodeDouble]; rfl) (by simp [encode])

theorem cNgleS (fs ft : FRegNum) : Statement (.cNgleS fs ft) :=
  single (by simp [encode]) (by simp [encode]) (by simp [encode, decodeSingle]; rfl) (by simp [encode])

theorem cNgleD (fs ft : FRegNum) : Statement (.cNgleD fs ft) :=
  double (by simp [encode]) (by simp [encode]) (by simp [encode, decodeDouble]; rfl) (by simp [encode])

theorem cSeqS (fs ft : FRegNum) : Statement (.cSeqS fs ft) :=
  single (by simp [encode]) (by simp [encode]) (by simp [encode, decodeSingle]; rfl) (by simp [encode])

theorem cSeqD (fs ft : FRegNum) : Statement (.cSeqD fs ft) :=
  double (by simp [encode]) (by simp [encode]) (by simp [encode, decodeDouble]; rfl) (by simp [encode])

theorem cNglS (fs ft : FRegNum) : Statement (.cNglS fs ft) :=
  single (by simp [encode]) (by simp [encode]) (by simp [encode, decodeSingle]; rfl) (by simp [encode])

theorem cNglD (fs ft : FRegNum) : Statement (.cNglD fs ft) :=
  double (by simp [encode]) (by simp [encode]) (by simp [encode, decodeDouble]; rfl) (by simp [encode])

theorem cNgeS (fs ft : FRegNum) : Statement (.cNgeS fs ft) :=
  single (by simp [encode]) (by simp [encode]) (by simp [encode, decodeSingle]; rfl) (by simp [encode])

theorem cNgeD (fs ft : FRegNum) : Statement (.cNgeD fs ft) :=
  double (by simp [encode]) (by simp [encode]) (by simp [encode, decodeDouble]; rfl) (by simp [encode])

theorem cNgtS (fs ft : FRegNum) : Statement (.cNgtS fs ft) :=
  single (by simp [encode]) (by simp [encode]) (by simp [encode, decodeSingle]; rfl) (by simp [encode])

theorem cNgtD (fs ft : FRegNum) : Statement (.cNgtD fs ft) :=
  double (by simp [encode]) (by simp [encode]) (by simp [encode, decodeDouble]; rfl) (by simp [encode])

end Sys2Proof.Laws.RoundTrip
end

