-- ==== Sys2Proof/Tests/Slice0.lean ====
section
/-! SUPPORT. Tests on the words and vectors that the spec prints, and for every obligation with hypotheses a witness that meets
them. -/

namespace Sys2Proof.Tests

open Sys2Proof Sys2Proof.Machine

set_option Elab.async false

/-! ## Helpers -/

/-- One fact about a state, to set up and to check. -/
inductive Fact where
  | r (i : RegNum) (v : Word)
  | f (i : FRegNum) (v : Word)
  | m (a v : Word)
  | pc (v : Word)
  | hi (v : Word)
  | lo (v : Word)
  | epc (v : Word)
  | bad (v : Word)
  | code (v : BitVec 5)
  | el (b : Bool)
  | um (b : Bool)
  | ie (b : Bool)
  | bd (b : Bool)
  | mask (v : BitVec 8)
  | irq (v : BitVec 8)
  | cond (b : Bool)
  | llBit (b : Bool)
  | llAddr (v : Word)
  | inDelay (b : Bool)
  | target (v : Word)
  | params (p : Config.Params)
  | scSure
  | namedRows
  | trapped (code : BitVec 5) (epc : Word)

/-- The state with the fact made true. -/
def put (s : State) (x : Fact) : State :=
  match x with
  | .r i v => s.setR i v
  | .f i v => s.setF i v
  | .m a v => { s with mem := s.mem.writeBytes a (bytesOfWord v) }
  | .pc v => { s with pc := v }
  | .hi v => { s with hi := v }
  | .lo v => { s with lo := v }
  | .epc v => { s with epc := v }
  | .bad v => { s with badVAddr := v }
  | .code v => { s with causeExcCode := v }
  | .el b => { s with statusEl := b }
  | .um b => { s with statusUm := b }
  | .ie b => { s with statusIe := b }
  | .bd b => { s with causeBd := b }
  | .mask v => { s with intMask := v }
  | .irq v => { s with irq := v }
  | .cond b => { s with fpCond := b }
  | .llBit b => { s with llBit := b }
  | .llAddr v => { s with llAddr := v }
  | .inDelay b => { s with inDelay := b }
  | .target v => { s with delayTarget := v }
  | .params p => { s with params := p }
  | .scSure => { s with params := { s.params with scMayFail := false } }
  | .namedRows => s.admitting true
  | .trapped c e => { s with causeExcCode := c, epc := e, statusEl := true, pc := 0x80000180 }

/-- The fact is true of the state. -/
def holds (s : State) (x : Fact) : Bool :=
  match x with
  | .r i v => s.readR i == v
  | .f i v => s.readF i == v
  | .m a v => s.mem.readWord a == v
  | .pc v => s.pc == v
  | .hi v => s.hi == v
  | .lo v => s.lo == v
  | .epc v => s.epc == v
  | .bad v => s.badVAddr == v
  | .code v => s.causeExcCode == v
  | .el b => s.statusEl == b
  | .um b => s.statusUm == b
  | .ie b => s.statusIe == b
  | .bd b => s.causeBd == b
  | .mask v => s.intMask == v
  | .irq v => s.irq == v
  | .cond b => s.fpCond == b
  | .llBit b => s.llBit == b
  | .llAddr v => s.llAddr == v
  | .inDelay b => s.inDelay == b
  | .target v => s.delayTarget == v
  | .params p => decide (s.params = p)
  | .scSure => !s.params.scMayFail
  | .namedRows => s.params.admitNamedOnly
  | .trapped c e => s.causeExcCode == c && s.epc == e && s.statusEl && s.pc == 0x80000180#32

/-- The launch state of `95_test_vectors.md` with the facts made true. -/
def start (before : List Fact) : State := before.foldl put { State.reset with pc := 0x00400000 }

/-- From the launch state with the word at `pc`, one step ends in a state of which the facts are true. -/
def runs (w : Word) (before after : List Fact) : Bool :=
  match step ((start before).placeWord w) with
  | .next t => after.all (holds t)
  | _ => false

/-- `runs` for every row of a table. -/
def runsAll (rows : List (Word × List Fact × List Fact)) : Bool := rows.all fun p => runs p.1 p.2.1 p.2.2

/-- `runsAll` with `ADMIT_NAMED_ONLY`, for the rules of files 46 and 47. -/
def runsNamed (rows : List (Word × List Fact × List Fact)) : Bool := rows.all fun p => runs p.1 (p.2.1 ++ [.namedRows]) p.2.2

/-- From the launch state with the word at `pc`, one step is refused for the reason. -/
def refuses (w : Word) (before : List Fact) (why : Refusal) : Bool :=
  match step ((start before).placeWord w) with
  | .refused r => decide (r = why)
  | _ => false

/-- Each word decodes to its instruction. -/
def decodesAll (rows : List (Word × Instr)) : Bool := rows.all fun p => decide (decodeTableWord 32 p.1.toNat = some p.2)

/-! ### Every constructor's decoding: the words the spec prints as examples of its encodings -/

theorem test_decode_arithmetic_and_logic : decodesAll [
    (0x01095020, .add 10 8 9), (0x2128FFFF, .addi 8 9 0xffff), (0x2528FFFF, .addiu 8 9 0xffff), (0x01095021, .addu 10 8 9),
    (0x01095024, .and 10 8 9), (0x3128FF00, .andi 8 9 0xff00), (0x3C081234, .lui 8 0x1234), (0x01095027, .nor 10 8 9),
    (0x01095025, .or 10 8 9), (0x35288000, .ori 8 9 0x8000), (0x0109502A, .slt 10 8 9), (0x2928FFFF, .slti 8 9 0xffff),
    (0x2D28FFFF, .sltiu 8 9 0xffff), (0x0109502B, .sltu 10 8 9), (0x00095100, .sll 10 9 4), (0x00095102, .srl 10 9 4),
    (0x01095022, .sub 10 8 9), (0x01095023, .subu 10 8 9), (0x00095103, .sra 10 9 4), (0x3928FF00, .xori 8 9 0xff00),
    (0x01285004, .sllv 10 8 9), (0x01285006, .srlv 10 8 9), (0x01285007, .srav 10 8 9), (0x01095026, .xor 10 8 9),
    (0x0109500A, .movz 10 8 9), (0x0109500B, .movn 10 8 9)] = true := by decide +kernel

theorem test_decode_control_transfers : decodesAll [
    (0x11090003, .beq 8 9 3), (0x1509FFFE, .bne 8 9 0xfffe), (0x08100008, .j 0x100008), (0x0C100040, .jal 0x100040),
    (0x03E00008, .jr 31), (0x45010005, .bc1t 5), (0x4500FFFF, .bc1f 0xffff), (0x19000003, .blez 8 3),
    (0x1D000003, .bgtz 8 3), (0x0100F809, .jalr 31 8)] = true := by decide +kernel

theorem test_decode_loads_and_stores : decodesAll [
    (0x91280003, .lbu 8 9 3), (0x95280002, .lhu 8 9 2), (0xC1280000, .ll 8 9 0), (0x8D28FFFC, .lw 8 9 0xfffc),
    (0xA1280001, .sb 8 9 1), (0xE1280000, .sc 8 9 0), (0xA5280002, .sh 8 9 2), (0xAD280008, .sw 8 9 8),
    (0xC5220008, .lwc1 2 9 8), (0xD5220008, .ldc1 2 9 8), (0xE5220008, .swc1 2 9 8), (0xF5220008, .sdc1 2 9 8),
    (0x81280004, .lb 8 9 4), (0x85280004, .lh 8 9 4), (0x89280001, .lwl 8 9 1), (0x99280004, .lwr 8 9 4),
    (0xA9280001, .swl 8 9 1), (0xB9280004, .swr 8 9 4)] = true := by decide +kernel

theorem test_decode_hi_lo : decodesAll [
    (0x0109001A, .div 8 9), (0x0109001B, .divu 8 9), (0x00005010, .mfhi 10), (0x00005012, .mflo 10), (0x01090018, .mult 8 9),
    (0x01090019, .multu 8 9), (0x01000011, .mthi 8), (0x01000013, .mtlo 8)] = true := by decide +kernel

theorem test_decode_system : decodesAll [
    (0x40086800, .mfc0 8 13), (0x0000000C, .syscall 0), (0x0000000F, .sync 0), (0x0000000D, .brk 0),
    (0xBD200000, .cache 0 9 0), (0xCD200000, .pref 0 9 0), (0x01090030, .tge 8 9 0), (0x01090031, .tgeu 8 9 0),
    (0x01090032, .tlt 8 9 0), (0x01090033, .tltu 8 9 0), (0x01090034, .teq 8 9 0), (0x01090036, .tne 8 9 0),
    (0xC9220008, .lwc2 2 9 8), (0xD9220008, .ldc2 2 9 8), (0xE9220008, .swc2 2 9 8), (0xF9220008, .sdc2 2 9 8)] = true := by decide +kernel

theorem test_decode_fp_arithmetic : decodesAll [
    (0x46041000, .addS 0 2 4), (0x46241000, .addD 0 2 4), (0x46041003, .divS 0 2 4), (0x46241003, .divD 0 2 4),
    (0x46041002, .mulS 0 2 4), (0x46241002, .mulD 0 2 4), (0x46041001, .subS 0 2 4), (0x46241001, .subD 0 2 4),
    (0x46001004, .sqrtS 0 2), (0x46201004, .sqrtD 0 2), (0x46001005, .absS 0 2), (0x46201005, .absD 0 2),
    (0x46001006, .movS 0 2), (0x46201006, .movD 0 2), (0x46001007, .negS 0 2), (0x46201007, .negD 0 2),
    (0x46091012, .movzS 0 2 9), (0x46291012, .movzD 0 2 9), (0x46091013, .movnS 0 2 9), (0x46291013, .movnD 0 2 9)] = true := by decide +kernel

theorem test_decode_fp_conversions : decodesAll [
    (0x46201020, .cvtSD 0 2), (0x46001021, .cvtDS 0 2), (0x46001024, .cvtWS 0 2), (0x46201024, .cvtWD 0 2),
    (0x4600100C, .roundWS 0 2), (0x4620100C, .roundWD 0 2), (0x4600100D, .truncWS 0 2), (0x4620100D, .truncWD 0 2),
    (0x4600100E, .ceilWS 0 2), (0x4620100E, .ceilWD 0 2), (0x4600100F, .floorWS 0 2), (0x4620100F, .floorWD 0 2),
    (0x46001020, .cvtSS 0 2), (0x46201021, .cvtDD 0 2)] = true := by decide +kernel

theorem test_decode_fp_compares : decodesAll [
    (0x46041032, .cEqS 2 4), (0x4604103C, .cLtS 2 4), (0x4604103E, .cLeS 2 4), (0x46241032, .cEqD 2 4),
    (0x4624103C, .cLtD 2 4), (0x4624103E, .cLeD 2 4), (0x46041030, .cFS 2 4), (0x46241030, .cFD 2 4),
    (0x46041031, .cUnS 2 4), (0x46241031, .cUnD 2 4), (0x46041033, .cUeqS 2 4), (0x46241033, .cUeqD 2 4),
    (0x46041034, .cOltS 2 4), (0x46241034, .cOltD 2 4), (0x46041035, .cUltS 2 4), (0x46241035, .cUltD 2 4),
    (0x46041036, .cOleS 2 4), (0x46241036, .cOleD 2 4), (0x46041037, .cUleS 2 4), (0x46241037, .cUleD 2 4),
    (0x46041038, .cSfS 2 4), (0x46241038, .cSfD 2 4), (0x46041039, .cNgleS 2 4), (0x46241039, .cNgleD 2 4),
    (0x4604103A, .cSeqS 2 4), (0x4624103A, .cSeqD 2 4), (0x4604103B, .cNglS 2 4), (0x4624103B, .cNglD 2 4),
    (0x4604103D, .cNgeS 2 4), (0x4624103D, .cNgeD 2 4), (0x4604103F, .cNgtS 2 4), (0x4624103F, .cNgtD 2 4)] = true := by decide +kernel

/-- Tables VA of `95_test_vectors.md`. -/
theorem test_vectors_arithmetic : runsAll [
    (0x012A4020, [.r 9 5, .r 10 0xfffffffd], [.r 8 2, .pc 0x400004]),
    (0x012A4020, [.r 9 0x7fffffff, .r 10 1, .r 8 0xaaaaaaaa], [.r 8 0xaaaaaaaa, .trapped 12 0x400000]),
    (0x012A4020, [.r 9 0x80000000, .r 10 0xffffffff, .r 8 0xaaaaaaaa], [.r 8 0xaaaaaaaa, .trapped 12 0x400000]),
    (0x012A0020, [.r 9 1, .r 10 2], [.r 0 0, .pc 0x400004]),
    (0x012A0020, [.r 9 0x7fffffff, .r 10 1], [.r 0 0, .trapped 12 0x400000]),
    (0x2128FFFF, [.r 9 0], [.r 8 0xffffffff, .pc 0x400004]),
    (0x21280001, [.r 9 0x7fffffff, .r 8 7], [.r 8 7, .trapped 12 0x400000]),
    (0x21288000, [.r 9 0x80000000, .r 8 7], [.r 8 7, .trapped 12 0x400000]),
    (0x25280001, [.r 9 0x7fffffff], [.r 8 0x80000000, .pc 0x400004]), (0x2528FFFF, [.r 9 0], [.r 8 0xffffffff]),
    (0x012A4021, [.r 9 0xffffffff, .r 10 2], [.r 8 1]), (0x012A4024, [.r 9 0xff00ff00, .r 10 0xff00ff0], [.r 8 0xf000f00]),
    (0x3128FFFF, [.r 9 0x12345678], [.r 8 0x5678]), (0x3C088001, [.r 8 0xffffffff], [.r 8 0x80010000]),
    (0x01204027, [.r 9 0xf0f0f0f], [.r 8 0xf0f0f0f0]), (0x012A4025, [.r 9 0xf0000000, .r 10 0xf], [.r 8 0xf000000f]),
    (0x35288000, [.r 9 0x10000], [.r 8 0x18000]), (0x012A402A, [.r 9 0xffffffff, .r 10 1], [.r 8 1]),
    (0x012A402B, [.r 9 0xffffffff, .r 10 1], [.r 8 0]), (0x2928FFFF, [.r 9 0xfffffffe], [.r 8 1]),
    (0x2D28FFFF, [.r 9 0xfffffffe], [.r 8 1]), (0x2D28FFFF, [.r 9 0xffffffff], [.r 8 0]),
    (0x012A402A, [.r 9 0x80000000, .r 10 0x7fffffff], [.r 8 1]), (0x000947C0, [.r 9 3], [.r 8 0x80000000]),
    (0x00094000, [.r 9 0xdeadbeef], [.r 8 0xdeadbeef]), (0x00094102, [.r 9 0x80000000], [.r 8 0x8000000]),
    (0x012A4022, [.r 9 0x80000000, .r 10 1, .r 8 9], [.r 8 9, .trapped 12 0x400000]),
    (0x000A4022, [.r 10 0x80000000, .r 8 9], [.r 8 9, .trapped 12 0x400000]),
    (0x012A4023, [.r 9 0, .r 10 1], [.r 8 0xffffffff]), (0x00000000, [], [.pc 0x400004])] = true := by decide +kernel

/-- Table VB. -/
theorem test_vectors_control : runsAll [
    (0x112A0003, [.r 9 7, .r 10 7], [.pc 0x400010]), (0x112A0003, [.r 9 7, .r 10 8], [.pc 0x400004]),
    (0x152AFFFF, [.r 9 7, .r 10 8], [.pc 0x400000]), (0x152AFFFE, [.r 9 7, .r 10 8], [.pc 0x3ffffc]),
    (0x10007FFF, [], [.pc 0x420000]), (0x10008000, [], [.pc 0x3e0004]), (0x08100008, [], [.pc 0x400020]),
    (0x0BFFFFFF, [], [.pc 0xffffffc]), (0x0C100040, [.r 31 1], [.r 31 0x400004, .pc 0x400100]),
    (0x03E00008, [.r 31 0x400008], [.pc 0x400008]), (0x01200008, [.r 9 0x400002], [.pc 0x400002, .el false])] = true := by decide +kernel

/-- Table VC. -/
theorem test_vectors_memory : runsAll [
    (0x8D280000, [.m 0x1000 0x11223344, .m 0x1004 0x80ff7f01, .r 9 0x1000], [.r 8 0x11223344]),
    (0x91280000, [.m 0x1000 0x11223344, .m 0x1004 0x80ff7f01, .r 9 0x1000], [.r 8 0x11]),
    (0x91280003, [.m 0x1000 0x11223344, .m 0x1004 0x80ff7f01, .r 9 0x1000], [.r 8 0x44]),
    (0x91280004, [.m 0x1000 0x11223344, .m 0x1004 0x80ff7f01, .r 9 0x1000], [.r 8 0x80]),
    (0x95280002, [.m 0x1000 0x11223344, .m 0x1004 0x80ff7f01, .r 9 0x1000], [.r 8 0x3344]),
    (0x95280004, [.m 0x1000 0x11223344, .m 0x1004 0x80ff7f01, .r 9 0x1000], [.r 8 0x80ff]),
    (0x95280001, [.m 0x1000 0x11223344, .m 0x1004 0x80ff7f01, .r 9 0x1000, .r 8 5], [.r 8 5, .trapped 4 0x400000, .bad 0x1001]),
    (0x8D28FFFC, [.m 0x1000 0x11223344, .m 0x1004 0x80ff7f01, .r 9 0x1004], [.r 8 0x11223344]),
    (0x8D280002, [.m 0x1000 0x11223344, .m 0x1004 0x80ff7f01, .r 9 0x1000, .r 8 5], [.r 8 5, .trapped 4 0x400000, .bad 0x1002]),
    (0xAD280000, [.r 8 0xa1b2c3d4, .r 9 0x2000], [.m 0x2000 0xa1b2c3d4]),
    (0xA5280002, [.r 8 0xa1b2c3d4, .r 9 0x2000, .m 0x2000 0x11223344], [.m 0x2000 0x1122c3d4]),
    (0xA1280001, [.r 8 0xa1b2c3d4, .r 9 0x2000, .m 0x2000 0x11223344], [.m 0x2000 0x11d43344]),
    (0xAD280001, [.r 8 1, .r 9 0x2000, .m 0x2000 0x11223344], [.m 0x2000 0x11223344, .trapped 5 0x400000, .bad 0x2001]),
    (0xA5280001, [.r 8 1, .r 9 0x2000], [.trapped 5 0x400000, .bad 0x2001]),
    (0x8D280000, [.r 9 0xfffffffc, .m 0xfffffffc 0xcafef00d], [.r 8 0xcafef00d]),
    (0x8D280008, [.r 9 0xfffffffc, .m 4 0x55667788], [.r 8 0x55667788]),
    (0xC1280000, [.m 0x1000 0x11223344, .m 0x1004 0x80ff7f01, .r 9 0x1000], [.r 8 0x11223344, .llBit true, .llAddr 0x1000]),
    (0xE1280000, [.scSure, .r 8 0x99, .r 9 0x1000, .llBit true, .llAddr 0x1000, .m 0x1000 0x11223344], [.m 0x1000 0x99, .r 8 1, .llBit false]),
    (0xE1280000, [.r 8 0x99, .r 9 0x1000, .llBit false, .m 0x1000 0x11223344], [.m 0x1000 0x11223344, .r 8 0, .llBit false]),
    (0xE1280004, [.r 8 0x99, .r 9 0x1000, .llBit true, .llAddr 0x1000, .m 0x1004 0x1020304], [.m 0x1004 0x1020304, .r 8 0, .llBit false])] = true := by decide +kernel

/-- Table VD; the draws are not compared. -/
theorem test_vectors_integer : runsAll [
    (0x012A001A, [.r 9 7, .r 10 2], [.lo 3, .hi 1]), (0x012A001A, [.r 9 0xfffffff9, .r 10 2], [.lo 0xfffffffd, .hi 0xffffffff]),
    (0x012A001A, [.r 9 7, .r 10 0xfffffffe], [.lo 0xfffffffd, .hi 1]),
    (0x012A001A, [.r 9 0xfffffff9, .r 10 0xfffffffe], [.lo 3, .hi 0xffffffff]), (0x012A001A, [.r 9 7, .r 10 0], []),
    (0x012A001A, [.r 9 0x80000000, .r 10 0xffffffff], []), (0x012A001B, [.r 9 0xfffffff9, .r 10 2], [.lo 0x7ffffffc, .hi 1]),
    (0x012A001B, [.r 9 5, .r 10 0], []), (0x012A0018, [.r 9 0xffffffff, .r 10 0xffffffff], [.hi 0, .lo 1]),
    (0x012A0019, [.r 9 0xffffffff, .r 10 0xffffffff], [.hi 0xfffffffe, .lo 1]),
    (0x012A0018, [.r 9 0x80000000, .r 10 0x80000000], [.hi 0x40000000, .lo 0]),
    (0x012A0018, [.r 9 0xfffffffe, .r 10 3], [.hi 0xffffffff, .lo 0xfffffffa]),
    (0x00004010, [.hi 0x12345678, .lo 0x9abcdef0], [.r 8 0x12345678]),
    (0x00004012, [.hi 0x12345678, .lo 0x9abcdef0], [.r 8 0x9abcdef0]), (0x00094103, [.r 9 0x80000000], [.r 8 0xf8000000]),
    (0x000947C3, [.r 9 0x80000000], [.r 8 0xffffffff]), (0x000947C3, [.r 9 0x7fffffff], [.r 8 0]),
    (0x40087000, [.epc 0x400abc], [.r 8 0x400abc]), (0x40084000, [.bad 0x1002], [.r 8 0x1002]), (0x40084800, [], []),
    (0x40087000, [.um true, .r 8 3], [.r 8 3, .trapped 11 0x400000])] = true := by decide +kernel

/-- Table VE. -/
theorem test_vectors_fp : runsAll [
    (0x46041000, [.f 2 0x3fc00000, .f 4 0x40100000], [.f 0 0x40700000]),
    (0x46041000, [.f 2 0x3f800000, .f 4 0x33800000], [.f 0 0x3f800000]),
    (0x46041000, [.f 2 0x3f800001, .f 4 0x33800000], [.f 0 0x3f800002]),
    (0x46041000, [.f 2 0x7f7fffff, .f 4 0x7f7fffff], [.f 0 0x7f800000]),
    (0x46041001, [.f 2 0x3f800000, .f 4 0x3f800000], [.f 0 0]),
    (0x46041002, [.f 2 0xc0400000, .f 4 0x3f000000], [.f 0 0xbfc00000]),
    (0x46041002, [.f 2 0x800000, .f 4 0x3f000000], [.f 0 0x400000]),
    (0x46041003, [.f 2 0x3f800000, .f 4 0x40400000], [.f 0 0x3eaaaaab]),
    (0x46041003, [.f 2 0x3f800000, .f 4 0], [.f 0 0x7f800000]), (0x46041003, [.f 2 0xbf800000, .f 4 0], [.f 0 0xff800000]),
    (0x46241000, [.f 2 0x3ff80000, .f 3 0, .f 4 0x40020000, .f 5 0], [.f 0 0x400e0000, .f 1 0]),
    (0x46241002, [.f 2 0x3ff00000, .f 3 1, .f 4 0x3ff00000, .f 5 1], [.f 0 0x3ff00000, .f 1 2]),
    (0x46241003, [.f 2 0x3ff00000, .f 3 0, .f 4 0x40080000, .f 5 0], [.f 0 0x3fd55555, .f 1 0x55555555]),
    (0x46241001, [.f 2 0x40140000, .f 3 0, .f 4 0x40000000, .f 5 0], [.f 0 0x40080000, .f 1 0]),
    (0x46041032, [.f 2 0, .f 4 0x80000000, .cond false], [.cond true]),
    (0x4604103C, [.f 2 0xbf800000, .f 4 0x3f800000], [.cond true]),
    (0x4604103E, [.f 2 0x3f800000, .f 4 0x3f800000], [.cond true]),
    (0x46041032, [.f 2 0x7fc00000, .f 4 0x7fc00000, .cond true], [.cond false]),
    (0x4604103E, [.f 2 0x7fc00000, .f 4 0x3f800000, .cond true], [.cond false]),
    (0x4624103C, [.f 2 0x3ff00000, .f 3 0, .f 4 0x3ff00000, .f 5 1], [.cond true]), (0x45010005, [.cond true], [.pc 0x400018]),
    (0x45010005, [.cond false], [.pc 0x400004]), (0x4500FFFE, [.cond false], [.pc 0x3ffffc]),
    (0xC5220004, [.r 9 0x1000, .m 0x1004 0x40490fdb], [.f 2 0x40490fdb]),
    (0xD5220008, [.r 9 0x1000, .m 0x1008 0x3ff00000, .m 0x100c 1], [.f 2 0x3ff00000, .f 3 1]),
    (0xD5220004, [.r 9 0x1000], [.trapped 4 0x400000, .bad 0x1004]),
    (0xE5220000, [.r 9 0x2000, .f 2 0xc0490fdb], [.m 0x2000 0xc0490fdb]),
    (0xF5220000, [.r 9 0x2000, .f 2 0x400921fb, .f 3 0x54442d18], [.m 0x2000 0x400921fb, .m 0x2004 0x54442d18]),
    (0x46241032, [.f 2 0x3ff80000, .f 3 0, .f 4 0x3ff80000, .f 5 0, .cond false], [.cond true]),
    (0x4624103E, [.f 2 0x40000000, .f 3 0, .f 4 0x3ff00000, .f 5 0, .cond true], [.cond false])] = true := by decide +kernel

/-- Table VG. -/
theorem test_vectors_traps : runsAll [
    (0xFFFFFFFF, [], [.trapped 10 0x400000]), (0x00000001, [], [.trapped 10 0x400000]),
    (0x46000008, [], [.trapped 10 0x400000]), (0x46801020, [], [.trapped 10 0x400000]),
    (0x40886000, [], [.trapped 10 0x400000]),
    (0x012A4020, [.r 9 0x7fffffff, .r 10 1, .el true, .epc 0x1234, .code 8], [.trapped 12 0x1234])] = true := by decide +kernel

/-- The examples of `46_named_only_integer.md`. -/
theorem test_examples_integer : runsNamed [
    (0x19000003, [.r 8 0], [.pc 0x400010]), (0x1D000003, [.r 8 1], [.pc 0x400010]), (0x19000003, [.r 8 1], [.pc 0x400004]),
    (0x1D000003, [.r 8 0], [.pc 0x400004]), (0x19000003, [.r 8 0x80000000], [.pc 0x400010]),
    (0x1D000003, [.r 8 0x80000000], [.pc 0x400004]), (0x3928FF00, [.r 9 0x12345678], [.r 8 0x1234A978]),
    (0x81280004, [.r 9 0x1000, .m 0x1004 0xFE000000], [.r 8 0xFFFFFFFE]),
    (0x85280004, [.r 9 0x1000, .m 0x1004 0xFFFE0000], [.r 8 0xFFFFFFFE]), (0x01285004, [.r 8 1, .r 9 0x24], [.r 10 0x10]),
    (0x01285006, [.r 8 0x80000000, .r 9 4], [.r 10 0x08000000]), (0x01285007, [.r 8 0x80000000, .r 9 4], [.r 10 0xF8000000]),
    (0x0100F809, [.pc 0x400008, .r 8 0x400100], [.r 31 0x40000C, .pc 0x400100]),
    (0x01095026, [.r 8 0xFF00FF00, .r 9 0x0FF00FF0], [.r 10 0xF0F0F0F0]),
    (0x01000011, [.r 8 0xCAFEF00D], [.hi 0xCAFEF00D, .lo 0]), (0x01000013, [.r 8 7], [.lo 7, .hi 0]),
    (0x0109500A, [.r 8 5, .r 9 0, .r 10 9], [.r 10 5]), (0x0109500A, [.r 8 5, .r 9 1, .r 10 9], [.r 10 9]),
    (0x0109500B, [.r 8 5, .r 9 0, .r 10 9], [.r 10 9]), (0x0109500B, [.r 8 5, .r 9 1, .r 10 9], [.r 10 5]),
    (0x89280001, [.r 9 0x1000, .r 8 0xAABBCCDD, .m 0x1000 0x11223344, .m 0x1004 0x55667788], [.r 8 0x223344DD]),
    (0x99280004, [.r 9 0x1000, .r 8 0x223344DD, .m 0x1000 0x11223344, .m 0x1004 0x55667788], [.r 8 0x22334455]),
    (0xA9280001, [.r 9 0x1000, .r 8 0xAABBCCDD, .m 0x1000 0x11223344, .m 0x1004 0x55667788], [.m 0x1000 0x11AABBCC, .m 0x1004 0x55667788]),
    (0xB9280004, [.r 9 0x1000, .r 8 0xAABBCCDD, .m 0x1000 0x11223344, .m 0x1004 0x55667788], [.m 0x1000 0x11223344, .m 0x1004 0xDD667788])] = true := by decide +kernel

/-- The examples of its system instructions. -/
theorem test_examples_system : runsNamed [
    (0x0000000C, [.pc 0x400020], [.trapped 8 0x400020]), (0x0000000D, [.pc 0x400020], [.trapped 9 0x400020]),
    (0x0000000F, [], [.pc 0x400004, .el false]), (0xBD200000, [], [.pc 0x400004, .el false]),
    (0xCD200000, [], [.pc 0x400004, .el false]), (0xBD200000, [.um true], [.trapped 11 0x400000]),
    (0x01090030, [.r 8 0xFFFFFFFF, .r 9 0], [.pc 0x400004, .el false]),
    (0x01090031, [.r 8 0xFFFFFFFF, .r 9 0], [.trapped 13 0x400000]),
    (0x01090032, [.r 8 0xFFFFFFFF, .r 9 0], [.trapped 13 0x400000]),
    (0x01090033, [.r 8 0xFFFFFFFF, .r 9 0], [.pc 0x400004, .el false]), (0x01090034, [.r 8 3, .r 9 3], [.trapped 13 0x400000]),
    (0x01090036, [.r 8 3, .r 9 4], [.trapped 13 0x400000]), (0x01090034, [.r 8 3, .r 9 4], [.pc 0x400004, .el false]),
    (0x01090036, [.r 8 3, .r 9 3], [.pc 0x400004, .el false]), (0xC9220008, [], [.trapped 11 0x400000]),
    (0xD9220008, [], [.trapped 11 0x400000]), (0xE9220008, [], [.trapped 11 0x400000]), (0xF9220008, [], [.trapped 11 0x400000])] = true := by decide +kernel

/-- The examples of `47_named_only_fp.md`. -/
theorem test_examples_fp : runsNamed [
    (0x46001004, [.f 2 0x40800000], [.f 0 0x40000000]), (0x46201004, [.f 2 0x40100000, .f 3 0], [.f 0 0x40000000, .f 1 0]),
    (0x46001005, [.f 2 0xbf800000], [.f 0 0x3f800000]), (0x46201005, [.f 2 0xbff00000, .f 3 0], [.f 0 0x3ff00000, .f 1 0]),
    (0x46001006, [.f 2 0x7fc00001], [.f 0 0x7fc00001]), (0x46201006, [.f 2 0x40080000, .f 3 1], [.f 0 0x40080000, .f 1 1]),
    (0x46001007, [.f 2 0x3f800000], [.f 0 0xbf800000]), (0x46201007, [.f 2 0x3ff00000, .f 3 0], [.f 0 0xbff00000, .f 1 0]),
    (0x46091012, [.r 9 0, .f 2 7, .f 0 9], [.f 0 7]), (0x46091012, [.r 9 1, .f 2 7, .f 0 9], [.f 0 9]),
    (0x46291012, [.r 9 0, .f 2 7, .f 3 6, .f 0 9], [.f 0 7, .f 1 6]),
    (0x46291012, [.r 9 1, .f 2 7, .f 3 6, .f 0 9], [.f 0 9, .f 1 0]), (0x46091013, [.r 9 0, .f 2 7, .f 0 9], [.f 0 9]),
    (0x46091013, [.r 9 1, .f 2 7, .f 0 9], [.f 0 7]), (0x46291013, [.r 9 0, .f 2 7, .f 3 6, .f 0 9], [.f 0 9, .f 1 0]),
    (0x46291013, [.r 9 1, .f 2 7, .f 3 6, .f 0 9], [.f 0 7, .f 1 6])] = true := by decide +kernel

/-- Its conversions. -/
theorem test_examples_conversions : runsNamed [
    (0x46201020, [.f 2 0x3ff80000, .f 3 0], [.f 0 0x3fc00000]), (0x46001021, [.f 2 0x3fc00000], [.f 0 0x3ff80000, .f 1 0]),
    (0x46001024, [.f 2 0x40200000], [.f 0 2]), (0x46201024, [.f 2 0x400c0000, .f 3 0], [.f 0 4]),
    (0x4600100C, [.f 2 0x40200000], [.f 0 2]), (0x4620100C, [.f 2 0xc00c0000, .f 3 0], [.f 0 0xfffffffc]),
    (0x4600100D, [.f 2 0xc0200000], [.f 0 0xfffffffe]), (0x4620100D, [.f 2 0x40060000, .f 3 0], [.f 0 2]),
    (0x4600100E, [.f 2 0x40200000], [.f 0 3]), (0x4620100E, [.f 2 0xc0040000, .f 3 0], [.f 0 0xfffffffe]),
    (0x4600100F, [.f 2 0xc0200000], [.f 0 0xfffffffd]), (0x4620100F, [.f 2 0x40040000, .f 3 0], [.f 0 2])] = true := by decide +kernel

/-- Its compares, on 1.0 and 2.0 and on a NaN. -/
theorem test_examples_compares : runsNamed [
    (0x46041030, [.cond true, .f 2 0x3F800000, .f 4 0x40000000], [.cond false]),
    (0x46041030, [.cond true, .f 2 0x7FC00000, .f 4 0x40000000], [.cond false]),
    (0x46241030, [.cond true, .f 2 0x3ff00000, .f 3 0, .f 4 0x40000000, .f 5 0], [.cond false]),
    (0x46241030, [.cond true, .f 2 0x7ff80000, .f 3 0, .f 4 0x40000000, .f 5 0], [.cond false]),
    (0x46041031, [.cond true, .f 2 0x3F800000, .f 4 0x40000000], [.cond false]),
    (0x46041031, [.cond false, .f 2 0x7FC00000, .f 4 0x40000000], [.cond true]),
    (0x46241031, [.cond true, .f 2 0x3ff00000, .f 3 0, .f 4 0x40000000, .f 5 0], [.cond false]),
    (0x46241031, [.cond false, .f 2 0x7ff80000, .f 3 0, .f 4 0x40000000, .f 5 0], [.cond true]),
    (0x46041033, [.cond true, .f 2 0x3F800000, .f 4 0x40000000], [.cond false]),
    (0x46041033, [.cond false, .f 2 0x7FC00000, .f 4 0x40000000], [.cond true]),
    (0x46241033, [.cond true, .f 2 0x3ff00000, .f 3 0, .f 4 0x40000000, .f 5 0], [.cond false]),
    (0x46241033, [.cond false, .f 2 0x7ff80000, .f 3 0, .f 4 0x40000000, .f 5 0], [.cond true]),
    (0x46041034, [.cond false, .f 2 0x3F800000, .f 4 0x40000000], [.cond true]),
    (0x46041034, [.cond true, .f 2 0x7FC00000, .f 4 0x40000000], [.cond false]),
    (0x46241034, [.cond false, .f 2 0x3ff00000, .f 3 0, .f 4 0x40000000, .f 5 0], [.cond true]),
    (0x46241034, [.cond true, .f 2 0x7ff80000, .f 3 0, .f 4 0x40000000, .f 5 0], [.cond false]),
    (0x46041035, [.cond false, .f 2 0x3F800000, .f 4 0x40000000], [.cond true]),
    (0x46041035, [.cond false, .f 2 0x7FC00000, .f 4 0x40000000], [.cond true]),
    (0x46241035, [.cond false, .f 2 0x3ff00000, .f 3 0, .f 4 0x40000000, .f 5 0], [.cond true]),
    (0x46241035, [.cond false, .f 2 0x7ff80000, .f 3 0, .f 4 0x40000000, .f 5 0], [.cond true]),
    (0x46041036, [.cond false, .f 2 0x3F800000, .f 4 0x40000000], [.cond true]),
    (0x46041036, [.cond true, .f 2 0x7FC00000, .f 4 0x40000000], [.cond false]),
    (0x46241036, [.cond false, .f 2 0x3ff00000, .f 3 0, .f 4 0x40000000, .f 5 0], [.cond true]),
    (0x46241036, [.cond true, .f 2 0x7ff80000, .f 3 0, .f 4 0x40000000, .f 5 0], [.cond false]),
    (0x46041037, [.cond false, .f 2 0x3F800000, .f 4 0x40000000], [.cond true]),
    (0x46041037, [.cond false, .f 2 0x7FC00000, .f 4 0x40000000], [.cond true]),
    (0x46241037, [.cond false, .f 2 0x3ff00000, .f 3 0, .f 4 0x40000000, .f 5 0], [.cond true]),
    (0x46241037, [.cond false, .f 2 0x7ff80000, .f 3 0, .f 4 0x40000000, .f 5 0], [.cond true]),
    (0x46041038, [.cond true, .f 2 0x3F800000, .f 4 0x40000000], [.cond false]),
    (0x46041038, [.cond true, .f 2 0x7FC00000, .f 4 0x40000000], [.cond false]),
    (0x46241038, [.cond true, .f 2 0x3ff00000, .f 3 0, .f 4 0x40000000, .f 5 0], [.cond false]),
    (0x46241038, [.cond true, .f 2 0x7ff80000, .f 3 0, .f 4 0x40000000, .f 5 0], [.cond false]),
    (0x46041039, [.cond true, .f 2 0x3F800000, .f 4 0x40000000], [.cond false]),
    (0x46041039, [.cond false, .f 2 0x7FC00000, .f 4 0x40000000], [.cond true]),
    (0x46241039, [.cond true, .f 2 0x3ff00000, .f 3 0, .f 4 0x40000000, .f 5 0], [.cond false]),
    (0x46241039, [.cond false, .f 2 0x7ff80000, .f 3 0, .f 4 0x40000000, .f 5 0], [.cond true]),
    (0x4604103A, [.cond true, .f 2 0x3F800000, .f 4 0x40000000], [.cond false]),
    (0x4604103A, [.cond true, .f 2 0x7FC00000, .f 4 0x40000000], [.cond false]),
    (0x4624103A, [.cond true, .f 2 0x3ff00000, .f 3 0, .f 4 0x40000000, .f 5 0], [.cond false]),
    (0x4624103A, [.cond true, .f 2 0x7ff80000, .f 3 0, .f 4 0x40000000, .f 5 0], [.cond false]),
    (0x4604103B, [.cond true, .f 2 0x3F800000, .f 4 0x40000000], [.cond false]),
    (0x4604103B, [.cond false, .f 2 0x7FC00000, .f 4 0x40000000], [.cond true]),
    (0x4624103B, [.cond true, .f 2 0x3ff00000, .f 3 0, .f 4 0x40000000, .f 5 0], [.cond false]),
    (0x4624103B, [.cond false, .f 2 0x7ff80000, .f 3 0, .f 4 0x40000000, .f 5 0], [.cond true]),
    (0x4604103D, [.cond false, .f 2 0x3F800000, .f 4 0x40000000], [.cond true]),
    (0x4604103D, [.cond false, .f 2 0x7FC00000, .f 4 0x40000000], [.cond true]),
    (0x4624103D, [.cond false, .f 2 0x3ff00000, .f 3 0, .f 4 0x40000000, .f 5 0], [.cond true]),
    (0x4624103D, [.cond false, .f 2 0x7ff80000, .f 3 0, .f 4 0x40000000, .f 5 0], [.cond true]),
    (0x4604103F, [.cond false, .f 2 0x3F800000, .f 4 0x40000000], [.cond true]),
    (0x4604103F, [.cond false, .f 2 0x7FC00000, .f 4 0x40000000], [.cond true]),
    (0x4624103F, [.cond false, .f 2 0x3ff00000, .f 3 0, .f 4 0x40000000, .f 5 0], [.cond true]),
    (0x4624103F, [.cond false, .f 2 0x7ff80000, .f 3 0, .f 4 0x40000000, .f 5 0], [.cond true])] = true := by decide +kernel

/-! ### Other sampled behaviour -/

/-- R108, R113, R214, R283, R286: the refusals, each by its reason (VA6, VE15, VE22, VE29, section 2.10). -/
theorem test_refusals : (refuses 0x012A4060 [] .unusedField && refuses 0x46241040 [] .oddRegister &&
    refuses 0x4604107C [] .unusedField && refuses 0xD5230008 [] .oddRegister && refuses 0x46001020 [.namedRows] .noOperation &&
    refuses 0x46201021 [.namedRows] .noOperation &&
    refuses 0x0000000C [] .namedOnly &&
    refuses 0xFFFFFFFF [.params { unmatched := .refuse }] .reservedWord) = true := by decide +kernel

/-- VA6 and VE22 under `UNUSED_FIELDS = ignore` (R108). -/
theorem test_unused_ignored : runsAll [
    (0x012A4060, [.params { unusedFields := .ignore }, .r 9 1, .r 10 2], [.r 8 3]),
    (0x4604107C, [.params { unusedFields := .ignore }, .f 4 0x3F800000], [.cond true])] = true := by decide +kernel

/-- VI1 to VI4: an interrupt is accepted with IE 1, EL 0 and an unmasked line, and not otherwise. -/
theorem test_vectors_interrupts : runsAll [
    (0x24080001, [.pc 0x00400008, .ie true, .um true, .mask 4, .irq 4, .llBit true],
      [.trapped 0 0x00400008, .r 8 0, .bd false, .um true, .ie true, .llBit false]),
    (0x24080001, [.pc 0x00400008, .um true, .mask 4, .irq 4], [.r 8 1, .pc 0x0040000C, .irq 4]),
    (0x24080001, [.pc 0x00400008, .ie true, .um true, .mask 8, .irq 4], [.r 8 1, .pc 0x0040000C]),
    (0x24080001, [.pc 0x00400008, .ie true, .um true, .el true, .mask 4, .irq 4], [.r 8 1, .pc 0x0040000C])] = true := by
  decide +kernel

/-- VJ1 to VJ5, each step from the state the one before it leaves. -/
theorem test_vectors_delay_slot : (runsAll [
    (0x10000002, [], [.pc 0x0040000C]),
    (0x10000002, [.params { branchDelay := true }], [.pc 0x00400004, .inDelay true, .target 0x0040000C]),
    (0x24080001, [.params { branchDelay := true }, .pc 0x00400004, .inDelay true, .target 0x0040000C],
      [.r 8 1, .pc 0x0040000C, .inDelay false]),
    (0x8C080001, [.params { branchDelay := true }, .pc 0x00400004, .inDelay true, .target 0x0040000C],
      [.trapped 4 0x00400000, .bd true, .bad 1, .inDelay false, .r 8 0]),
    (0x0C100040, [.params { branchDelay := true }], [.r 31 0x00400008, .pc 0x00400004, .target 0x00400100])] &&
    refuses 0x08100040 [.params { branchDelay := true }, .pc 0x00400004, .inDelay true, .target 0x0040000C]
      .transferInDelaySlot) = true := by decide +kernel

/-- R66 and the second step of VB11: a fetch at a misaligned address. -/
theorem test_fetch_misaligned : (match step (start [.pc 0x00400002]) with
    | .next t => [.trapped 4 0x00400002, .bad 0x00400002].all (holds t)
    | _ => false) = true := by decide +kernel

/-- R67, R336: `MEM_POPULATED` depends on the width. At one address bytes are answered and words are not; a doubleword needs its second
word. -/
theorem test_bus_error_by_width : runsAll [
    (0x91280000, [.params { holes := [⟨0x2000, 4, 4⟩] }, .r 9 0x2000, .m 0x2000 0x11223344], [.r 8 0x11, .el false]),
    (0x8D280000, [.params { holes := [⟨0x2000, 4, 4⟩] }, .r 9 0x2000, .m 0x2000 0x11223344], [.r 8 0, .trapped 7 0x00400000]),
    (0xD5220008, [.params { holes := [⟨0x2004, 1, 4⟩] }, .r 9 0x1FF8, .m 0x2000 1], [.f 2 0, .trapped 7 0x00400000])] = true := by
  decide +kernel

/-- R79: a store into the next instruction, and the fetch of it under both values of `CODE_WRITES`. -/
theorem test_code_writes :
    ((match step ((start [.r 9 0x00400004]).placeWord 0xAD280000) with
      | .next t => (match step t with | .refused r => decide (r = .codeWritten) | _ => false)
      | _ => false) &&
    (match step ((start [.params { codeWrites := .coherent }, .r 9 0x00400004, .r 8 0x24080005]).placeWord 0xAD280000) with
      | .next t => (match step t with | .next u => holds u (.r 8 5) | _ => false)
      | _ => false)) = true := by decide +kernel

/-- R357, R358: the instructions of the extension, and `CpU` for them in user mode (R361). -/
theorem test_extension : runsAll [
    (0x40886000, [.params { extCp0Return := true }, .r 8 0x13], [.um true, .el true, .ie true, .pc 0x00400004]),
    (0x40887000, [.params { extCp0Return := true }, .r 8 7], [.epc 7]),
    (0x42000018, [.params { extCp0Return := true }, .el true, .epc 0x1000, .llBit true],
      [.pc 0x1000, .el false, .llBit false]),
    (0x42000018, [.params { extCp0Return := true }, .um true, .epc 0x1000], [.trapped 11 0x00400000])] = true := by
  decide +kernel

/-- A state with `EXTERNAL_WRITERS` and one event whose writes come after the fetch and between data accesses. -/
def raced (afterFetch : AgentWrites) (gaps : List AgentWrites) (facts : List Fact) : State :=
  { start (.params { externalWriters := true } :: facts) with env := [{ irq := 0, afterFetch := afterFetch, gaps := gaps }] }

/-- R76: writes after the fetch, to the fetched word and to the word that it loads; the load sees the second. -/
theorem test_writes_after_fetch : (match step ((raced [(0x00400003, 1), (0x2003, 9)] [] [.r 9 0x2000]).placeWord 0x8D280000) with
    | .next t => [.r 8 9, .m 0x00400000 0x8D280001, .pc 0x00400004].all (holds t)
    | _ => false) = true := by decide +kernel

/-- R71: writes between the two words of `ldc1` and of `sdc1`: into the word done and into the one to come. -/
theorem test_writes_between_words :
    ((match step ((raced [] [[(0x2003, 9), (0x2007, 8)]] [.r 9 0x1FF8, .m 0x2000 1]).placeWord 0xD5220008) with
      | .next t => [.f 2 1, .f 3 8, .m 0x2000 9, .m 0x2004 8].all (holds t)
      | _ => false) &&
    (match step ((raced [] [[(0x2003, 9), (0x2007, 8)]]
        [.r 9 0x1FF8, .f 2 0x11111111, .f 3 0x22222222, .llBit true, .llAddr 0x2004]).placeWord 0xF5220008) with
      | .next t => [.m 0x2000 0x11111109, .m 0x2004 0x22222222, .llBit false].all (holds t)
      | _ => false)) = true := by decide +kernel

/-- R76, R252: writes between the bytes of `swl`: one into a byte stored before it stays, one into a byte to come is stored over. -/
theorem test_writes_between_bytes :
    (match step ((raced [] [[(0x2001, 0xEE)], [(0x2003, 0xDD)]] [.namedRows, .r 9 0x2000, .r 8 0xA1B2C3D4]).placeWord 0xA9280001) with
    | .next t => holds t (.m 0x2000 0x00EEB2C3)
    | _ => false) = true := by decide +kernel

/-- The operands of section 1.6. -/
theorem test_derived_operands : signExtImm 0x7FFF = 0x00007FFF ∧ signExtImm 0x8000 = 0xFFFF8000 ∧
    zeroExtImm 0x8000 = 0x00008000 ∧ branchAddr 3 = 0xC ∧ branchAddr 0xFFFF = 0xFFFFFFFC ∧ branchAddr 0x8000 = 0xFFFE0000 ∧
    jumpAddr 0x00400000 0x100008 = 0x00400020 ∧ jumpAddr 0x9FFFFFFC 1 = 0xA0000004 := by decide +kernel

/-- VH1 to VH7, and the examples of `45_pseudoinstructions.md`: the words of the expansions. -/
theorem test_pseudoinstructions :
    (Pseudo.li 8 0xFFFFFFFB).expand.map encode = [0x2408FFFB] ∧ (Pseudo.li 8 0xABCD).expand.map encode = [0x3408ABCD] ∧
    (Pseudo.li 8 0x10000).expand.map encode = [0x3C080001] ∧
    (Pseudo.li 8 0x12345678).expand.map encode = [0x3C081234, 0x35085678] ∧
    (Pseudo.move 8 9).expand.map encode = [0x00094021] ∧ (Pseudo.blt 8 9 3).expand.map encode = [0x0109082A, 0x14200003] ∧
    (Pseudo.bgt 8 9 3).expand.map encode = [0x0128082A, 0x14200003] ∧
    (Pseudo.ble 8 9 3).expand.map encode = [0x0128082A, 0x10200003] ∧
    (Pseudo.bge 8 9 3).expand.map encode = [0x0109082A, 0x10200003] ∧ Pseudo.nop.expand.map encode = [0x00000000] := by
  decide +kernel

/-- The host's placing of a word: the next step from reset runs it, a tier 2 one too, which R7's default would refuse. -/
theorem test_with_fetch_word : (match step (State.reset.withFetchWord 32 0x2408FFFB) with
    | .next t => holds t (.r 8 0xFFFFFFFB) && holds t (.pc 0xBFC00004) && !holds t .namedRows
    | _ => false) = true ∧
    (match step (State.reset.withFetchWord 32 0x0000000D) with
    | .next t => holds t (.trapped 9 0xBFC00000)
    | _ => false) = true ∧ State.reset.params.admitNamedOnly = false := by decide +kernel

/-! ## Ill-formed terms (R214): each double-precision operand, odd, is refused by the check -/

/-- Three, two and one pair operands, each place odd in turn. -/
theorem test_ill_formed_arithmetic : ([Instr.addD 1 2 4, .addD 0 3 4, .addD 0 2 5, .subD 1 2 4, .mulD 0 3 4, .divD 0 2 5,
    .sqrtD 1 2, .sqrtD 0 3, .absD 1 2, .absD 0 3, .negD 1 2, .negD 0 3].any Instr.wellFormed) = false := by decide

theorem test_ill_formed_moves : ([Instr.movD 1 2, .movD 0 3, .movzD 1 2 9, .movzD 0 3 9, .movnD 1 2 9, .movnD 0 3 9,
    .ldc1 31 9 0, .sdc1 1 9 0].any Instr.wellFormed) = false := by decide

theorem test_ill_formed_conversions : ([Instr.cvtSD 0 3, .cvtDS 1 2, .cvtWD 0 3, .roundWD 0 3, .truncWD 0 3, .ceilWD 0 3,
    .floorWD 0 31].any Instr.wellFormed) = false := by decide

theorem test_ill_formed_compares : ((compares 3 4 ++ compares 2 5).any fun p => p.double.wellFormed) = false := by decide

/-! ## Witnesses: states and operands that meet the hypotheses of the obligations -/

/-- A user-mode state with the user-segment check on, a hole from `0x40000000` of eight bytes, and `R[9]` at an address. -/
def userAt (a : Word) : State :=
  start [.um true, .params { userSegmentCheck := true, holes := [⟨0x40000000, 8, 1⟩, ⟨0x40000000, 8, 2⟩, ⟨0x40000000, 8, 4⟩] }, .r 9 a]

/-- A kernel-mode state with `R[9]` at an address. -/
def kernelAt (a : Word) : State := start [.r 9 a]

theorem witness_DecodeOfEncode : (Instr.addD 0 2 30).wellFormed = true ∧ (Instr.ldc1 30 9 0x8000).wellFormed = true := by decide

theorem witness_EncodeOfDecode : decode (bytesOfWord 0x46241000) = .ok (.addD 0 2 4) ∧
    decode (bytesOfWord 0xFBFFFFFF) = .ok (.sdc2 31 31 0xFFFF) := by decide +kernel

/-- One word of each clause of the list of reserved encodings. -/
theorem witness_ReservedEncodings : ([0xFFFFFFFF, 0x40886000, 0x40000001, 0x46801020, 0x45020000, 0x00000001,
    0x46000008].all fun w => decide (decode (bytesOfWord w) = .error .reserved)) = true := by decide +kernel

theorem witness_MemoryBytes : (Memory.mk [⟨0, 1⟩, ⟨0xFFFFFFFF, 2⟩]).wf = true := by decide +kernel

theorem witness_ByteOrder : (kernelAt 0).mem.wf = true ∧ (kernelAt 0).fetch = .word 0 := by decide +kernel

theorem witness_StepRunsDecoded : ∃ (s : State) (w : Word) (i : Instr), s.sampleEnv.interruptPending = false ∧ s.sampleEnv.fetch = .word w ∧
    decode (bytesOfWord w) = .ok i ∧ (s.userMode = true → opcodeOf w ≠ 0x10#6) ∧
    (i.namedOnly = true → s.params.admitNamedOnly = true) ∧ s.userMode = true ∧ i.namedOnly = true :=
  ⟨(put (userAt 0) .namedRows).placeWord 0x46001004, 0x46001004, .sqrtS 0 2, by decide +kernel⟩

theorem witness_InterruptAcceptance_taken : ∃ s : State, s.statusIe = true ∧ s.statusEl = false ∧
    (∃ k, s.sampleEnv.irq.getLsbD k = true ∧ s.intMask.getLsbD k = true) :=
  ⟨start [.ie true, .mask 0x80, .irq 0x80], by decide +kernel, by decide +kernel, 7, by decide +kernel⟩

theorem witness_InterruptAcceptance_not : (start [.mask 0x80, .irq 0x80]).statusIe = false ∧
    (start [.ie true, .el true, .mask 1, .irq 1]).statusEl = true ∧
    (∀ k, (start [.ie true, .mask 0x7F, .irq 0x80]).sampleEnv.irq.getLsbD k = true →
      (start [.ie true, .mask 0x7F, .irq 0x80]).intMask.getLsbD k = false) := by
  refine ⟨by decide +kernel, by decide +kernel, fun k h => ?_⟩
  by_cases hk : k < 8
  · revert h; revert k; decide +kernel
  · exact BitVec.getLsbD_of_ge _ _ (by omega)

/-- A step that takes the first of two events, with the line it has. -/
theorem witness_InterruptAcceptance_event : ∃ (s : State) (e : EnvEvent) (rest : List EnvEvent), s.env = e :: rest ∧ e.irq = 0x80 ∧
    s.irq = 0 ∧ rest ≠ [] :=
  ⟨{ start [] with env := [{ irq := 0x80 }, { irq := 1 }] }, _, _, rfl, by decide +kernel⟩

/-- Several writes, some to one byte and some into the word of an open pair, with and without `EXTERNAL_WRITERS`; an event with no
write; no event. -/
theorem witness_OtherAgentsWrite : (let e : EnvEvent :=
      { irq := 1, writes := [(0x2003, 9), (0x2003, 7), (0xFFFFFFFF, 1)], afterFetch := [(0x3000, 2)], gaps := [[(0x3000, 3)]] }
    let s := { start [.params { externalWriters := true }, .llBit true, .llAddr 0x2000] with env := [e] }
    let t := { start [] with env := [e, { irq := 0 }] }
    s.mem.wf = true ∧ s.params.externalWriters = true ∧ s.llBit = true ∧ s.env = e :: [] ∧ t.mem.wf = true ∧
    t.params.externalWriters = false ∧ t.env = e :: [{ irq := 0 }] ∧ (start []).env = []) := by decide +kernel

theorem witness_FetchChecks_misaligned : ∃ u s : State, u = s.sampleEnv ∧ u.interruptPending = false ∧ u.pc.toNat % 4 ≠ 0 :=
  ⟨_, start [.pc 0xFFFFFFFF], rfl, by decide +kernel⟩

theorem witness_FetchChecks_barred : ∃ u s : State, u = s.sampleEnv ∧ u.interruptPending = false ∧ u.pc.toNat % 4 = 0 ∧
    u.params.userSegmentCheck = true ∧ u.userMode = true ∧ u.pc.getLsbD 31 = true :=
  ⟨_, put (userAt 0) (.pc 0x80000000), rfl, by decide +kernel⟩

theorem witness_FetchChecks_hole : ∃ u s : State, u = s.sampleEnv ∧ u.interruptPending = false ∧ u.pc.toNat % 4 = 0 ∧
    (u.params.userSegmentCheck = true → u.userMode = true → u.pc.getLsbD 31 = false) ∧
    memPopulated u.params.holes u.pc 4 = false :=
  ⟨_, start [.params { holes := [⟨0x1000, 1, 4⟩] }, .pc 0x1000], rfl, by decide +kernel⟩

theorem witness_FetchChecks_written : ∃ u s : State, u = s.sampleEnv ∧ u.interruptPending = false ∧ u.AccessOk u.pc 4 u.pc 4 ∧
    u.params.codeWrites = .refuse ∧ (∃ k < 4, (u.pc + BitVec.ofNat 32 k).toNat ∈ u.written) :=
  ⟨_, { put (userAt 0) (.pc 0x7FFFFFFC) with written := [0x7FFFFFFF] }, rfl, by decide +kernel,
    ⟨by decide +kernel, by decide +kernel, by decide +kernel⟩, by decide +kernel, 3, by decide +kernel⟩

/-- The last word of the address space, with `coherent` and a byte of it written, and with `refuse` and none written. -/
theorem witness_FetchChecks_word : ∃ u s v r : State, u = s.sampleEnv ∧ u.interruptPending = false ∧
    u.AccessOk u.pc 4 u.pc 4 ∧ u.params.codeWrites = .coherent ∧ 0xFFFFFFFF ∈ u.written ∧ v = r.sampleEnv ∧
    v.interruptPending = false ∧ v.AccessOk v.pc 4 v.pc 4 ∧ v.params.codeWrites = .refuse ∧
    (∀ k < 4, (v.pc + BitVec.ofNat 32 k).toNat ∉ v.written) :=
  ⟨_, { start [.params { codeWrites := .coherent }, .pc 0xFFFFFFFC] with written := [0xFFFFFFFF] }, _, start [.pc 0xFFFFFFFC],
    rfl, by decide +kernel, ⟨by decide +kernel, by decide +kernel, by decide +kernel⟩, by decide +kernel, by decide +kernel,
    rfl, by decide +kernel, ⟨by decide +kernel, by decide +kernel, by decide +kernel⟩, by decide +kernel, by decide +kernel⟩

theorem witness_UserCoprocessorZero : ∃ (s : State) (w : Word), s.userMode = true ∧ s.sampleEnv.interruptPending = false ∧
    s.sampleEnv.fetch = .word w ∧ opcodeOf w = 0x10#6 :=
  ⟨(userAt 0).placeWord 0x43FFFFFF, 0x43FFFFFF, by decide +kernel⟩

/-- The clauses on words that match no row: without the extension, and with it a word that is none of its instructions. -/
theorem witness_WordsWithoutMeaning_reserved : decode (bytesOfWord 0x42000018) = .error .reserved ∧
    (kernelAt 0).params.extCp0Return = false ∧ (kernelAt 0).params.unmatched = .ri ∧
    decode (bytesOfWord 0xFFFFFFFF) = .error .reserved ∧ decodeExt 0xFFFFFFFF = none ∧
    (start [.params { unmatched := .refuse, extCp0Return := true }]).params.unmatched = .refuse := by decide +kernel

theorem witness_WordsWithoutMeaning_other : decode (bytesOfWord 0x0000000C) = .ok (.syscall 0) ∧
    (Instr.syscall 0).namedOnly = true ∧ (start []).params.admitNamedOnly = false ∧
    decode (bytesOfWord 0x012A4060) = .error (.unusedField (.add 8 9 10)) ∧ (Instr.add 8 9 10).namedOnly = false ∧
    decode (bytesOfWord 0x46241040) = .error (.oddRegister (.addD 1 2 4)) := by decide +kernel

/-- `mtc0` to each register that holds something, and to one that holds nothing. -/
theorem witness_MoveToControl : (let s := start [.params { extCp0Return := true }]
    s.userMode = false ∧ s.params.extCp0Return = true ∧
    [s.params.crBadVAddr, s.params.crStatus, s.params.crCause, s.params.crEpc].Nodup ∧ s.params.crStatus = 12 ∧
    s.params.crCause = 13 ∧ s.params.crEpc = 14 ∧ (31 : CRegNum) ∉ [s.params.crStatus, s.params.crCause, s.params.crEpc]) := by
  decide +kernel

theorem witness_ExceptionReturn : ∃ s t u : State, u.userMode = true ∧ u.params.extCp0Return = true ∧ s.userMode = false ∧ s.params.extCp0Return = true ∧
    ¬(s.params.branchDelay = true ∧ s.inDelay = true) ∧ t.userMode = false ∧ t.params.extCp0Return = true ∧
    t.params.branchDelay = true ∧ t.inDelay = true :=
  ⟨start [.params { extCp0Return := true }, .um true, .el true],
    start [.params { extCp0Return := true, branchDelay := true }, .inDelay true],
    start [.params { extCp0Return := true }, .um true], by decide +kernel⟩

/-- A step from kernel to user mode: `eret` with UM 1. -/
theorem witness_Modes : ∃ s t : State, s.userMode = false ∧ step s = .next t ∧ t.userMode = true :=
  ⟨(start [.params { extCp0Return := true }, .um true, .el true]).placeWord 0x42000018, _, by decide +kernel, rfl,
    by decide +kernel⟩

/-- A step of a state with the invariant, in user mode, that takes a trap. -/
theorem witness_StepKeepsInvariant : (userAt 0).Inv ∧ ∃ t, step ((userAt 0).placeWord 0x43FFFFFF) = .next t :=
  ⟨⟨by decide +kernel, by decide +kernel, by decide +kernel, by decide +kernel, by decide +kernel⟩, _, rfl⟩

theorem witness_ControlIsReadOnly : ∃ s t : State, s.params.extCp0Return = false ∧ step s = .next t ∧ s.statusEl = true :=
  ⟨start [.el true], _, by decide +kernel, rfl, by decide +kernel⟩

/-- A step that changes Cause, EPC and BadVAddr: a fetch at a misaligned address. -/
theorem witness_TrapRegisters : ∃ s t : State, step s = .next t ∧ t.causeExcCode ≠ s.causeExcCode ∧
    t.badVAddr ≠ s.badVAddr ∧ s.params.extCp0Return = false ∧ t.epc ≠ s.epc :=
  ⟨start [.pc 0x00400002], _, rfl, by decide +kernel, by decide +kernel, by decide +kernel, by decide +kernel⟩

theorem witness_UserModeIsConfined : ∃ s t : State, s.userMode = true ∧ step s = .next t :=
  ⟨userAt 0, _, by decide +kernel, rfl⟩

/-! ### Arithmetic -/

/-- Exact results at both ends of the range, for each of the three. -/
theorem witness_SignedSums_fits : (let s := start [.r 9 0x7FFFFFFE, .r 10 1, .r 11 0x80000001, .r 12 0xFFFFFFFF]
    (s.readR 9).toInt + (s.readR 10).toInt = 2 ^ 31 - 1 ∧ (s.readR 11).toInt + (s.readR 12).toInt = -2 ^ 31 ∧
    (s.readR 9).toInt + (0x0001 : BitVec 16).toInt = 2 ^ 31 - 1 ∧ (s.readR 11).toInt + (0xFFFF : BitVec 16).toInt = -2 ^ 31 ∧
    (s.readR 9).toInt - (s.readR 12).toInt = 2 ^ 31 - 1 ∧ (s.readR 11).toInt - (s.readR 10).toInt = -2 ^ 31) := by
  decide +kernel

/-- Exact results one past each end. -/
theorem witness_SignedSums_overflows : (let s := start [.r 9 0x7FFFFFFF, .r 10 1, .r 11 0x80000000, .r 12 0xFFFFFFFF]
    (s.readR 9).toInt + (s.readR 10).toInt = 2 ^ 31 ∧ (s.readR 11).toInt + (s.readR 12).toInt < -2 ^ 31 ∧
    (s.readR 9).toInt + (0x0001 : BitVec 16).toInt = 2 ^ 31 ∧ (s.readR 11).toInt + (0xFFFF : BitVec 16).toInt < -2 ^ 31 ∧
    (s.readR 9).toInt - (s.readR 12).toInt = 2 ^ 31 ∧ (s.readR 11).toInt - (s.readR 10).toInt < -2 ^ 31) := by
  decide +kernel

/-- Divisors: -1 with a dividend whose quotient just fits, the corner, and 0. -/
theorem witness_Quotients : (let s := start [.r 9 0x80000001, .r 10 0xFFFFFFFF, .r 11 0x80000000]
    s.readR 10 ≠ 0 ∧ ¬((s.readR 9).toInt = -2 ^ 31 ∧ (s.readR 10).toInt = -1) ∧ (s.readR 11).toInt = -2 ^ 31 ∧
    (s.readR 10).toInt = -1 ∧ s.readR 12 = 0) := by decide +kernel

/-- The condition of the conditional moves, both ways. -/
theorem witness_ConditionalMoves : (start []).readR 9 = 0 ∧ (start [.r 9 0x80000000]).readR 9 ≠ 0 ∧ evenReg 30 = true := by
  decide +kernel

theorem witness_Pseudoinstructions : (start []).params.branchDelay = false := by decide +kernel

theorem witness_ControlTransfers : (start []).params.branchDelay = false := by decide +kernel

/-- Outside and inside a delay slot. -/
theorem witness_DelaySlots : (let s := start [.params { branchDelay := true }]
    let t := start [.params { branchDelay := true }, .inDelay true]
    s.params.branchDelay = true ∧ s.inDelay = false ∧ t.params.branchDelay = true ∧ t.inDelay = true) := by decide +kernel

/-! ### Accesses: at the last address of the user segment, at the end of the address space, and beside a hole -/

/-- An access of each width that passes every check, the effective address the last possible one. -/
theorem witness_AccessOk_user : (userAt 0x7FFFFFFF).AccessOk 0x7FFFFFFF 1 0x7FFFFFFF 1 ∧
    (userAt 0x7FFFFFFE).AccessOk 0x7FFFFFFE 2 0x7FFFFFFE 2 ∧ (userAt 0x7FFFFFFC).AccessOk 0x7FFFFFFC 4 0x7FFFFFFC 4 ∧
    (userAt 0x7FFFFFF8).AccessOk 0x7FFFFFF8 8 0x7FFFFFF8 8 :=
  ⟨⟨by decide +kernel, by decide +kernel, by decide +kernel⟩, ⟨by decide +kernel, by decide +kernel, by decide +kernel⟩,
    ⟨by decide +kernel, by decide +kernel, by decide +kernel⟩, ⟨by decide +kernel, by decide +kernel, by decide +kernel⟩⟩

/-- The last word of the user segment, by a negative offset. -/
theorem witness_GeneralLoads : ∃ (s : State) (rs : RegNum) (imm : BitVec 16) (ea : Word), ea = s.readR rs + signExtImm imm ∧
    s.AccessOk ea 1 ea 1 ∧ s.AccessOk ea 2 ea 2 ∧ s.AccessOk ea 4 ea 4 :=
  ⟨userAt 0x80000000, 9, 0xFFFC, 0x7FFFFFFC, by decide +kernel, ⟨by decide +kernel, by decide +kernel, by decide +kernel⟩,
    ⟨by decide +kernel, by decide +kernel, by decide +kernel⟩, ⟨by decide +kernel, by decide +kernel, by decide +kernel⟩⟩

theorem witness_LoadLinked : ∃ (s : State) (rs : RegNum) (imm : BitVec 16) (ea : Word), ea = s.readR rs + signExtImm imm ∧
    s.AccessOk ea 4 ea 4 :=
  ⟨kernelAt 0xFFFFFFFC, 9, 0, 0xFFFFFFFC, by decide +kernel, by decide +kernel, by decide +kernel, by decide +kernel⟩

/-- An `sc` that is paired and may not fail, one that is paired and may, and one whose pair names another word. -/
theorem witness_StoreConditional : ∃ (s t u : State) (ea : Word), (∀ x ∈ [s, t, u], ea = x.readR 9 + signExtImm 0 ∧
      x.AccessOk ea 4 ea 4 ∧ x.mem.wf = true) ∧ s.llBit = true ∧ s.llAddr = ea ∧ s.params.scMayFail = false ∧
    t.llBit = true ∧ t.llAddr = ea ∧ t.params.scMayFail = true ∧ ¬(u.llBit = true ∧ u.llAddr = ea) :=
  ⟨start [.scSure, .r 9 0x2000, .llBit true, .llAddr 0x2000], start [.r 9 0x2000, .llBit true, .llAddr 0x2000],
    start [.r 9 0x2000, .llBit true, .llAddr 0x2004], 0x2000, by
    intro x hx
    simp only [List.mem_cons, List.not_mem_nil, or_false] at hx
    rcases hx with rfl | rfl | rfl <;>
      exact ⟨by decide +kernel, ⟨by decide +kernel, by decide +kernel, by decide +kernel⟩, by decide +kernel⟩,
    by decide +kernel⟩

/-- Each byte of a word, beside a hole. -/
theorem witness_UnalignedLoads : ∀ k < 4, (let s := userAt (0x40000008 + BitVec.ofNat 32 k)
    let ea := s.readR 9 + signExtImm 0
    s.AccessOk ea 1 (alignedWord ea) 4 ∧ s.mem.wf = true ∧ ea.toNat % 4 = k) := by
  intro k hk
  rcases k with _ | _ | _ | _ | k
  all_goals first
    | omega
    | exact ⟨⟨by decide +kernel, by decide +kernel, by decide +kernel⟩, by decide +kernel, by decide +kernel⟩

theorem witness_UnalignedStores : ∀ k < 4, (let s := kernelAt (0xFFFFFFFC + BitVec.ofNat 32 k)
    let ea := s.readR 9 + signExtImm 0
    s.AccessOk ea 1 (alignedWord ea) 4 ∧ s.mem.wf = true ∧ ea.toNat % 4 = k ∧ s.gapWrites 3 = [] ∧ s.gapWrites k = [] ∧
    s.gapWrites (3 - k) = []) := by
  intro k hk
  rcases k with _ | _ | _ | _ | k
  all_goals first
    | omega
    | exact ⟨⟨by decide +kernel, by decide +kernel, by decide +kernel⟩, by decide +kernel⟩

/-- A doubleword at the end of the address space, with nothing between its words and with a write between them. -/
theorem witness_FpLoads_raced : ∃ (s : State) (ea : Word), ea = s.readR 9 + signExtImm 0xFFF8 ∧ s.AccessOk ea 8 ea 8 ∧
    s.mem.wf = true ∧ s.gapWrites 1 = [(0xFFFFFFFC, 1)] :=
  ⟨{ start [.params { externalWriters := true }] with gaps := [[(0xFFFFFFFC, 1)]] }, 0xFFFFFFF8, by decide +kernel,
    ⟨by decide +kernel, by decide +kernel, by decide +kernel⟩, by decide +kernel⟩

theorem witness_FpLoads : ∃ (s : State) (ea : Word) (ft : FRegNum), ea = s.readR 9 + signExtImm 0xFFF8 ∧
    s.AccessOk ea 4 ea 4 ∧ s.AccessOk ea 8 ea 8 ∧ evenReg ft = true ∧ s.mem.wf = true :=
  ⟨kernelAt 0, 0xFFFFFFF8, 30, by decide +kernel, ⟨by decide +kernel, by decide +kernel, by decide +kernel⟩,
    ⟨by decide +kernel, by decide +kernel, by decide +kernel⟩, by decide +kernel, by decide +kernel⟩

theorem witness_Stores : ∃ (s : State) (ea : Word) (ft : FRegNum), ea = s.readR 9 + signExtImm 0 ∧ s.mem.wf = true ∧
    evenReg ft = true ∧ s.gapWrites 1 = [] ∧ s.AccessOk ea 1 ea 1 ∧ s.AccessOk ea 2 ea 2 ∧ s.AccessOk ea 4 ea 4 ∧
    s.AccessOk ea 8 ea 8 :=
  ⟨userAt 0x7FFFFFF8, 0x7FFFFFF8, 30, by decide +kernel, by decide +kernel, by decide +kernel, by decide +kernel,
    ⟨by decide +kernel, by decide +kernel, by decide +kernel⟩, ⟨by decide +kernel, by decide +kernel, by decide +kernel⟩,
    ⟨by decide +kernel, by decide +kernel, by decide +kernel⟩, ⟨by decide +kernel, by decide +kernel, by decide +kernel⟩⟩

/-- An effective address that no width but the byte accepts, with an even register, and a `lwc1` and a `swc1` with an odd one. -/
theorem witness_MisalignedAccesses : ((kernelAt 0xFFFFFFFF).readR 9 + signExtImm 0).toNat % 2 ≠ 0 ∧
    ((kernelAt 6).readR 9 + signExtImm 0).toNat % 4 ≠ 0 ∧ ((kernelAt 4).readR 9 + signExtImm 0).toNat % 8 ≠ 0 ∧
    evenReg 30 = true ∧ (Instr.lwc1 31 9 0, 4) ∈ alignedLoads 8 31 9 0 ∧ Instr.lwc1 31 9 0 ≠ .ldc1 31 9 0 ∧
    (Instr.swc1 31 9 0, 4) ∈ alignedStores 8 31 9 0 ∧ Instr.swc1 31 9 0 ≠ .sdc1 31 9 0 := by decide +kernel

/-- The first barred address, which every width accepts. -/
theorem witness_BarredAccesses_segment : ∃ (s : State) (ea : Word), ea = s.readR 9 + signExtImm 0 ∧ ea.toNat % 8 = 0 ∧
    s.params.userSegmentCheck = true ∧ s.userMode = true ∧ ea.getLsbD 31 = true :=
  ⟨userAt 0x80000000, 0x80000000, by decide +kernel⟩

/-- A doubleword past the segment check, of which the second word alone is not answered. -/
theorem witness_BarredAccesses_hole : ∃ (s : State) (ea : Word), ea = s.readR 9 + signExtImm 0 ∧ ea.toNat % 8 = 0 ∧
    (s.params.userSegmentCheck = true → s.userMode = true → ea.getLsbD 31 = false) ∧
    memPopulated s.params.holes ea 4 = true ∧ (∃ q ∈ busAccesses ea 8, memPopulated s.params.holes q.1 q.2 = false) :=
  ⟨start [.params { holes := [⟨0x7FFFFFFC, 1, 4⟩] }, .r 9 0x7FFFFFF8], 0x7FFFFFF8, by decide +kernel⟩

/-! ### System -/

/-- Both modes, and the numbers of the registers under both values of `INT_FIELDS`. -/
theorem witness_MoveFromControl : (userAt 0).userMode = true ∧ (kernelAt 0).userMode = false ∧
    (let p := (start [.params { intFields := .mips32 }]).params;
    [p.crBadVAddr, p.crStatus, p.crCause, p.crEpc].Nodup ∧ p.intFields = .mips32 ∧ (kernelAt 0).params.intFields = .asPrinted) := by
  decide +kernel

theorem witness_HintsAndBarriers : (kernelAt 0).userMode = false ∧ (userAt 0).userMode = true := by decide +kernel

/-- Each conditional trap with its condition true and false: equal operands, and -1 against 1. -/
theorem witness_ConditionalTraps : (conditionalTraps (start [.r 8 3, .r 9 3]) 8 9 0).map (·.2) =
      [true, true, false, false, true, false] ∧
    (conditionalTraps (start [.r 8 0xFFFFFFFF, .r 9 1]) 8 9 0).map (·.2) = [false, true, true, false, false, true] ∧
    (conditionalTraps (start [.r 8 1, .r 9 0xFFFFFFFF]) 8 9 0).map (·.2) = [true, false, false, true, false, true] := by
  decide +kernel

/-! ### Floating point -/

/-- A state in which every exception but underflow traps, `F[2]` is 1.0 and `D[4]` the double 1.0. -/
def trapping : State :=
  start [.params { fpTraps := { invalid := true, divZero := true, overflow := true, inexact := true } }, .f 2 0x3F800000,
    .f 4 0x3FF00000]

/-- Results that signal nothing that traps, with traps enabled: the sum, the quotient and the root of 1.0, and its conversions. -/
theorem witness_ArithmeticResults : (((singleResults trapping 0 2 2).take 7 ++ ((singleResults trapping 0 2 2).drop 8).take 5).all
      fun p => p.2.1.all evenReg && !fpTraps trapping.params.fpTraps p.2.2.signals) = true ∧
    ((singleResults trapping 1 4 4).all fun p => p.2.1.all evenReg) = true ∧
    fpTraps trapping.params.fpTraps (Fp.double.convert Fp.single (trapping.readD 4).toNat).signals = false ∧
    ((doubleResults trapping 0 4 4).take 7).all
      (fun p => p.2.1.all evenReg && !fpTraps trapping.params.fpTraps p.2.2.signals) = true ∧
    fpTraps trapping.params.fpTraps (Fp.single.convert Fp.double (trapping.readF 2).toNat).signals = false := by decide +kernel

theorem witness_SignOperations : fpTraps trapping.params.fpTraps (Fp.single.abs (trapping.readF 2).toNat).signals = false ∧
    fpTraps trapping.params.fpTraps (Fp.double.neg (trapping.readD 4).toNat).signals = false ∧ evenReg 4 = true := by decide +kernel

/-- Ordered operands, single and double, with invalid in `FP.traps`. -/
theorem witness_Compares : ((compares 2 2).all fun p => trapping.params.fpTraps.invalid &&
      !p.signalsInvalid Fp.single (trapping.readF 2).toNat (trapping.readF 2).toNat &&
      !p.signalsInvalid Fp.double (trapping.readD 4).toNat (trapping.readD 4).toNat) = true ∧ evenReg 4 = true := by decide +kernel

/-- The operands at the two ends of the words: `-2^31` as a single, `2^31 - 1` as a double. -/
theorem witness_WordConversions : Fp.single.Finite 0xCF000000 ∧ Fp.single.value 0xCF000000 = -2 ^ 31 ∧
    Fp.double.Finite 0x41DFFFFFFFC00000 ∧ Fp.double.value 0x41DFFFFFFFC00000 = 2 ^ 31 - 1 ∧
    fpTraps trapping.params.fpTraps (Fp.single.toWord .up 0xCF000000).signals = false ∧
    fpTraps trapping.params.fpTraps (Fp.double.toWord .down 0x41DFFFFFFFC00000).signals = false := by
  refine ⟨⟨by decide +kernel, by decide +kernel⟩, ?_, ⟨by decide +kernel, by decide +kernel⟩, ?_, by decide +kernel,
    by decide +kernel⟩ <;>
    norm_num [Fp.Format.value, Fp.Format.sign, Fp.Format.expField, Fp.Format.frac, Fp.Format.bias, Fp.single, Fp.double]

theorem witness_CompareOfValues : Fp.single.Finite 0x7F7FFFFF ∧ Fp.single.Finite 0x80000000 ∧
    Fp.single.classify 0xFF800000 = .infinity ∧ Fp.single.isNaN 0x7F800001 = true :=
  ⟨⟨by decide +kernel, by decide +kernel⟩, ⟨by decide +kernel, by decide +kernel⟩, by decide +kernel, by decide +kernel⟩

/-- `∞ - ∞` in both formats, a quotient by zero, conversions that overflow or are invalid, and a NaN, first or second, in each
signalling compare. -/
theorem witness_FpTraps : fpTraps { invalid := true } (Fp.single.add 0x7F800000 0xFF800000).signals = true ∧
    fpTraps { invalid := true } (Fp.double.sub 0x7FF0000000000000 0x7FF0000000000000).signals = true ∧
    fpTraps { divZero := true } (Fp.single.div 0x3F800000 0x80000000).signals = true ∧ evenReg 30 = true ∧
    fpTraps { overflow := true } (Fp.double.convert Fp.single 0x7FEFFFFFFFFFFFFF).signals = true ∧
    fpTraps { invalid := true } (Fp.single.toWord .up 0x7F800000).signals = true ∧
    (let s := start [.params { fpTraps := { invalid := true } }, .f 2 0x7FC00000, .f 4 0x7FF80000];
      s.params.fpTraps.invalid = true ∧ ((compares 2 4).filter (·.signalling)).length = 8 ∧
      (((compares 2 4).filter (·.signalling)).all fun p =>
        p.signalsInvalid Fp.single (s.readF 2).toNat 0 && p.signalsInvalid Fp.double 0 (s.readD 4).toNat) = true) := by
  decide +kernel

/-- Odd numbers in each place. -/
theorem witness_OddDoubles : (∃ p ∈ doubleOperands 31 2 4 9 0, ∃ n ∈ p.2, n.toNat % 2 = 1) ∧
    (∃ p ∈ doubleOperands 0 1 4 9 0, ∃ n ∈ p.2, n.toNat % 2 = 1) ∧ ∃ p ∈ doubleOperands 0 2 31 9 0, ∃ n ∈ p.2, n.toNat % 2 = 1 :=
  ⟨⟨_, .head _, 31, by decide, by decide⟩, ⟨_, .head _, 1, by decide, by decide⟩, ⟨_, .head _, 31, by decide, by decide⟩⟩

theorem witness_ArithmeticRoundsExact : Fp.single.Finite 1 ∧ Fp.single.Finite 0xFF7FFFFF ∧ Fp.single.value 1 ≠ 0 := by
  refine ⟨⟨by decide +kernel, by decide +kernel⟩, ⟨by decide +kernel, by decide +kernel⟩, ?_⟩
  norm_num [Fp.Format.value, Fp.Format.sign, Fp.Format.expField, Fp.Format.frac, Fp.Format.bias, Fp.single]

/-- A negative zero, the least denormal, and a negative number. -/
theorem witness_RootsAndConversionsRound : Fp.single.Finite 0x80000000 ∧ 0 ≤ Fp.single.value 0x80000000 ∧
    Fp.double.Finite 1 ∧ 0 ≤ Fp.double.value 1 ∧ Fp.single.Finite 0x80000001 ∧ Fp.single.value 0x80000001 < 0 := by
  refine ⟨⟨by decide +kernel, by decide +kernel⟩, ?_, ⟨by decide +kernel, by decide +kernel⟩, ?_,
    ⟨by decide +kernel, by decide +kernel⟩, ?_⟩ <;>
    norm_num [Fp.Format.value, Fp.Format.sign, Fp.Format.expField, Fp.Format.frac, Fp.Format.bias, Fp.single, Fp.double]

/-- A NaN, the infinities, the zeros, and the least and greatest finite magnitudes. -/
theorem witness_SpecialOperands : Fp.double.isNaN 0xFFFFFFFFFFFFFFFF = true ∧
    Fp.double.classify 0xFFF0000000000000 = .infinity ∧ Fp.double.classify 0x8000000000000000 = .zero ∧
    Fp.double.Finite 1 ∧ Fp.double.value 1 ≠ 0 ∧ Fp.double.Finite 0x8000000000000001 ∧
    Fp.double.value 1 + Fp.double.value 0x8000000000000001 = 0 ∧ Fp.double.Finite 0x7FEFFFFFFFFFFFFF := by
  refine ⟨by decide +kernel, by decide +kernel, by decide +kernel, ⟨by decide +kernel, by decide +kernel⟩, ?_,
    ⟨by decide +kernel, by decide +kernel⟩, ?_, ⟨by decide +kernel, by decide +kernel⟩⟩ <;>
  norm_num [Fp.Format.value, Fp.Format.sign, Fp.Format.expField, Fp.Format.frac, Fp.Format.bias, Fp.double]

end Sys2Proof.Tests
end

/-! Memory (R61) and the instructions that change nothing (R246, R254, R255). -/

namespace Sys2Proof.Machine

/-! ### Byte order (R61) -/

/-- The high part of a concatenation weighs `2 ^ n`, `n` the width of the low part. -/
theorem toNat_append_eq_add {m n : Nat} (x : BitVec m) (y : BitVec n) :
    (x ++ y).toNat = x.toNat * 2 ^ n + y.toNat := by
  rw [BitVec.toNat_append, ← Nat.shiftLeft_add_eq_or_of_lt y.isLt, Nat.shiftLeft_eq]

/-- R61: four bytes make a word, the first the most significant. -/
theorem toNat_wordOfBytes (b0 b1 b2 b3 : Byte) : (wordOfBytes b0 b1 b2 b3).toNat =
    b0.toNat * 2 ^ 24 + b1.toNat * 2 ^ 16 + b2.toNat * 2 ^ 8 + b3.toNat := by
  simp only [wordOfBytes, toNat_append_eq_add]
  omega

/-- R61: a halfword read is big-endian. -/
theorem Memory.toNat_readHalf (m : Memory) (a : Word) :
    (m.readHalf a).toNat = (m.read a).toNat * 2 ^ 8 + (m.read (a + 1)).toNat :=
  toNat_append_eq_add _ _

/-- R61: a word read is big-endian. -/
theorem Memory.toNat_readWord (m : Memory) (a : Word) :
    (m.readWord a).toNat = (m.read a).toNat * 2 ^ 24 + (m.read (a + 1)).toNat * 2 ^ 16 + (m.read (a + 2)).toNat * 2 ^ 8 +
      (m.read (a + 3)).toNat :=
  toNat_wordOfBytes _ _ _ _

/-- The first of the bytes written stands at the address of the write. -/
theorem Memory.read_writeBytes_head (m : Memory) (a : Word) (b : Byte) (bs : List Byte) (hw : m.wf = true)
    (hl : (b :: bs).length ≤ 2 ^ 32) : (m.writeBytes a (b :: bs)).read a = b := by
  simpa using m.read_writeBytes_inside a (b :: bs) 0 hw (Nat.succ_pos _) hl

/-- R61: the bytes of memory after a halfword is written. -/
theorem Memory.read_writeBytes_half (m : Memory) (a : Word) (v : BitVec 16) (hw : m.wf = true) :
    (m.writeBytes a (bytesOfHalf v)).read a = v.extractLsb' 8 8 ∧
    (m.writeBytes a (bytesOfHalf v)).read (a + 1) = v.extractLsb' 0 8 := by
  have hl : (bytesOfHalf v).length ≤ 2 ^ 32 := by simp [bytesOfHalf]
  exact ⟨m.read_writeBytes_head a _ _ hw hl, m.read_writeBytes_inside a (bytesOfHalf v) 1 hw (by simp [bytesOfHalf]) hl⟩

/-- R61: the bytes of memory after a word is written. -/
theorem Memory.read_writeBytes_word (m : Memory) (a : Word) (v : Word) (hw : m.wf = true) :
    (m.writeBytes a (bytesOfWord v)).read a = v.extractLsb' 24 8 ∧
    (m.writeBytes a (bytesOfWord v)).read (a + 1) = v.extractLsb' 16 8 ∧
    (m.writeBytes a (bytesOfWord v)).read (a + 2) = v.extractLsb' 8 8 ∧
    (m.writeBytes a (bytesOfWord v)).read (a + 3) = v.extractLsb' 0 8 := by
  have hl : (bytesOfWord v).length ≤ 2 ^ 32 := by simp [bytesOfWord]
  have inside := fun k hk => m.read_writeBytes_inside a (bytesOfWord v) k hw hk hl
  exact ⟨m.read_writeBytes_head a _ _ hw hl, inside 1 (by simp [bytesOfWord]), inside 2 (by simp [bytesOfWord]),
    inside 3 (by simp [bytesOfWord])⟩

/-- R61, R66: a word that a fetch finds is the big-endian word at `pc`. -/
theorem State.eq_readWord_of_fetch {s : State} {w : Word} (h : s.fetch = .word w) : w = s.mem.readWord s.pc := by
  rcases s.fetch_cases with ⟨_, hf⟩ | ⟨_, _, hf⟩ | ⟨_, _, _, hf⟩ | ⟨_, _, _, _, _, hf⟩ | ⟨_, _, _, _, hf⟩ <;>
    rw [h] at hf <;> cases hf
  rfl

/-- Settles O7: reads are concatenations of bytes, writes are read back byte by byte, and a fetch reads a word. -/
theorem byteOrder : Obligations.ByteOrder :=
  ⟨fun m a => ⟨m.toNat_readHalf a, m.toNat_readWord a⟩, fun m a v hw => m.read_write_same a v hw,
    fun m a v hw => m.read_writeBytes_half a v hw, fun m a v hw => m.read_writeBytes_word a v hw,
    fun _ _ => State.eq_readWord_of_fetch⟩

/-! ### Hints and barriers (R246, R254, R255) -/

theorem exec_sync (stype : BitVec 5) (s : State) : exec (.sync stype) s = .next s.retire := rfl

theorem exec_pref (hint : BitVec 5) (rs : RegNum) (imm : BitVec 16) (s : State) :
    exec (.pref hint rs imm) s = .next s.retire := rfl

theorem exec_cache (op : BitVec 5) (rs : RegNum) (imm : BitVec 16) (s : State) :
    exec (.cache op rs imm) s = s.kernelOnly (.next s.retire) := rfl

/-- Settles O47: `sync` and `pref` retire in every mode, `cache` as R361 says for the mode. -/
theorem hintsAndBarriers : Obligations.HintsAndBarriers := by
  intro s stype op hint rs imm
  refine ⟨⟨_, exec_sync stype s, s.didNothing_retire⟩, ⟨_, exec_pref hint rs imm s, s.didNothing_retire⟩, ?_⟩
  rw [exec_cache]
  rcases s.kernelOnly_cases (.next s.retire) with ⟨user, trapped⟩ | ⟨kernel, ran⟩
  · exact ⟨fun h => by simp [user] at h, fun _ => ⟨_, trapped, s.tookTrap_trap .cpU⟩⟩
  · exact ⟨fun _ => ⟨_, ran, s.didNothing_retire⟩, fun h => by simp [kernel] at h⟩

end Sys2Proof.Machine

/-! Encoding (R96 to R113): the derived operands, the blank slots of the opcode map, and the words that are no instruction. -/

namespace Sys2Proof.Machine

/-! ### The derived operands as numbers (R96 to R99) -/

/-- R96: sign extension keeps the two's complement value. -/
theorem toInt_signExtImm (imm : BitVec 16) : (signExtImm imm).toInt = imm.toInt :=
  BitVec.toInt_signExtend_of_le (by decide)

/-- R97: zero extension keeps the unsigned value. -/
theorem toNat_zeroExtImm (imm : BitVec 16) : (zeroExtImm imm).toNat = imm.toNat :=
  BitVec.toNat_setWidth_of_le (by decide)

/-- R98: the branch offset counts words, in two's complement. -/
theorem toInt_branchAddr (imm : BitVec 16) : (branchAddr imm).toInt = 4 * imm.toInt := by
  rw [branchAddr, BitVec.toInt_signExtend_of_le (by decide), BitVec.toInt_append_zero]
  norm_num

/-- R99: a jump keeps the 256 MB region of the next instruction and counts words in it. -/
theorem toNat_jumpAddr (pc : Word) (addr : BitVec 26) :
    (jumpAddr pc addr).toNat = (pc + 4).toNat / 2 ^ 28 * 2 ^ 28 + 4 * addr.toNat := by
  have region : ((pc + 4).extractLsb' 28 4).toNat = (pc + 4).toNat / 2 ^ 28 := by
    rw [BitVec.extractLsb'_toNat, Nat.shiftRight_eq_div_pow, Nat.mod_eq_of_lt (by omega)]
  rw [jumpAddr, toNat_append_eq_add, toNat_append_eq_add, region]
  simp only [BitVec.toNat_ofNat]
  omega

/-- Settles O5: each operand by its own rule, R96 to R99. -/
theorem derivedOperands : Obligations.DerivedOperands := fun imm addr pc =>
  ⟨toInt_signExtImm imm, toNat_zeroExtImm imm, toInt_branchAddr imm, toNat_jumpAddr pc addr⟩

end Sys2Proof.Machine

namespace Sys2Proof

/-! ### The blank slots of the opcode map (R103 to R106, R111)

Each column matches on one field and answers none in its default branch only. There the field is no row's, so it is a blank slot's;
in every other branch it is a row's, so it is no blank slot's. -/

/-- The opcodes of blank slots (R103). -/
def blankOpcodes : List (BitVec 6) :=
  [0x01#6, 0x12#6, 0x13#6, 0x14#6, 0x15#6, 0x16#6, 0x17#6, 0x18#6, 0x19#6, 0x1a#6, 0x1b#6, 0x1c#6, 0x1d#6, 0x1e#6, 0x1f#6,
    0x27#6, 0x2c#6, 0x2d#6, 0x34#6, 0x37#6, 0x3b#6, 0x3c#6, 0x3f#6]

/-- The opcodes of the rows, those of the three columns included (R103). -/
def rowOpcodes : List (BitVec 6) :=
  [0x00#6, 0x02#6, 0x03#6, 0x04#6, 0x05#6, 0x06#6, 0x07#6, 0x08#6, 0x09#6, 0x0a#6, 0x0b#6, 0x0c#6, 0x0d#6, 0x0e#6, 0x0f#6,
    0x10#6, 0x11#6, 0x20#6, 0x21#6, 0x22#6, 0x23#6, 0x24#6, 0x25#6, 0x26#6, 0x28#6, 0x29#6, 0x2a#6, 0x2b#6, 0x2e#6, 0x2f#6,
    0x30#6, 0x31#6, 0x32#6, 0x33#6, 0x35#6, 0x36#6, 0x38#6, 0x39#6, 0x3a#6, 0x3d#6, 0x3e#6]

theorem opcode_mem_row_or_blank : ∀ n : BitVec 6, n ∈ rowOpcodes ∨ n ∈ blankOpcodes := by decide

/-- The functs of blank slots of opcode 0 (R104). -/
def blankFuncts : List (BitVec 6) :=
  [0x01#6, 0x05#6, 0x0e#6, 0x14#6, 0x15#6, 0x16#6, 0x17#6, 0x1c#6, 0x1d#6, 0x1e#6, 0x1f#6, 0x28#6, 0x29#6, 0x2c#6, 0x2d#6,
    0x2e#6, 0x2f#6, 0x35#6, 0x37#6, 0x38#6, 0x39#6, 0x3a#6, 0x3b#6, 0x3c#6, 0x3d#6, 0x3e#6, 0x3f#6]

/-- The functs of the rows of opcode 0 (R104). -/
def rowFuncts : List (BitVec 6) :=
  [0x00#6, 0x02#6, 0x03#6, 0x04#6, 0x06#6, 0x07#6, 0x08#6, 0x09#6, 0x0a#6, 0x0b#6, 0x0c#6, 0x0d#6, 0x0f#6, 0x10#6, 0x11#6,
    0x12#6, 0x13#6, 0x18#6, 0x19#6, 0x1a#6, 0x1b#6, 0x20#6, 0x21#6, 0x22#6, 0x23#6, 0x24#6, 0x25#6, 0x26#6, 0x27#6, 0x2a#6,
    0x2b#6, 0x30#6, 0x31#6, 0x32#6, 0x33#6, 0x34#6, 0x36#6]

theorem funct_mem_row_or_blank : ∀ n : BitVec 6, n ∈ rowFuncts ∨ n ∈ blankFuncts := by decide

/-- The functs of blank slots of opcode `0x11`, single and double (R105). -/
def blankFpFuncts : List (BitVec 6) :=
  [0x08#6, 0x09#6, 0x0a#6, 0x0b#6, 0x10#6, 0x11#6, 0x14#6, 0x15#6, 0x16#6, 0x17#6, 0x18#6, 0x19#6, 0x1a#6, 0x1b#6, 0x1c#6,
    0x1d#6, 0x1e#6, 0x1f#6, 0x22#6, 0x23#6, 0x25#6, 0x26#6, 0x27#6, 0x28#6, 0x29#6, 0x2a#6, 0x2b#6, 0x2c#6, 0x2d#6, 0x2e#6,
    0x2f#6]

/-- The functs of the rows of opcode `0x11`, the same for single and double (R105). -/
def rowFpFuncts : List (BitVec 6) :=
  [0x00#6, 0x01#6, 0x02#6, 0x03#6, 0x04#6, 0x05#6, 0x06#6, 0x07#6, 0x0c#6, 0x0d#6, 0x0e#6, 0x0f#6, 0x12#6, 0x13#6, 0x20#6,
    0x21#6, 0x24#6, 0x30#6, 0x31#6, 0x32#6, 0x33#6, 0x34#6, 0x35#6, 0x36#6, 0x37#6, 0x38#6, 0x39#6, 0x3a#6, 0x3b#6, 0x3c#6,
    0x3d#6, 0x3e#6, 0x3f#6]

theorem fpFunct_mem_row_or_blank : ∀ n : BitVec 6, n ∈ rowFpFuncts ∨ n ∈ blankFpFuncts := by decide

theorem decodeSpecial_eq_none_iff (w : Word) : decodeSpecial w = none ↔ functOf w ∈ blankFuncts := by
  unfold decodeSpecial
  split
  case h_38 =>
    have slot := funct_mem_row_or_blank (functOf w)
    simp_all [rowFuncts, imp_false]
  all_goals simp [blankFuncts, *]

theorem decodeSingle_eq_none_iff (w : Word) : decodeSingle w = none ↔ functOf w ∈ blankFpFuncts := by
  unfold decodeSingle
  split
  case h_34 =>
    have slot := fpFunct_mem_row_or_blank (functOf w)
    simp_all [rowFpFuncts, imp_false]
  all_goals simp [blankFpFuncts, *]

theorem decodeDouble_eq_none_iff (w : Word) : decodeDouble w = none ↔ functOf w ∈ blankFpFuncts := by
  unfold decodeDouble
  split
  case h_34 =>
    have slot := fpFunct_mem_row_or_blank (functOf w)
    simp_all [rowFpFuncts, imp_false]
  all_goals simp [blankFpFuncts, *]

theorem decodeFpBranch_eq_none_iff (w : Word) : decodeFpBranch w = none ↔ ftOf w ∉ [0#5, 1#5] := by
  unfold decodeFpBranch
  split <;> simp_all

theorem decodeCop0_eq_none_iff (w : Word) : decodeCop0 w = none ↔ rsOf w ≠ 0 ∨ functOf w ≠ 0 := by
  unfold decodeCop0
  split
  case isTrue row => simp [row]
  case isFalse other => exact iff_of_true rfl (not_and_or.mp other)

theorem decodeCop1_eq_none_iff (w : Word) : decodeCop1 w = none ↔
    fmtOf w ∉ [0x08#5, 0x10#5, 0x11#5] ∨ (fmtOf w = 0x08#5 ∧ ftOf w ∉ [0#5, 1#5]) ∨
    ((fmtOf w = 0x10#5 ∨ fmtOf w = 0x11#5) ∧ functOf w ∈ blankFpFuncts) := by
  unfold decodeCop1
  split
  case h_1 fmt => simp [fmt, decodeFpBranch_eq_none_iff]
  case h_2 fmt => simp [fmt, decodeSingle_eq_none_iff]
  case h_3 fmt => simp [fmt, decodeDouble_eq_none_iff]
  case h_4 => simp_all

theorem decodeRow_eq_none_iff (w : Word) : decodeRow w = none ↔
    opcodeOf w ∈ blankOpcodes ∨ (opcodeOf w = 0x10#6 ∧ decodeCop0 w = none) ∨
    (opcodeOf w = 0x11#6 ∧ decodeCop1 w = none) ∨ (opcodeOf w = 0x00#6 ∧ decodeSpecial w = none) := by
  unfold decodeRow
  split
  case h_1 op | h_2 op | h_3 op => simp [op, blankOpcodes]
  case h_42 =>
    have slot := opcode_mem_row_or_blank (opcodeOf w)
    simp_all [rowOpcodes, imp_false]
  all_goals simp [blankOpcodes, *]

theorem decodeWord_eq_reserved_iff (w : Word) : decodeWord w = .error .reserved ↔ decodeRow w = none := by
  rcases decodeWord_cases w with ⟨row, answer⟩ | ⟨i, m, row, _, answer⟩ | ⟨i, m, row, _, _, answer⟩ | ⟨i, m, row, _, _, answer⟩ <;>
    simp [row, answer]

/-- Settles O3: a word is reserved when it matches no row, and each column of the map has exactly its own blank slots. -/
theorem reservedEncodings : Obligations.ReservedEncodings := by
  intro w
  rw [decode_bytesOfWord, decodeWord_eq_reserved_iff, decodeRow_eq_none_iff, decodeCop0_eq_none_iff, decodeCop1_eq_none_iff,
    decodeSpecial_eq_none_iff]
  unfold blankOpcodes blankFuncts blankFpFuncts
  tauto

end Sys2Proof

namespace Sys2Proof.Machine

/-! ### What a fetched word does, by what its decoding answers (R101) -/

/-- R113: an admitted instruction does what it does. -/
theorem State.ifAdmitted_of_admitted {s : State} {i : Instr} (o : Outcome)
    (admitted : i.namedOnly = true → s.params.admitNamedOnly = true) : s.ifAdmitted i o = o := by
  cases named : i.namedOnly
  · simp [State.ifAdmitted, named]
  · simp [State.ifAdmitted, named, admitted named]

/-- R113: a tier 2 instruction that is not admitted is refused, whatever it would do. -/
theorem State.ifAdmitted_of_not_admitted {s : State} {i : Instr} (o : Outcome) (named : i.namedOnly = true)
    (barred : s.params.admitNamedOnly = false) : s.ifAdmitted i o = .refused .namedOnly := by
  simp [State.ifAdmitted, named, barred]

theorem State.unmatched_of_ri {s : State} (h : s.params.unmatched = .ri) : s.unmatched = .next (s.trap .ri) := by
  simp [State.unmatched, h]

theorem State.unmatched_of_refuse {s : State} (h : s.params.unmatched = .refuse) :
    s.unmatched = .refused .reservedWord := by
  simp [State.unmatched, h]

/-- R110: a reserved word that is no word of the extension is unmatched. -/
theorem State.runReserved_eq_unmatched {s : State} {w : Word} (h : s.params.extCp0Return = true → decodeExt w = none) :
    s.runReserved w = s.unmatched := by
  cases ext : s.params.extCp0Return
  · simp [State.runReserved, ext]
  · simp [State.runReserved, ext, h ext]

theorem State.runUnused_of_refuse {s : State} (i : Instr) (h : s.params.unusedFields = .refuse) :
    s.runUnused i = .refused .unusedField := by
  simp [State.runUnused, h]

theorem State.runUnused_of_ignore {s : State} (i : Instr) (h : s.params.unusedFields = .ignore) :
    s.runUnused i = exec i s := by
  simp [State.runUnused, h]

section RunWord

variable {s : State} {w : Word} (i : Instr)

/-- R361 asks for `CpU` in user mode only, and only of opcode `0x10`. -/
theorem State.cop0Guard_eq_false (h : s.userMode = true → opcodeOf w ≠ 0x10#6) :
    (s.userMode && decide (opcodeOf w = 0x10#6)) = false := by
  simpa using h

theorem State.runWord_of_ok (h : s.userMode = true → opcodeOf w ≠ 0x10#6) (answer : decode (bytesOfWord w) = .ok i) :
    s.runWord w = s.ifAdmitted i (exec i s) := by
  simp [State.runWord, State.cop0Guard_eq_false h, answer]

theorem State.runWord_of_reserved (h : s.userMode = true → opcodeOf w ≠ 0x10#6)
    (answer : decode (bytesOfWord w) = .error .reserved) : s.runWord w = s.runReserved w := by
  simp [State.runWord, State.cop0Guard_eq_false h, answer]

theorem State.runWord_of_unusedField (h : s.userMode = true → opcodeOf w ≠ 0x10#6)
    (answer : decode (bytesOfWord w) = .error (.unusedField i)) : s.runWord w = s.ifAdmitted i (s.runUnused i) := by
  simp [State.runWord, State.cop0Guard_eq_false h, answer]

theorem State.runWord_of_oddRegister (h : s.userMode = true → opcodeOf w ≠ 0x10#6)
    (answer : decode (bytesOfWord w) = .error (.oddRegister i)) :
    s.runWord w = s.ifAdmitted i (.refused .oddRegister) := by
  simp [State.runWord, State.cop0Guard_eq_false h, answer]

end RunWord

/-- Settles O13: one clause per answer of the decoder, then by the parameter that rules the case. -/
theorem wordsWithoutMeaning : Obligations.WordsWithoutMeaning := by
  intro s w i h
  refine ⟨fun answer noExt => ?_, fun answer named barred => ?_, fun answer admitted => ?_, fun answer admitted => ?_⟩
  · rw [State.runWord_of_reserved h answer, State.runReserved_eq_unmatched noExt]
    exact ⟨fun ri => ⟨_, State.unmatched_of_ri ri, s.tookTrap_trap .ri⟩, State.unmatched_of_refuse⟩
  · rw [State.runWord_of_ok i h answer, State.ifAdmitted_of_not_admitted _ named barred]
  · rw [State.runWord_of_unusedField i h answer, State.ifAdmitted_of_admitted _ admitted]
    exact ⟨s.runUnused_of_refuse i, s.runUnused_of_ignore i⟩
  · rw [State.runWord_of_oddRegister i h answer, State.ifAdmitted_of_admitted _ admitted]

end Sys2Proof.Machine

/-! Arithmetic and logic (R130 to R149): the sums and differences that trap on signed overflow. -/

namespace Sys2Proof.Machine

/-! ### Signed overflow (R149) -/

theorem ovfAdd_eq_true_iff (a b : Word) :
    ovfAdd a b = true ↔ a.toInt + b.toInt < -2 ^ 31 ∨ 2 ^ 31 - 1 < a.toInt + b.toInt := by
  simp only [ovfAdd, Bool.or_eq_true, decide_eq_true_eq]

theorem ovfSub_eq_true_iff (a b : Word) :
    ovfSub a b = true ↔ a.toInt - b.toInt < -2 ^ 31 ∨ 2 ^ 31 - 1 < a.toInt - b.toInt := by
  simp only [ovfSub, Bool.or_eq_true, decide_eq_true_eq]

/-- R149: when the flag says that the exact result `n` does not fit and `v` is `n` wrapped to a word, the instruction writes `n`
where it fits and otherwise takes `Ov`. -/
theorem State.writeOrOverflow_exact (s : State) (rd : RegNum) {o : Bool} {v : Word} {n : Int}
    (flag : o = true ↔ n < -2 ^ 31 ∨ 2 ^ 31 - 1 < n) (wraps : v.toInt = n.bmod (2 ^ 32)) :
    (-2 ^ 31 ≤ n → n ≤ 2 ^ 31 - 1 →
      ∃ t u, s.writeOrOverflow rd o v = .next t ∧ s.WroteR t rd u ∧ u.toInt = n) ∧
    (n < -2 ^ 31 ∨ 2 ^ 31 - 1 < n → ∃ t, s.writeOrOverflow rd o v = .next t ∧ s.TookTrap t 12 none) := by
  rcases s.writeOrOverflow_cases rd o v with ⟨raised, trapped⟩ | ⟨clear, wrote⟩
  · have outside := flag.mp raised
    exact ⟨fun low high => by omega, fun _ => ⟨_, trapped, s.tookTrap_trap .ov⟩⟩
  · have inside : ¬(n < -2 ^ 31 ∨ 2 ^ 31 - 1 < n) := fun outside => by simp [flag.mpr outside] at clear
    obtain ⟨t, ended, written⟩ := s.writeR_eq rd v
    have fits : v.toInt = n := by rw [wraps, Int.bmod_eq_of_le (by omega) (by omega)]
    exact ⟨fun _ _ => ⟨t, v, wrote.trans ended, written, fits⟩, fun outside => absurd outside inside⟩

/-! ### `add`, `addi`, `sub` (R130, R131, R146) -/

theorem exec_add (rd rs rt : RegNum) (s : State) : exec (.add rd rs rt) s =
    s.writeOrOverflow rd (ovfAdd (s.readR rs) (s.readR rt)) (s.readR rs + s.readR rt) := rfl

theorem exec_addi (rt rs : RegNum) (imm : BitVec 16) (s : State) : exec (.addi rt rs imm) s =
    s.writeOrOverflow rt (ovfAdd (s.readR rs) (signExtImm imm)) (s.readR rs + signExtImm imm) := rfl

theorem exec_sub (rd rs rt : RegNum) (s : State) : exec (.sub rd rs rt) s =
    s.writeOrOverflow rd (ovfSub (s.readR rs) (s.readR rt)) (s.readR rs - s.readR rt) := rfl

/-- Settles O24: the flag of each of the three is exact, and what it writes is the exact result wrapped. -/
theorem signedSums : Obligations.SignedSums := by
  intro s rd rs rt imm
  simp only [List.forall_mem_cons, List.not_mem_nil, false_implies, implies_true, and_true, exec_add, exec_addi, exec_sub,
    ← toInt_signExtImm imm]
  exact ⟨s.writeOrOverflow_exact rd (ovfAdd_eq_true_iff _ _) (BitVec.toInt_add _ _),
    s.writeOrOverflow_exact rt (ovfAdd_eq_true_iff _ _) (BitVec.toInt_add _ _),
    s.writeOrOverflow_exact rd (ovfSub_eq_true_iff _ _) BitVec.toInt_sub⟩

end Sys2Proof.Machine

/-! Control transfers (R150 to R155, R190, R191, R231, R232, R239): each is `State.transfer` to its target, after its link. -/

namespace Sys2Proof.Machine

/-! ### Frames one after another -/

theorem State.same.trans {s u t : State} {p : Part} (first : s.same u p) (second : u.same t p) : s.same t p := by
  cases p <;> simp_all [State.same]

theorem State.sameBut.trans {s u t : State} {changed : List Part} (first : s.sameBut u changed)
    (second : u.sameBut t changed) : s.sameBut t changed :=
  fun p unlisted => (first p unlisted).trans (second p unlisted)

/-- A frame with nothing listed is a frame with anything listed. -/
theorem State.sameBut.weaken {s t : State} (frame : s.sameBut t []) (changed : List Part) : s.sameBut t changed :=
  fun p _ => frame p List.not_mem_nil

/-- R22: a write of `R[i]` changes the general registers only. -/
theorem State.sameBut_setR (s : State) (i : RegNum) (v : Word) : s.sameBut (s.setR i v) [.general] := by
  intro p unlisted
  cases p <;> simp_all [State.same]

/-! ### What the branches and jumps do -/

/-- R98: the target of a branch, its offset a number of words. -/
theorem State.branchTarget_eq (s : State) (imm : BitVec 16) :
    s.branchTarget imm = s.pc + 4 + BitVec.ofInt 32 (4 * imm.toInt) := by
  rw [State.branchTarget, ← toInt_branchAddr, BitVec.ofInt_toInt]

/-- R150 to R152, R154, R190, R191, R231, R232: a control transfer that does not link goes to its target on its condition. -/
theorem exec_plainTransfer (s : State) (rs rt : RegNum) (imm : BitVec 16) (addr : BitVec 26) :
    ∀ p ∈ plainTransfers s rs rt imm addr, exec p.1 s = s.transfer p.2.1 p.2.2 := by
  simp only [plainTransfers, ← s.branchTarget_eq, List.forall_mem_cons]
  exact ⟨rfl, rfl, rfl, rfl, rfl, rfl, rfl, rfl, List.forall_mem_nil _⟩

/-- R153, R239: a control transfer that links goes to its target, read before the link is written. -/
theorem exec_linkingTransfer (s : State) (rd rs : RegNum) (addr : BitVec 26) :
    ∀ p ∈ linkingTransfers s rd rs addr, exec p.1 s = (s.setR p.2.1 s.linkAddr).transfer true p.2.2 := by
  simp only [linkingTransfers, List.forall_mem_cons]
  exact ⟨rfl, rfl, List.forall_mem_nil _⟩

/-! ### Without delay slots (R155) -/

theorem State.linkAddr_of_no_delay {s : State} (noDelay : s.params.branchDelay = false) : s.linkAddr = s.pc + 4 := by
  simp [State.linkAddr, noDelay]

/-- The one effect of a transfer is `pc`. -/
theorem State.transfer_wentTo {s : State} (noDelay : s.params.branchDelay = false) (taken : Bool) (target : Word) :
    ∃ t, s.transfer taken target = .next t ∧ s.WentTo t (if taken then target else s.pc + 4) := by
  rcases s.transfer_cases taken target with ⟨_, went⟩ | ⟨delay, _⟩ | ⟨delay, _⟩
  · refine ⟨_, went, rfl, rfl, fun p _ => ?_⟩
    cases p <;> simp [State.same, State.readR, State.readF]
  all_goals simp [noDelay] at delay

/-- A transfer after a write of `R[rd]` changes `pc` and that register. -/
theorem State.transfer_setR {s : State} (noDelay : s.params.branchDelay = false) (rd : RegNum) (v target : Word) :
    ∃ t, (s.setR rd v).transfer true target = .next t ∧ t.pc = target ∧ t.inDelay = s.inDelay ∧
      (rd ≠ 0 → t.readR rd = v) ∧ (∀ i, i ≠ rd → t.readR i = s.readR i) ∧ s.sameBut t [.general] := by
  obtain ⟨t, ended, atTarget, slot, rest⟩ := (s.setR rd v).transfer_wentTo noDelay true target
  have registers : ∀ i, t.readR i = (s.setR rd v).readR i := rest .general List.not_mem_nil
  exact ⟨t, ended, atTarget, slot, fun nonzero => (registers rd).trans (s.readR_setR_same rd v nonzero),
    fun i other => (registers i).trans (s.readR_setR_ne rd i v other), (s.sameBut_setR rd v).trans (rest.weaken _)⟩

/-- Settles O33: each instruction is a transfer, which without delay slots assigns `pc`, and the link it writes is `pc + 4`. -/
theorem controlTransfers : Obligations.ControlTransfers := by
  intro s rd rs rt imm addr noDelay
  refine ⟨fun p plain => ?_, fun p linking => ?_⟩
  · rw [exec_plainTransfer s rs rt imm addr p plain]
    exact State.transfer_wentTo noDelay p.2.1 p.2.2
  · rw [exec_linkingTransfer s rd rs addr p linking, State.linkAddr_of_no_delay noDelay]
    exact State.transfer_setR noDelay p.2.1 (s.pc + 4) p.2.2

end Sys2Proof.Machine

/-! Multiplication and division (R175, R176, R180, R181, R183, R184): what is written to `Hi` and `Lo`, and nothing else. -/

namespace Sys2Proof.Machine

/-! ### Writes of `Hi` and `Lo` (R27) -/

/-- R27: a write of the pair, then the end of the instruction, changes `Hi` and `Lo` only. -/
theorem State.sameBut_setHiLo_retire (s : State) (hi lo : Word) : s.sameBut (s.setHiLo hi lo).retire [.hiLo] := by
  intro p unlisted
  cases p <;> simp_all [State.same]

theorem State.retired_setHiLo (s : State) (hi lo : Word) : s.Retired (s.setHiLo hi lo).retire :=
  State.retired_retire rfl rfl rfl rfl

/-- R184: `Hi` and `Lo` together hold the product. -/
theorem State.writeProduct_eq (s : State) (p : DWord) :
    ∃ t, s.writeProduct p = .next t ∧ t.hi ++ t.lo = p ∧ s.sameBut t [.hiLo] ∧ s.Retired t :=
  ⟨_, rfl, BitVec.extractLsb'_append_extractLsb' (w := 32) (len := 32), s.sameBut_setHiLo_retire _ _,
    s.retired_setHiLo _ _⟩

/-- R183: a stated result is written as it is. -/
theorem State.writeQuotient_of_stated {s : State} {stated : Bool} (h : stated = true) (quotient remainder : Word) :
    s.writeQuotient stated quotient remainder = .next (s.setHiLo remainder quotient).retire :=
  if_pos h

/-- R183: without a stated result `Hi` and `Lo` receive two draws, and the instruction ends as it does with one. -/
theorem State.writeQuotient_of_not_stated {s : State} {stated : Bool} (h : stated = false) (quotient remainder : Word) :
    ∃ t, s.writeQuotient stated quotient remainder = .next t ∧ s.sameBut t [.hiLo, .draws] ∧ s.Retired t := by
  refine ⟨_, if_neg (Bool.eq_false_iff.mp h), fun p unlisted => ?_, State.retired_retire rfl rfl rfl rfl⟩
  cases p <;> simp_all [State.same]

/-! ### Products (R180, R181, R184) -/

theorem exec_mult (rs rt : RegNum) (s : State) : exec (.mult rs rt) s =
    s.writeProduct (BitVec.ofInt 64 ((s.readR rs).toInt * (s.readR rt).toInt)) := rfl

theorem exec_multu (rs rt : RegNum) (s : State) : exec (.multu rs rt) s =
    s.writeProduct (BitVec.ofNat 64 ((s.readR rs).toNat * (s.readR rt).toNat)) := rfl

/-- The signed product of two words is at most `2 ^ 62` in size, so it fits a doubleword. -/
theorem toInt_ofInt_mul (a b : Word) : (BitVec.ofInt 64 (a.toInt * b.toInt)).toInt = a.toInt * b.toInt := by
  have low : -(2 ^ 62) ≤ a.toInt * b.toInt := BitVec.le_toInt_mul_toInt
  have high : a.toInt * b.toInt ≤ 2 ^ 62 := BitVec.toInt_mul_toInt_le
  exact BitVec.toInt_ofInt_eq_self (by decide) (by omega) (by omega)

/-- The unsigned product of two words fits a doubleword. -/
theorem toNat_ofNat_mul (a b : Word) : (BitVec.ofNat 64 (a.toNat * b.toNat)).toNat = a.toNat * b.toNat := by
  have fits : a.toNat * b.toNat < 2 ^ 32 * 2 ^ 32 := Nat.mul_lt_mul'' a.isLt b.isLt
  rw [BitVec.toNat_ofNat]
  exact Nat.mod_eq_of_lt fits

/-- Settles O30: `Hi` and `Lo` together hold the product modulo `2 ^ 64`, and the product of two words fits. -/
theorem products : Obligations.Products := by
  intro s rs rt
  rw [exec_mult, exec_multu]
  constructor
  · exact (s.writeProduct_eq _).imp fun _ ⟨ended, product, frame⟩ => ⟨ended, by rw [product, toInt_ofInt_mul], frame⟩
  · exact (s.writeProduct_eq _).imp fun _ ⟨ended, product, frame⟩ =>
      ⟨ended, by rw [← toNat_append_eq_add, product, toNat_ofNat_mul], frame⟩

/-! ### Quotients (R175, R176, R183) -/

theorem exec_div (rs rt : RegNum) (s : State) : exec (.div rs rt) s =
    s.writeQuotient (divStated (s.readR rs) (s.readR rt))
      (BitVec.ofInt 32 ((s.readR rs).toInt.tdiv (s.readR rt).toInt))
      (BitVec.ofInt 32 ((s.readR rs).toInt.tmod (s.readR rt).toInt)) := rfl

theorem exec_divu (rs rt : RegNum) (s : State) : exec (.divu rs rt) s =
    s.writeQuotient (decide ((s.readR rt).toNat ≠ 0)) (BitVec.ofNat 32 ((s.readR rs).toNat / (s.readR rt).toNat))
      (BitVec.ofNat 32 ((s.readR rs).toNat % (s.readR rt).toNat)) := rfl

theorem divStated_eq_true_iff (n d : Word) :
    divStated n d = true ↔ d ≠ 0 ∧ ¬(n.toInt = -2 ^ 31 ∧ d.toInt = -1) := by
  simp [divStated, ← BitVec.toInt_inj, imp_iff_not_or]

/-- A stated signed quotient fits a word. -/
theorem toInt_ofInt_tdiv {n d : Word} (fits : ¬(n.toInt = -2 ^ 31 ∧ d.toInt = -1)) :
    (BitVec.ofInt 32 (n.toInt.tdiv d.toInt)).toInt = n.toInt.tdiv d.toInt := by
  have apart : n ≠ BitVec.intMin 32 ∨ d ≠ -1#32 := by
    rw [← not_and_or]
    rintro ⟨rfl, rfl⟩
    exact fits (by decide)
  rw [BitVec.toInt_ofInt, ← BitVec.toInt_sdiv, BitVec.toInt_sdiv_of_ne_or_ne n d apart]

/-- A signed remainder fits a word, whatever the divisor. -/
theorem toInt_ofInt_tmod (n d : Word) :
    (BitVec.ofInt 32 (n.toInt.tmod d.toInt)).toInt = n.toInt.tmod d.toInt := by
  rw [← BitVec.toInt_srem, BitVec.ofInt_toInt]

/-- An unsigned quotient fits a word, whatever the divisor. -/
theorem toNat_ofNat_div (n d : Word) : (BitVec.ofNat 32 (n.toNat / d.toNat)).toNat = n.toNat / d.toNat := by
  rw [← BitVec.toNat_udiv, BitVec.ofNat_toNat, BitVec.setWidth_eq]

/-- An unsigned remainder fits a word, whatever the divisor. -/
theorem toNat_ofNat_mod (n d : Word) : (BitVec.ofNat 32 (n.toNat % d.toNat)).toNat = n.toNat % d.toNat := by
  rw [← BitVec.toNat_umod, BitVec.ofNat_toNat, BitVec.setWidth_eq]

/-- A truncating remainder is smaller in size than the divisor. -/
theorem abs_tmod_lt_abs (n : Int) {d : Int} (h : d ≠ 0) : |n.tmod d| < |d| := by
  have smaller : n.natAbs % d.natAbs < d.natAbs := Nat.mod_lt _ (Int.natAbs_pos.mpr h)
  rw [Int.abs_eq_natAbs, Int.abs_eq_natAbs, Int.natAbs_tmod]
  exact_mod_cast smaller

/-- A truncating remainder is 0 or has the sign of the dividend. -/
theorem tmod_mul_self_nonneg (n d : Int) : 0 ≤ n.tmod d * n := by
  rcases le_total 0 n with nonneg | nonpos
  · exact mul_nonneg (Int.tmod_nonneg d nonneg) nonneg
  · have mirrored : 0 ≤ (-n).tmod d := Int.tmod_nonneg d (by omega)
    rw [Int.neg_tmod] at mirrored
    exact mul_nonneg_of_nonpos_of_nonpos (by omega) nonpos

/-- R183: the division law of `div`. -/
theorem exec_div_of_stated {s : State} {rs rt : RegNum} (divisor : s.readR rt ≠ 0)
    (fits : ¬((s.readR rs).toInt = -2 ^ 31 ∧ (s.readR rt).toInt = -1)) :
    ∃ t, exec (.div rs rt) s = .next t ∧ (s.readR rs).toInt = t.lo.toInt * (s.readR rt).toInt + t.hi.toInt ∧
      |t.hi.toInt| < |(s.readR rt).toInt| ∧ 0 ≤ t.hi.toInt * (s.readR rs).toInt ∧ s.sameBut t [.hiLo] ∧ s.Retired t := by
  have nonzero : (s.readR rt).toInt ≠ 0 := fun zero => divisor (BitVec.toInt_inj.mp zero)
  rw [exec_div, State.writeQuotient_of_stated ((divStated_eq_true_iff _ _).mpr ⟨divisor, fits⟩)]
  refine ⟨_, rfl, ?_, ?_, ?_, s.sameBut_setHiLo_retire _ _, s.retired_setHiLo _ _⟩
  all_goals simp only [State.retire_hi, State.retire_lo, State.setHiLo_hi, State.setHiLo_lo, toInt_ofInt_tmod,
    toInt_ofInt_tdiv fits]
  · exact (Int.tdiv_mul_add_tmod _ _).symm
  · exact abs_tmod_lt_abs _ nonzero
  · exact tmod_mul_self_nonneg _ _

/-- R183: the division law of `divu`. -/
theorem exec_divu_of_ne_zero {s : State} {rs rt : RegNum} (divisor : s.readR rt ≠ 0) :
    ∃ t, exec (.divu rs rt) s = .next t ∧ (s.readR rs).toNat = t.lo.toNat * (s.readR rt).toNat + t.hi.toNat ∧
      t.hi.toNat < (s.readR rt).toNat ∧ s.sameBut t [.hiLo] ∧ s.Retired t := by
  have nonzero : (s.readR rt).toNat ≠ 0 := fun zero => divisor (BitVec.toNat_inj.mp zero)
  rw [exec_divu, State.writeQuotient_of_stated (decide_eq_true nonzero)]
  refine ⟨_, rfl, ?_, ?_, s.sameBut_setHiLo_retire _ _, s.retired_setHiLo _ _⟩
  all_goals simp only [State.retire_hi, State.retire_lo, State.setHiLo_hi, State.setHiLo_lo, toNat_ofNat_div,
    toNat_ofNat_mod]
  · exact (Nat.div_add_mod' _ _).symm
  · exact Nat.mod_lt _ (Nat.pos_of_ne_zero nonzero)

/-- Settles O31: a result is stated exactly off the corners, where truncating division keeps the law and fits the words. -/
theorem quotients : Obligations.Quotients := by
  intro s rs rt
  refine ⟨exec_div_of_stated, exec_divu_of_ne_zero, fun corner => ?_, fun zero => ?_⟩
  · rw [exec_div]
    refine State.writeQuotient_of_not_stated (Bool.eq_false_iff.mpr fun stated => ?_) _ _
    obtain ⟨divisor, fits⟩ := (divStated_eq_true_iff _ _).mp stated
    exact corner.elim divisor fits
  · rw [exec_divu]
    exact State.writeQuotient_of_not_stated (by simp [zero]) _ _

end Sys2Proof.Machine

/-! The conversions without an operation (R283, R286): `cvt.s.s` and `cvt.d.d`, as instructions and as words. -/

namespace Sys2Proof

/-- R101, R108, R214: the word of a well-formed instruction that matches its own row decodes to that instruction. -/
theorem decode_encode {i : Instr} (row : Laws.RoundTrip.Statement i) (wf : i.wellFormed = true) :
    decode (bytesOfWord (encode i)) = .ok i := by
  obtain ⟨m, matched, unused⟩ := row
  rw [decode_bytesOfWord]
  simp [decodeWord, matched, unused, wf]

end Sys2Proof

namespace Sys2Proof.Machine

/-- R113: what is refused stays refused, whether or not the instruction is admitted. -/
theorem State.ifAdmitted_refused (s : State) (i : Instr) (r : Refusal) : ∃ r', s.ifAdmitted i (.refused r) = .refused r' := by
  by_cases barred : i.namedOnly = true ∧ s.params.admitNamedOnly = false
  · obtain ⟨named, notAdmitted⟩ := barred
    exact ⟨.namedOnly, State.ifAdmitted_of_not_admitted _ named notAdmitted⟩
  · exact ⟨r, State.ifAdmitted_of_admitted _ fun named => by simpa [named] using barred⟩

/-- R101: the word of an instruction outside opcode `0x10` is refused when the instruction is. -/
theorem State.runWord_encode_refused {s : State} {i : Instr} {r : Refusal} (decoded : decode (bytesOfWord (encode i)) = .ok i)
    (opcode : opcodeOf (encode i) ≠ 0x10#6) (refused : exec i s = .refused r) :
    ∃ r', s.runWord (encode i) = .refused r' := by
  rw [State.runWord_of_ok i (fun _ => opcode) decoded, refused]
  exact s.ifAdmitted_refused i r

theorem exec_cvtSS (fd fs : FRegNum) (s : State) : exec (.cvtSS fd fs) s = .refused .noOperation := rfl

theorem exec_cvtDD (fd fs : FRegNum) (s : State) : exec (.cvtDD fd fs) s = .refused .noOperation := rfl

/-- Settles O56: each of the two words decodes to its instruction, odd registers included, and that has no operation. -/
theorem noOperation : Obligations.NoOperation := by
  intro s fd fs i named
  obtain rfl | rfl : i = .cvtSS fd fs ∨ i = .cvtDD fd fs := by simpa using named
  · exact ⟨exec_cvtSS fd fs s, State.runWord_encode_refused (decode_encode (Laws.RoundTrip.cvtSS fd fs) rfl)
      (by simp [encode]) (exec_cvtSS fd fs s)⟩
  · exact ⟨exec_cvtDD fd fs s, State.runWord_encode_refused (decode_encode (Laws.RoundTrip.cvtDD fd fs) rfl)
      (by simp [encode]) (exec_cvtDD fd fs s)⟩

end Sys2Proof.Machine

/-! Traps (R331, R340, R349, R388) and the return from one (R358, R361, R387). -/

namespace Sys2Proof.Machine

/-! ### Trap entry -/

/-- Settles O16: each clause is the law of trap entry at one exception, whose code and address R331 lists. -/
theorem trapEntry : Obligations.TrapEntry := fun s a =>
  ⟨s.tookTrap_trap .int, s.tookTrap_trap (.adEL a), s.tookTrap_trap (.adES a), s.tookTrap_trap .ibe, s.tookTrap_trap .dbe,
    s.tookTrap_trap .sys, s.tookTrap_trap .bp, s.tookTrap_trap .ri, s.tookTrap_trap .cpU, s.tookTrap_trap .ov,
    s.tookTrap_trap .tr, s.tookTrap_trap .fpe⟩

/-! ### The word of `eret` -/

/-- R361: a word of opcode `0x10` in user mode. -/
theorem State.runWord_of_user_cop0 {s : State} {w : Word} (user : s.userMode = true) (opcode : opcodeOf w = 0x10#6) :
    s.runWord w = .next (s.trap .cpU) := by
  simp [State.runWord, user, opcode]

/-- R357, R358: a word of the extension does what its instruction means. -/
theorem State.runReserved_of_ext {s : State} {w : Word} {i : ExtInstr} (ext : s.params.extCp0Return = true)
    (decoded : decodeExt w = some i) : s.runReserved w = execExt i s := by
  simp [State.runReserved, ext, decoded]

theorem opcodeOf_eretWord : opcodeOf 0x42000018#32 = 0x10#6 := by decide

/-- R358: `eret` matches no row of the opcode table. -/
theorem decode_eretWord : decode (bytesOfWord 0x42000018#32) = .error .reserved := by decide

theorem decodeExt_eretWord : decodeExt 0x42000018#32 = some .eret := by decide

/-- With the extension, the word of `eret` in kernel mode is `eret`. -/
theorem State.runWord_eret {s : State} (ext : s.params.extCp0Return = true) (kernel : s.userMode = false) :
    s.runWord 0x42000018#32 = execEret s := by
  rw [State.runWord_of_reserved (fun user => by simp [kernel] at user) decode_eretWord,
    State.runReserved_of_ext ext decodeExt_eretWord]
  rfl

/-! ### What `eret` does in kernel mode -/

theorem State.inSlot_eq_true_iff (s : State) : s.inSlot = true ↔ s.params.branchDelay = true ∧ s.inDelay = true :=
  Bool.and_eq_true_iff

theorem State.kernelOnly_of_kernel {s : State} (o : Outcome) (kernel : s.userMode = false) : s.kernelOnly o = o := by
  simp [State.kernelOnly, kernel]

/-- R358: outside a delay slot `eret` returns from the trap. -/
theorem execEret_of_not_inSlot {s : State} (kernel : s.userMode = false) (outside : ¬s.inSlot = true) :
    execEret s = .next s.returnFromTrap := by
  rw [execEret, State.kernelOnly_of_kernel _ kernel, if_neg outside]

/-- R387: in a delay slot `eret` is refused. -/
theorem execEret_of_inSlot {s : State} (kernel : s.userMode = false) (inside : s.inSlot = true) :
    execEret s = .refused .transferInDelaySlot := by
  rw [execEret, State.kernelOnly_of_kernel _ kernel, if_pos inside]

/-- R358: beside `pc`, the return from a trap changes parts of the exception registers and the pair only. -/
theorem State.sameBut_returnFromTrap (s : State) : s.sameBut s.returnFromTrap [.exception, .pair] := by
  intro p unlisted
  cases p <;> simp_all [State.same]

/-- Settles O15: the word is `CpU` in user mode by its opcode alone; in kernel mode it is `eret`, refused exactly in a slot. -/
theorem exceptionReturn : Obligations.ExceptionReturn := by
  intro s ext
  refine ⟨fun user => ?_, fun kernel outside => ?_, fun kernel delay slot => ?_⟩
  · exact ⟨_, State.runWord_of_user_cop0 user opcodeOf_eretWord, s.tookTrap_trap .cpU⟩
  · have returned : s.runWord 0x42000018#32 = .next s.returnFromTrap := by
      rw [State.runWord_eret ext kernel, execEret_of_not_inSlot kernel (mt s.inSlot_eq_true_iff.mp outside)]
    exact ⟨_, returned, rfl, rfl, rfl, rfl, rfl, rfl, rfl, rfl, rfl, s.sameBut_returnFromTrap⟩
  · rw [State.runWord_eret ext kernel, execEret_of_inSlot kernel (s.inSlot_eq_true_iff.mpr ⟨delay, slot⟩)]

end Sys2Proof.Machine

/-! Encoding and decoding are inverse (R101, R108, R214). -/

namespace Sys2Proof.Laws.RoundTrip

/-- The encoder's word of any instruction matches the instruction's row. -/
theorem statement (i : Instr) : Statement i :=
  match i with
  | .add .. => add ..
  | .addi .. => addi ..
  | .addiu .. => addiu ..
  | .addu .. => addu ..
  | .and .. => and ..
  | .andi .. => andi ..
  | .lui .. => lui ..
  | .nor .. => nor ..
  | .or .. => or ..
  | .ori .. => ori ..
  | .slt .. => slt ..
  | .slti .. => slti ..
  | .sltiu .. => sltiu ..
  | .sltu .. => sltu ..
  | .sll .. => sll ..
  | .srl .. => srl ..
  | .sub .. => sub ..
  | .subu .. => subu ..
  | .beq .. => beq ..
  | .bne .. => bne ..
  | .j .. => j ..
  | .jal .. => jal ..
  | .jr .. => jr ..
  | .lbu .. => lbu ..
  | .lhu .. => lhu ..
  | .ll .. => ll ..
  | .lw .. => lw ..
  | .sb .. => sb ..
  | .sc .. => sc ..
  | .sh .. => sh ..
  | .sw .. => sw ..
  | .div .. => div ..
  | .divu .. => divu ..
  | .mfhi .. => mfhi ..
  | .mflo .. => mflo ..
  | .mfc0 .. => mfc0 ..
  | .mult .. => mult ..
  | .multu .. => multu ..
  | .sra .. => sra ..
  | .bc1t .. => bc1t ..
  | .bc1f .. => bc1f ..
  | .addS .. => addS ..
  | .addD .. => addD ..
  | .cEqS .. => cEqS ..
  | .cLtS .. => cLtS ..
  | .cLeS .. => cLeS ..
  | .cEqD .. => cEqD ..
  | .cLtD .. => cLtD ..
  | .cLeD .. => cLeD ..
  | .divS .. => divS ..
  | .divD .. => divD ..
  | .mulS .. => mulS ..
  | .mulD .. => mulD ..
  | .subS .. => subS ..
  | .subD .. => subD ..
  | .lwc1 .. => lwc1 ..
  | .ldc1 .. => ldc1 ..
  | .swc1 .. => swc1 ..
  | .sdc1 .. => sdc1 ..
  | .blez .. => blez ..
  | .bgtz .. => bgtz ..
  | .xori .. => xori ..
  | .lb .. => lb ..
  | .lh .. => lh ..
  | .sllv .. => sllv ..
  | .srlv .. => srlv ..
  | .srav .. => srav ..
  | .jalr .. => jalr ..
  | .xor .. => xor ..
  | .mthi .. => mthi ..
  | .mtlo .. => mtlo ..
  | .movz .. => movz ..
  | .movn .. => movn ..
  | .syscall .. => syscall ..
  | .sync .. => sync ..
  | .brk .. => brk ..
  | .lwl .. => lwl ..
  | .lwr .. => lwr ..
  | .swl .. => swl ..
  | .swr .. => swr ..
  | .cache .. => cache ..
  | .pref .. => pref ..
  | .tge .. => tge ..
  | .tgeu .. => tgeu ..
  | .tlt .. => tlt ..
  | .tltu .. => tltu ..
  | .teq .. => teq ..
  | .tne .. => tne ..
  | .lwc2 .. => lwc2 ..
  | .ldc2 .. => ldc2 ..
  | .swc2 .. => swc2 ..
  | .sdc2 .. => sdc2 ..
  | .sqrtS .. => sqrtS ..
  | .sqrtD .. => sqrtD ..
  | .absS .. => absS ..
  | .absD .. => absD ..
  | .movS .. => movS ..
  | .movD .. => movD ..
  | .negS .. => negS ..
  | .negD .. => negD ..
  | .movzS .. => movzS ..
  | .movzD .. => movzD ..
  | .movnS .. => movnS ..
  | .movnD .. => movnD ..
  | .cvtSS .. => cvtSS ..
  | .cvtSD .. => cvtSD ..
  | .cvtDS .. => cvtDS ..
  | .cvtDD .. => cvtDD ..
  | .cvtWS .. => cvtWS ..
  | .cvtWD .. => cvtWD ..
  | .roundWS .. => roundWS ..
  | .roundWD .. => roundWD ..
  | .truncWS .. => truncWS ..
  | .truncWD .. => truncWD ..
  | .ceilWS .. => ceilWS ..
  | .ceilWD .. => ceilWD ..
  | .floorWS .. => floorWS ..
  | .floorWD .. => floorWD ..
  | .cFS .. => cFS ..
  | .cFD .. => cFD ..
  | .cUnS .. => cUnS ..
  | .cUnD .. => cUnD ..
  | .cUeqS .. => cUeqS ..
  | .cUeqD .. => cUeqD ..
  | .cOltS .. => cOltS ..
  | .cOltD .. => cOltD ..
  | .cUltS .. => cUltS ..
  | .cUltD .. => cUltD ..
  | .cOleS .. => cOleS ..
  | .cOleD .. => cOleD ..
  | .cUleS .. => cUleS ..
  | .cUleD .. => cUleD ..
  | .cSfS .. => cSfS ..
  | .cSfD .. => cSfD ..
  | .cNgleS .. => cNgleS ..
  | .cNgleD .. => cNgleD ..
  | .cSeqS .. => cSeqS ..
  | .cSeqD .. => cSeqD ..
  | .cNglS .. => cNglS ..
  | .cNglD .. => cNglD ..
  | .cNgeS .. => cNgeS ..
  | .cNgeD .. => cNgeD ..
  | .cNgtS .. => cNgtS ..
  | .cNgtD .. => cNgtD ..

end Sys2Proof.Laws.RoundTrip

namespace Sys2Proof

/-- Settles O1: the word of each instruction matches its own row, and a well-formed one has no odd double. -/
theorem decodeOfEncode : Obligations.DecodeOfEncode :=
  fun i wf => decode_encode (Laws.RoundTrip.statement i) wf

/-! ### A word is made of its fields

So a word that the encoder makes of given fields is one that has those fields. -/

theorem encR_fields (w : Word) : encR (opcodeOf w) (rsOf w) (rtOf w) (rdOf w) (shamtOf w) (functOf w) = w := by
  apply BitVec.eq_of_getLsbD_eq
  intro k hk
  simp only [encR, opcodeOf, rsOf, rtOf, rdOf, shamtOf, functOf, BitVec.getLsbD_append, BitVec.getLsbD_extractLsb']
  interval_cases k <;> rfl

theorem encI_fields (w : Word) : encI (opcodeOf w) (rsOf w) (rtOf w) (immOf w) = w := by
  apply BitVec.eq_of_getLsbD_eq
  intro k hk
  simp only [encI, opcodeOf, rsOf, rtOf, immOf, BitVec.getLsbD_append, BitVec.getLsbD_extractLsb']
  interval_cases k <;> rfl

theorem encJ_fields (w : Word) : encJ (opcodeOf w) (addrOf w) = w := by
  apply BitVec.eq_of_getLsbD_eq
  intro k hk
  simp only [encJ, opcodeOf, addrOf, BitVec.getLsbD_append, BitVec.getLsbD_extractLsb']
  interval_cases k <;> rfl

theorem opcode_code_funct_fields (w : Word) : opcodeOf w ++ codeOf w ++ functOf w = w := by
  apply BitVec.eq_of_getLsbD_eq
  intro k hk
  simp only [opcodeOf, codeOf, functOf, BitVec.getLsbD_append, BitVec.getLsbD_extractLsb']
  interval_cases k <;> rfl

theorem opcode_trapCode_funct_fields (w : Word) :
    opcodeOf w ++ rsOf w ++ rtOf w ++ trapCodeOf w ++ functOf w = w := by
  apply BitVec.eq_of_getLsbD_eq
  intro k hk
  simp only [opcodeOf, rsOf, rtOf, trapCodeOf, functOf, BitVec.getLsbD_append, BitVec.getLsbD_extractLsb']
  interval_cases k <;> rfl

theorem encR_eq_iff (w : Word) (op : BitVec 6) (rs rt rd shamt : BitVec 5) (funct : BitVec 6) :
    encR op rs rt rd shamt funct = w ↔
      opcodeOf w = op ∧ rsOf w = rs ∧ rtOf w = rt ∧ rdOf w = rd ∧ shamtOf w = shamt ∧ functOf w = funct := by
  constructor
  · rintro rfl; simp
  · rintro ⟨rfl, rfl, rfl, rfl, rfl, rfl⟩; exact encR_fields w

theorem encI_eq_iff (w : Word) (op : BitVec 6) (rs rt : BitVec 5) (imm : BitVec 16) :
    encI op rs rt imm = w ↔ opcodeOf w = op ∧ rsOf w = rs ∧ rtOf w = rt ∧ immOf w = imm := by
  constructor
  · rintro rfl; simp
  · rintro ⟨rfl, rfl, rfl, rfl⟩; exact encI_fields w

theorem encJ_eq_iff (w : Word) (op : BitVec 6) (addr : BitVec 26) :
    encJ op addr = w ↔ opcodeOf w = op ∧ addrOf w = addr := by
  constructor
  · rintro rfl; simp
  · rintro ⟨rfl, rfl⟩; exact encJ_fields w

theorem encCode_eq_iff (w : Word) (code : BitVec 20) (funct : BitVec 6) :
    encCode code funct = w ↔ opcodeOf w = 0x00#6 ∧ codeOf w = code ∧ functOf w = funct := by
  constructor
  · rintro rfl; simp
  · rintro ⟨op, rfl, rfl⟩; rw [encCode, ← op]; exact opcode_code_funct_fields w

theorem encTrap_eq_iff (w : Word) (rs rt : BitVec 5) (code : BitVec 10) (funct : BitVec 6) :
    encTrap rs rt code funct = w ↔
      opcodeOf w = 0x00#6 ∧ rsOf w = rs ∧ rtOf w = rt ∧ trapCodeOf w = code ∧ functOf w = funct := by
  constructor
  · rintro rfl; simp
  · rintro ⟨op, rfl, rfl, rfl, rfl⟩; rw [encTrap, ← op]; exact opcode_trapCode_funct_fields w

/-! ### A mask that finds its field zero (R108) -/

/-- A word whose bits under the mask of a field of five bits are zero has that field zero. -/
theorem extractLsb'_eq_zero_of_mask {w m : Word} {k : Nat} (mask : ∀ j < 5, m.getLsbD (k + j) = true)
    (unused : w &&& m = 0#32) : w.extractLsb' k 5 = 0#5 := by
  apply BitVec.eq_of_getLsbD_eq
  intro j hj
  have bit := congrArg (BitVec.getLsbD · (k + j)) unused
  simpa [mask j hj, hj] using bit

theorem rsOf_eq_zero {w : Word} : w &&& rsMask = 0#32 → rsOf w = 0#5 := extractLsb'_eq_zero_of_mask (by decide)

theorem rtOf_eq_zero {w : Word} : w &&& rtMask = 0#32 → rtOf w = 0#5 := extractLsb'_eq_zero_of_mask (by decide)

theorem rdOf_eq_zero {w : Word} : w &&& rdMask = 0#32 → rdOf w = 0#5 := extractLsb'_eq_zero_of_mask (by decide)

theorem shamtOf_eq_zero {w : Word} : w &&& shamtMask = 0#32 → shamtOf w = 0#5 := extractLsb'_eq_zero_of_mask (by decide)

/-! ### The encoder writes the word of each row (R103 to R106)

In each branch of a column the word's selecting fields are known, the row's operands are read from the word, and its unused fields
are zero: so the word that the encoder makes has the fields of the word decoded. -/

section Rows

variable {w : Word} {i : Instr} {m : Word}

theorem encode_of_decodeSpecial (op : opcodeOf w = 0x00#6) (unused : w &&& m = 0#32)
    (row : decodeSpecial w = some (i, m)) : encode i = w := by
  unfold decodeSpecial at row
  split at row <;> cases row
  all_goals simp_all [encode, encR_eq_iff, encCode_eq_iff, encTrap_eq_iff, and_or_eq_zero, rsOf_eq_zero, rtOf_eq_zero,
    rdOf_eq_zero, shamtOf_eq_zero]

theorem encode_of_decodeSingle (op : opcodeOf w = 0x11#6) (fmt : rsOf w = 0x10#5) (unused : w &&& m = 0#32)
    (row : decodeSingle w = some (i, m)) : encode i = w := by
  unfold decodeSingle at row
  split at row <;> cases row
  all_goals simp_all [encode, encR_eq_iff, rtOf_eq_zero, shamtOf_eq_zero]

theorem encode_of_decodeDouble (op : opcodeOf w = 0x11#6) (fmt : rsOf w = 0x11#5) (unused : w &&& m = 0#32)
    (row : decodeDouble w = some (i, m)) : encode i = w := by
  unfold decodeDouble at row
  split at row <;> cases row
  all_goals simp_all [encode, encR_eq_iff, rtOf_eq_zero, shamtOf_eq_zero]

theorem encode_of_decodeFpBranch (op : opcodeOf w = 0x11#6) (fmt : rsOf w = 0x08#5)
    (row : decodeFpBranch w = some (i, m)) : encode i = w := by
  unfold decodeFpBranch at row
  split at row <;> cases row
  all_goals simp_all [encode, encI_eq_iff]

theorem encode_of_decodeCop1 (op : opcodeOf w = 0x11#6) (unused : w &&& m = 0#32)
    (row : decodeCop1 w = some (i, m)) : encode i = w := by
  unfold decodeCop1 at row
  split at row
  next fmt => exact encode_of_decodeFpBranch op fmt row
  next fmt => exact encode_of_decodeSingle op fmt unused row
  next fmt => exact encode_of_decodeDouble op fmt unused row
  next => cases row

theorem encode_of_decodeCop0 (op : opcodeOf w = 0x10#6) (unused : w &&& m = 0#32)
    (row : decodeCop0 w = some (i, m)) : encode i = w := by
  unfold decodeCop0 at row
  split at row <;> cases row
  simp_all [encode, encR_eq_iff, shamtOf_eq_zero]

/-- R101, R108: the encoder writes a word for its row's instruction when no unused field of it is set. -/
theorem encode_of_decodeRow (unused : w &&& m = 0#32) (row : decodeRow w = some (i, m)) : encode i = w := by
  unfold decodeRow at row
  split at row
  next op => exact encode_of_decodeSpecial op unused row
  next op => exact encode_of_decodeCop0 op unused row
  next op => exact encode_of_decodeCop1 op unused row
  all_goals cases row
  all_goals simp_all [encode, encI_eq_iff, encJ_eq_iff, rsOf_eq_zero, rtOf_eq_zero]

end Rows

/-- Settles O2: what decodes is a row's instruction with no unused field set, which the encoder writes back. -/
theorem encodeOfDecode : Obligations.EncodeOfDecode := by
  intro w i answer
  rw [decode_bytesOfWord] at answer
  obtain ⟨⟨m, row, unused⟩, wf⟩ := decodeWord_eq_ok answer
  exact ⟨encode_of_decodeRow unused row, wf⟩

/-- Settles O4: the decoder answers each printed word by evaluation. -/
theorem printedWordsDecode : Obligations.PrintedWordsDecode :=
  ⟨by decide, by decide, by decide, by decide, by decide, by decide⟩

end Sys2Proof

/-! What every step keeps: the invariant, and who may write the control and exception registers (R350, R360, R362). -/

namespace Sys2Proof.Machine

/-! ### The invariant -/

theorem Ran.inv {s t : State} (ran : Ran s t) (inv : s.Inv) : t.Inv where
  memory := ran.memory inv.memory
  zero := ran.zero inv.zero
  slot := fun noDelay => by
    have same : s.params.branchDelay = false := by rw [← ran.outside.1]; exact noDelay
    rw [ran.slot same, inv.slot same]
  pair := fun isOpen => by
    rcases ran.pair isOpen with ⟨wasOpen, sameAddr⟩ | aligned
    · rw [sameAddr]; exact inv.pair wasOpen
    · exact aligned
  stores := ran.stores inv.stores

theorem State.Inv.sampleEnv {s : State} (inv : s.Inv) : s.sampleEnv.Inv := by
  cases events : s.env with
  | nil => rw [s.sampleEnv_of_nil events]; exact ⟨inv.memory, inv.zero, inv.slot, inv.pair, inv.stores⟩
  | cons e rest =>
    rw [s.sampleEnv_of_cons e rest events]
    exact (Ran.otherWrites _ _).inv ⟨inv.memory, inv.zero, inv.slot, inv.pair, inv.stores⟩

/-- Trap entry closes the pair and the delay slot. -/
theorem State.Inv.trap {s : State} (inv : s.Inv) (x : Exc) : (s.trap x).Inv :=
  ⟨inv.memory, inv.zero, fun _ => rfl, fun isOpen => by simp at isOpen, inv.stores⟩

theorem State.Inv.writeCR {s : State} (inv : s.Inv) (n : CRegNum) (v : Word) : (s.writeCR n v).Inv :=
  ⟨inv.memory, inv.zero, inv.slot, inv.pair, inv.stores⟩

theorem State.Inv.returnFromTrap {s : State} (inv : s.Inv) : s.returnFromTrap.Inv :=
  ⟨inv.memory, inv.zero, inv.slot, fun isOpen => by simp at isOpen, inv.stores⟩

/-- Settles O18: sampling keeps the invariant, and so does each kind of step from the sampled state. -/
theorem stepKeepsInvariant : Obligations.StepKeepsInvariant := by
  intro s t inv stepped
  obtain ⟨u, sampled, kind⟩ := step_kinds s t stepped
  have invU : u.Inv := by
    rcases sampled with rfl | rfl
    · exact inv.sampleEnv
    · exact (Ran.otherWrites _ _).inv inv.sampleEnv
  rcases kind with ⟨x, rfl⟩ | ran | ⟨_, _, ⟨n, v, rfl⟩ | rfl⟩
  · exact invU.trap x
  · exact ran.inv invU
  · exact (Ran.retire _).inv (invU.writeCR n v)
  · exact invU.returnFromTrap

/-- Settles O19: nothing is listed, open or in a slot after reset. -/
theorem resetInvariant : Obligations.ResetInvariant := fun p =>
  ⟨State.resetWith_mem_wf p, rfl, fun _ => rfl, fun isOpen => Bool.noConfusion isOpen, List.Pairwise.nil⟩

/-- Settles O20: each value is a field of the state after reset. -/
theorem resetValues : Obligations.ResetValues := fun _ => ⟨rfl, rfl, rfl, rfl, rfl, rfl, rfl, rfl, rfl⟩

/-! ### What the outside world leaves alone -/

/-- The parts of `s` that neither the inputs of a step nor the writes of other agents touch are in `u` as in `s`. -/
structure Sampled (s u : State) : Prop where
  um : u.statusUm = s.statusUm
  ie : u.statusIe = s.statusIe
  mask : u.intMask = s.intMask
  exception : s.same u .exception
  params : u.params = s.params

theorem Sampled.of_step {s u : State} (h : u = s.sampleEnv ∨ u = s.sampleEnv.fetched) : Sampled s u := by
  rcases h with rfl | rfl
  all_goals exact ⟨by simp, by simp, by simp, by simp [State.same], by simp⟩

/-- R360: the mode depends on Status alone. -/
theorem State.userMode_congr {s t : State} (um : t.statusUm = s.statusUm) (el : t.statusEl = s.statusEl) :
    t.userMode = s.userMode := by
  simp only [State.userMode, um, el]

theorem State.userMode_eq_true_iff (s : State) : s.userMode = true ↔ s.statusUm = true ∧ s.statusEl = false := by
  simp [State.userMode]

theorem State.userMode_trap (s : State) (x : Exc) : (s.trap x).userMode = false := by
  simp [State.userMode]

theorem Sampled.userMode {s u : State} (h : Sampled s u) : u.userMode = s.userMode :=
  State.userMode_congr h.um h.exception.1

theorem Ran.userMode {s t : State} (h : Ran s t) : t.userMode = s.userMode :=
  State.userMode_congr h.control.1 h.exception.1

/-- What the outside world left alone and an instruction without a trap leaves alone too. -/
theorem Sampled.ran {s u t : State} (h : Sampled s u) (ran : Ran u t) : Sampled s t := by
  obtain ⟨um, ie, mask, _⟩ := ran.control
  exact ⟨um.trans h.um, ie.trans h.ie, mask.trans h.mask, h.exception.trans ran.exception, ran.outside.1.trans h.params⟩

/-! ### Who writes the control and exception registers -/

/-- Settles O21: without the extension a step is a trap entry or a run without one, and neither writes these fields. -/
theorem controlIsReadOnly : Obligations.ControlIsReadOnly := by
  intro s t noExt stepped
  obtain ⟨u, sampled, kind⟩ := step_kinds s t stepped
  have before := Sampled.of_step sampled
  rcases kind with ⟨x, rfl⟩ | ran | ⟨ext, _⟩
  · exact ⟨before.um, before.ie, before.mask, fun _ => rfl, fun _ => u.userMode_trap x⟩
  · have after := before.ran ran
    exact ⟨after.um, after.ie, after.mask, fun level => after.exception.1.trans level, fun kernel => after.userMode.trans kernel⟩
  · simp [noExt] at ext

/-- R331: every code that a trap entry writes is one of the table. -/
theorem Exc.code_mem (x : Exc) : x.code ∈ exceptionCodes := by
  cases x <;> simp [Exc.code, exceptionCodes]

/-- R340: only codes 4 and 5 record an address. -/
theorem Exc.code_of_badAddr {x : Exc} (h : x.badAddr ≠ none) : x.code = 4 ∨ x.code = 5 := by
  cases x <;> simp_all [Exc.badAddr, Exc.code]

/-- Settles O22: trap entry is the one kind of step that writes Cause.ExceptionCode and BadVAddr, and without the extension EPC
and Cause.BD. -/
theorem trapRegisters : Obligations.TrapRegisters := by
  intro s t stepped
  obtain ⟨u, sampled, kind⟩ := step_kinds s t stepped
  have before := Sampled.of_step sampled
  obtain ⟨el, bd, code, epc, badVAddr⟩ := before.exception
  rcases kind with ⟨x, rfl⟩ | ran | ⟨ext, _, written⟩
  · have vector : (u.trap x).pc = s.params.excVector := congrArg Config.Params.excVector before.params
    refine ⟨fun _ => ⟨x.code_mem, rfl, vector⟩, fun changed => ⟨Exc.code_of_badAddr fun none => changed ?_, rfl, vector⟩,
      fun _ changed => ⟨?_, rfl, vector⟩⟩
    · simp [none, badVAddr]
    · rw [← el]
      refine Bool.eq_false_iff.mpr fun nested => ?_
      simp [nested, epc, bd] at changed
  · obtain ⟨_, bd', code', epc', badVAddr'⟩ := (before.ran ran).exception
    exact ⟨fun changed => absurd code' changed, fun changed => absurd badVAddr' changed,
      fun _ changed => by simp [epc', bd'] at changed⟩
  · have kept : t.causeExcCode = s.causeExcCode ∧ t.badVAddr = s.badVAddr := by
      rcases written with ⟨n, v, rfl⟩ | rfl
      · exact ⟨code, badVAddr⟩
      · exact ⟨code, badVAddr⟩
    exact ⟨fun changed => absurd kept.1 changed, fun changed => absurd kept.2 changed, fun noExt => by simp [noExt] at ext⟩

/-- Settles O23: a step in user mode is a trap entry or a run without one, with or without the extension. -/
theorem userModeIsConfined : Obligations.UserModeIsConfined := by
  intro s t user stepped
  obtain ⟨u, sampled, kind⟩ := step_kinds s t stepped
  have before := Sampled.of_step sampled
  rcases kind with ⟨x, rfl⟩ | ran | ⟨_, kernel, _⟩
  · exact ⟨before.um, before.ie, before.mask, before.params, .inl ⟨u.userMode_trap x, congrArg Config.Params.excVector before.params⟩⟩
  · have after := before.ran ran
    exact ⟨after.um, after.ie, after.mask, after.params, .inr after.exception⟩
  · simp [user] at kernel

/-! ### How user mode is entered (R360) -/

/-- R357, R358: an instruction of the extension that goes from kernel mode to user mode is `eret`, or `mtc0` to Status. -/
theorem execExt_enters_user {s t : State} {i : ExtInstr} (kernel : s.userMode = false) (ended : execExt i s = .next t)
    (user : t.userMode = true) : i = .eret ∨ ∃ rt, i = .mtc0 rt s.params.crStatus := by
  cases i with
  | eret => exact .inl rfl
  | mtc0 rt rd =>
    refine .inr ⟨rt, ?_⟩
    have wrote : t = (s.writeCR rd (s.readR rt)).retire := by
      rw [execExt, execMtc0, State.kernelOnly_of_kernel _ kernel] at ended
      cases ended; rfl
    by_contra other
    have kept : t.userMode = s.userMode := by
      rw [wrote]
      refine State.userMode_congr ?_ ?_ <;> simp_all
    simp [kept, kernel] at user

/-- R360: a fetched word that leads from kernel mode to user mode is one of the extension's. -/
theorem State.runWord_enters_user {s t : State} {w : Word} (kernel : s.userMode = false) (ran : s.runWord w = .next t)
    (user : t.userMode = true) :
    s.params.extCp0Return = true ∧ (decodeExt w = some .eret ∨ ∃ rt, decodeExt w = some (.mtc0 rt s.params.crStatus)) := by
  rcases State.runWord_next ran with ⟨_, _, rfl⟩ | ⟨i, _, _, ended⟩ | ⟨_, rfl⟩ | ⟨_, ext, i, decoded, ended⟩
  · simp [State.userMode_trap] at user
  · rcases EndsFrom.exec i s t ended with ⟨x, rfl⟩ | ran
    · simp [State.userMode_trap] at user
    · simp [ran.userMode, kernel] at user
  · simp [State.userMode_trap] at user
  · rw [decoded]
    refine ⟨ext, (execExt_enters_user kernel ended user).imp ?_ ?_⟩
    · rintro rfl; rfl
    · rintro ⟨rt, rfl⟩; exact ⟨rt, rfl⟩

/-- Settles O17: of all that a step can do, only a word of the extension leads from kernel mode to user mode. -/
theorem modes : Obligations.Modes := by
  refine ⟨State.userMode_eq_true_iff, State.userMode_trap, fun _ => rfl, fun s t kernel stepped user => ?_⟩
  rcases step_cases s with ⟨_, ended⟩ | ⟨_, x, _, ended⟩ | ⟨_, _, ended⟩ | ⟨_, w, fetched, ended⟩ <;> rw [stepped] at ended
  · cases ended; simp [State.userMode_trap] at user
  · cases ended; simp [State.userMode_trap] at user
  · cases ended
  · obtain ⟨ext, decoded⟩ := State.runWord_enters_user (by simpa using kernel) ended.symm user
    simp only [State.fetched_eq, State.otherWrites_params, State.sampleEnv_params] at ext decoded
    exact ⟨ext, w, fetched, decoded⟩

end Sys2Proof.Machine

/-! The step (R15, R41, R66 to R68, R76, R79, R345, R361): interrupts, the writes of other agents, the fetch, the word fetched. -/

namespace Sys2Proof.Machine

/-! ### Memory: the canonical form is unique (log 6) -/

/-- In canonical form the least address that does not read as unlisted is the first listed. -/
theorem readCells_head_ne {lo k : Nat} {b : Byte} {rest : List Host.Cell} (wf : cellsWf lo ((k, b) :: rest) = true) :
    lo ≤ k ∧ k < 2 ^ 32 ∧ readCells ((k, b) :: rest) k ≠ unlistedByte ∧
      ∀ a < k, readCells ((k, b) :: rest) a = unlistedByte := by
  have fromHead : cellsWf k ((k, b) :: rest) = true := by simp_all [cellsWf]
  simp only [cellsWf, Bool.and_eq_true, decide_eq_true_eq] at wf
  obtain ⟨⟨⟨low, high⟩, listed⟩, _⟩ := wf
  exact ⟨low, high, by simpa [readCells] using listed, fun a below => readCells_below _ k a fromHead below⟩

/-- Two lists of cells in canonical form that read alike at every address are equal. -/
theorem cells_ext {lo : Nat} {l l' : List Host.Cell} (wf : cellsWf lo l = true) (wf' : cellsWf lo l' = true)
    (alike : ∀ a < 2 ^ 32, readCells l a = readCells l' a) : l = l' := by
  induction l generalizing lo l' with
  | nil =>
    cases l' with
    | nil => rfl
    | cons c' rest' =>
      obtain ⟨_, high, listed, _⟩ := readCells_head_ne wf'
      exact absurd (alike _ high).symm listed
  | cons c rest ih =>
    obtain ⟨k, b⟩ := c
    obtain ⟨_, high, listed, below⟩ := readCells_head_ne wf
    cases l' with
    | nil => exact absurd (alike _ high) listed
    | cons c' rest' =>
      obtain ⟨k', b'⟩ := c'
      obtain ⟨_, high', listed', below'⟩ := readCells_head_ne wf'
      obtain rfl : k = k' := by
        rcases Nat.lt_trichotomy k k' with less | same | greater
        · exact absurd ((alike k high).trans (below' k less)) listed
        · exact same
        · exact absurd ((alike k' high').symm.trans (below k' greater)) listed'
      obtain rfl : b = b' := by simpa [readCells] using alike k high
      simp only [cellsWf, Bool.and_eq_true] at wf wf'
      congr 1
      refine ih wf.2 wf'.2 fun a inside => ?_
      by_cases head : k = a
      · subst head
        rw [readCells_below _ _ k wf.2 (Nat.lt_succ_self k), readCells_below _ _ k wf'.2 (Nat.lt_succ_self k)]
      · simpa [readCells, head] using alike a inside

theorem Memory.ext_of_read {m m' : Memory} (wf : m.wf = true) (wf' : m'.wf = true) (alike : ∀ a, m.read a = m'.read a) :
    m = m' := by
  have cells : m.cells = m'.cells := cells_ext wf wf' fun a inside => by
    simpa only [Memory.read, BitVec.toNat_ofNat, Nat.mod_eq_of_lt inside] using alike (BitVec.ofNat 32 a)
  cases m; cases m'; simpa using cells

/-- Settles O6: a write keeps the form, reads back and leaves the rest, and the form is unique. -/
theorem memoryBytes : Obligations.MemoryBytes :=
  ⟨fun m a v wf => ⟨m.read_write_same a v wf, fun x other => m.read_write_ne a x v other, m.wf_write a v wf⟩,
    fun _ _ => Memory.ext_of_read⟩

/-! ### Interrupts (R345) -/

theorem State.interruptPending_eq_true_iff (s : State) : s.interruptPending = true ↔
    s.statusIe = true ∧ s.statusEl = false ∧ ∃ k, s.irq.getLsbD k = true ∧ s.intMask.getLsbD k = true := by
  have line : s.irq &&& s.intMask ≠ 0 ↔ ∃ k, s.irq.getLsbD k = true ∧ s.intMask.getLsbD k = true := by
    rw [← not_iff_not, not_not, BitVec.eq_of_getLsbD_eq_iff]
    simp only [BitVec.getLsbD_and, not_exists, not_and]
    constructor
    · intro clear k raised masked
      have := clear k (BitVec.lt_of_getLsbD raised)
      simp [raised, masked] at this
    · intro clear k _
      have := clear k
      cases raised : s.irq.getLsbD k <;> simp_all
  simp only [State.interruptPending, Bool.and_eq_true, Bool.not_eq_true', decide_eq_true_eq, line, and_assoc]

theorem step_of_interrupt {s : State} (pending : s.sampleEnv.interruptPending = true) :
    step s = .next (s.sampleEnv.trap .int) := by
  simp [step, State.cycle, pending]

theorem step_of_no_interrupt {s : State} (quiet : s.sampleEnv.interruptPending = false) :
    step s = s.sampleEnv.fetchAndRun := by
  simp [step, State.cycle, quiet]

/-- Settles O9: the conditions of R345 on the sampled state decide whether the step is a trap entry or a fetch. -/
theorem interruptAcceptance : Obligations.InterruptAcceptance := by
  refine ⟨fun s ie el line => ?_, fun s unmet => ?_, fun s e rest events => ?_⟩
  · refine ⟨_, step_of_interrupt ((State.interruptPending_eq_true_iff _).mpr ?_), State.tookTrap_trap _ .int⟩
    simpa [ie, el] using line
  · refine step_of_no_interrupt (Bool.eq_false_iff.mpr fun pending => ?_)
    obtain ⟨ie, el, k, raised, masked⟩ := (State.interruptPending_eq_true_iff _).mp pending
    rw [State.sampleEnv_statusIe] at ie
    rw [State.sampleEnv_statusEl] at el
    rw [State.sampleEnv_intMask] at masked
    rcases unmet with h | h | h
    · simp [ie] at h
    · simp [el] at h
    · simp [h k raised] at masked
  · rw [s.sampleEnv_of_cons e rest events]
    exact ⟨rfl, rfl⟩

/-! ### Other agents (R76) -/

theorem State.allowedWrites_of_none {s : State} (noWriters : s.params.externalWriters = false) (ws : AgentWrites) :
    s.allowedWrites ws = [] := by
  simp [State.allowedWrites, noWriters]

/-- R76: the writes of other agents change memory and the open pair only. -/
theorem State.sameBut_otherWrites (s : State) (ws : AgentWrites) : s.sameBut (s.otherWrites ws) [.memory, .pair] := by
  intro p unlisted
  cases p <;> simp_all [State.same]

/-- Sampling changes the inputs, memory and the open pair only. -/
theorem State.sameBut_sampleEnv (s : State) : s.sameBut s.sampleEnv [.memory, .pair, .control, .outside] := by
  intro p unlisted
  cases p <;> simp_all [State.same]

/-- Without `EXTERNAL_WRITERS` nothing is written between the data accesses of an instruction. -/
theorem State.gapWrites_of_none {s : State} (noWriters : s.params.externalWriters = false) (n : Nat) :
    s.gapWrites n = [] := by
  simp [State.gapWrites, State.gap, State.allowedWrites_of_none noWriters]

/-- Settles O10: an event's writes are `otherWrites` of it, which lands them in order and closes the pair they hit. -/
theorem otherAgentsWrite : Obligations.OtherAgentsWrite := by
  refine ⟨fun s ws wf => ⟨s.othersWrote_otherWrites ws wf, s.sameBut_otherWrites ws, rfl, rfl, rfl⟩,
    fun s e rest events wf => ?_, fun s events => s.sampleEnv_of_nil events, fun _ => rfl,
    fun s n noWriters => State.gapWrites_of_none noWriters n⟩
  have frame := s.sameBut_sampleEnv
  rw [s.sampleEnv_of_cons e rest events] at frame ⊢
  have wrote := State.othersWrote_otherWrites { s with env := rest, irq := e.irq, afterFetch := e.afterFetch, gaps := e.gaps }
    e.writes wf
  exact ⟨⟨wrote.bytes, wrote.pair⟩, rfl, rfl, rfl, rfl, rfl, rfl, rfl, frame, rfl, rfl, rfl, rfl⟩

/-! ### The fetch (R66 to R68, R79) -/

theorem step_of_raise {s : State} {x : Exc} (quiet : s.sampleEnv.interruptPending = false)
    (fetch : s.sampleEnv.fetch = .raise x) : step s = .next (s.sampleEnv.trap x) := by
  simp [step_of_no_interrupt quiet, State.fetchAndRun, fetch]

theorem step_of_codeWritten {s : State} (quiet : s.sampleEnv.interruptPending = false)
    (fetch : s.sampleEnv.fetch = .codeWritten) : step s = .refused .codeWritten := by
  simp [step_of_no_interrupt quiet, State.fetchAndRun, fetch]

theorem step_of_word {s : State} {w : Word} (quiet : s.sampleEnv.interruptPending = false)
    (fetch : s.sampleEnv.fetch = .word w) : step s = s.sampleEnv.fetched.runWord w := by
  simp only [step_of_no_interrupt quiet, State.fetchAndRun, fetch]

theorem State.fetch_of_misaligned {s : State} (misaligned : s.pc.toNat % 4 ≠ 0) : s.fetch = .raise (.adEL s.pc) := by
  rcases s.fetch_cases with ⟨_, h⟩ | ⟨al, _⟩ | ⟨al, _⟩ | ⟨al, _⟩ | ⟨al, _⟩
  · exact h
  all_goals exact absurd al misaligned

theorem State.fetch_of_barred {s : State} (aligned : s.pc.toNat % 4 = 0) (barred : s.userBarred s.pc = true) :
    s.fetch = .raise (.adEL s.pc) := by
  rcases s.fetch_cases with ⟨al, _⟩ | ⟨_, _, h⟩ | ⟨_, allowed, _⟩ | ⟨_, allowed, _⟩ | ⟨_, allowed, _⟩
  · exact absurd aligned al
  · exact h
  all_goals simp [barred] at allowed

theorem State.fetch_of_unpopulated {s : State} (aligned : s.pc.toNat % 4 = 0) (allowed : s.userBarred s.pc = false)
    (unanswered : s.populated s.pc 4 = false) : s.fetch = .raise .ibe := by
  rcases s.fetch_cases with ⟨al, _⟩ | ⟨_, barred, _⟩ | ⟨_, _, _, h⟩ | ⟨_, _, answered, _⟩ | ⟨_, _, answered, _⟩
  · exact absurd aligned al
  · simp [allowed] at barred
  · exact h
  all_goals simp [unanswered] at answered

/-- R79: past the checks, a fetch finds the word at `pc`, or refuses one that a store of this run has written into. -/
theorem State.fetch_of_ok {s : State} (ok : s.AccessOk s.pc 4 s.pc 4) : s.fetch =
    if s.params.codeWrites = .refuse ∧ s.wordWritten s.pc = true then .codeWritten else .word (s.mem.readWord s.pc) := by
  have allowed := (s.userBarred_eq_false s.pc).mpr ok.allowed
  have answered := (s.populated_eq_true s.pc 4).mpr ok.populated
  rcases s.fetch_cases with ⟨al, _⟩ | ⟨_, barred, _⟩ | ⟨_, _, unanswered, _⟩ | ⟨_, _, _, refuse, written, h⟩ |
    ⟨_, _, _, unwritten, h⟩
  · exact absurd ok.aligned al
  · simp [allowed] at barred
  · simp [answered] at unanswered
  · rw [h, if_pos ⟨refuse, written⟩]
  · rw [h, if_neg fun ⟨refuse, written⟩ => by simp [unwritten refuse] at written]

theorem State.wordWritten_eq_true_iff (s : State) (a : Word) :
    s.wordWritten a = true ↔ ∃ k < 4, (a + BitVec.ofNat 32 k).toNat ∈ s.written := by
  simp only [State.wordWritten, Bool.or_eq_true, List.contains_iff_mem, Nat.exists_lt_succ_right, Nat.not_lt_zero, false_and,
    exists_false, false_or, BitVec.add_zero]
  rfl

/-- Settles O11: each clause is the fetch's answer under the checks it names, and that answer is the whole step or its word. -/
theorem fetchChecks : Obligations.FetchChecks := by
  rintro s u rfl quiet
  refine ⟨fun misaligned => ?_, fun aligned check user high => ?_, fun aligned allowed unanswered => ?_,
    fun ok refuse written => ?_, fun ok unwritten => ?_⟩
  · exact ⟨_, step_of_raise quiet (State.fetch_of_misaligned misaligned), State.tookTrap_trap _ (.adEL _)⟩
  · have barred : s.sampleEnv.userBarred s.sampleEnv.pc = true := by simp only [State.userBarred, check, user, high]; rfl
    exact ⟨_, step_of_raise quiet (State.fetch_of_barred aligned barred), State.tookTrap_trap _ (.adEL _)⟩
  · have notPopulated : s.sampleEnv.populated s.sampleEnv.pc 4 = false := by
      simp only [State.populated, busAccesses]
      simpa using unanswered
    exact ⟨_, step_of_raise quiet (State.fetch_of_unpopulated aligned ((State.userBarred_eq_false _ _).mpr allowed)
      notPopulated), State.tookTrap_trap _ .ibe⟩
  · refine step_of_codeWritten quiet ?_
    rw [State.fetch_of_ok ok, if_pos ⟨refuse, (State.wordWritten_eq_true_iff _ _).mpr written⟩]
  · have fetch : s.sampleEnv.fetch = .word (s.sampleEnv.mem.readWord s.sampleEnv.pc) := by
      rw [State.fetch_of_ok ok, if_neg]
      rintro ⟨refuse, written⟩
      obtain ⟨k, inside, mem⟩ := (State.wordWritten_eq_true_iff _ _).mp written
      rcases unwritten with coherent | none
      · exact absurd (refuse.symm.trans coherent) (by decide)
      · exact none k inside mem
    exact ⟨fetch, step_of_word quiet fetch⟩

/-! ### What the word fetched does (R15, R361) -/

/-- Settles O8: the step runs the word fetched, whose bytes decode to an admitted instruction. -/
theorem stepRunsDecoded : Obligations.StepRunsDecoded := by
  intro s w i quiet fetch decoded notCop0 admitted
  rw [step_of_word quiet fetch, State.runWord_of_ok i (by simpa using notCop0) decoded,
    State.ifAdmitted_of_admitted _ (by simpa using admitted)]

/-- Settles O12: in user mode the opcode alone decides. -/
theorem userCoprocessorZero : Obligations.UserCoprocessorZero := by
  intro s w user quiet fetch opcode
  refine ⟨_, ?_, State.tookTrap_trap _ .cpU⟩
  rw [step_of_word quiet fetch, State.runWord_of_user_cop0 (by simpa using user) opcode]

/-! ### `mtc0` (R357) -/

/-- R357: the word of `mtc0` matches no row of the opcode table. -/
theorem decode_mtc0Word (rt rd : BitVec 5) : decode (bytesOfWord (encR 0x10#6 0x04#5 rt rd 0#5 0#6)) = .error .reserved := by
  rw [decode_bytesOfWord, decodeWord_eq_reserved_iff]
  simp [decodeRow, decodeCop0]

theorem decodeExt_mtc0Word (rt rd : BitVec 5) : decodeExt (encR 0x10#6 0x04#5 rt rd 0#5 0#6) = some (.mtc0 rt rd) := by
  have matched : encR 0x10#6 0x04#5 rt rd 0#5 0#6 &&& 0xFFE007FF#32 = 0x40800000#32 := by
    apply BitVec.eq_of_getLsbD_eq
    intro k hk
    simp only [encR, BitVec.getLsbD_and, BitVec.getLsbD_append]
    interval_cases k <;> simp
  simp [decodeExt, matched]

/-- With the extension, the word of `mtc0` in kernel mode writes the control register. -/
theorem State.runWord_mtc0 {s : State} (ext : s.params.extCp0Return = true) (kernel : s.userMode = false) (rt rd : BitVec 5) :
    s.runWord (encR 0x10#6 0x04#5 rt rd 0#5 0#6) = .next (s.writeCR rd (s.readR rt)).retire := by
  rw [State.runWord_of_reserved (fun user => by simp [kernel] at user) (decode_mtc0Word rt rd),
    State.runReserved_of_ext ext (decodeExt_mtc0Word rt rd), execExt, execMtc0, State.kernelOnly_of_kernel _ kernel]

/-- R357: a write of a control register changes control and exception registers only. -/
theorem State.sameBut_writeCR_retire (s : State) (n : CRegNum) (v : Word) :
    s.sameBut (s.writeCR n v).retire [.control, .exception] := by
  intro p unlisted
  cases p <;> simp_all [State.same]

/-- Settles O14: what the named fields receive, by which of the distinct registers is written. -/
theorem moveToControl : Obligations.MoveToControl := by
  intro s rt rd kernel ext distinct
  simp only [List.nodup_cons, List.mem_cons, List.not_mem_nil, not_or, not_false_eq_true, List.nodup_nil,
    and_true] at distinct
  obtain ⟨_, ⟨statusCause, statusEpc⟩, causeEpc⟩ := distinct
  refine ⟨_, State.runWord_mtc0 ext kernel rt rd, State.retired_retire rfl rfl rfl rfl, s.sameBut_writeCR_retire _ _, rfl, rfl,
    rfl, rfl, fun status => ?_, fun cause => ?_, fun epc => ?_, fun other => ?_⟩
  · simp [status, statusCause, statusEpc]
  · simp [cause, Ne.symm statusCause, causeEpc]
  · simp [epc, State.same, Ne.symm statusEpc, Ne.symm causeEpc]
  · simp_all [State.same]

end Sys2Proof.Machine

/-! The instructions over registers (R132 to R147, R177 to R182, R225 to R227, R233 to R244, R279 to R282). -/

namespace Sys2Proof.Machine

/-- An instruction that is a write of one general register completes with that value. -/
theorem exec_wroteR {i : Instr} {s : State} {rd : RegNum} {v : Word} (meaning : exec i s = s.writeR rd v) {P : Word → Prop}
    (value : P v) : ∃ t u, exec i s = .next t ∧ s.WroteR t rd u ∧ P u := by
  obtain ⟨t, ended, wrote⟩ := s.writeR_eq rd v
  exact ⟨t, v, meaning.trans ended, wrote, value⟩

/-- The same, of a value stated in other words. -/
theorem exec_wroteR_eq {i : Instr} {s : State} {rd : RegNum} {v u : Word} (meaning : exec i s = s.writeR rd v)
    (value : v = u) : ∃ t, exec i s = .next t ∧ s.WroteR t rd u := by
  subst value
  rw [meaning]
  exact s.writeR_eq rd v

/-! ### Sums and differences (R132, R133, R147) -/

/-- Settles O25: sums and differences of words are those of numbers modulo `2 ^ 32`. -/
theorem wrappingSums : Obligations.WrappingSums := by
  intro s rd rs rt imm
  refine ⟨exec_wroteR_eq rfl ?_, exec_wroteR rfl (BitVec.toNat_add _ _), exec_wroteR rfl ?_⟩
  · rw [← toInt_signExtImm imm, BitVec.ofInt_add, BitVec.ofInt_toInt, BitVec.ofInt_toInt]
  · rw [← BitVec.toNat_add, BitVec.sub_add_cancel]

/-! ### Bitwise logic (R134 to R139, R233, R240) -/

/-- R97: zero extension keeps the bits of the immediate and has zeros above. -/
theorem getLsbD_zeroExtImm (imm : BitVec 16) {k : Nat} (hk : k < 32) : (zeroExtImm imm).getLsbD k = imm.getLsbD k := by
  simp [zeroExtImm, hk]

/-- R102: the operand of `lui` is the immediate times `2 ^ 16`. -/
theorem toNat_upperImm (imm : BitVec 16) : (upperImm imm).toNat = imm.toNat * 2 ^ 16 := by
  rw [upperImm, toNat_append_eq_add, BitVec.toNat_zero, Nat.add_zero]

/-- Settles O26: each result bit is that of the operands' bits, an immediate being extended with zeros. -/
theorem bitwiseLogic : Obligations.BitwiseLogic := by
  intro s rd rs rt imm
  refine ⟨exec_wroteR rfl fun k _ => BitVec.getLsbD_and, exec_wroteR rfl fun k _ => BitVec.getLsbD_or,
    exec_wroteR rfl fun k _ => BitVec.getLsbD_xor, exec_wroteR rfl fun k hk => ?_, exec_wroteR rfl fun k hk => ?_,
    exec_wroteR rfl fun k hk => ?_, exec_wroteR rfl fun k hk => ?_, exec_wroteR rfl (toNat_upperImm imm)⟩
  · rw [BitVec.getLsbD_not, BitVec.getLsbD_or, decide_eq_true hk, Bool.true_and]
  · rw [BitVec.getLsbD_and, getLsbD_zeroExtImm imm hk]
  · rw [BitVec.getLsbD_or, getLsbD_zeroExtImm imm hk]
  · rw [BitVec.getLsbD_xor, getLsbD_zeroExtImm imm hk]

/-! ### Comparisons (R140 to R143) -/

theorem boolWord_slt (a b : Word) : boolWord (a.slt b) = if a.toInt < b.toInt then 1 else 0 := by
  simp [boolWord, BitVec.slt_iff_toInt_lt]

theorem boolWord_ult (a b : Word) : boolWord (a.ult b) = if a.toNat < b.toNat then 1 else 0 := by
  simp [boolWord, BitVec.ult_iff_lt, BitVec.lt_def]

/-- Settles O27: each writes the comparison of the numbers, the immediate sign-extended also for `sltiu`. -/
theorem setOnCompare : Obligations.SetOnCompare := by
  intro s rd rs rt imm
  refine ⟨exec_wroteR_eq rfl (boolWord_slt _ _), exec_wroteR_eq rfl ?_, exec_wroteR_eq rfl (boolWord_ult _ _),
    exec_wroteR_eq rfl ?_⟩
  · rw [boolWord_slt, toInt_signExtImm]
  · rw [boolWord_ult, ← toInt_signExtImm, BitVec.ofInt_toInt]

/-! ### Shifts (R144, R145, R182, R236 to R238) -/

/-- R236: the count of a shift by a register is its value modulo 32. -/
theorem shiftCount_eq (v : Word) : shiftCount v = v.toNat % 32 := by
  rw [shiftCount, BitVec.extractLsb'_toNat, Nat.shiftRight_zero]

theorem toNat_shiftLeft_eq (a : Word) (n : Nat) : (a <<< n).toNat = a.toNat * 2 ^ n % 2 ^ 32 := by
  rw [BitVec.toNat_shiftLeft, Nat.shiftLeft_eq]

theorem toNat_ushiftRight_eq (a : Word) (n : Nat) : (a >>> n).toNat = a.toNat / 2 ^ n := by
  rw [BitVec.toNat_ushiftRight, Nat.shiftRight_eq_div_pow]

/-- R182: an arithmetic right shift divides, rounding down. -/
theorem toInt_sshiftRight_eq (a : Word) (n : Nat) : (a.sshiftRight n).toInt = a.toInt / 2 ^ n := by
  rw [BitVec.toInt_sshiftRight, Int.shiftRight_eq_div_pow]; norm_cast

/-- Settles O28: each shift multiplies or divides by a power of two. -/
theorem shifts : Obligations.Shifts := by
  intro s rd rs rt shamt
  simp only [← shiftCount_eq]
  exact ⟨exec_wroteR rfl (toNat_shiftLeft_eq _ _), exec_wroteR rfl (toNat_ushiftRight_eq _ _),
    exec_wroteR rfl (toInt_sshiftRight_eq _ _), exec_wroteR rfl (toNat_shiftLeft_eq _ _),
    exec_wroteR rfl (toNat_ushiftRight_eq _ _), exec_wroteR rfl (toInt_sshiftRight_eq _ _)⟩

/-! ### Moves (R177, R178, R241 to R244, R279 to R282) -/

/-- Settles O32: each move writes one register, or one of `Hi` and `Lo` with the other kept. -/
theorem hiLoMoves : Obligations.HiLoMoves := fun s _ =>
  ⟨exec_wroteR_eq rfl rfl, exec_wroteR_eq rfl rfl,
    ⟨_, rfl, rfl, rfl, s.sameBut_setHiLo_retire _ _, s.retired_setHiLo _ _⟩,
    ⟨_, rfl, rfl, rfl, s.sameBut_setHiLo_retire _ _, s.retired_setHiLo _ _⟩⟩

/-- A write of one `F` register is an instruction's whole effect. -/
theorem State.wroteF_setF (s : State) (fd : FRegNum) (v : Word) : s.WroteF (s.setF fd v).retire fd (.bits v.toNat) where
  result := by simp [Fp.Out.AllowsWord]
  others := fun i other => by rw [State.readF_retire, State.readF_setF_ne s fd i v other]
  rest := by intro p unlisted; cases p <;> simp_all [State.same]
  ended := State.retired_retire rfl rfl rfl rfl

/-- A write of one pair of `F` registers is an instruction's whole effect. -/
theorem State.wroteD_setD (s : State) (fd : FRegNum) (v : DWord) : s.WroteD (s.setD fd v).retire fd (.bits v.toNat) where
  result := by simp [Fp.Out.AllowsDWord, State.readD_setD_same]
  others := fun i other other' => by
    rw [State.readF_retire, State.readF_setD, if_neg (Ne.symm other'), if_neg (Ne.symm other)]
  rest := by intro p unlisted; cases p <;> simp_all [State.same]
  ended := State.retired_retire rfl rfl rfl rfl

/-- A move on a condition does its move when the condition holds and nothing when its opposite does. -/
theorem exec_move {i : Instr} {s u : State} {c c' : Prop} [Decidable c]
    (meaning : exec i s = .next (if c then u else s).retire) (opposite : c' → ¬c) {Moved : State → Prop}
    (moved : Moved u.retire) : ∃ t, exec i s = .next t ∧ (c → Moved t) ∧ (c' → s.DidNothing t) := by
  refine ⟨_, meaning, fun holds => ?_, fun fails => ?_⟩
  · rw [if_pos holds]; exact moved
  · rw [if_neg (opposite fails)]; exact s.didNothing_retire

theorem ifEven_of_even {regs : List FRegNum} (even : ∀ n ∈ regs, evenReg n = true) (o : Outcome) : ifEven regs o = o :=
  if_pos (List.all_eq_true.mpr even)

theorem even_pair {n m : FRegNum} (even : evenReg n = true) (even' : evenReg m = true) :
    ∀ k ∈ [n, m], evenReg k = true := by simp [even, even']

/-- Settles O29: each is a move on its condition; `movn` moves on the opposite of `movz`. -/
theorem conditionalMoves : Obligations.ConditionalMoves := by
  intro s rd rs rt fd fs
  refine ⟨exec_move rfl id (s.wroteR_setR rd _), exec_move rfl not_not.mpr (s.wroteR_setR rd _),
    exec_move rfl id (s.wroteF_setF fd _), exec_move rfl not_not.mpr (s.wroteF_setF fd _), fun evenFd evenFs => ⟨?_, ?_⟩⟩
  · exact exec_move (i := .movzD fd fs rt) (ifEven_of_even (even_pair evenFd evenFs) _) id (s.wroteD_setD fd _)
  · exact exec_move (i := .movnD fd fs rt) (ifEven_of_even (even_pair evenFd evenFs) _) not_not.mpr
      (s.wroteD_setD fd _)

/-! ### Branches and jumps with delay slots (R386, R387) -/

theorem State.linkAddr_of_delay {s : State} (delay : s.params.branchDelay = true) : s.linkAddr = s.pc + 8 := by
  simp [State.linkAddr, delay]

/-- R386: outside a delay slot a transfer opens one, and that is its one effect. -/
theorem State.transfer_openedSlot {s : State} (delay : s.params.branchDelay = true) (outside : s.inDelay = false)
    (taken : Bool) (target : Word) : ∃ t, s.transfer taken target = .next t ∧
      s.OpenedSlot t (if taken then target else s.pc + 8) ∧ s.sameBut t [] := by
  rcases s.transfer_cases taken target with ⟨noDelay, _⟩ | ⟨_, inside, _⟩ | ⟨_, _, opened⟩
  · simp [delay] at noDelay
  · simp [outside] at inside
  · refine ⟨_, opened, ⟨rfl, rfl, rfl⟩, fun p _ => ?_⟩
    cases p <;> simp [State.same, State.readR, State.readF]

/-- R387: in a delay slot a transfer is refused. -/
theorem State.transfer_refused {s : State} (delay : s.params.branchDelay = true) (inside : s.inDelay = true) (taken : Bool)
    (target : Word) : s.transfer taken target = .refused .transferInDelaySlot := by
  simp [State.transfer, delay, inside]

/-- Settles O34: each instruction is a transfer, which opens a slot outside of one, and the link it writes is `pc + 8`. -/
theorem delaySlots : Obligations.DelaySlots := by
  intro s rd rs rt imm addr delay
  refine ⟨fun outside p plain => ?_, fun outside p linking => ?_, fun inside => ⟨fun p plain => ?_, fun p linking => ?_⟩⟩
  · rw [exec_plainTransfer s rs rt imm addr p plain]
    exact State.transfer_openedSlot delay outside p.2.1 p.2.2
  · rw [exec_linkingTransfer s rd rs addr p linking, State.linkAddr_of_delay delay]
    obtain ⟨t, ended, slot, rest⟩ := (s.setR p.2.1 (s.pc + 8)).transfer_openedSlot delay outside true p.2.2
    have registers : ∀ i, t.readR i = (s.setR p.2.1 (s.pc + 8)).readR i := rest .general List.not_mem_nil
    exact ⟨t, ended, ⟨slot.pc, slot.slot, slot.target⟩, fun nonzero => (registers _).trans (s.readR_setR_same _ _ nonzero),
      fun i other => (registers i).trans (s.readR_setR_ne _ i _ other), (s.sameBut_setR _ _).trans (rest.weaken _)⟩
  · rw [exec_plainTransfer s rs rt imm addr p plain, State.transfer_refused delay inside]
  · rw [exec_linkingTransfer s rd rs addr p linking, State.transfer_refused (s := s.setR _ _) delay inside]

/-! ### The expansions of the pseudoinstructions (R221 to R227) -/

theorem execAll_cons {i : Instr} {s t : State} (rest : List Instr) (ended : exec i s = .next t) :
    execAll (i :: rest) s = execAll rest t := by
  simp only [execAll, ended]

/-- With no delay slots, `n` instructions whose one effect, beside `pc`, is the general register `rd`. -/
structure State.WroteInRun (s t : State) (rd : RegNum) (v : Word) (n : Nat) : Prop where
  result : rd ≠ 0 → t.readR rd = v
  others : ∀ i, i ≠ rd → t.readR i = s.readR i
  rest : s.sameBut t [.general]
  pc : t.pc = s.pc + BitVec.ofNat 32 (4 * n)

theorem State.sameBut.params {s t : State} (frame : s.sameBut t [.general]) : t.params = s.params :=
  (frame .outside (by decide)).1

theorem State.Retired.pc_of_no_delay {s t : State} (ended : s.Retired t) (noDelay : s.params.branchDelay = false) :
    t.pc = s.pc + 4 := by
  simp [ended.pc, noDelay]

theorem State.WroteR.inRun {s t : State} {rd : RegNum} {v : Word} (wrote : s.WroteR t rd v)
    (noDelay : s.params.branchDelay = false) : s.WroteInRun t rd v 1 :=
  ⟨wrote.result, wrote.others, wrote.rest, wrote.ended.pc_of_no_delay noDelay⟩

/-- The later of two writes of one register stands. -/
theorem State.WroteInRun.trans {s t u : State} {rd : RegNum} {v v' : Word} {n n' : Nat} (first : s.WroteInRun t rd v n)
    (second : t.WroteInRun u rd v' n') : s.WroteInRun u rd v' (n + n') where
  result := second.result
  others := fun i other => (second.others i other).trans (first.others i other)
  rest := first.rest.trans second.rest
  pc := by rw [second.pc, first.pc]; bv_omega

/-- An expansion of one instruction that is a write of `R[rd]`. -/
theorem execAll_one {i : Instr} {s : State} {rd : RegNum} {v u : Word} (noDelay : s.params.branchDelay = false)
    (meaning : exec i s = s.writeR rd v) (value : v = u) : ∃ t, execAll [i] s = .next t ∧ s.WroteInRun t rd u 1 := by
  obtain ⟨t, ended, wrote⟩ := exec_wroteR_eq meaning value
  exact ⟨t, execAll_cons [] ended, wrote.inRun noDelay⟩

/-- R225: `addiu` from `R[0]` loads a value that fits a signed immediate. -/
theorem signExtImm_low {v : Word} (fits : -32768 ≤ v.toInt ∧ v.toInt ≤ 32767) : signExtImm (v.extractLsb' 0 16) = v := by
  have low : (v.extractLsb' 0 16).toInt = v.toInt := by
    have bits : (v.extractLsb' 0 16).toNat = v.toNat % 2 ^ 16 := by rw [BitVec.extractLsb'_toNat, Nat.shiftRight_zero]
    rw [BitVec.toInt_eq_toNat_cond] at fits ⊢
    rw [BitVec.toInt_eq_toNat_cond, bits]
    split_ifs at * <;> omega
  rw [← BitVec.toInt_inj, toInt_signExtImm, low]

/-- R225: `ori` from `R[0]` loads a value that fits an unsigned immediate. -/
theorem zeroExtImm_low {v : Word} (fits : v.toNat ≤ 0xFFFF) : zeroExtImm (v.extractLsb' 0 16) = v := by
  rw [← BitVec.toNat_inj, toNat_zeroExtImm, BitVec.extractLsb'_toNat]
  simp
  omega

/-- R225: `lui` and `ori` make a word of its halves. -/
theorem upperImm_or_zeroExtImm (v : Word) :
    upperImm (v.extractLsb' 16 16) ||| zeroExtImm (v.extractLsb' 0 16) = v := by
  apply BitVec.eq_of_getLsbD_eq
  intro k hk
  simp only [upperImm, zeroExtImm, BitVec.getLsbD_or, BitVec.getLsbD_append, BitVec.getLsbD_setWidth,
    BitVec.getLsbD_extractLsb']
  interval_cases k <;> simp

/-- R225: whichever expansion the value selects, it loads the value. -/
theorem execAll_expandLi {s : State} (noDelay : s.params.branchDelay = false) (rd : RegNum) (v : Word) :
    ∃ t, execAll (expandLi rd v) s = .next t ∧ s.WroteInRun t rd v (expandLi rd v).length := by
  simp only [expandLi]
  split_ifs with signed unsigned low
  · exact execAll_one noDelay rfl (by rw [State.readR_zero, signExtImm_low signed]; exact BitVec.zero_add v)
  · exact execAll_one noDelay rfl (by rw [State.readR_zero, zeroExtImm_low unsigned]; exact BitVec.zero_or)
  · refine execAll_one noDelay rfl ?_
    conv_rhs => rw [← upperImm_or_zeroExtImm v, low]
    exact BitVec.or_zero.symm
  · obtain ⟨t, upper, wroteUpper⟩ := exec_wroteR_eq (s := s) (i := .lui rd (v.extractLsb' 16 16)) rfl rfl
    have first := wroteUpper.inRun noDelay
    obtain ⟨u, lower, second⟩ := execAll_one (i := .ori rd rd (v.extractLsb' 0 16)) (s := t) (by rw [first.rest.params, noDelay]) rfl rfl
    refine ⟨u, (execAll_cons _ upper).trans lower, ?_⟩
    have both := first.trans second
    refine ⟨fun nonzero => ?_, both.others, both.rest, both.pc⟩
    rw [both.result nonzero, first.result nonzero, upperImm_or_zeroExtImm]

theorem boolWord_eq_zero_iff (b : Bool) : boolWord b = 0 ↔ b = false := by
  cases b <;> simp [boolWord]

/-- R221, R222: `bne` from `R[0]` branches when the comparison holds. -/
theorem decide_boolWord_slt_ne_zero (a b : Word) : decide (boolWord (a.slt b) ≠ 0) = decide (a.toInt < b.toInt) := by
  rw [decide_eq_decide, ne_eq, boolWord_eq_zero_iff, Bool.not_eq_false, BitVec.slt_iff_toInt_lt]

/-- R223, R224: `beq` with `R[0]` branches when the comparison fails. -/
theorem decide_boolWord_slt_eq_zero (a b : Word) : decide (boolWord (a.slt b) = 0) = decide (b.toInt ≤ a.toInt) := by
  simp only [boolWord_eq_zero_iff, Bool.eq_false_iff, ne_eq, BitVec.slt_iff_toInt_lt, not_lt]

/-- R221 to R224: a comparison into `R[1]`, then a branch on `R[1]`. -/
theorem execAll_slt_branch {s : State} (noDelay : s.params.branchDelay = false) (rs rt : RegNum) (label : BitVec 16)
    {branch : Instr} {taken : Bool} (meaning : ∀ t : State, t.readR 1 = boolWord ((s.readR rs).slt (s.readR rt)) →
      exec branch t = t.transfer taken (t.branchTarget label)) :
    ∃ t, execAll [.slt 1 rs rt, branch] s = .next t ∧
      t.pc = s.pc + 8 + (if taken then BitVec.ofInt 32 (4 * label.toInt) else 0) ∧ (∀ i, i ≠ 1 → t.readR i = s.readR i) ∧
      s.sameBut t [.general] := by
  obtain ⟨t, compared, wrote⟩ := exec_wroteR_eq (i := .slt 1 rs rt) (s := s) rfl rfl
  have first := wrote.inRun noDelay
  obtain ⟨u, branched, went⟩ := State.transfer_wentTo (s := t) (by rw [first.rest.params, noDelay]) taken (t.branchTarget label)
  refine ⟨u, ?_, ?_, fun i other => (went.rest .general List.not_mem_nil i).trans (first.others i other),
    first.rest.trans (went.rest.weaken _)⟩
  · rw [execAll_cons _ compared, execAll_cons _ ((meaning t (first.result (by decide))).trans branched), execAll]
  · rw [went.pc, State.branchTarget_eq, first.pc]
    cases taken <;> simp only [if_true, if_false, Bool.false_eq_true] <;> bv_omega

/-- Settles O35: the expansions run as two writes of `R[rd]` or as a comparison and a branch. -/
theorem pseudoinstructions : Obligations.Pseudoinstructions := by
  intro s rd rs rt v label noDelay
  refine ⟨?_, ?_, ⟨_, rfl, ?_⟩⟩
  · simp only [List.forall_mem_cons, List.not_mem_nil, false_implies, implies_true, and_true]
    constructor
    · obtain ⟨t, ended, wrote⟩ := execAll_expandLi noDelay rd v
      exact ⟨t, ended, wrote.result, wrote.others, wrote.rest, wrote.pc⟩
    · obtain ⟨t, ended, wrote⟩ := execAll_one (i := .addu rd 0 rs) noDelay rfl (BitVec.zero_add (s.readR rs))
      exact ⟨t, ended, wrote.result, wrote.others, wrote.rest, wrote.pc⟩
  · simp only [List.forall_mem_cons, List.not_mem_nil, false_implies, implies_true, and_true]
    refine ⟨execAll_slt_branch noDelay rs rt label fun t flag => ?_, execAll_slt_branch noDelay rt rs label fun t flag => ?_,
      execAll_slt_branch noDelay rt rs label fun t flag => ?_, execAll_slt_branch noDelay rs rt label fun t flag => ?_⟩
    · exact congrArg (t.transfer · _) (by simp only [flag, State.readR_zero, decide_boolWord_slt_ne_zero])
    · exact congrArg (t.transfer · _) (by simp only [flag, State.readR_zero, decide_boolWord_slt_ne_zero])
    · exact congrArg (t.transfer · _) (by simp only [flag, State.readR_zero, decide_boolWord_slt_eq_zero])
    · exact congrArg (t.transfer · _) (by simp only [flag, State.readR_zero, decide_boolWord_slt_eq_zero])
  · exact s.didNothing_retire

end Sys2Proof.Machine

/-! Loads and stores (R64 to R71, R78, R160 to R170, R206 to R209, R234, R235, R248 to R253). -/

namespace Sys2Proof.Machine

/-! ### Bytes of a word (R61) -/

theorem byteOfWord_readWord (m : Memory) (a : Word) {k : Nat} (hk : k < 4) :
    byteOfWord (m.readWord a) k = m.read (a + BitVec.ofNat 32 k) := by
  obtain ⟨b0, b1, b2, b3⟩ := byteOfWord_wordOfBytes (m.read a) (m.read (a + 1)) (m.read (a + 2)) (m.read (a + 3))
  rw [Memory.readWord]
  interval_cases k
  · rw [b0, BitVec.add_zero]
  · exact b1
  · exact b2
  · exact b3

theorem bytesOfHalf_low (v : Word) : bytesOfHalf (v.extractLsb' 0 16) = [byteOfWord v 2, byteOfWord v 3] := by
  have high : (v.extractLsb' 0 16).extractLsb' 8 8 = byteOfWord v 2 := by
    apply BitVec.eq_of_getLsbD_eq
    intro k hk
    simp only [byteOfWord, BitVec.getLsbD_extractLsb']
    interval_cases k <;> rfl
  have low : (v.extractLsb' 0 16).extractLsb' 0 8 = byteOfWord v 3 := by
    apply BitVec.eq_of_getLsbD_eq
    intro k hk
    simp only [byteOfWord, BitVec.getLsbD_extractLsb']
    interval_cases k <;> rfl
  rw [bytesOfHalf, high, low]

/-! ### Loads of a general register (R160 to R163, R234, R235) -/

/-- A load that passes its checks completes with the value it loads. -/
theorem exec_load_wroteR {i : Instr} {s : State} {ea : Word} {n : Nat} {rt : RegNum} {v : Word}
    (meaning : exec i s = s.load ea n (s.setR rt v).retire) (ok : s.AccessOk ea n ea n) {P : Word → Prop} (value : P v) :
    ∃ t u, exec i s = .next t ∧ s.WroteR t rt u ∧ P u :=
  ⟨_, v, meaning.trans (s.load_of_ok ea n _ ok), s.wroteR_setR rt v, value⟩

/-- R61, R235: a halfword read with its sign. -/
theorem Memory.toInt_readHalf (m : Memory) (a : Word) :
    (m.readHalf a).toInt = (m.read a).toInt * 2 ^ 8 + (m.read (a + 1)).toNat := by
  rw [Memory.readHalf, BitVec.toInt_append, if_neg (by decide), mul_comm]

/-- Settles O36: each load extends the bytes it reads as its own rule says. -/
theorem generalLoads : Obligations.GeneralLoads := by
  rintro s rt rs imm ea rfl
  refine ⟨fun ok => ⟨exec_load_wroteR rfl ok ?_, exec_load_wroteR rfl ok ?_⟩,
    fun ok => ⟨exec_load_wroteR rfl ok ?_, exec_load_wroteR rfl ok ?_⟩, fun ok => exec_load_wroteR rfl ok fun k hk => ?_⟩
  · exact BitVec.toNat_setWidth_of_le (by decide)
  · exact BitVec.toInt_signExtend_of_le (by decide)
  · exact (BitVec.toNat_setWidth_of_le (by decide)).trans (s.mem.toNat_readHalf _)
  · exact (BitVec.toInt_signExtend_of_le (by decide)).trans (s.mem.toInt_readHalf _)
  · exact byteOfWord_readWord s.mem _ hk

/-- Settles O37: the word is loaded as by `lw`, and the pair names its address. -/
theorem loadLinked : Obligations.LoadLinked := by
  rintro s rt rs imm ea rfl ok
  refine ⟨_, _, s.load_of_ok _ 4 _ ok, fun k hk => byteOfWord_readWord s.mem _ hk,
    fun nonzero => State.readR_setR_same _ _ _ nonzero, fun i other => State.readR_setR_ne _ _ _ _ other, rfl, rfl,
    fun p unlisted => ?_, State.retired_retire rfl rfl rfl rfl⟩
  cases p <;> simp_all [State.same]

/-! ### `sc` (R78, R165) -/

theorem State.scAtomic_eq_false {s : State} {ea : Word} (unpaired : ¬(s.llBit = true ∧ s.llAddr = ea)) :
    s.scAtomic ea = false := by
  have notPaired : s.paired ea = false := by simpa [State.paired] using unpaired
  rw [State.scAtomic, notPaired, Bool.false_and]

theorem State.scAtomic_eq_true {s : State} {ea : Word} (isOpen : s.llBit = true) (addr : s.llAddr = ea)
    (sure : s.params.scMayFail = false) : s.scAtomic ea = true := by
  simp [State.scAtomic, State.paired, isOpen, addr, sure]

/-- R165: a successful `sc` stores the word as `sw` does. -/
theorem State.scDone_stores {s : State} {ea : Word} (rt : RegNum) (success : s.scAtomic ea = true) :
    (s.scDone rt ea).mem = s.mem.writeBytes ea (bytesOfWord (s.readR rt)) ∧
      (s.scDone rt ea).written = insertAddrs ea 4 s.written := by
  simp only [State.scDone, if_pos success]
  exact ⟨rfl, rfl⟩

/-- R165: an `sc` that fails stores nothing. -/
theorem State.scDone_stores_not {s : State} {ea : Word} (rt : RegNum) (failure : s.scAtomic ea = false) :
    (s.scDone rt ea).mem = s.mem ∧ (s.scDone rt ea).written = s.written := by
  simp [State.scDone, failure]

/-- R165: the register receives the flag, and the pair closes, whether the word is stored or not. -/
theorem State.scDone_frame (s : State) (rt : RegNum) (ea : Word) :
    (rt ≠ 0 → (s.scDone rt ea).readR rt = boolWord (s.scAtomic ea)) ∧ (∀ i, i ≠ rt → (s.scDone rt ea).readR i = s.readR i) ∧
      (s.scDone rt ea).llBit = false ∧ (s.scDone rt ea).llAddr = s.llAddr ∧
      s.sameBut (s.scDone rt ea) [.general, .pair, .memory, .stores, .draws] ∧ s.Retired (s.scDone rt ea) := by
  unfold State.scDone
  cases s.scAtomic ea <;>
  · refine ⟨fun nonzero => ?_, fun i other => ?_, rfl, rfl, fun p unlisted => ?_, State.retired_retire rfl rfl rfl rfl⟩
    · simp only [State.readR_retire, State.readR_setR_same _ _ _ nonzero]
    · simp only [State.readR_retire, State.readR_setR_ne _ _ _ _ other]; rfl
    · cases p <;> simp_all [State.same]

/-- Settles O38: success is `scAtomic`, which the pair decides but for the draw of R78 item 5. -/
theorem storeConditional : Obligations.StoreConditional := by
  rintro s rt rs imm ea rfl ok wf
  obtain ⟨flag, others, closed, addr, frame, ended⟩ := s.scDone_frame rt (s.ea rs imm)
  refine ⟨s.scDone rt (s.ea rs imm), s.scAtomic (s.ea rs imm), s.guarded_of_none ((s.accessFault_eq_none ..).mpr ok) _,
    State.scAtomic_eq_false, State.scAtomic_eq_true, fun success => ?_, fun failure => ?_, flag, others, closed, addr, frame,
    ended⟩
  · obtain ⟨mem, written⟩ := State.scDone_stores rt success
    rw [mem, written]
    exact ⟨stored_writeBytes s.mem _ _ wf (by simp [bytesOfWord]), mem_insertAddrs _ 4 s.written⟩
  · obtain ⟨mem, written⟩ := State.scDone_stores_not rt failure
    exact ⟨fun a => by rw [mem], written⟩

/-! ### `lwl`, `lwr` (R248, R250, R251) -/

theorem byteOffset_eq (ea : Word) : byteOffset ea = ea.toNat % 4 := by
  rw [byteOffset, BitVec.extractLsb'_toNat, Nat.shiftRight_zero]

/-- R250: the mask of `lwl` keeps the bits below the bytes loaded. -/
theorem getLsbD_leftMask : ∀ b < 4, ∀ k < 32, ((1#32 <<< (8 * b)) - 1).getLsbD k = decide (k < 8 * b) := by decide

/-- R251: the mask of `lwr` covers the bits of the bytes loaded. -/
theorem getLsbD_rightMask : ∀ b < 4, ∀ k < 32,
    (0xFFFFFFFF#32 >>> (8 * (3 - b))).getLsbD k = decide (k + 8 * (3 - b) < 32) := by decide

theorem getLsbD_byteOfWord (w : Word) (k : Nat) {j : Nat} (hj : j < 8) :
    (byteOfWord w k).getLsbD j = w.getLsbD (8 * (3 - k) + j) := by
  simp [byteOfWord, hj]

/-- R250: the top `4 - b` bytes come from byte `b` of the word on, the others are the old register's. -/
theorem byteOfWord_mergeLeft (w old : Word) {b j : Nat} (hb : b < 4) (hj : j < 4) :
    byteOfWord (mergeLeft w old b) j = if j + b ≤ 3 then byteOfWord w (j + b) else byteOfWord old j := by
  apply BitVec.eq_of_getLsbD_eq
  intro k hk
  have bit : 8 * (3 - j) + k < 32 := by omega
  rw [getLsbD_byteOfWord _ _ hk, mergeLeft, BitVec.getLsbD_or, BitVec.getLsbD_and, getLsbD_leftMask b hb _ bit,
    BitVec.getLsbD_shiftLeft, decide_eq_true bit, Bool.true_and]
  split
  · rw [getLsbD_byteOfWord _ _ hk, decide_eq_false (by omega), Bool.and_false, Bool.or_false, Bool.not_false, Bool.true_and]
    congr 1; omega
  · rw [getLsbD_byteOfWord _ _ hk, decide_eq_true (by omega)]
    simp

/-- R251: the bottom `b + 1` bytes come from byte `b` of the word down, the others are the old register's. -/
theorem byteOfWord_mergeRight (w old : Word) {b j : Nat} (hb : b < 4) (hj : j < 4) :
    byteOfWord (mergeRight w old b) (3 - j) = if j ≤ b then byteOfWord w (b - j) else byteOfWord old (3 - j) := by
  apply BitVec.eq_of_getLsbD_eq
  intro k hk
  have bit : 8 * (3 - (3 - j)) + k < 32 := by omega
  rw [getLsbD_byteOfWord _ _ hk, mergeRight, BitVec.getLsbD_or, BitVec.getLsbD_and, BitVec.getLsbD_not,
    getLsbD_rightMask b hb _ bit, BitVec.getLsbD_ushiftRight, decide_eq_true bit, Bool.true_and]
  split
  · rw [getLsbD_byteOfWord _ _ hk, decide_eq_true (by omega), Bool.not_true, Bool.and_false, Bool.false_or]
    congr 1; omega
  · rw [getLsbD_byteOfWord _ _ hk, decide_eq_false (by omega), BitVec.getLsbD_of_ge w _ (by omega)]
    simp

/-- An access of the aligned word that passes its checks completes with the word it merges. -/
theorem exec_part_wroteR {i : Instr} {s : State} {ea : Word} {rt : RegNum} {v : Word}
    (meaning : exec i s = s.guarded (s.partFault .load ea) (s.setR rt v).retire) (ok : s.AccessOk ea 1 (alignedWord ea) 4)
    {P : Word → Prop} (value : P v) : ∃ t u, exec i s = .next t ∧ s.WroteR t rt u ∧ P u :=
  ⟨_, v, meaning.trans (s.guarded_of_none ((s.accessFault_eq_none ..).mpr ok) _), s.wroteR_setR rt v, value⟩

/-- Settles O39: the merges, byte by byte, of the aligned word. -/
theorem unalignedLoads : Obligations.UnalignedLoads := by
  rintro s rt rs imm ea rfl ok
  have offset := byteOffset_eq (s.readR rs + signExtImm imm)
  have small : byteOffset (s.readR rs + signExtImm imm) < 4 := by omega
  rw [← offset]
  refine ⟨exec_part_wroteR rfl ok fun j hj => ?_, exec_part_wroteR rfl ok fun j hj => ?_⟩
  · refine (byteOfWord_mergeLeft _ _ small hj).trans (if_ctx_congr Iff.rfl (fun inside => ?_) fun _ => rfl)
    rw [byteOfWord_readWord _ _ (by omega)]
    congr 1
    rw [State.ea, alignedWord]; bv_omega
  · refine (byteOfWord_mergeRight _ _ small hj).trans (if_ctx_congr Iff.rfl (fun inside => ?_) fun _ => rfl)
    rw [byteOfWord_readWord _ _ (by omega)]
    congr 1
    rw [State.ea, alignedWord]; bv_omega

end Sys2Proof.Machine

/-! Stores, the loads of `F` registers, and the accesses that fail a check (R64 to R71, R79, R83, R164 to R170, R206 to R209, R252,
R253, R336). -/

namespace Sys2Proof.Machine

/-! ### Loads of `F` registers (R206, R207) -/

/-- The one gap of a doubleword access is all that other agents write during it. -/
theorem State.gapWrites_one (s : State) : s.gapWrites 1 = s.gap 0 := by
  simp [State.gapWrites]

/-- Settles O40: `lwc1` reads one word, `ldc1` the second of its two words after the writes of the gap. -/
theorem fpLoads : Obligations.FpLoads := by
  rintro s ft rs imm ea rfl
  refine ⟨fun ok => ?_, fun ok even wf => ?_⟩
  · have wrote := s.wroteF_setF ft (s.mem.readWord (s.ea rs imm))
    refine ⟨_, s.load_of_ok _ 4 _ ok, fun k hk => ?_, wrote.others, fun p unlisted => ?_, wrote.ended⟩
    · rw [State.readF_retire, State.readF_setF_same]
      exact byteOfWord_readWord s.mem _ hk
    · cases p <;> simp_all [State.same]
  · have others := s.othersWrote_otherWrites (s.gaps.getD 0 []) wf
    have next : ¬ft + 1 = ft := by bv_omega
    rw [s.gapWrites_one]
    refine ⟨_, (ifEven_of_even (by simpa using even) _).trans (s.load_of_ok _ 8 _ ok), fun k hk => ?_, fun k hk => ?_,
      ⟨others.bytes, others.pair⟩, fun i first second => ?_, fun p unlisted => ?_, State.retired_retire rfl rfl rfl rfl⟩
    · rw [State.readF_retire, State.readF_setF, if_neg next, State.readF_setF_same]
      exact byteOfWord_readWord s.mem _ hk
    · rw [State.readF_retire, State.readF_setF_same, byteOfWord_readWord _ _ hk]
      refine (others.bytes _).trans ?_
      have address : s.ea rs imm + 4 + BitVec.ofNat 32 k = s.readR rs + signExtImm imm + BitVec.ofNat 32 (4 + k) := by
        rw [State.ea]; bv_omega
      rw [address]; rfl
    · rw [State.readF_retire, State.readF_setF_ne _ _ _ _ second, State.readF_setF_ne _ _ _ _ first]; rfl
    · cases p <;> simp_all [State.same]

/-! ### Stores of one access (R164, R166 to R170, R208) -/

/-- A store that passes its checks writes its bytes, which count as written, and does nothing else. -/
theorem exec_store {i : Instr} {s : State} {ea : Word} {bytes : List Byte} (meaning : exec i s = s.storeAt ea bytes)
    (wf : s.mem.wf = true) (small : bytes.length ≤ 2 ^ 32) (ok : s.AccessOk ea bytes.length ea bytes.length) :
    ∃ t, exec i s = .next t ∧ Stored s.mem t.mem ea bytes ∧
      (∀ x, x ∈ t.written ↔ x ∈ s.written ∨ ∃ k < bytes.length, x = (ea + BitVec.ofNat 32 k).toNat) ∧
      s.sameBut t [.memory, .stores] ∧ s.Retired t := by
  refine ⟨_, meaning.trans (s.storeAt_of_ok ea bytes ok), stored_writeBytes s.mem ea bytes wf small,
    mem_insertAddrs ea bytes.length s.written, fun p unlisted => ?_, State.retired_retire rfl rfl rfl rfl⟩
  cases p <;> simp_all [State.same]

/-! ### Stores of several accesses (R71, R209, R252, R253) -/

theorem bytesFrom_append (a : Word) (l l' : List Byte) :
    bytesFrom a (l ++ l') = bytesFrom a l ++ bytesFrom (a + BitVec.ofNat 32 l.length) l' := by
  induction l generalizing a with
  | nil => simp [bytesFrom]
  | cons b rest ih =>
    have address : a + 1 + BitVec.ofNat 32 rest.length = a + BitVec.ofNat 32 (b :: rest).length := by
      rw [List.length_cons]; bv_omega
    rw [List.cons_append, bytesFrom, ih, address]; rfl

/-- With nothing written between them, the stores of an instruction after its first are their bytes in order. -/
theorem State.restWrites_of_no_gaps (s : State) (k : Nat) (l : List (Word × List Byte))
    (none : ∀ j < l.length, s.gap (k + j) = []) : s.restWrites k l = l.flatMap fun p => bytesFrom p.1 p.2 := by
  induction l generalizing k with
  | nil => rfl
  | cons p rest ih =>
    have first : s.gap k = [] := none 0 (Nat.succ_pos _)
    rw [State.restWrites, first, ih (k + 1) fun j hj => ?_]
    · rfl
    · have := none (j + 1) (Nat.succ_lt_succ hj)
      rwa [← Nat.add_assoc, Nat.add_right_comm] at this

/-- With nothing written between them, the stores of an instruction are their bytes in order. -/
theorem State.seqWrites_of_no_gaps (s : State) (l : List (Word × List Byte)) (none : s.gapWrites (l.length - 1) = []) :
    s.seqWrites l = l.flatMap fun p => bytesFrom p.1 p.2 := by
  cases l with
  | nil => rfl
  | cons p rest =>
    have gaps : ∀ j < rest.length, s.gap j = [] := by simpa [State.gapWrites] using none
    rw [State.seqWrites, s.restWrites_of_no_gaps 0 rest (by simpa using gaps)]; rfl

/-- R164, R166, R167, R208: the stores of one access. -/
theorem exec_oneStore {s : State} (rt rs : RegNum) (ft : FRegNum) (imm : BitVec 16) (wf : s.mem.wf = true) :
    ∀ p ∈ [(Instr.sb rt rs imm, [byteOfWord (s.readR rt) 3]),
        (.sh rt rs imm, [byteOfWord (s.readR rt) 2, byteOfWord (s.readR rt) 3]),
        (.sw rt rs imm, [0, 1, 2, 3].map (byteOfWord (s.readR rt))),
        (.swc1 ft rs imm, [0, 1, 2, 3].map (byteOfWord (s.readF ft)))],
      s.AccessOk (s.ea rs imm) p.2.length (s.ea rs imm) p.2.length →
      ∃ t, exec p.1 s = .next t ∧ Stored s.mem t.mem (s.ea rs imm) p.2 ∧
        (∀ x, x ∈ t.written ↔ x ∈ s.written ∨ ∃ k < p.2.length, x = (s.ea rs imm + BitVec.ofNat 32 k).toNat) ∧
        s.sameBut t [.memory, .stores] ∧ s.Retired t := by
  simp only [List.forall_mem_cons, List.not_mem_nil, false_implies, implies_true, and_true]
  refine ⟨exec_store rfl wf (by simp), exec_store ?_ wf (by simp), exec_store rfl wf (by simp), exec_store rfl wf (by simp)⟩
  exact congrArg (s.storeAt _) (bytesOfHalf_low _)

/-- R209: `sdc1` stores its two words, and with nothing written between them eight bytes. -/
theorem exec_sdc1 {s : State} {rs : RegNum} {ft : FRegNum} {imm : BitVec 16} (wf : s.mem.wf = true) (even : evenReg ft = true)
    (ok : s.AccessOk (s.ea rs imm) 8 (s.ea rs imm) 8) : ∃ t, exec (.sdc1 ft rs imm) s = .next t ∧
      s.StoredSeq t (sdc1Stores (s.readF ft) (s.readF (ft + 1)) (s.ea rs imm)) ∧
      (s.gapWrites 1 = [] → Stored s.mem t.mem (s.ea rs imm) (bytesOfWord (s.readF ft) ++ bytesOfWord (s.readF (ft + 1)))) := by
  have stored := s.storedSeq_retire (sdc1Stores (s.readF ft) (s.readF (ft + 1)) (s.ea rs imm)) wf
  refine ⟨_, (ifEven_of_even (by simpa using even) _).trans (s.guarded_of_none ((s.accessFault_eq_none ..).mpr ok) _),
    stored, fun none => ?_⟩
  have inOrder := s.seqWrites_of_no_gaps (sdc1Stores (s.readF ft) (s.readF (ft + 1)) (s.ea rs imm)) none
  have joined := stored_writeBytes s.mem (s.ea rs imm) (bytesOfWord (s.readF ft) ++ bytesOfWord (s.readF (ft + 1))) wf
    (by simp [bytesOfWord])
  have bytes : ∀ x, ((s.storeSeq (sdc1Stores (s.readF ft) (s.readF (ft + 1)) (s.ea rs imm))).retire).mem.read x =
      (s.mem.writeBytes (s.ea rs imm) (bytesOfWord (s.readF ft) ++ bytesOfWord (s.readF (ft + 1)))).read x := fun x => by
    rw [stored.bytes, inOrder, s.mem.read_writeBytes _ _ _ wf, bytesFrom_append]
    simp [sdc1Stores, bytesOfWord]
  exact ⟨fun k hk => (bytes _).trans (joined.inside k hk), fun x hx => (bytes x).trans (joined.others x hx)⟩

/-- The last write to an address that distinct writes name once. -/
theorem lastWrite_map_range {n : Nat} (addr : Nat → Word) (value : Nat → Byte) (distinct : ∀ i < n, ∀ j < n, addr i = addr j → i = j)
    {j : Nat} (hj : j < n) (old : Byte) :
    lastWrite ((List.range n).map fun i => (addr i, value i)) (addr j) old = value j := by
  induction n generalizing old with
  | zero => exact absurd hj (Nat.not_lt_zero j)
  | succ n ih =>
    rw [List.range_succ, List.map_append, lastWrite_append]
    by_cases last : j = n
    · subst last; simp [lastWrite]
    · have apart : addr n ≠ addr j := fun same => last (distinct n (Nat.lt_succ_self n) j hj same).symm
      simp only [List.map_cons, List.map_nil, lastWrite, if_neg apart]
      exact ih (fun i hi k hk => distinct i (by omega) k (by omega)) (by omega) old

/-- R252, R253: byte stores at distinct addresses, with nothing written between them, leave their bytes and every other byte. -/
theorem State.StoredSeq.bytes_of_no_gaps {s t : State} {n : Nat} {addr : Nat → Word} {value : Nat → Byte}
    (stored : s.StoredSeq t ((List.range n).map fun i => (addr i, [value i]))) (none : s.gapWrites (n - 1) = [])
    (distinct : ∀ i < n, ∀ j < n, addr i = addr j → i = j) :
    (∀ j < n, t.mem.read (addr j) = value j) ∧ ∀ x, (∀ j < n, x ≠ addr j) → t.mem.read x = s.mem.read x := by
  have inOrder : s.seqWrites ((List.range n).map fun i => (addr i, [value i])) =
      (List.range n).map fun i => (addr i, value i) := by
    rw [s.seqWrites_of_no_gaps _ (by simpa using none), List.flatMap_map, List.map_eq_flatMap]
    rfl
  refine ⟨fun j hj => ?_, fun x other => ?_⟩
  · rw [stored.bytes, inOrder, lastWrite_map_range addr value distinct hj]
  · rw [stored.bytes, inOrder, lastWrite_of_notin]
    simpa using fun j hj => Ne.symm (other j hj)

/-- Settles O42: each byte is a store at its own address of the aligned word. -/
theorem unalignedStores : Obligations.UnalignedStores := by
  rintro s rt rs imm ea rfl ok wf
  have offset := byteOffset_eq (s.readR rs + signExtImm imm)
  have small : byteOffset (s.readR rs + signExtImm imm) < 4 := by omega
  have small' : byteOffset (s.ea rs imm) < 4 := small
  have passed := (s.accessFault_eq_none .store (s.readR rs + signExtImm imm) 1 _ 4).mpr ok
  rw [← offset]
  constructor
  · have stored := s.storedSeq_retire (swlStores (s.readR rt) (s.ea rs imm)) wf
    refine ⟨_, s.guarded_of_none passed _, stored, fun none => ?_⟩
    have bytes := stored.bytes_of_no_gaps (by rwa [show 4 - byteOffset (s.ea rs imm) - 1 = 3 - byteOffset (s.ea rs imm) by omega])
      fun i hi j hj same => by bv_omega
    exact ⟨fun j hj => bytes.1 j (by rw [State.ea]; omega), fun x other => bytes.2 x fun j hj => other j (by rw [State.ea] at hj; omega)⟩
  · have stored := s.storedSeq_retire (swrStores (s.readR rt) (s.ea rs imm)) wf
    refine ⟨_, s.guarded_of_none passed _, stored, fun none => ?_⟩
    have bytes := stored.bytes_of_no_gaps none fun i hi j hj same => by bv_omega
    exact ⟨fun j hj => bytes.1 j (Nat.lt_succ_of_le hj), fun x other => bytes.2 x fun j hj => other j (Nat.le_of_lt_succ hj)⟩

/-! ### Accesses that fail a check (R64 to R68, R83, R336) -/

/-- R68: past the alignment check, an address barred from user mode is an address error. -/
theorem State.accessFault_barred {s : State} {ea : Word} {align : Nat} (d : Access) (base : Word) (n : Nat)
    (aligned : ea.toNat % align = 0) (barred : s.userBarred ea = true) :
    s.accessFault d ea align base n = some (d.addressError ea) := by
  simp [State.accessFault, aligned, barred]

/-- R67, R336: past both address checks, a part of the access that is not answered is a bus error. -/
theorem State.accessFault_unpopulated {s : State} {ea : Word} {align : Nat} (d : Access) {base : Word} {n : Nat}
    (aligned : ea.toNat % align = 0) (allowed : s.userBarred ea = false)
    (unanswered : ∃ q ∈ busAccesses base n, memPopulated s.params.holes q.1 q.2 = false) :
    s.accessFault d ea align base n = some .dbe := by
  have notPopulated : s.populated base n = false := by simpa [State.populated] using unanswered
  simp [State.accessFault, aligned, allowed, notPopulated]

/-- R65, R333, R334: the code of the address error of an access. -/
theorem Access.tookTrap_addressError (d : Access) (s : State) (ea : Word) :
    s.TookTrap (s.trap (d.addressError ea)) (if d = .load then 4 else 5) (some ea) := by
  cases d
  · exact s.tookTrap_trap (.adEL ea)
  · exact s.tookTrap_trap (.adES ea)

/-- The instruction is an access in the direction `d`, at `ea`, that passes its checks or takes their exception. -/
def IsAccess (s : State) (d : Access) (ea : Word) (p : Instr × Nat × Word × Nat) : Prop :=
  ∃ done, exec p.1 s = s.guarded (s.accessFault d ea p.2.1 p.2.2.1 p.2.2.2) done

/-- R169: every load is an access, `ldc1` of a pair. -/
theorem isAccess_of_mem_loads {s : State} {rt rs : RegNum} {ft : FRegNum} {imm : BitVec 16}
    {p : Instr × Nat × Word × Nat} (mem : p ∈ loads rt ft rs imm (s.ea rs imm)) (even : p.1 = .ldc1 ft rs imm → evenReg ft = true) :
    IsAccess s .load (s.ea rs imm) p := by
  simp only [loads, alignedLoads, List.map_cons, List.map_nil, List.mem_cons, List.not_mem_nil, or_false] at mem
  rcases mem with rfl | rfl | rfl | rfl | rfl | rfl | rfl | rfl | rfl | rfl
  case inr.inr.inr.inr.inr.inr.inr.inr.inr => exact ⟨_, ifEven_of_even (by simpa using even rfl) _⟩
  all_goals exact ⟨_, rfl⟩

/-- R169: every store is an access, `sdc1` of a pair. -/
theorem isAccess_of_mem_stores {s : State} {rt rs : RegNum} {ft : FRegNum} {imm : BitVec 16}
    {p : Instr × Nat × Word × Nat} (mem : p ∈ stores rt ft rs imm (s.ea rs imm)) (even : p.1 = .sdc1 ft rs imm → evenReg ft = true) :
    IsAccess s .store (s.ea rs imm) p := by
  simp only [stores, alignedStores, List.map_cons, List.map_nil, List.mem_cons, List.not_mem_nil, or_false] at mem
  rcases mem with rfl | rfl | rfl | rfl | rfl | rfl | rfl | rfl
  case inr.inr.inr.inr.inr.inr.inr => exact ⟨_, ifEven_of_even (by simpa using even rfl) _⟩
  all_goals exact ⟨_, rfl⟩

theorem IsAccess.misaligned {s : State} {d : Access} {ea : Word} {p : Instr × Nat × Word × Nat} (access : IsAccess s d ea p)
    (misaligned : ea.toNat % p.2.1 ≠ 0) :
    ∃ t, exec p.1 s = .next t ∧ s.TookTrap t (if d = .load then 4 else 5) (some ea) := by
  obtain ⟨done, meaning⟩ := access
  exact ⟨_, meaning.trans (s.guarded_of_some (s.accessFault_misaligned d ea _ _ _ misaligned) done),
    d.tookTrap_addressError s ea⟩

theorem IsAccess.barred {s : State} {d : Access} {ea : Word} {p : Instr × Nat × Word × Nat} (access : IsAccess s d ea p)
    (aligned : ea.toNat % p.2.1 = 0) (barred : s.userBarred ea = true) :
    ∃ t, exec p.1 s = .next t ∧ s.TookTrap t (if d = .load then 4 else 5) (some ea) := by
  obtain ⟨done, meaning⟩ := access
  exact ⟨_, meaning.trans (s.guarded_of_some (State.accessFault_barred d _ _ aligned barred) done),
    d.tookTrap_addressError s ea⟩

theorem IsAccess.unpopulated {s : State} {d : Access} {ea : Word} {p : Instr × Nat × Word × Nat} (access : IsAccess s d ea p)
    (aligned : ea.toNat % p.2.1 = 0) (allowed : s.userBarred ea = false)
    (unanswered : ∃ q ∈ busAccesses p.2.2.1 p.2.2.2, memPopulated s.params.holes q.1 q.2 = false) :
    ∃ t, exec p.1 s = .next t ∧ s.TookTrap t 7 none := by
  obtain ⟨done, meaning⟩ := access
  exact ⟨_, meaning.trans (s.guarded_of_some (State.accessFault_unpopulated d aligned allowed unanswered) done),
    s.tookTrap_trap .dbe⟩

/-- Settles O43: an aligned load or store is an access, whose first check is alignment. -/
theorem misalignedAccesses : Obligations.MisalignedAccesses := by
  rintro s rt rs ft imm ea rfl
  constructor
  · intro p mem even misaligned
    have listed : (p.1, p.2, s.ea rs imm, p.2) ∈ loads rt ft rs imm (s.ea rs imm) := by
      simp only [loads, List.mem_cons, List.mem_map]
      exact .inr (.inr (.inr (.inr ⟨p, mem, rfl⟩)))
    exact (isAccess_of_mem_loads listed even).misaligned misaligned
  · intro p mem even misaligned
    have listed : (p.1, p.2, s.ea rs imm, p.2) ∈ stores rt ft rs imm (s.ea rs imm) := by
      simp only [stores, List.mem_cons, List.mem_map]
      exact .inr (.inr (.inr ⟨p, mem, rfl⟩))
    exact (isAccess_of_mem_stores listed even).misaligned misaligned

/-- No store is a load. -/
theorem not_mem_loads_of_mem_stores {rt rs : RegNum} {ft : FRegNum} {imm : BitVec 16} {ea : Word}
    {p : Instr × Nat × Word × Nat} (mem : p ∈ stores rt ft rs imm ea) : p ∉ loads rt ft rs imm ea := by
  simp only [stores, alignedStores, List.map_cons, List.map_nil, List.mem_cons, List.not_mem_nil, or_false] at mem
  rcases mem with rfl | rfl | rfl | rfl | rfl | rfl | rfl | rfl <;> simp [loads, alignedLoads]

/-- Settles O44: every load and store is an access, whose checks come in the order of R83. -/
theorem barredAccesses : Obligations.BarredAccesses := by
  rintro s rt rs ft imm ea rfl p mem even aligned
  have access : IsAccess s (if p ∈ loads rt ft rs imm (s.ea rs imm) then .load else .store) (s.ea rs imm) p := by
    rcases List.mem_append.mp mem with isLoad | isStore
    · rw [if_pos (show p ∈ loads rt ft rs imm (s.ea rs imm) from isLoad)]
      exact isAccess_of_mem_loads isLoad fun h => even (.inl h)
    · rw [if_neg (show p ∉ loads rt ft rs imm (s.ea rs imm) from not_mem_loads_of_mem_stores isStore)]
      exact isAccess_of_mem_stores isStore fun h => even (.inr h)
  refine ⟨fun check user high => ?_, fun allowed unanswered => ?_⟩
  · have barred : s.userBarred (s.ea rs imm) = true := by simp only [State.userBarred, check, user, State.ea, high]; rfl
    have codes : (if (if p ∈ loads rt ft rs imm (s.ea rs imm) then Access.load else .store) = .load then 4 else 5) =
        (if p ∈ loads rt ft rs imm (s.ea rs imm) then 4 else 5 : BitVec 5) := by split_ifs <;> simp_all
    have trapped := access.barred aligned barred
    rw [codes] at trapped
    exact trapped
  · exact access.unpopulated aligned ((s.userBarred_eq_false _).mpr allowed) unanswered

end Sys2Proof.Machine

namespace Sys2Proof

/-- Settles O41: each is a store of its bytes, or of two words one after the other. -/
theorem stores : Obligations.Stores := by
  rintro s rt rs ft imm ea rfl wf
  exact ⟨Machine.exec_oneStore rt rs ft imm wf, fun even ok => Machine.exec_sdc1 wf even ok⟩

end Sys2Proof

/-! System instructions (R35 to R39, R179, R245 to R266), and how floating-point results and conditions reach the state (R192 to R213,
R271 to R323). -/

namespace Sys2Proof.Machine

/-! ### Instructions that trap (R245, R247, R256 to R266) -/

/-- Settles O46: each is a trap entry. -/
theorem alwaysTrapping : Obligations.AlwaysTrapping := by
  intro s code rt rs imm
  refine ⟨⟨_, rfl, s.tookTrap_trap .sys⟩, ⟨_, rfl, s.tookTrap_trap .bp⟩, ?_⟩
  simp only [List.forall_mem_cons, List.not_mem_nil, false_implies, implies_true, and_true]
  exact ⟨⟨_, rfl, s.tookTrap_trap .cpU⟩, ⟨_, rfl, s.tookTrap_trap .cpU⟩, ⟨_, rfl, s.tookTrap_trap .cpU⟩,
    ⟨_, rfl, s.tookTrap_trap .cpU⟩⟩

/-- R256 to R261: a conditional trap is `trapWhen` of its condition. -/
theorem exec_conditionalTrap (s : State) (rs rt : RegNum) (tcode : BitVec 10) :
    ∀ p ∈ conditionalTraps s rs rt tcode, exec p.1 s = s.trapWhen p.2 := by
  simp only [conditionalTraps, List.forall_mem_cons]
  exact ⟨rfl, rfl, rfl, rfl, rfl, rfl, List.forall_mem_nil _⟩

/-- R249: a conditional trap does one thing or the other. -/
theorem State.trapWhen_eq (s : State) (c : Bool) :
    (c = false → ∃ t, s.trapWhen c = .next t ∧ s.DidNothing t) ∧
    (c = true → ∃ t, s.trapWhen c = .next t ∧ s.TookTrap t 13 none) := by
  rcases s.trapWhen_cases c with ⟨holds, trapped⟩ | ⟨fails, ran⟩
  · exact ⟨fun h => by simp [holds] at h, fun _ => ⟨_, trapped, s.tookTrap_trap .tr⟩⟩
  · exact ⟨fun _ => ⟨_, ran, s.didNothing_retire⟩, fun h => by simp [fails] at h⟩

/-! ### `mfc0` (R35 to R39, R179) -/

/-- R36: where the named fields of Status stand. -/
theorem State.statusWord_fields (s : State) (free : Word) :
    (s.statusWord free).getLsbD 4 = s.statusUm ∧ (s.statusWord free).getLsbD 1 = s.statusEl ∧
      (s.statusWord free).getLsbD 0 = s.statusIe ∧ (s.statusWord free).extractLsb' 8 8 = s.pendingField := by
  refine ⟨?_, ?_, ?_, ?_⟩
  · simp only [State.statusWord, BitVec.getLsbD_append]; simp
  · simp only [State.statusWord, BitVec.getLsbD_append]; simp
  · simp only [State.statusWord, BitVec.getLsbD_append]; simp
  · apply BitVec.eq_of_getLsbD_eq
    intro k hk
    simp only [State.statusWord, BitVec.getLsbD_extractLsb', BitVec.getLsbD_append]
    interval_cases k <;> simp

/-- R35: where the named fields of Cause stand. -/
theorem State.causeWord_fields (s : State) (free : Word) :
    (s.causeWord free).getLsbD 31 = s.causeBd ∧ (s.causeWord free).extractLsb' 2 5 = s.causeExcCode ∧
      (s.causeWord free).extractLsb' 8 8 = s.causeIntField := by
  refine ⟨?_, ?_, ?_⟩
  · simp only [State.causeWord, BitVec.getLsbD_append]; simp
  · apply BitVec.eq_of_getLsbD_eq
    intro k hk
    simp only [State.causeWord, BitVec.getLsbD_extractLsb', BitVec.getLsbD_append]
    interval_cases k <;> simp
  · apply BitVec.eq_of_getLsbD_eq
    intro k hk
    simp only [State.causeWord, BitVec.getLsbD_extractLsb', BitVec.getLsbD_append]
    interval_cases k <;> simp

theorem State.pendingField_eq (s : State) :
    s.pendingField = if s.params.intFields = .asPrinted then s.irq else s.intMask := by
  unfold State.pendingField
  cases s.params.intFields <;> simp

theorem State.causeIntField_eq (s : State) :
    s.causeIntField = if s.params.intFields = .asPrinted then s.intMask else s.irq := by
  unfold State.causeIntField
  cases s.params.intFields <;> simp

/-- R179: in kernel mode `mfc0` writes one general register and uses one draw. -/
theorem exec_mfc0_of_kernel {s : State} (kernel : s.userMode = false) (rt : RegNum) (rd : CRegNum) :
    ∃ t v, v = s.readCR rd (Config.freeWord s.draws) ∧ exec (.mfc0 rt rd) s = .next t ∧ (rt ≠ 0 → t.readR rt = v) ∧
      (∀ i, i ≠ rt → t.readR i = s.readR i) ∧ s.sameBut t [.general, .draws] ∧ s.Retired t := by
  refine ⟨_, _, rfl, s.kernelOnly_of_kernel _ kernel, fun nonzero => State.readR_setR_same _ _ _ nonzero,
    fun i other => State.readR_setR_ne _ _ _ _ other, fun p unlisted => ?_, State.retired_retire rfl rfl rfl rfl⟩
  cases p <;> simp_all [State.same]

/-- Settles O45: the register's number selects, the numbers being distinct, the word whose fields are named. -/
theorem moveFromControl : Obligations.MoveFromControl := by
  intro s rt rd
  refine ⟨fun user => ⟨_, if_pos user, s.tookTrap_trap .cpU⟩, fun kernel distinct => ?_⟩
  simp only [List.nodup_cons, List.mem_cons, List.not_mem_nil, not_or, not_false_eq_true, List.nodup_nil,
    and_true] at distinct
  obtain ⟨⟨badStatus, badCause, badEpc⟩, ⟨statusCause, statusEpc⟩, causeEpc⟩ := distinct
  obtain ⟨t, v, value, ended, result, others, frame, retired⟩ := exec_mfc0_of_kernel kernel rt rd
  refine ⟨t, v, ended, result, others, frame, retired, fun status => ?_, fun cause => ?_, fun epc => ?_, fun bad => ?_⟩
  · have word : v = s.statusWord (Config.freeWord s.draws) := by simp [value, State.readCR, status]
    rw [word, ← s.pendingField_eq]
    exact s.statusWord_fields _
  · have word : v = s.causeWord (Config.freeWord s.draws) := by simp [value, State.readCR, cause, Ne.symm statusCause]
    rw [word, ← s.causeIntField_eq]
    exact s.causeWord_fields _
  · simp [value, State.readCR, epc, Ne.symm statusEpc, Ne.symm causeEpc]
  · simp [value, State.readCR, bad, badStatus, badCause, badEpc]

/-! ### Results (R192 to R213, R271 to R296) -/

/-- The instructions with a single or a word as their result deliver it, double operands being pairs. -/
theorem exec_singleResult (s : State) (fd fs ft : FRegNum) :
    ∀ p ∈ singleResults s fd fs ft, exec p.1 s = ifEven p.2.1 (s.deliverSingle fd p.2.2) := by
  simp only [singleResults, singleToWord, doubleToWord, List.map_cons, List.map_nil, List.cons_append, List.nil_append,
    List.forall_mem_cons]
  exact ⟨rfl, rfl, rfl, rfl, rfl, rfl, rfl, rfl, rfl, rfl, rfl, rfl, rfl, rfl, rfl, rfl, rfl, rfl, List.forall_mem_nil _⟩

/-- The instructions with a double as their result deliver it, their double operands being pairs. -/
theorem exec_doubleResult (s : State) (fd fs ft : FRegNum) :
    ∀ p ∈ doubleResults s fd fs ft, exec p.1 s = ifEven p.2.1 (s.deliverDouble fd p.2.2) := by
  simp only [doubleResults, List.forall_mem_cons]
  exact ⟨rfl, rfl, rfl, rfl, rfl, rfl, rfl, rfl, List.forall_mem_nil _⟩

theorem State.deliverSingle_of_not_trapped {s : State} {r : Fp.Result} (quiet : fpTraps s.params.fpTraps r.signals = false)
    (fd : FRegNum) : ∃ t, s.deliverSingle fd r = .next t ∧ s.WroteF t fd r.out := by
  rcases s.deliverSingle_cases fd r with ⟨trapped, _⟩ | ⟨_, delivered⟩
  · simp [quiet] at trapped
  · exact delivered

theorem State.deliverDouble_of_not_trapped {s : State} {r : Fp.Result} (quiet : fpTraps s.params.fpTraps r.signals = false)
    (fd : FRegNum) : ∃ t, s.deliverDouble fd r = .next t ∧ s.WroteD t fd r.out := by
  rcases s.deliverDouble_cases fd r with ⟨trapped, _⟩ | ⟨_, delivered⟩
  · simp [quiet] at trapped
  · exact delivered

/-- Settles O49: each result is delivered, since what it signals does not trap. -/
theorem arithmeticResults : Obligations.ArithmeticResults := by
  intro s fd fs ft
  refine ⟨fun p mem even quiet => ?_, fun p mem even quiet => ?_⟩
  · rw [exec_singleResult s fd fs ft p mem, ifEven_of_even even]
    exact State.deliverSingle_of_not_trapped quiet fd
  · rw [exec_doubleResult s fd fs ft p mem, ifEven_of_even even]
    exact State.deliverDouble_of_not_trapped quiet fd

/-! ### `mov`, `abs`, `neg` (R273 to R278) -/

/-- R273: clearing the sign bit keeps the bits below it. -/
theorem Fp.Format.abs_out (f : Fp.Format) (a : Nat) :
    (f.abs a).out = if f.isNaN a then .anyNaN else .bits (a &&& 2 ^ (f.fracBits + f.expBits) - 1) := by
  unfold Fp.Format.abs
  rw [Nat.and_two_pow_sub_one_eq_mod]
  split <;> rfl

/-- R277: inverting the sign bit keeps the bits below it. -/
theorem Fp.Format.neg_out (f : Fp.Format) {a : Nat} (small : a < 2 ^ (f.fracBits + f.expBits) * 2) :
    (f.neg a).out = if f.isNaN a then .anyNaN else .bits (a ^^^ 2 ^ (f.fracBits + f.expBits)) := by
  have positive : 0 < 2 ^ (f.fracBits + f.expBits) := Nat.two_pow_pos _
  have inverted : f.signBit (!f.sign a) + a % 2 ^ (f.fracBits + f.expBits) = a ^^^ 2 ^ (f.fracBits + f.expBits) := by
    rw [← Nat.div_add_mod (a ^^^ 2 ^ (f.fracBits + f.expBits)) (2 ^ (f.fracBits + f.expBits)), Nat.xor_div_two_pow,
      Nat.xor_mod_two_pow, Nat.mod_self, Nat.xor_zero, Nat.div_self positive]
    have top : a / 2 ^ (f.fracBits + f.expBits) < 2 := Nat.div_lt_of_lt_mul small
    congr 1
    unfold Fp.Format.signBit Fp.Format.sign
    interval_cases a / 2 ^ (f.fracBits + f.expBits) <;> simp
  unfold Fp.Format.neg
  rw [inverted]
  split <;> rfl

/-- Settles O50: the results as bits of the operand. -/
theorem signOperations : Obligations.SignOperations := by
  intro s fd fs
  have single := (s.readF fs).isLt
  have double := (s.readD fs).isLt
  refine ⟨⟨_, rfl, s.wroteF_setF fd _⟩, fun quiet => ?_, fun quiet => ?_, fun evenFd evenFs => ⟨?_, fun quiet => ?_, fun quiet => ?_⟩⟩
  · have delivered := State.deliverSingle_of_not_trapped quiet fd
    rw [Fp.Format.abs_out] at delivered
    exact delivered
  · have delivered := State.deliverSingle_of_not_trapped quiet fd
    rw [Fp.Format.neg_out _ single] at delivered
    exact delivered
  · exact ⟨_, ifEven_of_even (even_pair evenFd evenFs) _, s.wroteD_setD fd _⟩
  · have delivered := State.deliverDouble_of_not_trapped quiet fd
    rw [Fp.Format.abs_out] at delivered
    rw [show exec (.absD fd fs) s = s.deliverDouble fd _ from ifEven_of_even (even_pair evenFd evenFs) _]
    exact delivered
  · have delivered := State.deliverDouble_of_not_trapped quiet fd
    rw [Fp.Format.neg_out _ double] at delivered
    rw [show exec (.negD fd fs) s = s.deliverDouble fd _ from ifEven_of_even (even_pair evenFd evenFs) _]
    exact delivered

end Sys2Proof.Machine

namespace Sys2Proof

/-- Settles O48: each conditional trap is `trapWhen` of its condition. -/
theorem conditionalTraps : Obligations.ConditionalTraps := by
  intro s rs rt tcode p mem
  rw [Machine.exec_conditionalTrap s rs rt tcode p mem]
  exact s.trapWhen_eq p.2

end Sys2Proof

/-! Floating-point values: comparisons (R212, R323), the traps of R213, and the special operands (R211). -/

namespace Sys2Proof.Machine.Fp

/-! ### Signed values -/

/-- `(-1)^neg * m * 2^e`. -/
def numValue (neg : Bool) (m : Nat) (e : ℤ) : ℚ := (if neg then -1 else 1) * (m : ℚ) * (2 : ℚ) ^ e

theorem numValue_eq_signed (neg : Bool) (m : Nat) (e : ℤ) : numValue neg m e = (signed neg m : ℚ) * (2 : ℚ) ^ e := by
  cases neg <;> simp [numValue, signed]

theorem numValue_not (neg : Bool) (m : Nat) (e : ℤ) : numValue (!neg) m e = -numValue neg m e := by
  cases neg <;> simp [numValue]

theorem signed_mul (neg : Bool) (m n : Nat) : signed neg (m * n) = signed neg m * n := by
  cases neg <;> simp [signed]

/-- A multiple of `2 ^ e` is one of any lower power of two. -/
theorem numValue_lower (neg : Bool) (m : Nat) {e e' : ℤ} (lower : e' ≤ e) :
    numValue neg m e = (signed neg (m * 2 ^ (e - e').toNat) : ℚ) * (2 : ℚ) ^ e' := by
  have power : (2 : ℚ) ^ e = 2 ^ (e - e').toNat * (2 : ℚ) ^ e' := by
    rw [← zpow_natCast, ← zpow_add₀ two_ne_zero]
    congr 1; omega
  rw [numValue_eq_signed, signed_mul, power]
  push_cast; ring

/-- The aligned sum is the sum of the values. -/
theorem alignedSum_value (n1 : Bool) (m1 : Nat) (e1 : ℤ) (n2 : Bool) (m2 : Nat) (e2 : ℤ) :
    (alignedSum n1 m1 e1 n2 m2 e2 : ℚ) * (2 : ℚ) ^ min e1 e2 = numValue n1 m1 e1 + numValue n2 m2 e2 := by
  rw [numValue_lower n1 m1 (min_le_left e1 e2), numValue_lower n2 m2 (min_le_right e1 e2), alignedSum]
  push_cast; ring

theorem scaled_eq_zero_iff (d e : ℤ) : (d : ℚ) * (2 : ℚ) ^ e = 0 ↔ d = 0 := by
  rw [mul_eq_zero, or_iff_left (zpow_ne_zero _ two_ne_zero), Int.cast_eq_zero]

theorem scaled_pos_iff (d e : ℤ) : 0 < (d : ℚ) * (2 : ℚ) ^ e ↔ 0 < d := by
  rw [mul_pos_iff_of_pos_right (zpow_pos two_pos _), Int.cast_pos]

theorem scaled_neg_iff (d e : ℤ) : (d : ℚ) * (2 : ℚ) ^ e < 0 ↔ d < 0 := by
  rw [← neg_pos, ← neg_mul, ← Int.cast_neg, scaled_pos_iff, neg_pos]

theorem alignedSum_eq_zero_iff (n1 : Bool) (m1 : Nat) (e1 : ℤ) (n2 : Bool) (m2 : Nat) (e2 : ℤ) :
    alignedSum n1 m1 e1 n2 m2 e2 = 0 ↔ numValue n1 m1 e1 + numValue n2 m2 e2 = 0 := by
  rw [← alignedSum_value, scaled_eq_zero_iff]

theorem alignedSum_neg_iff (n1 : Bool) (m1 : Nat) (e1 : ℤ) (n2 : Bool) (m2 : Nat) (e2 : ℤ) :
    alignedSum n1 m1 e1 n2 m2 e2 < 0 ↔ numValue n1 m1 e1 + numValue n2 m2 e2 < 0 := by
  rw [← alignedSum_value, scaled_neg_iff]

/-- A finite pattern is read as the signed number that its value is. -/
theorem Format.unpack_numValue {f : Format} {x : Nat} (h : f.Finite x) : f.isNaN x = false ∧
    ∃ m e, f.unpack x = .num (f.sign x) m e ∧ f.value x = numValue (f.sign x) m e ∧ (m = 0 ↔ f.value x = 0) :=
  Format.unpack_of_finite h

/-- What the sign bit of a finite pattern says of its value. -/
theorem Format.value_sign {f : Format} {x : Nat} (h : f.Finite x) :
    (f.sign x = true → f.value x ≤ 0) ∧ (f.sign x = false → 0 ≤ f.value x) := by
  obtain ⟨_, m, e, _, value, _⟩ := Format.unpack_of_finite h
  have magnitude : 0 ≤ (m : ℚ) * (2 : ℚ) ^ e := by positivity
  constructor <;> intro sign <;> rw [value, sign] <;> simp <;> linarith

/-! ### Comparison (R212) -/

theorem Format.unpack_eq_nan_iff (f : Format) (x : Nat) : f.unpack x = .nan ↔ f.isNaN x = true := by
  unfold Format.unpack Format.isNaN
  cases f.classify x <;> simp

theorem Relation.ofSign_eq (d : ℤ) : (Relation.ofSign d = .less ↔ d < 0) ∧ (Relation.ofSign d = .equal ↔ d = 0) ∧
    (Relation.ofSign d = .greater ↔ 0 < d) ∧ Relation.ofSign d ≠ .unordered := by
  rcases lt_trichotomy d 0 with h | h | h
  · have less : Relation.ofSign d = .less := if_pos h
    simp [less, h, h.ne, h.le]
  · simp [Relation.ofSign, h]
  · have greater : Relation.ofSign d = .greater := (if_neg h.not_gt).trans (if_neg h.ne')
    simp [greater, h, h.ne', h.le]

theorem Format.cmp_eq_unordered_iff (f : Format) (a b : Nat) :
    f.cmp a b = .unordered ↔ f.isNaN a = true ∨ f.isNaN b = true := by
  rw [← f.unpack_eq_nan_iff, ← f.unpack_eq_nan_iff]
  unfold Format.cmp
  split
  case h_6 => simp_all [(Relation.ofSign_eq _).2.2.2]
  all_goals simp_all <;> split_ifs <;> simp

/-- R212: finite patterns compare as their values. -/
theorem Format.cmp_of_finite {f : Format} {a b : Nat} (ha : f.Finite a) (hb : f.Finite b) :
    (f.cmp a b = .less ↔ f.value a < f.value b) ∧ (f.cmp a b = .equal ↔ f.value a = f.value b) ∧
      (f.cmp a b = .greater ↔ f.value a > f.value b) := by
  obtain ⟨_, m1, e1, unpackA, valueA, _⟩ := Format.unpack_numValue ha
  obtain ⟨_, m2, e2, unpackB, valueB, _⟩ := Format.unpack_numValue hb
  have difference : (alignedSum (f.sign a) m1 e1 (!f.sign b) m2 e2 : ℚ) * (2 : ℚ) ^ min e1 e2 = f.value a - f.value b := by
    rw [alignedSum_value, numValue_not, valueA, valueB, sub_eq_add_neg]
  obtain ⟨less, equal, greater, _⟩ := Relation.ofSign_eq (alignedSum (f.sign a) m1 e1 (!f.sign b) m2 e2)
  simp only [Format.cmp, unpackA, unpackB, less, equal, greater]
  refine ⟨?_, ?_, ?_⟩
  · rw [← sub_neg (a := f.value a), ← difference, scaled_neg_iff]
  · rw [← sub_eq_zero (a := f.value a), ← difference, scaled_eq_zero_iff]
  · rw [gt_iff_lt, ← sub_pos (b := f.value b), ← difference, scaled_pos_iff]

/-- Settles O53: finite patterns compare as their values, infinities by their signs. -/
theorem compareOfValues : Obligations.CompareOfValues := by
  intro f _ a b
  refine ⟨f.cmp_eq_unordered_iff a b, Format.cmp_of_finite, fun ha hb => ?_, fun ha hb => ?_, fun ha hb => ?_⟩
  · obtain ⟨_, m, e, unpack, _⟩ := Format.unpack_of_finite ha
    simp only [Format.cmp, unpack, (Format.unpack_of_infinity hb).2]
  · obtain ⟨_, m, e, unpack, _⟩ := Format.unpack_of_finite hb
    simp only [Format.cmp, unpack, (Format.unpack_of_infinity ha).2]
  · simp only [Format.cmp, (Format.unpack_of_infinity ha).2, (Format.unpack_of_infinity hb).2]

/-! ### Special operands (R211) -/

theorem Format.binary_of_nan {f : Format} {a b : Nat} (h : f.isNaN a = true ∨ f.isNaN b = true)
    (op : Datum → Datum → Result) : (f.binary op a b).out = .anyNaN := by
  rw [Format.binary, if_pos (by simpa using h)]

theorem Format.binary_of_not_nan {f : Format} {a b : Nat} (ha : f.isNaN a = false) (hb : f.isNaN b = false)
    (op : Datum → Datum → Result) : f.binary op a b = op (f.unpack a) (f.unpack b) := by
  simp [Format.binary, ha, hb]

theorem Format.round_zero (f : Format) (neg : Bool) (e : ℤ) : f.round neg 0 e = f.zero neg := if_pos rfl

section Operands

variable {f : Format} {a b : Nat}

/-- R211: two infinities. -/
theorem Format.infinity_infinity (ha : f.classify a = .infinity) (hb : f.classify b = .infinity) :
    (f.add a b = if f.sign a = f.sign b then f.infinity (f.sign a) else invalidNaN) ∧
      (f.sub a b = if f.sign a = f.sign b then invalidNaN else f.infinity (f.sign a)) ∧
      f.mul a b = f.infinity (f.sign a != f.sign b) ∧ f.div a b = invalidNaN := by
  obtain ⟨nanA, unpackA⟩ := Format.unpack_of_infinity ha
  obtain ⟨nanB, unpackB⟩ := Format.unpack_of_infinity hb
  simp only [Format.add, Format.sub, Format.mul, Format.div, Format.binary_of_not_nan nanA nanB, unpackA, unpackB,
    Datum.negate, Format.addDatum, Format.mulDatum, Format.divDatum, true_and, and_true]
  cases f.sign a <;> cases f.sign b <;> simp

/-- R211, log 37: an infinity and a finite operand. -/
theorem Format.infinity_finite (ha : f.classify a = .infinity) (hb : f.Finite b) :
    f.add a b = f.infinity (f.sign a) ∧ f.add b a = f.infinity (f.sign a) ∧ f.sub a b = f.infinity (f.sign a) ∧
      f.sub b a = f.infinity (!f.sign a) ∧ f.div a b = f.infinity (f.sign a != f.sign b) ∧
      f.div b a = f.zero (f.sign b != f.sign a) := by
  obtain ⟨nanA, unpackA⟩ := Format.unpack_of_infinity ha
  obtain ⟨nanB, m, e, unpackB, _⟩ := Format.unpack_of_finite hb
  simp only [Format.add, Format.sub, Format.div, Format.binary_of_not_nan nanA nanB, Format.binary_of_not_nan nanB nanA,
    unpackA, unpackB, Datum.negate, Format.addDatum, Format.divDatum, and_self]

/-- R211: an infinity times a finite operand that is not zero. -/
theorem Format.infinity_mul_finite (ha : f.classify a = .infinity) (hb : f.Finite b) (nonzero : f.value b ≠ 0) :
    f.mul a b = f.infinity (f.sign a != f.sign b) ∧ f.mul b a = f.infinity (f.sign b != f.sign a) := by
  obtain ⟨nanA, unpackA⟩ := Format.unpack_of_infinity ha
  obtain ⟨nanB, m, e, unpackB, _, zero⟩ := Format.unpack_of_finite hb
  simp only [Format.mul, Format.binary_of_not_nan nanA nanB, Format.binary_of_not_nan nanB nanA, unpackA, unpackB,
    Format.mulDatum, if_neg (mt zero.mp nonzero), and_self]

/-- R211: an infinity times a zero. -/
theorem Format.infinity_mul_zero (ha : f.classify a = .infinity) (hb : f.classify b = .zero) :
    f.mul a b = invalidNaN ∧ f.mul b a = invalidNaN := by
  obtain ⟨nanA, unpackA⟩ := Format.unpack_of_infinity ha
  obtain ⟨nanB, unpackB⟩ := Format.unpack_of_zero hb
  simp only [Format.mul, Format.binary_of_not_nan nanA nanB, Format.binary_of_not_nan nanB nanA, unpackA, unpackB,
    Format.mulDatum, if_true, and_self]

/-- R211, log 37: two zeros. -/
theorem Format.zero_zero (ha : f.classify a = .zero) (hb : f.classify b = .zero) :
    f.div a b = invalidNaN ∧ f.add a b = f.zero (f.sign a && f.sign b) ∧ f.sub a b = f.zero (f.sign a && !f.sign b) ∧
      f.mul a b = f.zero (f.sign a != f.sign b) := by
  obtain ⟨nanA, unpackA⟩ := Format.unpack_of_zero ha
  obtain ⟨nanB, unpackB⟩ := Format.unpack_of_zero hb
  have sum : ∀ n1 n2, alignedSum n1 0 f.minQuantum n2 0 f.minQuantum = 0 := fun n1 n2 => by
    rw [alignedSum_eq_zero_iff]; simp [numValue]
  simp only [Format.add, Format.sub, Format.mul, Format.div, Format.binary_of_not_nan nanA nanB, unpackA, unpackB,
    Datum.negate, Format.addDatum, Format.mulDatum, Format.divDatum, sum, if_true, Nat.mul_zero, Format.round_zero, and_self]

/-- R211: a finite operand that is not zero, and a zero. -/
theorem Format.finite_zero (ha : f.Finite a) (nonzero : f.value a ≠ 0) (hb : f.classify b = .zero) :
    f.div a b = ⟨(f.infinity (f.sign a != f.sign b)).out, { divZero := true }⟩ ∧
      f.mul a b = f.zero (f.sign a != f.sign b) ∧ f.mul b a = f.zero (f.sign b != f.sign a) ∧
      f.div b a = f.zero (f.sign b != f.sign a) := by
  obtain ⟨nanA, m, e, unpackA, _, zero⟩ := Format.unpack_of_finite ha
  obtain ⟨nanB, unpackB⟩ := Format.unpack_of_zero hb
  simp only [Format.mul, Format.div, Format.binary_of_not_nan nanA nanB, Format.binary_of_not_nan nanB nanA, unpackA, unpackB,
    Format.mulDatum, Format.divDatum, if_true, if_neg (mt zero.mp nonzero), Nat.mul_zero, Nat.zero_mul, Format.round_zero,
    and_self]

/-- R211: two finite operands, not zeros, whose exact sum is zero: they have opposite signs. -/
theorem Format.exact_zero_sum (ha : f.Finite a) (hb : f.Finite b) (nonzero : f.value a ≠ 0) :
    (f.value a + f.value b = 0 → f.add a b = f.zero false) ∧ (f.value a = f.value b → f.sub a b = f.zero false) := by
  obtain ⟨nanA, m1, e1, unpackA, valueA, _⟩ := Format.unpack_numValue ha
  obtain ⟨nanB, m2, e2, unpackB, valueB, _⟩ := Format.unpack_numValue hb
  have signA := Format.value_sign ha
  have signB := Format.value_sign hb
  simp only [Format.add, Format.sub, Format.binary_of_not_nan nanA nanB, unpackA, unpackB, Datum.negate, Format.addDatum]
  constructor <;> intro exact
  · have sum : alignedSum (f.sign a) m1 e1 (f.sign b) m2 e2 = 0 := by
      rw [alignedSum_eq_zero_iff, ← valueA, ← valueB, exact]
    have signs : (f.sign a && f.sign b) = false := Bool.eq_false_iff.mpr fun both => by
      obtain ⟨sa, sb⟩ := Bool.and_eq_true_iff.mp both
      exact nonzero (by linarith [signA.1 sa, signB.1 sb])
    rw [if_pos sum, signs]
  · have sum : alignedSum (f.sign a) m1 e1 (!f.sign b) m2 e2 = 0 := by
      rw [alignedSum_eq_zero_iff, numValue_not, ← valueA, ← valueB, exact, add_neg_cancel]
    have signs : (f.sign a && !f.sign b) = false := Bool.eq_false_iff.mpr fun both => by
      obtain ⟨sa, sb⟩ := Bool.and_eq_true_iff.mp both
      exact nonzero (by linarith [signA.1 sa, signB.2 (by simpa using sb)])
    rw [if_pos sum, signs]

end Operands

/-- Settles O60: each clause is one pair of classes, read by the operation's own table. -/
theorem specialOperands : Obligations.SpecialOperands := by
  intro f _ a b
  refine ⟨fun nan => ⟨Format.binary_of_nan nan _, Format.binary_of_nan nan _, Format.binary_of_nan nan _,
      Format.binary_of_nan nan _⟩,
    Format.infinity_infinity, Format.infinity_finite, Format.infinity_mul_finite, Format.infinity_mul_zero, Format.zero_zero,
    Format.finite_zero, Format.exact_zero_sum, fun nan => ?_, fun inf => ?_, fun zero => ?_,
    fun g _ => ⟨fun nan => ?_, fun inf => ?_, fun zero => ?_⟩, fun special mode => ?_⟩
  · simp only [Format.sqrt, Format.unpack_of_isNaN nan]
  · simp only [Format.sqrt, (Format.unpack_of_infinity inf).2]
  · simp only [Format.sqrt, (Format.unpack_of_zero zero).2, if_true]
  · simp only [Format.convert, Format.unpack_of_isNaN nan]
  · simp only [Format.convert, (Format.unpack_of_infinity inf).2]
  · simp only [Format.convert, (Format.unpack_of_zero zero).2, Format.round_zero]
  · rcases special with nan | inf
    · simp only [Format.toWord, Format.unpack_of_isNaN nan]
    · simp only [Format.toWord, (Format.unpack_of_infinity inf).2]

end Sys2Proof.Machine.Fp

namespace Sys2Proof.Machine

/-! ### Compares (R212, R213, R323) -/

/-- R323: the low four bits of the functs of a row of the table, from what makes its compares true and signal. -/
def CompareRow.cond (p : CompareRow) : BitVec 4 :=
  BitVec.ofBool p.signalling ++ BitVec.ofBool p.less ++ BitVec.ofBool p.equal ++ BitVec.ofBool p.unordered

theorem CompareRow.cond_bits (p : CompareRow) : p.cond.getLsbD 0 = p.unordered ∧ p.cond.getLsbD 1 = p.equal ∧
    p.cond.getLsbD 2 = p.less ∧ p.cond.getLsbD 3 = p.signalling := by
  simp only [CompareRow.cond, BitVec.getLsbD_append]
  simp

/-- R323: the compares of a row are the comparisons with the row's condition. -/
theorem exec_compareRow (s : State) (fs ft : FRegNum) : ∀ p ∈ compares fs ft,
    exec p.single s = s.compareSingle p.cond fs ft ∧ exec p.double s = s.compareDouble p.cond fs ft := by
  intro p mem
  simp only [compares, List.mem_cons, List.not_mem_nil, or_false] at mem
  rcases mem with rfl | rfl | rfl | rfl | rfl | rfl | rfl | rfl | rfl | rfl | rfl | rfl | rfl | rfl | rfl | rfl
  all_goals
    simp only [CompareRow.cond]
    exact ⟨rfl, rfl⟩

/-- R323: a row's condition is its column of the table. -/
theorem CompareRow.fpCondition_cond (p : CompareRow) (r : Fp.Relation) : fpCondition p.cond r = p.holds r := by
  obtain ⟨unordered, equal, less, _⟩ := p.cond_bits
  cases r
  · exact less
  · exact equal
  · rfl
  · exact unordered

/-- R212: invalid is all that a compare signals. -/
theorem CompareRow.compareSignals_cond (p : CompareRow) (f : Fp.Format) (a b : Nat) :
    compareSignals f p.cond a b = { invalid := p.signalsInvalid f a b } := by
  have unordered : decide (f.cmp a b = .unordered) = (f.isNaN a || f.isNaN b) := by
    simp [f.cmp_eq_unordered_iff]
  rw [compareSignals, unordered, p.cond_bits.2.2.2, CompareRow.signalsInvalid]

theorem fpTraps_invalid (traps : Config.FpExceptions) (b : Bool) :
    fpTraps traps { invalid := b } = (traps.invalid && b) := by
  simp [fpTraps]

/-- R213: the compare of a row sets `FPcond`, or its invalid traps. -/
theorem State.compareRow_cases (s : State) (p : CompareRow) (f : Fp.Format) (a b : Nat) :
    (s.params.fpTraps.invalid = true ∧ p.signalsInvalid f a b = true ∧ s.compare f p.cond a b = .next (s.trap .fpe)) ∨
    (¬(s.params.fpTraps.invalid = true ∧ p.signalsInvalid f a b = true) ∧
      ∃ t, s.compare f p.cond a b = .next t ∧ s.WroteCond t (p.holds (f.cmp a b))) := by
  have cases := s.compare_cases f p.cond a b
  rw [p.compareSignals_cond, fpTraps_invalid, p.fpCondition_cond] at cases
  rcases cases with ⟨signalled, trapped⟩ | ⟨quiet, compared⟩
  · obtain ⟨traps, signals⟩ := Bool.and_eq_true_iff.mp signalled
    exact .inl ⟨traps, signals, trapped⟩
  · exact .inr ⟨fun both => by simp [both.1, both.2] at quiet, compared⟩

theorem State.compareDouble_of_even {s : State} {fs ft : FRegNum} (cond : BitVec 4) (evenFs : evenReg fs = true)
    (evenFt : evenReg ft = true) :
    s.compareDouble cond fs ft = s.compare Fp.double cond (s.readD fs).toNat (s.readD ft).toNat :=
  ifEven_of_even (even_pair evenFs evenFt) _

/-! ### Odd doubles (R214) -/

theorem ifEven_of_odd {regs : List FRegNum} (odd : ∃ n ∈ regs, n.toNat % 2 = 1) (o : Outcome) :
    ifEven regs o = .refused .oddRegister := by
  obtain ⟨n, mem, bit⟩ := odd
  have notEven : evenReg n = false := by simp [evenReg, BitVec.getLsbD, Nat.testBit_zero, bit]
  refine if_neg fun all => ?_
  simp [List.all_eq_true.mp all n mem] at notEven

/-- R214: an instruction with double operands first asks that they be pairs. -/
theorem exec_doubleOperands (s : State) (fd fs ft : FRegNum) (rs : RegNum) (imm : BitVec 16) :
    ∀ p ∈ doubleOperands fd fs ft rs imm, ∃ o, exec p.1 s = ifEven p.2 o := by
  unfold doubleOperands
  rw [List.forall_mem_append, List.forall_mem_append, List.forall_mem_map, List.forall_mem_map]
  refine ⟨⟨?_, ?_⟩, fun p mem => ⟨_, (exec_compareRow s fs ft p mem).2⟩⟩
  · simp only [List.forall_mem_cons]
    exact ⟨⟨_, rfl⟩, ⟨_, rfl⟩, ⟨_, rfl⟩, ⟨_, rfl⟩, ⟨_, rfl⟩, ⟨_, rfl⟩, ⟨_, rfl⟩, ⟨_, rfl⟩, ⟨_, rfl⟩, ⟨_, rfl⟩, ⟨_, rfl⟩,
      ⟨_, rfl⟩, ⟨_, rfl⟩, ⟨_, rfl⟩, List.forall_mem_nil _⟩
  · simp only [doubleToWord, List.forall_mem_cons]
    exact ⟨⟨_, rfl⟩, ⟨_, rfl⟩, ⟨_, rfl⟩, ⟨_, rfl⟩, ⟨_, rfl⟩, List.forall_mem_nil _⟩

/-- Settles O55: the pairs are asked for before anything else is done. -/
theorem oddDoubles : Obligations.OddDoubles := by
  intro s fd fs ft rs imm p mem odd
  obtain ⟨o, meaning⟩ := exec_doubleOperands s fd fs ft rs imm p mem
  rw [meaning, ifEven_of_odd odd]

end Sys2Proof.Machine

namespace Sys2Proof

open Machine (exec_compareRow State ifEven_of_even exec_singleResult exec_doubleResult)

/-- Settles O52: each compare is its row's, which sets `FPcond` unless its invalid traps. -/
theorem compares : Obligations.Compares := by
  intro s fs ft p mem
  obtain ⟨single, double⟩ := exec_compareRow s fs ft p mem
  refine ⟨fun quiet => ?_, fun evenFs evenFt quiet => ?_⟩
  · rw [single]
    rcases s.compareRow_cases p Machine.Fp.single (s.readF fs).toNat (s.readF ft).toNat with ⟨traps, signals, _⟩ | ⟨_, compared⟩
    · exact absurd ⟨traps, signals⟩ quiet
    · exact compared
  · rw [double, State.compareDouble_of_even _ evenFs evenFt]
    rcases s.compareRow_cases p Machine.Fp.double (s.readD fs).toNat (s.readD ft).toNat with ⟨traps, signals, _⟩ | ⟨_, compared⟩
    · exact absurd ⟨traps, signals⟩ quiet
    · exact compared

/-- Settles O54: a signalled exception of `FP.traps` is a trap entry in every delivery and every compare. -/
theorem fpTraps : Obligations.FpTraps := by
  intro s fd fs ft
  refine ⟨fun p mem even trapped => ?_, fun p mem traps => ?_⟩
  · rcases List.mem_append.mp mem with single | double
    · rw [exec_singleResult s fd fs ft p single, ifEven_of_even even]
      exact ⟨_, if_pos trapped, s.tookTrap_trap .fpe⟩
    · rw [exec_doubleResult s fd fs ft p double, ifEven_of_even even]
      exact ⟨_, if_pos trapped, s.tookTrap_trap .fpe⟩
  · obtain ⟨single, double⟩ := exec_compareRow s fs ft p mem
    refine ⟨fun signals => ?_, fun evenFs evenFt signals => ?_⟩
    · rw [single]
      rcases s.compareRow_cases p Machine.Fp.single (s.readF fs).toNat (s.readF ft).toNat with ⟨_, _, ended⟩ | ⟨quiet, _⟩
      · exact ⟨_, ended, s.tookTrap_trap .fpe⟩
      · exact absurd ⟨traps, signals⟩ quiet
    · rw [double, State.compareDouble_of_even _ evenFs evenFt]
      rcases s.compareRow_cases p Machine.Fp.double (s.readD fs).toNat (s.readD ft).toNat with ⟨_, _, ended⟩ | ⟨quiet, _⟩
      · exact ⟨_, ended, s.tookTrap_trap .fpe⟩
      · exact absurd ⟨traps, signals⟩ quiet

end Sys2Proof

/-! Rounding (R31 to R33, R210): the patterns of a format as multiples of its least quantum, and the nearest of them. -/

namespace Sys2Proof.Machine.Fp

/-! ### Patterns as multiples of the least quantum (R31 to R33) -/

/-- The widths that the proofs about rounding need of a format. -/
structure Format.Wide (f : Format) : Prop where
  frac : 1 ≤ f.fracBits
  exp : 2 ≤ f.expBits

theorem wide_of_mem {f : Format} (h : f ∈ [single, double]) : f.Wide := by
  obtain rfl | rfl : f = single ∨ f = double := by simpa using h
  · exact ⟨by decide, by decide⟩
  · exact ⟨by decide, by decide⟩

/-- The magnitude of the pattern whose bits below the sign are `n`, in units of the least quantum. -/
def Format.units (f : Format) (n : Nat) : Nat :=
  if n < 2 ^ f.fracBits then n else (2 ^ f.fracBits + n % 2 ^ f.fracBits) * 2 ^ (n / 2 ^ f.fracBits - 1)

/-- The value of a pattern in units of the least quantum. -/
def Format.signedUnits (f : Format) (x : Nat) : ℤ := signed (f.sign x) (f.units (x % 2 ^ (f.fracBits + f.expBits)))

theorem Format.frac_below_sign (f : Format) (x : Nat) : x % 2 ^ (f.fracBits + f.expBits) % 2 ^ f.fracBits = f.frac x := by
  rw [pow_add, Nat.mod_mul_right_mod]; rfl

theorem Format.expField_below_sign (f : Format) (x : Nat) :
    x % 2 ^ (f.fracBits + f.expBits) / 2 ^ f.fracBits = f.expField x := by
  rw [pow_add, Nat.mod_mul_right_div_self]; rfl

/-- The units of a pattern by its fields (R33). -/
theorem Format.units_below_sign (f : Format) (x : Nat) : f.units (x % 2 ^ (f.fracBits + f.expBits)) =
    if f.expField x = 0 then f.frac x else (2 ^ f.fracBits + f.frac x) * 2 ^ (f.expField x - 1) := by
  have split := Nat.div_add_mod (x % 2 ^ (f.fracBits + f.expBits)) (2 ^ f.fracBits)
  have denormal : x % 2 ^ (f.fracBits + f.expBits) < 2 ^ f.fracBits ↔ f.expField x = 0 := by
    rw [← f.expField_below_sign, Nat.div_eq_zero_iff_lt (Nat.two_pow_pos _)]
  rw [f.expField_below_sign, f.frac_below_sign] at split
  unfold Format.units
  rw [f.expField_below_sign, f.frac_below_sign]
  by_cases zero : f.expField x = 0
  · rw [if_pos (denormal.mpr zero), if_pos zero, ← split, zero, Nat.mul_zero, Nat.zero_add]
  · rw [if_neg (mt denormal.mp zero), if_neg zero]

/-- R33: the value of a pattern is its multiple of the least quantum. -/
theorem Format.value_eq_units (f : Format) (x : Nat) : f.value x = (f.signedUnits x : ℚ) * (2 : ℚ) ^ f.minQuantum := by
  have signs : ∀ n : Nat, (signed (f.sign x) n : ℚ) = (if f.sign x then -1 else 1) * (n : ℚ) := fun n => by
    cases f.sign x <;> simp [signed]
  unfold Format.value Format.signedUnits
  rw [signs, f.units_below_sign, mul_assoc]
  congr 1
  by_cases zero : f.expField x = 0
  · rw [if_pos zero, if_pos zero, scale_fraction]; rfl
  · have exponent : (2 : ℚ) ^ ((f.expField x : ℤ) - f.bias - f.fracBits) =
        2 ^ (f.expField x - 1) * (2 : ℚ) ^ f.minQuantum := by
      rw [← zpow_natCast, ← zpow_add₀ two_ne_zero, Format.minQuantum]
      congr 1; omega
    have significand : (1 : ℚ) + f.frac x / 2 ^ f.fracBits = (2 ^ f.fracBits + f.frac x : Nat) / 2 ^ f.fracBits := by
      push_cast; field_simp
    rw [if_neg zero, if_neg zero, significand, scale_fraction, exponent]
    push_cast; ring

/-- A pattern's units are a multiple of a power of two, or too few for the significand to reach it. -/
theorem Format.units_grid (f : Format) (n k : Nat) : 2 ^ k ∣ f.units n ∨ f.units n < 2 ^ (f.fracBits + k) := by
  unfold Format.units
  split_ifs with denormal
  · exact .inr (denormal.trans_le (Nat.pow_le_pow_right two_pos (Nat.le_add_right _ _)))
  · rcases Nat.lt_or_ge (n / 2 ^ f.fracBits - 1) k with coarse | fine
    · refine .inr ?_
      have fraction : n % 2 ^ f.fracBits < 2 ^ f.fracBits := Nat.mod_lt _ (Nat.two_pow_pos _)
      calc (2 ^ f.fracBits + n % 2 ^ f.fracBits) * 2 ^ (n / 2 ^ f.fracBits - 1)
          < 2 ^ (f.fracBits + 1) * 2 ^ (n / 2 ^ f.fracBits - 1) :=
            Nat.mul_lt_mul_of_pos_right (by rw [pow_succ]; omega) (Nat.two_pow_pos _)
        _ = 2 ^ (f.fracBits + 1 + (n / 2 ^ f.fracBits - 1)) := (pow_add ..).symm
        _ ≤ 2 ^ (f.fracBits + k) := Nat.pow_le_pow_right two_pos (by omega)
    · exact .inl (Dvd.dvd.mul_left (Nat.pow_dvd_pow 2 fine) _)

/-- The rounded significand added to the exponent's offset is the pattern, carries included. -/
theorem Format.units_of_significand (f : Format) {k t : Nat} (most : t ≤ 2 ^ (f.fracBits + 1))
    (least : k = 0 ∨ 2 ^ f.fracBits ≤ t) : f.units (k * 2 ^ f.fracBits + t) = t * 2 ^ k := by
  have positive := Nat.two_pow_pos f.fracBits
  rw [pow_succ] at most
  unfold Format.units
  rcases Nat.lt_or_ge t (2 ^ f.fracBits) with small | large
  · obtain rfl : k = 0 := by omega
    simp [small]
  · have notDenormal : ¬k * 2 ^ f.fracBits + t < 2 ^ f.fracBits := by omega
    rw [if_neg notDenormal]
    rcases Nat.lt_or_ge t (2 ^ f.fracBits * 2) with below | top
    · obtain ⟨r, rfl⟩ := Nat.exists_eq_add_of_le large
      have fraction : r < 2 ^ f.fracBits := by omega
      rw [show k * 2 ^ f.fracBits + (2 ^ f.fracBits + r) = r + 2 ^ f.fracBits * (k + 1) by ring, Nat.add_mul_mod_self_left,
        Nat.add_mul_div_left _ _ positive, Nat.mod_eq_of_lt fraction, Nat.div_eq_of_lt fraction]
      simp
    · obtain rfl : t = 2 ^ f.fracBits * 2 := Nat.le_antisymm most top
      rw [show k * 2 ^ f.fracBits + 2 ^ f.fracBits * 2 = 2 ^ f.fracBits * (k + 2) by ring, Nat.mul_mod_right,
        Nat.mul_div_cancel_left _ positive, show k + 2 - 1 = k + 1 by omega]
      ring

/-! ### A pattern from its sign and the bits below it -/

theorem Format.signBit_eq (f : Format) (neg : Bool) : f.signBit neg = 2 ^ (f.fracBits + f.expBits) * neg.toNat := by
  cases neg <;> simp [Format.signBit]

section Pattern

variable {f : Format} {n : Nat} (below : n < 2 ^ (f.fracBits + f.expBits)) (neg : Bool)

include below

theorem Format.pattern_mod : (f.signBit neg + n) % 2 ^ (f.fracBits + f.expBits) = n := by
  rw [f.signBit_eq, Nat.mul_add_mod, Nat.mod_eq_of_lt below]

theorem Format.sign_pattern : f.sign (f.signBit neg + n) = neg := by
  rw [Format.sign, f.signBit_eq, Nat.mul_add_div (Nat.two_pow_pos _), Nat.div_eq_of_lt below]
  cases neg <;> rfl

theorem Format.signedUnits_pattern : f.signedUnits (f.signBit neg + n) = signed neg (f.units n) := by
  rw [Format.signedUnits, Format.pattern_mod below, Format.sign_pattern below]

theorem Format.frac_pattern : f.frac (f.signBit neg + n) = n % 2 ^ f.fracBits := by
  rw [← f.frac_below_sign, Format.pattern_mod below]

end Pattern

/-- The bits of an infinity are below the sign. -/
theorem Format.infinityBits_lt (f : Format) : f.maxExp * 2 ^ f.fracBits < 2 ^ (f.fracBits + f.expBits) := by
  rw [pow_add, mul_comm]
  exact Nat.mul_lt_mul_of_pos_left (Nat.sub_lt (Nat.two_pow_pos _) one_pos) (Nat.two_pow_pos _)

theorem Format.finite_pattern {f : Format} {n : Nat} (fits : n < f.maxExp * 2 ^ f.fracBits) (neg : Bool) :
    f.Finite (f.signBit neg + n) := by
  have below := fits.trans f.infinityBits_lt
  refine ⟨?_, ?_⟩
  · have sign : neg.toNat ≤ 1 := Bool.toNat_le neg
    have top : f.signBit neg ≤ 2 ^ (f.fracBits + f.expBits) := by
      rw [f.signBit_eq]; exact (Nat.mul_le_mul_left _ sign).trans_eq (Nat.mul_one _)
    rw [Format.width, show 1 + f.expBits + f.fracBits = f.fracBits + f.expBits + 1 by ring, pow_succ]
    omega
  · rw [← f.expField_below_sign, Format.pattern_mod below]
    exact (Nat.div_lt_of_lt_mul (by rwa [mul_comm] at fits)).ne

/-! ### The nearest pattern -/

section Nearest

variable {K : Type} [Field K] [LinearOrder K] [IsStrictOrderedRing K] {f : Format} {X : K} {k t : Nat}

/-- The magnitude `X`, in units of the least quantum, rounds to nearest even as `t` units of `2 ^ k`: its significand has one bit more
than the fraction, or fewer where `k = 0`. -/
structure Format.Rounded (f : Format) (X : K) (k t : Nat) : Prop where
  low : k = 0 ∨ 2 ^ (f.fracBits + k) ≤ X
  high : X < 2 ^ (f.fracBits + 1 + k)
  near : 2 * |t * 2 ^ k - X| ≤ 2 ^ k
  even : 2 * |t * 2 ^ k - X| = 2 ^ k → t % 2 = 0

/-- The rounded significand is in range, a carry included. -/
theorem Format.Rounded.bounds (r : f.Rounded X k t) : t ≤ 2 ^ (f.fracBits + 1) ∧ (k = 0 ∨ 2 ^ f.fracBits ≤ t) := by
  have unit : (0 : K) < 2 ^ k := by positivity
  have near := r.near
  have above := le_abs_self ((t : K) * 2 ^ k - X)
  have below := neg_abs_le ((t : K) * 2 ^ k - X)
  constructor
  · have high := r.high
    rw [pow_add] at high
    have cast : (2 * t : K) * 2 ^ k < (2 * 2 ^ (f.fracBits + 1) + 1) * 2 ^ k := by linarith
    have less : (2 * t : K) < 2 * 2 ^ (f.fracBits + 1) + 1 := lt_of_mul_lt_mul_right cast unit.le
    have : 2 * t < 2 * 2 ^ (f.fracBits + 1) + 1 := by exact_mod_cast less
    omega
  · refine r.low.imp_right fun low => ?_
    rw [pow_add] at low
    have cast : (2 * 2 ^ f.fracBits : K) * 2 ^ k ≤ (2 * t + 1) * 2 ^ k := by linarith
    have less : (2 * 2 ^ f.fracBits : K) ≤ 2 * t + 1 := le_of_mul_le_mul_right cast unit
    have : 2 * 2 ^ f.fracBits ≤ 2 * t + 1 := by exact_mod_cast less
    omega

/-- No multiple of `2 ^ k` is nearer than the rounded one, and one as near makes a tie. -/
theorem Format.Rounded.nearest_multiple (r : f.Rounded X k t) (z : ℤ) :
    |(t : K) * 2 ^ k - X| ≤ |(z : K) * 2 ^ k - X| ∧
      (|(z : K) * 2 ^ k - X| = |(t : K) * 2 ^ k - X| → z ≠ t → t % 2 = 0) := by
  by_cases same : z = t
  · subst same; simp
  have apart : (2 : K) ^ k ≤ |(z : K) * 2 ^ k - t * 2 ^ k| := by
    have one : (1 : K) ≤ |(z : K) - t| := by
      have := Int.one_le_abs (sub_ne_zero.mpr same)
      exact_mod_cast this
    rw [← sub_mul, abs_mul, abs_of_pos (by positivity : (0 : K) < (2 : K) ^ k)]
    exact le_mul_of_one_le_left (by positivity) one
  have triangle := abs_sub_le (z * 2 ^ k : K) X (t * 2 ^ k)
  rw [abs_sub_comm X] at triangle
  have near := r.near
  exact ⟨by linarith, fun tie _ => r.even (le_antisymm near (by linarith))⟩

/-- No pattern is nearer than the rounded one, and one as near makes a tie. -/
theorem Format.Rounded.nearest_units (r : f.Rounded X k t) {W : ℤ} (grid : 2 ^ k ∣ W ∨ |W| < 2 ^ (f.fracBits + k)) :
    |(t : K) * 2 ^ k - X| ≤ |(W : K) - X| ∧ (|(W : K) - X| = |(t : K) * 2 ^ k - X| → W ≠ t * 2 ^ k → t % 2 = 0) := by
  by_cases multiple : 2 ^ k ∣ W
  · obtain ⟨z, rfl⟩ := multiple
    have nearest := r.nearest_multiple z
    push_cast
    rw [mul_comm (2 ^ k : K)]
    exact ⟨nearest.1, fun tie other => nearest.2 tie fun same => other (by rw [same, mul_comm])⟩
  · have small : |(W : K)| < 2 ^ (f.fracBits + k) := by exact_mod_cast grid.resolve_left multiple
    have low : 2 ^ (f.fracBits + k) ≤ X := r.low.resolve_left fun zero => multiple (by simp [zero])
    have bound := (r.nearest_multiple (2 ^ f.fracBits)).1
    push_cast at bound
    rw [← pow_add, abs_sub_comm (2 ^ (f.fracBits + k)), abs_of_nonneg (sub_nonneg.mpr low)] at bound
    have farther : |(t : K) * 2 ^ k - X| < |(W : K) - X| := by
      have := le_abs_self (W : K)
      have := neg_abs_le ((W : K) - X)
      linarith
    exact ⟨farther.le, fun tie => absurd tie farther.ne'⟩

/-- A sign as a factor. -/
def signFactor (neg : Bool) : ℤ := if neg then -1 else 1

theorem signed_eq_signFactor_mul (neg : Bool) (n : Nat) : signed neg n = signFactor neg * n := by
  cases neg <;> simp [signed, signFactor]

theorem signFactor_mul_self (neg : Bool) : signFactor neg * signFactor neg = 1 := by
  cases neg <;> rfl

theorem abs_signFactor (neg : Bool) : |((signFactor neg : ℤ) : K)| = 1 := by
  cases neg <;> simp [signFactor]

/-- The distance of a pattern's value from a number of known sign, in units of the least quantum. -/
theorem Format.value_distance (f : Format) (neg : Bool) (X : K) (y : Nat) :
    |(f.value y : K) - signFactor neg * X * 2 ^ f.minQuantum| =
      |((signFactor neg * f.signedUnits y : ℤ) : K) - X| * 2 ^ f.minQuantum := by
  have square : ((signFactor neg : ℤ) : K) * signFactor neg = 1 := by exact_mod_cast signFactor_mul_self neg
  have factor : (f.value y : K) - signFactor neg * X * 2 ^ f.minQuantum =
      signFactor neg * ((((signFactor neg * f.signedUnits y : ℤ) : K) - X) * 2 ^ f.minQuantum) := by
    rw [f.value_eq_units]
    push_cast
    linear_combination (-(f.signedUnits y : K) * 2 ^ f.minQuantum) * square
  have unit : (0 : K) < 2 ^ f.minQuantum := zpow_pos two_pos _
  rw [factor, abs_mul, abs_signFactor, one_mul, abs_mul, abs_of_pos unit]

/-- The rounded magnitude, with its sign, is what the pattern of the significand says. -/
theorem Format.Rounded.signedUnits_pattern (r : f.Rounded X k t) (fits : k * 2 ^ f.fracBits + t < f.maxExp * 2 ^ f.fracBits)
    (neg : Bool) : signFactor neg * f.signedUnits (f.signBit neg + (k * 2 ^ f.fracBits + t)) = t * 2 ^ k := by
  rw [Format.signedUnits_pattern (fits.trans f.infinityBits_lt), f.units_of_significand r.bounds.1 r.bounds.2,
    signed_eq_signFactor_mul, ← mul_assoc, signFactor_mul_self, one_mul]
  push_cast; rfl

/-- R210: where it is finite, the pattern of the rounded significand is nearest to the magnitude with its sign, ties to even. -/
theorem Format.Rounded.nearest_pattern (r : f.Rounded X k t) (wide : f.Wide) (fits : k * 2 ^ f.fracBits + t < f.maxExp * 2 ^ f.fracBits)
    (neg : Bool) {x : Nat} (pattern : x = f.signBit neg + (k * 2 ^ f.fracBits + t)) (y : Nat) :
    |(f.value x : K) - signFactor neg * X * 2 ^ f.minQuantum| ≤ |(f.value y : K) - signFactor neg * X * 2 ^ f.minQuantum| ∧
      (f.value y ≠ f.value x → |(f.value y : K) - signFactor neg * X * 2 ^ f.minQuantum| =
        |(f.value x : K) - signFactor neg * X * 2 ^ f.minQuantum| → f.frac x % 2 = 0) := by
  have below := fits.trans f.infinityBits_lt
  have unitsX : signFactor neg * f.signedUnits x = t * 2 ^ k := pattern ▸ r.signedUnits_pattern fits neg
  have unit : (0 : K) < 2 ^ f.minQuantum := zpow_pos two_pos _
  have grid : 2 ^ k ∣ signFactor neg * f.signedUnits y ∨ |signFactor neg * f.signedUnits y| < 2 ^ (f.fracBits + k) := by
    rw [Format.signedUnits, signed_eq_signFactor_mul, abs_mul, abs_mul]
    refine (f.units_grid (y % 2 ^ (f.fracBits + f.expBits)) k).imp (fun divides => ?_) fun less => ?_
    · exact Dvd.dvd.mul_left (Dvd.dvd.mul_left (by exact_mod_cast divides) _) _
    · rw [show |signFactor neg| = 1 by cases neg <;> rfl, show |signFactor (f.sign y)| = 1 by cases f.sign y <;> rfl,
        one_mul, one_mul, Nat.abs_cast]
      exact_mod_cast less
  obtain ⟨least, tie⟩ := r.nearest_units grid
  rw [f.value_distance, f.value_distance, unitsX]
  push_cast
  refine ⟨mul_le_mul_of_nonneg_right (by exact_mod_cast least) unit.le, fun other same => ?_⟩
  have parity : f.frac x % 2 = t % 2 := by
    have even : 2 ∣ 2 ^ f.fracBits := dvd_pow_self 2 (Nat.one_le_iff_ne_zero.mp wide.frac)
    rw [pattern, Format.frac_pattern below, Nat.mod_mod_of_dvd _ even, Nat.add_mod, Nat.mul_mod, Nat.mod_eq_zero_of_dvd even]
    simp
  rw [parity]
  refine tie (by exact_mod_cast mul_right_cancel₀ unit.ne' same) fun sameUnits => other ?_
  have : f.signedUnits y = f.signedUnits x := by
    have sign : signFactor neg ≠ 0 := by cases neg <;> decide
    exact mul_left_cancel₀ sign (sameUnits.trans unitsX.symm)
  rw [f.value_eq_units, f.value_eq_units, this]

/-! ### Too large (R210) -/

theorem Format.Wide.maxExp_eq (wide : f.Wide) : ∃ c, f.bias = c + 1 ∧ f.maxExp = 2 * c + 3 := by
  obtain ⟨d, hd⟩ := Nat.exists_eq_add_of_le wide.exp
  have positive := Nat.two_pow_pos d
  refine ⟨2 ^ (d + 1) - 2, ?_, ?_⟩
  · rw [Format.bias, hd, show 2 + d - 1 = d + 1 by omega, pow_succ]; omega
  · rw [Format.maxExp, hd, show 2 + d = d + 1 + 1 by omega, pow_succ, pow_succ]; omega

/-- The bound of overflow in units of the least quantum. -/
theorem Format.overflowBound_eq {c : Nat} (bias : f.bias = c + 1) :
    f.overflowBound = (2 ^ (f.fracBits + 2) - 1) * 2 ^ (2 * c) * (2 : ℚ) ^ f.minQuantum := by
  have quantum : (2 : ℚ) ^ f.minQuantum = 1 / (2 ^ c * 2 ^ f.fracBits) := by
    rw [Format.minQuantum, bias, show (1 : ℤ) - ((c + 1 : Nat) : ℤ) - f.fracBits = -((c + f.fracBits : Nat) : ℤ) by push_cast; ring,
      zpow_neg, zpow_natCast, pow_add, one_div]
  rw [Format.overflowBound, quantum, bias, zpow_natCast]
  field_simp
  ring

/-- The rounded significand carries exactly from half a unit below the next power of two on. -/
theorem Format.Rounded.no_carry_iff (r : f.Rounded X k t) :
    t < 2 ^ f.fracBits * 2 ↔ 2 * X < (2 ^ (f.fracBits + 2) - 1) * 2 ^ k := by
  have unit : (0 : K) < 2 ^ k := by positivity
  have near := r.near
  have above := le_abs_self ((t : K) * 2 ^ k - X)
  have below := neg_abs_le ((t : K) * 2 ^ k - X)
  have power : (2 : K) ^ (f.fracBits + 2) = 2 ^ f.fracBits * 4 := by rw [pow_add]; norm_num
  rw [power]
  constructor
  · intro less
    by_contra large
    have tie : 2 * |(t : K) * 2 ^ k - X| = 2 ^ k := by
      have bound : (2 * t : K) * 2 ^ k ≤ (2 ^ f.fracBits * 4 - 2) * 2 ^ k := by
        refine mul_le_mul_of_nonneg_right ?_ unit.le
        have : (t : K) + 1 ≤ 2 ^ f.fracBits * 2 := by exact_mod_cast less
        linarith
      exact le_antisymm near (by linarith)
    have least : (2 ^ f.fracBits * 4 - 2 : K) * 2 ^ k ≤ (2 * t) * 2 ^ k := by linarith
    have least := le_of_mul_le_mul_right least unit
    have : 2 ^ f.fracBits * 4 ≤ 2 * t + 2 := by
      have : (2 ^ f.fracBits * 4 : K) ≤ 2 * t + 2 := by linarith
      exact_mod_cast this
    have := r.even tie
    omega
  · intro small
    by_contra carry
    have : (2 ^ f.fracBits * 2 : K) * 2 ^ k ≤ t * 2 ^ k :=
      mul_le_mul_of_nonneg_right (by exact_mod_cast not_lt.mp carry) unit.le
    linarith

/-- R210: the pattern of the rounded significand is that of an infinity or above exactly when the value is too large. -/
theorem Format.Rounded.fits_iff (r : f.Rounded X k t) (wide : f.Wide) :
    k * 2 ^ f.fracBits + t < f.maxExp * 2 ^ f.fracBits ↔ X * 2 ^ f.minQuantum < (f.overflowBound : K) := by
  obtain ⟨c, bias, maxExp⟩ := wide.maxExp_eq
  have unit : (0 : K) < 2 ^ f.minQuantum := zpow_pos two_pos _
  have positive := Nat.two_pow_pos f.fracBits
  obtain ⟨most, least⟩ := r.bounds
  have near := r.near
  have above := le_abs_self ((t : K) * 2 ^ k - X)
  have below := neg_abs_le ((t : K) * 2 ^ k - X)
  rw [f.overflowBound_eq bias]
  push_cast
  rw [mul_lt_mul_iff_left₀ unit, maxExp]
  have u : (0 : K) < 2 ^ (2 * c) := by positivity
  have one : (1 : K) ≤ 2 ^ f.fracBits := one_le_pow₀ one_le_two
  rw [pow_succ] at most
  rcases lt_trichotomy k (2 * c + 1) with less | rfl | greater
  · have fits : k * 2 ^ f.fracBits + t < (2 * c + 3) * 2 ^ f.fracBits := by
      have := Nat.mul_le_mul_right (2 ^ f.fracBits) (Nat.le_of_lt_succ less)
      linarith
    have high : X < 2 * 2 ^ f.fracBits * 2 ^ (2 * c) := by
      refine r.high.trans_le ?_
      rw [show (2 : K) * 2 ^ f.fracBits * 2 ^ (2 * c) = 2 ^ (f.fracBits + 1 + 2 * c) by ring]
      exact pow_le_pow_right₀ one_le_two (by omega)
    refine iff_of_true fits (high.trans_le ?_)
    refine mul_le_mul_of_nonneg_right ?_ u.le
    rw [pow_add]; linarith
  · have fits : (2 * c + 1) * 2 ^ f.fracBits + t < (2 * c + 3) * 2 ^ f.fracBits ↔ t < 2 ^ f.fracBits * 2 := by
      rw [show (2 * c + 3) * 2 ^ f.fracBits = (2 * c + 1) * 2 ^ f.fracBits + 2 ^ f.fracBits * 2 by ring]
      exact Nat.add_lt_add_iff_left
    rw [fits, r.no_carry_iff, pow_succ (2 : K) (2 * c), ← mul_assoc, mul_comm (2 : K) X]
    exact mul_lt_mul_iff_left₀ two_pos
  · refine iff_of_false (fun fits => ?_) (fun small => ?_)
    · have := Nat.mul_le_mul_right (2 ^ f.fracBits) (Nat.succ_le_of_lt greater)
      have := least.resolve_left (by omega)
      linarith
    · have large : (2 : K) ^ (f.fracBits + 2) * 2 ^ (2 * c) ≤ X := by
        rw [← pow_add]
        exact (pow_le_pow_right₀ one_le_two (by omega)).trans (r.low.resolve_left (by omega))
      linarith

end Nearest

end Sys2Proof.Machine.Fp

/-! `Format.round` rounds to nearest (R210), of an exact magnitude and of one known to its last bit. -/

namespace Sys2Proof.Machine.Fp

/-! ### Shifting to a quantum -/

/-- `shiftNearest` is the nearest integer, and even where two are as near. -/
theorem shiftNearest_near (m j : Nat) : 2 * |(shiftNearest m j * 2 ^ j : ℤ) - m| ≤ 2 ^ j ∧
    (2 * |(shiftNearest m j * 2 ^ j : ℤ) - m| = 2 ^ j → shiftNearest m j % 2 = 0) := by
  have split : (m : ℤ) = 2 ^ j * (m / 2 ^ j : Nat) + (m % 2 ^ j : Nat) := by exact_mod_cast (Nat.div_add_mod m (2 ^ j)).symm
  have small : m % 2 ^ j < 2 ^ j := Nat.mod_lt _ (Nat.two_pow_pos _)
  have unit : (2 ^ j : ℤ) = (2 ^ j : Nat) := by push_cast; rfl
  unfold shiftNearest
  dsimp only
  split_ifs with up
  · have distance : ((m / 2 ^ j + 1 : Nat) * 2 ^ j : ℤ) - m = 2 ^ j - (m % 2 ^ j : Nat) := by rw [split]; push_cast; ring
    rw [distance, unit, abs_of_nonneg (by omega)]
    omega
  · have distance : ((m / 2 ^ j : Nat) * 2 ^ j : ℤ) - m = -(m % 2 ^ j : Nat) := by rw [split]; push_cast; ring
    rw [distance, unit, abs_neg, Nat.abs_cast]
    omega

theorem shiftNearest_exact_iff (m j : Nat) : (shiftNearest m j * 2 ^ j : ℤ) = m ↔ m % 2 ^ j = 0 := by
  constructor
  · intro same
    exact Nat.mod_eq_zero_of_dvd ⟨shiftNearest m j, by rw [mul_comm]; exact_mod_cast same.symm⟩
  · intro multiple
    obtain ⟨n, rfl⟩ := Nat.dvd_of_mod_eq_zero multiple
    have : shiftNearest (2 ^ j * n) j = n := by
      unfold shiftNearest
      simp [(Nat.two_pow_pos j).ne]
    rw [this]; push_cast; ring

/-- An odd number is no multiple of four, and no tie of two of them. -/
theorem odd_apart {n : Nat} (odd : n % 2 = 1) {w v : ℤ} (near : 2 * |4 * w - n| ≤ 4 * v) :
    1 ≤ |4 * w - n| ∧ 2 * |4 * w - n| + 2 ≤ 4 * v := by
  rcases abs_cases (4 * w - (n : ℤ)) with ⟨positive, _⟩ | ⟨negative, _⟩ <;> omega

section Known

variable {K : Type} [Field K] [LinearOrder K] [IsStrictOrderedRing K]

/-- The magnitude `z` is the integer `n`, or differs from it by less than 1 where `n` is odd and has more bits than a rounding to the
format keeps: its last bit says that more follow. -/
def Format.KnownTo (f : Format) (n : Nat) (z : K) : Prop :=
  z = n ∨ n % 2 = 1 ∧ 2 ^ (f.fracBits + 2) ≤ n ∧ |z - n| < 1

variable {f : Format} {n : Nat} {z : K}

theorem Format.KnownTo.log_bounds (known : f.KnownTo n z) (positive : n ≠ 0) : 2 ^ n.log2 ≤ z ∧ z < 2 ^ (n.log2 + 1) := by
  have low := Nat.log2_self_le positive
  have high := Nat.lt_log2_self (n := n)
  obtain rfl | ⟨odd, large, close⟩ := known
  · exact ⟨by exact_mod_cast low, by exact_mod_cast high⟩
  · obtain ⟨above, below⟩ := abs_lt.mp close
    have bits : n.log2 ≠ 0 := by
      intro zero
      have := Nat.two_pow_pos f.fracBits
      rw [zero] at high
      rw [pow_add] at large
      omega
    have even : 2 ∣ 2 ^ n.log2 := dvd_pow_self 2 bits
    have low : (2 ^ n.log2 : K) + 1 ≤ n := by
      have : 2 ^ n.log2 + 1 ≤ n := by omega
      exact_mod_cast this
    have high : (n : K) + 1 ≤ 2 ^ (n.log2 + 1) := by exact_mod_cast high
    exact ⟨by linarith, by linarith⟩

/-- The rounding to a quantum that is coarser by two bits or of an exact magnitude: nearest, ties to even, and exact where no bit is
lost. -/
theorem Format.KnownTo.toQuantum_near (known : f.KnownTo n z) {e q : ℤ} (coarse : z = n ∨ e + 2 ≤ q) :
    2 * |toQuantum n e q * (2 : K) ^ (q - e) - z| ≤ 2 ^ (q - e) ∧
    (2 * |toQuantum n e q * (2 : K) ^ (q - e) - z| = 2 ^ (q - e) → toQuantum n e q % 2 = 0) ∧
    (losesBits n e q = true ↔ toQuantum n e q * (2 : K) ^ (q - e) ≠ z) := by
  unfold toQuantum losesBits
  rcases lt_or_ge e q with less | fine
  · rw [if_neg less.not_ge]
    obtain ⟨j, hj⟩ := Int.eq_ofNat_of_zero_le (sub_nonneg.mpr less.le)
    rw [hj, Int.toNat_natCast, zpow_natCast]
    obtain ⟨near, even⟩ := shiftNearest_near n j
    have exact := shiftNearest_exact_iff n j
    generalize shiftNearest n j = t at near even exact ⊢
    by_cases same : z = n
    · subst same
      refine ⟨by exact_mod_cast near, fun tie => even (by exact_mod_cast tie), ?_⟩
      have cast : (t * 2 ^ j : K) = n ↔ (t * 2 ^ j : ℤ) = n := by constructor <;> intro h <;> exact_mod_cast h
      have lost : (t * 2 ^ j : K) ≠ n ↔ n % 2 ^ j ≠ 0 := not_congr (cast.trans exact)
      simp [less, lost]
    · obtain ⟨odd, -, close⟩ := known.resolve_left same
      have two : 2 ≤ j := by have := coarse.resolve_left same; omega
      obtain ⟨i, rfl⟩ := Nat.exists_eq_add_of_le two
      have four : (2 ^ (2 + i) : ℤ) = 4 * 2 ^ i := by rw [pow_add]; norm_num
      have apart : 1 ≤ |(t * 2 ^ (2 + i) : ℤ) - n| ∧ 2 * |(t * 2 ^ (2 + i) : ℤ) - n| + 2 ≤ 2 ^ (2 + i) := by
        rw [four, mul_left_comm] at near ⊢
        exact odd_apart odd near
      have loses : n % 2 ^ (2 + i) ≠ 0 := fun zero => by simp [exact.mpr zero] at apart
      have apart : (1 : K) ≤ |(t * 2 ^ (2 + i) : K) - n| ∧ 2 * |(t * 2 ^ (2 + i) : K) - n| + 2 ≤ 2 ^ (2 + i) := by
        exact_mod_cast apart
      have inner := abs_sub_le (t * 2 ^ (2 + i) : K) n z
      rw [abs_sub_comm (n : K) z] at inner
      have strict : 2 * |(t * 2 ^ (2 + i) : K) - z| < 2 ^ (2 + i) := by linarith [apart.2]
      have different : (t * 2 ^ (2 + i) : K) ≠ z := by
        rintro rfl
        linarith [apart.1]
      exact ⟨strict.le, fun tie => absurd tie strict.ne, by simp [less, loses, different]⟩
  · have same : z = n := coarse.resolve_right (by omega)
    have exact : ((n * 2 ^ (e - q).toNat : Nat) : K) * 2 ^ (q - e) = z := by
      rw [same, Nat.cast_mul, Nat.cast_pow, Nat.cast_ofNat, ← zpow_natCast, Int.toNat_of_nonneg (by omega), mul_assoc,
        ← zpow_add₀ two_ne_zero]
      simp
    rw [if_pos fine, exact, sub_self, abs_zero, mul_zero]
    have unit : (0 : K) < 2 ^ (q - e) := zpow_pos two_pos _
    exact ⟨unit.le, fun zero => absurd zero unit.ne, by simp [fine.not_gt]⟩

/-- The quantum to which a magnitude `n * 2 ^ e` is rounded. -/
def Format.quantum (f : Format) (n : Nat) (e : ℤ) : ℤ := max (e + (n.log2 : ℤ) - f.fracBits) f.minQuantum

/-- A rounded magnitude, in units of the least quantum, and whether bits of it were lost. -/
theorem Format.KnownTo.rounded (known : f.KnownTo n z) (positive : n ≠ 0) (e : ℤ) :
    f.Rounded (z * 2 ^ (e - f.minQuantum)) (f.quantum n e - f.minQuantum).toNat (toQuantum n e (f.quantum n e)) ∧
    (losesBits n e (f.quantum n e) = true ↔
      (toQuantum n e (f.quantum n e) : K) * 2 ^ (f.quantum n e - f.minQuantum).toNat ≠ z * 2 ^ (e - f.minQuantum)) := by
  have log := known.log_bounds positive
  have quantum : f.quantum n e = e + n.log2 - f.fracBits ∨ f.quantum n e = f.minQuantum ∧ e + n.log2 - f.fracBits ≤ f.minQuantum := by
    unfold Format.quantum; omega
  have least : f.minQuantum ≤ f.quantum n e := le_max_right _ _
  have wide : e + n.log2 - f.fracBits ≤ f.quantum n e := le_max_left _ _
  have coarse : z = n ∨ e + 2 ≤ f.quantum n e := by
    refine known.imp_right fun ⟨_, large, _⟩ => ?_
    have : f.fracBits + 2 ≤ n.log2 := (Nat.le_log2 positive).mpr large
    omega
  obtain ⟨near, even, exact⟩ := known.toQuantum_near coarse
  obtain ⟨k, hk⟩ := Int.eq_ofNat_of_zero_le (sub_nonneg.mpr least)
  generalize toQuantum n e (f.quantum n e) = t at near even exact ⊢
  have unit : (0 : K) < 2 ^ (e - f.minQuantum) := zpow_pos two_pos _
  have power : (2 : K) ^ k = 2 ^ (f.quantum n e - e) * 2 ^ (e - f.minQuantum) := by
    rw [← zpow_natCast, ← zpow_add₀ two_ne_zero]
    congr 1; omega
  have distance : |(t : K) * 2 ^ k - z * 2 ^ (e - f.minQuantum)| =
      |t * (2 : K) ^ (f.quantum n e - e) - z| * 2 ^ (e - f.minQuantum) := by
    rw [power, ← mul_assoc, ← sub_mul, abs_mul, abs_of_pos unit]
  rw [hk, Int.toNat_natCast]
  refine ⟨⟨?_, ?_, ?_, fun tie => ?_⟩, ?_⟩
  · rcases quantum with wide | ⟨zero, _⟩
    · refine .inr ?_
      calc (2 : K) ^ (f.fracBits + k) = 2 ^ n.log2 * 2 ^ (e - f.minQuantum) := by
            rw [← zpow_natCast, ← zpow_natCast, ← zpow_add₀ two_ne_zero]
            congr 1; omega
        _ ≤ z * 2 ^ (e - f.minQuantum) := mul_le_mul_of_nonneg_right log.1 unit.le
    · exact .inl (by omega)
  · calc z * 2 ^ (e - f.minQuantum) < 2 ^ (n.log2 + 1) * 2 ^ (e - f.minQuantum) := mul_lt_mul_of_pos_right log.2 unit
      _ = (2 : K) ^ (((n.log2 + 1 : Nat) : ℤ) + (e - f.minQuantum)) := by rw [zpow_add₀ two_ne_zero, zpow_natCast]
      _ ≤ 2 ^ ((f.fracBits + 1 + k : Nat) : ℤ) := zpow_le_zpow_right₀ one_le_two (by omega)
      _ = 2 ^ (f.fracBits + 1 + k) := zpow_natCast ..
  · rw [distance, power, ← mul_assoc]
    exact mul_le_mul_of_nonneg_right near unit.le
  · rw [distance, power, ← mul_assoc] at tie
    exact even (mul_right_cancel₀ unit.ne' tie)
  · rw [exact, power, ← mul_assoc, ne_eq, ne_eq, mul_left_inj' unit.ne']

end Known

end Sys2Proof.Machine.Fp

/-! The operations round the exact result once (R210). -/

namespace Sys2Proof.Machine.Fp

/-! ### The result of a rounding -/

section Result

variable {K : Type} [Field K] [LinearOrder K] [IsStrictOrderedRing K] {f : Format} {n : Nat} {z : K}

/-- The result is the finite pattern `x`, of the sign given, nearest to `v`, ties to the even fraction; only an inexact result (log 16)
and an underflow may be signalled. -/
structure Format.Delivers (f : Format) (neg : Bool) (v : K) (r : Result) (x : Nat) : Prop where
  out : r.out = .bits x
  finite : f.Finite x
  sign : f.sign x = neg
  least : ∀ y, |(f.value x : K) - v| ≤ |(f.value y : K) - v|
  even : ∀ y, f.value y ≠ f.value x → |(f.value y : K) - v| = |(f.value x : K) - v| → f.frac x % 2 = 0
  overflow : r.signals.overflow = false
  inexact : r.signals.inexact = true ↔ (f.value x : K) ≠ v

/-- `Format.round` of a magnitude that is not zero. -/
theorem Format.round_eq (f : Format) (neg : Bool) (positive : n ≠ 0) (e : ℤ) : f.round neg n e =
    if (f.quantum n e - f.minQuantum).toNat * 2 ^ f.fracBits + toQuantum n e (f.quantum n e) < f.maxExp * 2 ^ f.fracBits then
      ⟨.bits (f.signBit neg + ((f.quantum n e - f.minQuantum).toNat * 2 ^ f.fracBits + toQuantum n e (f.quantum n e))),
        { underflow := f.tiny n e, inexact := losesBits n e (f.quantum n e) }⟩
    else ⟨.bits (f.signBit neg + f.maxExp * 2 ^ f.fracBits), { overflow := true, inexact := true }⟩ := by
  rw [Format.round, if_neg positive]; rfl

theorem Format.round_valid (f : Format) (neg : Bool) (m : Nat) (e : ℤ) :
    (f.round neg m e).signals.invalid = false ∧ (f.round neg m e).signals.divZero = false := by
  by_cases zero : m = 0
  · rw [Format.round, if_pos zero]; exact ⟨rfl, rfl⟩
  · rw [f.round_eq neg zero]
    split_ifs <;> exact ⟨rfl, rfl⟩

theorem zpow_units (e q : ℤ) : z * (2 : K) ^ e = z * 2 ^ (e - q) * 2 ^ q := by
  rw [mul_assoc, ← zpow_add₀ two_ne_zero, sub_add_cancel]

/-- R210: below the bound of overflow a rounding delivers the nearest pattern. -/
theorem Format.KnownTo.round_delivers (known : f.KnownTo n z) (positive : n ≠ 0) (wide : f.Wide) (neg : Bool) {e : ℤ}
    (fits : z * 2 ^ e < (f.overflowBound : K)) :
    ∃ x, f.Delivers neg (signFactor neg * (z * 2 ^ e)) (f.round neg n e) x := by
  obtain ⟨rounded, exact⟩ := known.rounded positive e
  rw [zpow_units e f.minQuantum, ← rounded.fits_iff wide] at fits
  rw [f.round_eq neg positive, if_pos fits, zpow_units e f.minQuantum]
  have nearest := rounded.nearest_pattern wide fits neg rfl
  have units := rounded.signedUnits_pattern fits neg
  generalize (f.quantum n e - f.minQuantum).toNat = k at *
  generalize toQuantum n e (f.quantum n e) = t at *
  generalize z * 2 ^ (e - f.minQuantum) = X at *
  rw [← mul_assoc]
  refine ⟨_, rfl, finite_pattern fits neg, Format.sign_pattern (fits.trans f.infinityBits_lt) neg, fun y => (nearest y).1,
    fun y => (nearest y).2, rfl, ?_⟩
  have distance := f.value_distance neg X (f.signBit neg + (k * 2 ^ f.fracBits + t))
  have unit : (2 : K) ^ f.minQuantum ≠ 0 := (zpow_pos two_pos _).ne'
  rw [units] at distance
  push_cast at distance
  rw [exact, ← sub_ne_zero, ← sub_ne_zero (a := ((f.value _ : ℚ) : K)), ← abs_ne_zero,
    ← abs_ne_zero (a := ((f.value _ : ℚ) : K) - _), distance]
  simp [unit]

/-- R210: from the bound of overflow on a rounding gives an infinity. -/
theorem Format.KnownTo.round_overflows (known : f.KnownTo n z) (positive : n ≠ 0) (wide : f.Wide) (neg : Bool) {e : ℤ}
    (large : ¬z * 2 ^ e < (f.overflowBound : K)) :
    f.round neg n e = ⟨.bits (f.signBit neg + f.maxExp * 2 ^ f.fracBits), { overflow := true, inexact := true }⟩ := by
  obtain ⟨rounded, -⟩ := known.rounded positive e
  rw [zpow_units e f.minQuantum, ← rounded.fits_iff wide] at large
  rw [f.round_eq neg positive, if_neg large]

theorem Format.KnownTo.positive (known : f.KnownTo n z) (positive : n ≠ 0) : 0 < z :=
  lt_of_lt_of_le (by positivity) (known.log_bounds positive).1

end Result

section Rational

variable {f : Format}

theorem Format.overflowBound_pos (f : Format) : 0 < f.overflowBound := by
  have half : (1 : ℚ) / 2 ^ (f.fracBits + 1) ≤ 1 := (div_le_one (by positivity)).mpr (one_le_pow₀ one_le_two)
  exact mul_pos (by linarith) (zpow_pos two_pos _)

/-- R210: what a rounding of a magnitude known to its last bit gives. -/
theorem Format.KnownTo.roundsTo {n : Nat} {z : ℚ} (known : f.KnownTo n z) (positive : n ≠ 0) (wide : f.Wide) (neg : Bool) (e : ℤ) :
    f.RoundsTo (signFactor neg * (z * 2 ^ e)) (f.round neg n e) := by
  have magnitude : 0 < z * (2 : ℚ) ^ e := mul_pos (known.positive positive) (zpow_pos two_pos _)
  have sign : decide (signFactor neg * (z * (2 : ℚ) ^ e) < 0) = neg := by
    cases neg <;> simp [signFactor, magnitude, magnitude.le]
  obtain ⟨invalid, divZero⟩ := f.round_valid neg n e
  refine ⟨invalid, divZero, ?_⟩
  rw [sign, abs_mul, abs_signFactor, one_mul, abs_of_pos magnitude]
  split_ifs with fits
  · obtain ⟨x, delivers⟩ := known.round_delivers positive wide neg (e := e) (by exact_mod_cast fits)
    exact ⟨x, delivers.out, ⟨delivers.finite, fun y _ => by simpa using delivers.least y,
      fun y _ other tie => delivers.even y other (by simpa using tie)⟩, fun _ => delivers.sign, delivers.overflow,
      by simpa using delivers.inexact⟩
  · rw [known.round_overflows positive wide neg (e := e) (by exact_mod_cast fits)]
    exact ⟨rfl, rfl, rfl⟩

theorem Format.maxExp_pos (wide : f.Wide) : 0 < f.maxExp * 2 ^ f.fracBits := by
  obtain ⟨c, -, maxExp⟩ := wide.maxExp_eq
  exact Nat.mul_pos (by omega) (Nat.two_pow_pos _)

theorem Format.value_signBit (f : Format) (neg : Bool) : f.value (f.signBit neg) = 0 := by
  have units := Format.signedUnits_pattern (Nat.two_pow_pos (f.fracBits + f.expBits)) neg
  rw [f.value_eq_units, show f.signBit neg = f.signBit neg + 0 from rfl, units, Format.units, if_pos (Nat.two_pow_pos _)]
  cases neg <;> simp [signed]

/-- A zero is what zero rounds to. -/
theorem Format.roundsTo_zero (wide : f.Wide) (neg : Bool) : f.RoundsTo 0 (f.zero neg) := by
  have below : 0 < 2 ^ (f.fracBits + f.expBits) := Nat.two_pow_pos _
  have value := f.value_signBit neg
  have fraction : f.frac (f.signBit neg) = 0 := (Format.frac_pattern below neg).trans (Nat.zero_mod _)
  refine ⟨rfl, rfl, ?_⟩
  rw [abs_zero, if_pos f.overflowBound_pos]
  refine ⟨_, rfl, ⟨finite_pattern (maxExp_pos wide) neg, fun y _ => by simp [value], fun _ _ _ _ => by rw [fraction]⟩,
    fun zero => absurd rfl zero, rfl, by simp [value, Format.zero]⟩

theorem Format.exact_knownTo (f : Format) (n : Nat) : f.KnownTo n (n : ℚ) := .inl rfl

theorem numValue_eq_signFactor (neg : Bool) (m : Nat) (e : ℤ) : numValue neg m e = signFactor neg * ((m : ℚ) * 2 ^ e) := by
  cases neg <;> simp [numValue, signFactor]

/-- R210: `Format.round` is the value rounded once. -/
theorem Format.round_roundsTo (wide : f.Wide) (neg : Bool) (m : Nat) (e : ℤ) : f.RoundsTo (numValue neg m e) (f.round neg m e) := by
  by_cases zero : m = 0
  · subst zero
    rw [Format.round_zero, show numValue neg 0 e = 0 by simp [numValue]]
    exact roundsTo_zero wide neg
  · rw [numValue_eq_signFactor]
    exact (f.exact_knownTo m).roundsTo zero wide neg e

/-- The result of a rounding is a pattern of the sign asked for, an infinity or a zero included. -/
theorem Format.round_sign (f : Format) (neg : Bool) (m : Nat) (e : ℤ) :
    ∃ x, (f.round neg m e).out = .bits x ∧ f.sign x = neg := by
  by_cases zero : m = 0
  · subst zero
    rw [Format.round_zero]
    exact ⟨_, rfl, Format.sign_pattern (n := 0) (Nat.two_pow_pos _) neg⟩
  · rw [f.round_eq neg zero]
    split_ifs with fits
    · exact ⟨_, rfl, Format.sign_pattern (fits.trans f.infinityBits_lt) neg⟩
    · exact ⟨_, rfl, Format.sign_pattern f.infinityBits_lt neg⟩

end Rational

end Sys2Proof.Machine.Fp

namespace Sys2Proof.Machine

/-- Settles O57: patterns are multiples of the least quantum, and the rounded significand added to the exponent's offset is the nearest
of them (`Fp.Format.Rounded.nearest_pattern`). -/
theorem roundsToNearest : Obligations.RoundsToNearest :=
  fun _ member neg m e => ⟨Fp.Format.round_roundsTo (Fp.wide_of_mem member) neg m e, Fp.Format.round_sign _ neg m e⟩

end Sys2Proof.Machine

/-! Sum, difference, product and quotient are the exact result rounded once (R210). -/

namespace Sys2Proof.Machine.Fp

variable {f : Format}

/-- A magnitude known to its last bit from the bits above it and whether more follow. -/
theorem Format.knownTo_of_last_bit {K : Type} [Field K] [LinearOrder K] [IsStrictOrderedRing K] {q : Nat} {z : K} {exact : Prop}
    [Decidable exact] (large : 2 ^ (f.fracBits + 1) ≤ q) (whole : exact → z = 2 * q)
    (more : ¬exact → 2 * (q : K) < z ∧ z < 2 * q + 2) : f.KnownTo (2 * q + if exact then 0 else 1) z := by
  split_ifs with h
  · exact .inl (by rw [whole h]; push_cast; ring)
  · obtain ⟨above, below⟩ := more h
    refine .inr ⟨by omega, by rw [pow_succ]; omega, ?_⟩
    push_cast
    exact abs_lt.mpr ⟨by linarith, by linarith⟩

/-! ### Sum and difference -/

theorem Format.addDatum_roundsTo (wide : f.Wide) (n1 : Bool) (m1 : Nat) (e1 : ℤ) (n2 : Bool) (m2 : Nat) (e2 : ℤ) :
    f.RoundsTo (numValue n1 m1 e1 + numValue n2 m2 e2) (f.addDatum (.num n1 m1 e1) (.num n2 m2 e2)) := by
  rw [Format.addDatum, ← alignedSum_value]
  generalize alignedSum n1 m1 e1 n2 m2 e2 = sum
  split_ifs with zero
  · rw [zero, Int.cast_zero, zero_mul]
    exact roundsTo_zero wide _
  · have magnitude : signed (decide (sum < 0)) sum.natAbs = sum := by
      simp only [signed, decide_eq_true_eq]; split_ifs <;> omega
    have rounds := f.round_roundsTo wide (decide (sum < 0)) sum.natAbs (min e1 e2)
    rwa [numValue_eq_signed, magnitude] at rounds

/-! ### Product -/

theorem numValue_mul (n1 : Bool) (m1 : Nat) (e1 : ℤ) (n2 : Bool) (m2 : Nat) (e2 : ℤ) :
    numValue (n1 != n2) (m1 * m2) (e1 + e2) = numValue n1 m1 e1 * numValue n2 m2 e2 := by
  unfold numValue
  rw [zpow_add₀ two_ne_zero]
  cases n1 <;> cases n2 <;> push_cast <;> simp <;> ring

/-! ### Quotient -/

/-- A quotient has more bits than a rounding keeps. -/
theorem Format.quotient_large (f : Format) {m1 m2 : Nat} (h1 : m1 ≠ 0) (h2 : m2 ≠ 0) :
    2 ^ (f.fracBits + 1) ≤ m1 * 2 ^ (f.fracBits + 4 + m2.log2) / m2 := by
  refine (Nat.le_div_iff_mul_le (Nat.pos_of_ne_zero h2)).mpr ?_
  calc 2 ^ (f.fracBits + 1) * m2 ≤ 2 ^ (f.fracBits + 1) * 2 ^ (m2.log2 + 1) := Nat.mul_le_mul_left _ Nat.lt_log2_self.le
    _ = 2 ^ (f.fracBits + 1 + (m2.log2 + 1)) := (pow_add ..).symm
    _ ≤ 2 ^ (f.fracBits + 4 + m2.log2) := Nat.pow_le_pow_right two_pos (by omega)
    _ ≤ m1 * 2 ^ (f.fracBits + 4 + m2.log2) := Nat.le_mul_of_pos_left _ (Nat.pos_of_ne_zero h1)

/-- The bits of a quotient and the bit that says whether more follow. -/
theorem Format.quotient_known (f : Format) {m1 m2 : Nat} (h1 : m1 ≠ 0) (h2 : m2 ≠ 0) :
    f.KnownTo (2 * (m1 * 2 ^ (f.fracBits + 4 + m2.log2) / m2) +
      if m1 * 2 ^ (f.fracBits + 4 + m2.log2) % m2 = 0 then 0 else 1)
      (2 * ((m1 * 2 ^ (f.fracBits + 4 + m2.log2) : Nat) : ℚ) / m2) := by
  have divisor : 0 < m2 := Nat.pos_of_ne_zero h2
  have large := f.quotient_large h1 h2
  generalize m1 * 2 ^ (f.fracBits + 4 + m2.log2) = dividend at *
  have split : ((m2 * (dividend / m2) + dividend % m2 : Nat) : ℚ) = dividend := by rw [Nat.div_add_mod]
  push_cast at split
  have positive : (0 : ℚ) < m2 := by exact_mod_cast divisor
  refine Format.knownTo_of_last_bit large (fun whole => ?_) (fun more => ⟨?_, ?_⟩)
  · rw [whole, Nat.cast_zero, add_zero] at split
    rw [← split]
    field_simp
  · have : (0 : ℚ) < (dividend % m2 : Nat) := by exact_mod_cast Nat.pos_of_ne_zero more
    rw [lt_div_iff₀ positive]
    linarith
  · have : ((dividend % m2 : Nat) : ℚ) < m2 := by exact_mod_cast Nat.mod_lt _ divisor
    rw [div_lt_iff₀ positive]
    linarith

theorem Format.divRound_roundsTo (wide : f.Wide) (n1 : Bool) {m1 : Nat} (e1 : ℤ) (n2 : Bool) {m2 : Nat} (e2 : ℤ) (h1 : m1 ≠ 0)
    (h2 : m2 ≠ 0) : f.RoundsTo (numValue n1 m1 e1 / numValue n2 m2 e2) (f.divRound (n1 != n2) m1 e1 m2 e2) := by
  have known := f.quotient_known h1 h2
  have bits := (Nat.two_pow_pos (f.fracBits + 1)).trans_le (f.quotient_large h1 h2)
  have rounds := known.roundsTo (by omega) wide (n1 != n2) (e1 - e2 - (f.fracBits + 4 + m2.log2 : Nat) - 1)
  have value : numValue n1 m1 e1 / numValue n2 m2 e2 = signFactor (n1 != n2) *
      (2 * ((m1 * 2 ^ (f.fracBits + 4 + m2.log2) : Nat) : ℚ) / m2 *
        2 ^ (e1 - e2 - (f.fracBits + 4 + m2.log2 : Nat) - 1)) := by
    have divisor : (m2 : ℚ) ≠ 0 := by exact_mod_cast h2
    have sign : ((signFactor n1 : ℤ) : ℚ) / signFactor n2 = signFactor (n1 != n2) := by
      cases n1 <;> cases n2 <;> norm_num [signFactor]
    rw [numValue_eq_signFactor, numValue_eq_signFactor, mul_div_mul_comm, sign]
    congr 1
    rw [zpow_sub₀ two_ne_zero, zpow_sub₀ two_ne_zero, zpow_sub₀ two_ne_zero, zpow_natCast]
    push_cast
    field_simp
  rw [value]
  exact rounds

/-- R210: the quotient of finite operands, the divisor not zero. -/
theorem Format.divDatum_roundsTo (wide : f.Wide) (n1 : Bool) (m1 : Nat) (e1 : ℤ) (n2 : Bool) {m2 : Nat} (e2 : ℤ) (h2 : m2 ≠ 0) :
    f.RoundsTo (numValue n1 m1 e1 / numValue n2 m2 e2) (f.divDatum (.num n1 m1 e1) (.num n2 m2 e2)) := by
  rw [Format.divDatum]
  rw [if_neg h2]
  split_ifs with zero
  · rw [zero, show numValue n1 0 e1 = 0 by simp [numValue], zero_div]
    exact roundsTo_zero wide _
  · exact Format.divRound_roundsTo wide n1 e1 n2 e2 zero h2

end Sys2Proof.Machine.Fp

namespace Sys2Proof.Machine

open Fp in
/-- Settles O58: finite operands are signed numbers, and each operation rounds their exact result, the quotient from its leading bits
and one bit that says whether more follow. -/
theorem arithmeticRoundsExact : Obligations.ArithmeticRoundsExact := by
  intro f member a b ha hb
  have wide := wide_of_mem member
  obtain ⟨nanA, m1, e1, unpackA, valueA, _⟩ := Format.unpack_numValue ha
  obtain ⟨nanB, m2, e2, unpackB, valueB, zeroB⟩ := Format.unpack_numValue hb
  rw [Format.add, Format.sub, Format.mul, Format.div, Format.binary_of_not_nan nanA nanB, Format.binary_of_not_nan nanA nanB,
    Format.binary_of_not_nan nanA nanB, Format.binary_of_not_nan nanA nanB, unpackA, unpackB, valueA, valueB]
  refine ⟨Format.addDatum_roundsTo wide _ _ _ _ _ _, ?_, ?_, fun nonzero => ?_⟩
  · rw [sub_eq_add_neg, ← numValue_not]
    exact Format.addDatum_roundsTo wide _ _ _ _ _ _
  · rw [← numValue_mul]
    exact f.round_roundsTo wide _ _ _
  · exact Format.divDatum_roundsTo wide _ _ _ _ _ (mt zeroB.mp (valueB ▸ nonzero))

end Sys2Proof.Machine

/-! Square roots and conversions between the formats (R270, R284, R285). -/

namespace Sys2Proof.Machine.Fp

variable {f : Format}

/-! ### The integer square root -/

theorem sqrtBits_spec (n : Nat) : ∀ k r : Nat, r * r ≤ n → n < (r + 2 ^ k) * (r + 2 ^ k) →
    sqrtBits n k r * sqrtBits n k r ≤ n ∧ n < (sqrtBits n k r + 1) * (sqrtBits n k r + 1)
  | 0, _, low, high => ⟨low, high⟩
  | k + 1, r, low, high => by
    rw [pow_succ, Nat.mul_two, ← Nat.add_assoc] at high
    rw [sqrtBits]
    split_ifs with next
    · exact sqrtBits_spec n k (r + 2 ^ k) next high
    · exact sqrtBits_spec n k r low (not_le.mp next)

theorem natSqrt_eq_sqrt (n : Nat) : natSqrt n = n.sqrt := by
  refine Nat.eq_sqrt.mpr (sqrtBits_spec n _ 0 (Nat.zero_le _) ?_)
  rw [Nat.zero_add, ← pow_add]
  exact Nat.lt_log2_self.trans_le (Nat.pow_le_pow_right two_pos (by omega))

/-! ### The square root -/

/-- The bits of a square root and the bit that says whether more follow. -/
theorem Format.root_known (f : Format) {m : Nat} (positive : m ≠ 0) :
    f.KnownTo (2 * (m * 2 ^ (2 * (f.fracBits + 4))).sqrt +
      if (m * 2 ^ (2 * (f.fracBits + 4))).sqrt * (m * 2 ^ (2 * (f.fracBits + 4))).sqrt = m * 2 ^ (2 * (f.fracBits + 4))
        then 0 else 1) (2 * √((m * 2 ^ (2 * (f.fracBits + 4)) : Nat) : ℝ)) := by
  have large : 2 ^ (f.fracBits + 1) ≤ (m * 2 ^ (2 * (f.fracBits + 4))).sqrt := by
    rw [Nat.le_sqrt, ← pow_add]
    exact (Nat.pow_le_pow_right two_pos (by omega)).trans (Nat.le_mul_of_pos_left _ (Nat.pos_of_ne_zero positive))
  generalize m * 2 ^ (2 * (f.fracBits + 4)) = n at *
  refine Format.knownTo_of_last_bit large (fun whole => ?_) (fun more => ?_)
  · rw [← whole, Nat.cast_mul, Real.sqrt_mul_self (Nat.cast_nonneg _), whole]
  · have low : (n.sqrt : ℝ) < √(n : ℝ) := by
      refine (Real.lt_sqrt (Nat.cast_nonneg _)).mpr ?_
      rw [sq]
      exact_mod_cast lt_of_le_of_ne (Nat.sqrt_le n) more
    have high : √(n : ℝ) < n.sqrt + 1 := by
      refine (Real.sqrt_lt' (by positivity)).mpr ?_
      rw [sq]
      exact_mod_cast Nat.lt_succ_sqrt n
    exact ⟨by linarith, by linarith⟩

theorem root_scale (m k : Nat) (h : ℤ) :
    2 * √((m * 2 ^ (2 * k) : Nat) : ℝ) * 2 ^ (h - (k : ℤ) - 1) = √((m : ℝ) * 2 ^ (2 * h)) := by
  have whole : √((2 : ℝ) ^ (2 * k)) = 2 ^ k := by rw [mul_comm, pow_mul, Real.sqrt_sq (by positivity)]
  have scaled : √((2 : ℝ) ^ (2 * h)) = 2 ^ h := by
    rw [mul_comm, zpow_mul, zpow_ofNat, Real.sqrt_sq (zpow_pos two_pos h).le]
  push_cast
  rw [Real.sqrt_mul (Nat.cast_nonneg _), Real.sqrt_mul (Nat.cast_nonneg _), whole, scaled, zpow_sub₀ two_ne_zero,
    zpow_sub₀ two_ne_zero, zpow_natCast]
  field_simp

/-- `sqrtRound` of a magnitude whose exponent is `2 * h`. -/
def Format.rootRound (f : Format) (m : Nat) (h : ℤ) : Result :=
  let n := m * 2 ^ (2 * (f.fracBits + 4))
  f.round false (2 * natSqrt n + if natSqrt n * natSqrt n = n then 0 else 1) (h - (f.fracBits + 4 : Nat) - 1)

/-- `sqrtRound` makes the exponent even first. -/
theorem Format.sqrtRound_eq (f : Format) (m : Nat) (e : ℤ) :
    f.sqrtRound m e = if e % 2 = 1 then f.rootRound (2 * m) ((e - 1) / 2) else f.rootRound m (e / 2) := by
  unfold Format.sqrtRound
  split_ifs with odd <;> simp only [odd, if_true, if_false] <;> rfl

theorem Format.rootRound_delivers (wide : f.Wide) {m : Nat} (positive : m ≠ 0) (h : ℤ)
    (small : √((m : ℝ) * 2 ^ (2 * h)) < f.overflowBound) :
    ∃ x, f.Delivers false √((m : ℝ) * 2 ^ (2 * h)) (f.rootRound m h) x := by
  have known := f.root_known positive
  have bits : 0 < (m * 2 ^ (2 * (f.fracBits + 4))).sqrt :=
    Nat.sqrt_pos.mpr (Nat.mul_pos (Nat.pos_of_ne_zero positive) (Nat.two_pow_pos _))
  have scale := root_scale m (f.fracBits + 4) h
  obtain ⟨x, delivers⟩ := known.round_delivers (by omega) wide false (e := h - (f.fracBits + 4 : Nat) - 1) (by rwa [scale])
  rw [scale, signFactor] at delivers
  simp only [Format.rootRound, natSqrt_eq_sqrt]
  exact ⟨x, by simpa using delivers⟩

/-- The square root of a magnitude, by the parity of its exponent. -/
theorem Format.sqrtRound_delivers (wide : f.Wide) {m : Nat} (positive : m ≠ 0) (e : ℤ)
    (small : √((m : ℝ) * 2 ^ e) < f.overflowBound) : ∃ x, f.Delivers false √((m : ℝ) * 2 ^ e) (f.sqrtRound m e) x := by
  rw [f.sqrtRound_eq]
  split_ifs with odd
  · have same : (m : ℝ) * 2 ^ e = ((2 * m : Nat) : ℝ) * 2 ^ (2 * ((e - 1) / 2)) := by
      rw [show 2 * ((e - 1) / 2) = e - 1 by omega, zpow_sub₀ two_ne_zero]
      push_cast
      field_simp
    rw [same] at small ⊢
    exact Format.rootRound_delivers wide (by omega) _ small
  · have same : (m : ℝ) * 2 ^ e = (m : ℝ) * 2 ^ (2 * (e / 2)) := by rw [show 2 * (e / 2) = e by omega]
    rw [same] at small ⊢
    exact Format.rootRound_delivers wide positive _ small

/-! ### Finite values are below the bound of overflow -/

theorem Format.one_le_overflowBound (f : Format) : 1 ≤ f.overflowBound := by
  have half : (1 : ℚ) / 2 ^ (f.fracBits + 1) ≤ 1 := (div_le_one (by positivity)).mpr (one_le_pow₀ one_le_two)
  rw [Format.overflowBound, zpow_natCast]
  exact one_le_mul_of_one_le_of_one_le (by linarith) (one_le_pow₀ one_le_two)

theorem Format.value_lt_overflowBound (wide : f.Wide) {x : Nat} (finite : f.Finite x) : f.value x < f.overflowBound := by
  obtain ⟨c, bias, maxExp⟩ := wide.maxExp_eq
  have exponent : f.expField x ≤ 2 * c + 2 := by
    have below : f.expField x < 2 ^ f.expBits := Nat.mod_lt _ (Nat.two_pow_pos _)
    have different := finite.2
    rw [Format.maxExp] at maxExp different
    omega
  have fraction : (f.frac x : ℚ) / 2 ^ f.fracBits < 1 - 1 / 2 ^ (f.fracBits + 1) := by
    have below : f.frac x + 1 ≤ 2 ^ f.fracBits := Nat.mod_lt _ (Nat.two_pow_pos _)
    have below : (f.frac x : ℚ) + 1 ≤ 2 ^ f.fracBits := by exact_mod_cast below
    rw [pow_succ]
    field_simp
    linarith
  have nonneg : (0 : ℚ) ≤ f.frac x / 2 ^ f.fracBits := by positivity
  have powers : ∀ E : ℤ, E ≤ f.bias → (2 : ℚ) ^ E ≤ 2 ^ (f.bias : ℤ) := fun E le => zpow_le_zpow_right₀ one_le_two le
  have magnitude : ∀ (s : ℚ) (E : ℤ), 0 ≤ s → s < 2 - 1 / 2 ^ (f.fracBits + 1) → E ≤ f.bias → s * 2 ^ E < f.overflowBound :=
    fun s E hs less le => (mul_le_mul_of_nonneg_left (powers E le) hs).trans_lt
      (mul_lt_mul_of_pos_right less (zpow_pos two_pos _))
  have signed : ∀ M : ℚ, 0 ≤ M → M < f.overflowBound → (if f.sign x then -1 else 1) * M < f.overflowBound := fun M hM less => by
    split_ifs <;> linarith
  refine signed _ (by positivity) ?_
  split_ifs with denormal
  · exact magnitude _ _ nonneg (by linarith) (by omega)
  · exact magnitude _ _ (by linarith) (by linarith) (by omega)

/-- The square root of a value below the bound of overflow is below it. -/
theorem Format.sqrt_lt_overflowBound {v : ℚ} (small : v < f.overflowBound) : √(v : ℝ) < f.overflowBound := by
  have one : (1 : ℝ) ≤ f.overflowBound := by exact_mod_cast f.one_le_overflowBound
  have small : (v : ℝ) < f.overflowBound := by exact_mod_cast small
  exact (Real.sqrt_lt' (by linarith)).mpr (small.trans_le (le_self_pow₀ one two_ne_zero))

end Sys2Proof.Machine.Fp

namespace Sys2Proof.Machine

open Fp

/-- R270: the square root of a finite operand that is not negative. -/
theorem Fp.Format.sqrt_nearest {f : Format} (wide : f.Wide) {a : Nat} (finite : f.Finite a) (nonneg : 0 ≤ f.value a) :
    ∃ x, (f.sqrt a).out = .bits x ∧ f.Finite x ∧ 0 ≤ f.value x ∧
      ∀ y, f.Finite y → |(f.value x : ℝ) - √(f.value a)| ≤ |(f.value y : ℝ) - √(f.value a)| := by
  obtain ⟨_, m, e, unpack, value, zero⟩ := Format.unpack_numValue finite
  rw [Format.sqrt, unpack]
  dsimp only
  by_cases isZero : f.value a = 0
  · rw [if_pos (zero.mpr isZero), isZero]
    exact ⟨_, rfl, finite_pattern (n := 0) (maxExp_pos wide) _, (f.value_signBit _).ge, fun y _ => by simp [f.value_signBit]⟩
  · have sign : f.sign a = false := Bool.eq_false_iff.mpr fun neg =>
      isZero (le_antisymm ((Format.value_sign finite).1 neg) nonneg)
    have magnitude : (f.value a : ℝ) = (m : ℝ) * 2 ^ e := by rw [value, sign, numValue_eq_signFactor]; simp [signFactor]
    rw [if_neg (mt zero.mp isZero), sign, if_neg Bool.false_ne_true, magnitude]
    obtain ⟨x, delivers⟩ := Format.sqrtRound_delivers wide (mt zero.mp isZero) e
      (magnitude ▸ Format.sqrt_lt_overflowBound (Format.value_lt_overflowBound wide finite))
    exact ⟨x, delivers.out, delivers.finite, (Format.value_sign delivers.finite).2 delivers.sign, fun y _ => delivers.least y⟩

theorem Fp.Format.sqrt_of_negative {f : Format} {a : Nat} (finite : f.Finite a) (negative : f.value a < 0) :
    f.sqrt a = invalidNaN := by
  obtain ⟨_, m, e, unpack, _, zero⟩ := Format.unpack_numValue finite
  have sign : f.sign a = true := Bool.of_not_eq_false fun positive =>
    absurd ((Format.value_sign finite).2 positive) (not_le.mpr negative)
  rw [Format.sqrt, unpack]
  simp [mt zero.mp negative.ne, sign]

/-- Settles O59: the root's leading bits and one bit that says whether more follow round as the real root does, and a conversion
between the formats is one rounding of the value. -/
theorem rootsAndConversionsRound : Obligations.RootsAndConversionsRound := by
  intro f member a finite
  refine ⟨Format.sqrt_nearest (wide_of_mem member) finite, Format.sqrt_of_negative finite, fun g memberG => ?_⟩
  obtain ⟨_, m, e, unpack, value, _⟩ := Format.unpack_numValue finite
  rw [Format.convert, unpack, value]
  exact g.round_roundsTo (wide_of_mem memberG) _ _ _

end Sys2Proof.Machine

/-! Conversions to a word (R270, R287 to R296). -/

namespace Sys2Proof.Machine.Fp

/-! ### The rounding modes on integers and on quotients by a power of two -/

/-- An integer is what it rounds to in every mode. -/
theorem Mode.rounds_intCast (mode : Mode) (n : ℤ) : mode.Rounds n n := by
  cases mode with
  | nearestEven => exact ⟨by norm_num, fun tie => by norm_num at tie⟩
  | towardZero => simp [Mode.Rounds]
  | up => exact (Int.ceil_intCast n).symm
  | down => exact (Int.floor_intCast n).symm

section Quotient

variable (m k : Nat)

/-- A number is its quotient by a power of two and its remainder. -/
theorem div_two_pow_eq : (m : ℚ) / 2 ^ k = (m / 2 ^ k : Nat) + ((m % 2 ^ k : Nat) : ℚ) / 2 ^ k := by
  have split : ((2 ^ k * (m / 2 ^ k) + m % 2 ^ k : Nat) : ℚ) = m := by rw [Nat.div_add_mod]
  push_cast at split ⊢
  rw [← split]
  field_simp

theorem mod_two_pow_fraction : (0 : ℚ) ≤ ((m % 2 ^ k : Nat) : ℚ) / 2 ^ k ∧ ((m % 2 ^ k : Nat) : ℚ) / 2 ^ k < 1 := by
  refine ⟨by positivity, (div_lt_one (by positivity)).mpr ?_⟩
  exact_mod_cast Nat.mod_lt m (Nat.two_pow_pos k)

theorem floor_div_two_pow : ⌊(m : ℚ) / 2 ^ k⌋ = (m / 2 ^ k : Nat) := by
  obtain ⟨low, high⟩ := mod_two_pow_fraction m k
  rw [Int.floor_eq_iff, div_two_pow_eq, Int.cast_natCast]
  exact ⟨by linarith, by linarith⟩

theorem ceil_div_two_pow : ⌈(m : ℚ) / 2 ^ k⌉ = (if m % 2 ^ k ≠ 0 then m / 2 ^ k + 1 else m / 2 ^ k : Nat) := by
  obtain ⟨low, high⟩ := mod_two_pow_fraction m k
  rw [Int.ceil_eq_iff, div_two_pow_eq, Int.cast_natCast]
  split_ifs with more
  · have : (0 : ℚ) < ((m % 2 ^ k : Nat) : ℚ) / 2 ^ k :=
      div_pos (by exact_mod_cast Nat.pos_of_ne_zero more) (by positivity)
    rw [Nat.cast_add_one]
    exact ⟨by linarith, by linarith⟩
  · rw [not_not.mp more]
    simp

/-- The nearest integer to a quotient, ties to even. -/
theorem shiftNearest_quotient : |(m : ℚ) / 2 ^ k - shiftNearest m k| ≤ 1 / 2 ∧
    (|(m : ℚ) / 2 ^ k - shiftNearest m k| = 1 / 2 → shiftNearest m k % 2 = 0) := by
  obtain ⟨near, even⟩ := shiftNearest_near m k
  have unit : (0 : ℚ) < 2 ^ k := by positivity
  have near : 2 * |(shiftNearest m k * 2 ^ k : ℚ) - m| ≤ 2 ^ k := by exact_mod_cast near
  have distance : |(m : ℚ) / 2 ^ k - shiftNearest m k| * 2 ^ k = |(shiftNearest m k * 2 ^ k : ℚ) - m| := by
    rw [abs_sub_comm (_ * _), ← abs_of_pos unit, ← abs_mul, abs_of_pos unit, sub_mul, div_mul_cancel₀ _ unit.ne']
  refine ⟨le_of_mul_le_mul_right (by linarith) unit, fun tie => even ?_⟩
  have : 2 * |(shiftNearest m k * 2 ^ k : ℚ) - m| = 2 ^ k := by rw [← distance, tie]; ring
  exact_mod_cast this

end Quotient

/-- The rounded quotient of a magnitude, with its sign, is the signed quotient rounded. -/
theorem Mode.rounds_quotient (mode : Mode) (neg : Bool) (m : Nat) {e : ℤ} (negative : ¬0 ≤ e) :
    mode.Rounds (signFactor neg * ((m : ℚ) / 2 ^ (-e).toNat)) (signed neg (mode.roundMag neg m e)) := by
  rw [Mode.roundMag, if_neg negative]
  generalize (-e).toNat = k
  have floor := floor_div_two_pow m k
  have ceil := ceil_div_two_pow m k
  have nonneg : (0 : ℚ) ≤ (m : ℚ) / 2 ^ k := by positivity
  cases mode with
  | nearestEven =>
    obtain ⟨near, even⟩ := shiftNearest_quotient m k
    have distance : |signFactor neg * ((m : ℚ) / 2 ^ k) - (signed neg (shiftNearest m k) : ℤ)| =
        |(m : ℚ) / 2 ^ k - shiftNearest m k| := by
      rw [signed_eq_signFactor_mul, Int.cast_mul, Int.cast_natCast, ← mul_sub, abs_mul, abs_signFactor, one_mul]
    have parity : signed neg (shiftNearest m k) % 2 = 0 ↔ shiftNearest m k % 2 = 0 := by
      unfold signed
      split_ifs <;> omega
    exact ⟨distance ▸ near, fun tie => parity.mpr (even (distance ▸ tie))⟩
  | towardZero =>
    cases neg with
    | false => simp [Mode.Rounds, signFactor, signed, nonneg, floor]
    | true =>
      have opposite : (signFactor true : ℚ) * ((m : ℚ) / 2 ^ k) = -((m : ℚ) / 2 ^ k) := by simp [signFactor]
      rw [Mode.Rounds, opposite, Int.ceil_neg, floor]
      split_ifs with zero
      · have zero : (m : ℚ) / 2 ^ k = 0 := le_antisymm (neg_nonneg.mp zero) nonneg
        have bits : m / 2 ^ k = 0 := by rw [zero, Int.floor_zero] at floor; exact_mod_cast floor.symm
        dsimp only
        rw [zero, neg_zero, Int.floor_zero, bits]
        rfl
      · rfl
  | up =>
    cases neg
    · simpa [Mode.Rounds, signFactor, signed] using ceil.symm
    · simp [Mode.Rounds, signFactor, signed, Int.ceil_neg, floor]
  | down =>
    cases neg
    · simp [Mode.Rounds, signFactor, signed, floor]
    · simpa [Mode.Rounds, signFactor, signed, Int.floor_neg] using ceil.symm

/-- R270: `roundMag`, with the sign, is the value rounded in the mode. -/
theorem Mode.rounds_roundMag (mode : Mode) (neg : Bool) (m : Nat) (e : ℤ) :
    mode.Rounds (numValue neg m e) (signed neg (mode.roundMag neg m e)) := by
  by_cases whole : 0 ≤ e
  · have value : numValue neg m e = (signed neg (m * 2 ^ e.toNat) : ℤ) := by
      rw [numValue_lower neg m whole, sub_zero, zpow_zero, mul_one]
    rw [Mode.roundMag, if_pos whole, value]
    exact mode.rounds_intCast _
  · have value : numValue neg m e = signFactor neg * ((m : ℚ) / 2 ^ (-e).toNat) := by
      rw [numValue_eq_signFactor, div_eq_mul_inv, ← zpow_natCast, ← zpow_neg, Int.toNat_of_nonneg (by omega), neg_neg]
    rw [value]
    exact mode.rounds_quotient neg m whole

/-- R270: the word of a finite operand, and where it is invalid. -/
theorem Format.toWord_of_finite {f : Format} {a : Nat} (finite : f.Finite a) (mode : Mode) :
    ∃ n : ℤ, mode.Rounds (f.value a) n ∧ ((f.toWord mode a).signals.invalid = true ↔ n < -2 ^ 31 ∨ 2 ^ 31 ≤ n) ∧
      (-2 ^ 31 ≤ n → n < 2 ^ 31 → (f.toWord mode a).out = .bits (BitVec.ofInt 32 n).toNat) := by
  obtain ⟨_, m, e, unpack, value, _⟩ := Format.unpack_numValue finite
  refine ⟨signed (f.sign a) (mode.roundMag (f.sign a) m e), value ▸ mode.rounds_roundMag _ _ _, ?_⟩
  rw [Format.toWord, unpack]
  dsimp only
  generalize signed (f.sign a) (mode.roundMag (f.sign a) m e) = n
  split_ifs with fits
  · exact ⟨⟨False.elim, by omega⟩, fun _ _ => rfl⟩
  · exact ⟨⟨fun _ => by omega, fun _ => rfl⟩, fun _ _ => by omega⟩

end Sys2Proof.Machine.Fp

namespace Sys2Proof.Machine

/-- R213, R270: what a delivered conversion to a word leaves in the state. -/
theorem State.deliverSingle_toWord (s : State) (fd : FRegNum) (f : Fp.Format) (mode : Fp.Mode) (a : Nat)
    (quiet : fpTraps s.params.fpTraps (f.toWord mode a).signals = false) :
    ∃ t, s.deliverSingle fd (f.toWord mode a) = .next t ∧ (∀ i, i ≠ fd → t.readF i = s.readF i) ∧ s.sameBut t [.fp, .draws] ∧
      s.Retired t ∧ (f.Finite a → ∃ n : ℤ, mode.Rounds (f.value a) n ∧
        ((f.toWord mode a).signals.invalid = true ↔ n < -2 ^ 31 ∨ 2 ^ 31 ≤ n) ∧
        (-2 ^ 31 ≤ n → n < 2 ^ 31 → (t.readF fd).toInt = n)) := by
  obtain ⟨t, delivered, wrote⟩ := State.deliverSingle_of_not_trapped quiet fd
  refine ⟨t, delivered, wrote.others, wrote.rest, wrote.ended, fun finite => ?_⟩
  obtain ⟨n, rounds, invalid, word⟩ := Fp.Format.toWord_of_finite finite mode
  refine ⟨n, rounds, invalid, fun low high => ?_⟩
  have result := wrote.result
  rw [word low high] at result
  have result : t.readF fd = BitVec.ofInt 32 n := result.trans ((BitVec.ofNat_toNat _ _).trans (BitVec.setWidth_eq _))
  rw [result, BitVec.toInt_ofInt, Int.bmod_eq_of_le (by omega) (by omega)]

/-- Settles O51: each conversion delivers `Format.toWord` of its operand, which is the value rounded in its mode. -/
theorem wordConversions : Obligations.WordConversions := by
  intro s fd fs
  have rows := exec_singleResult s fd fs fs
  refine ⟨fun p mem a r operand result quiet => ?_, fun even p mem a r operand result quiet => ?_⟩
  · subst operand result
    have row := rows (p.1, [], Fp.single.toWord p.2 (s.readF fs).toNat)
      (List.mem_append_left _ (List.mem_append_right _ (List.mem_map_of_mem mem)))
    rw [row]
    exact s.deliverSingle_toWord fd Fp.single p.2 _ quiet
  · subst operand result
    have row := rows (p.1, [fs], Fp.double.toWord p.2 (s.readD fs).toNat)
      (List.mem_append_right _ (List.mem_map_of_mem mem))
    rw [row, ifEven_of_even (by simpa using even)]
    exact s.deliverSingle_toWord fd Fp.double p.2 _ quiet

end Sys2Proof.Machine
